-- ==== Sys2Proof/Word.lean ====
section
/-! DEFINITION. The word types of the ZQ-2048 and their plainest arithmetic (00 R3: bit 0 is the least
significant bit, the least significant byte lies lowest). -/
namespace Sys2Proof

/-- One byte. -/
abbrev Byte := BitVec 8

/-- A general register, address or table word: 64 bits (18 R455). -/
abbrev Word := BitVec 64

/-- A director script instruction word (13 R329). -/
abbrev Code := BitVec 32

/-- The 512 data bits of a token, array vector or memory block (07 R158, 08 R182). -/
abbrev Block := BitVec 512

end Sys2Proof
end

