-- ==== Sys2Proof/Machine/Sparse.lean ====
section
/-! DEFINITION. Sparse maps: lists of (key, value) pairs with strictly rising keys and no value equal to the default. -/
namespace Sys2Proof.Machine.Sparse

variable {α : Type}

/-- The value at a key; the default when no entry lists it. -/
def get (d : α) : List (Nat × α) → Nat → α
  | [], _ => d
  | (k, v) :: rest, a => if a = k then v else if a < k then d else get d rest a

/-- Remove a key. -/
def erase : List (Nat × α) → Nat → List (Nat × α)
  | [], _ => []
  | (k, v) :: rest, a => if a = k then rest else if a < k then (k, v) :: rest else (k, v) :: erase rest a

/-- Insert or replace. -/
def insert : List (Nat × α) → Nat → α → List (Nat × α)
  | [], a, x => [(a, x)]
  | (k, v) :: rest, a, x =>
    if a = k then (a, x) :: rest else if a < k then (a, x) :: (k, v) :: rest else (k, v) :: insert rest a x

/-- Write a value: the default removes the entry, so that equal maps are equal lists. -/
def set [DecidableEq α] (d : α) (m : List (Nat × α)) (a : Nat) (x : α) : List (Nat × α) :=
  if x = d then erase m a else insert m a x

/-- Look up an entry that may be absent. -/
def find? (m : List (Nat × α)) (a : Nat) : Option α :=
  match m with
  | [] => none
  | (k, v) :: rest => if a = k then some v else if a < k then none else find? rest a

/-- Remove every key in `[lo, hi)`. -/
def clear (m : List (Nat × α)) (lo hi : Nat) : List (Nat × α) := m.filter fun p => p.1 < lo || hi ≤ p.1

/-- The canonical form: keys above `lo` and strictly rising, no default value listed. -/
def wfFrom [DecidableEq α] (d : α) : Nat → List (Nat × α) → Bool
  | _, [] => true
  | lo, (k, v) :: rest => decide (lo ≤ k) && decide (v ≠ d) && wfFrom d (k + 1) rest

/-- The canonical form. [DESIGN CHOICE, log 6] -/
def wf [DecidableEq α] (d : α) (m : List (Nat × α)) : Bool := wfFrom d 0 m

end Sys2Proof.Machine.Sparse
end

