-- ==== Sys2Proof/Syntax.lean ====
section
/-! DEFINITION. The syntax: one constructor for each row of the opcode table. Script instructions carry the fields
of their words (13 R329-R332); the part's other steps carry which agent acts and, where the outside world supplies data (a
host write, a beat, a sensor reading), that data. -/
namespace Sys2Proof

/-- The kind of an access that is translated (12 R307). -/
inductive Access where
  | read | write | fetch
  deriving DecidableEq, Repr

/-- A unit of a region: a stage slot 0-12, or a router operator slot as 16 + 4 * tile + slot (07 R149, R154). -/
structure UnitRef where
  stage : Nat
  slot  : Nat
  deriving DecidableEq, Repr

/-- A received chip-port beat (01 R29). -/
structure Beat where
  typ  : BitVec 4
  circ : BitVec 12
  seq  : BitVec 12
  ack  : BitVec 12
  tag  : BitVec 4
  mask : BitVec 16
  body : Block
  deriving DecidableEq, Repr

/-- A timecode beat as it is received, and the round trip of its port measured with timecode beats, in tc (01 R37). -/
structure TimedBeat where
  beat : Beat
  trip : Nat
  deriving DecidableEq, Repr

/-- What the retraining after a lane failure finds: whether a half of the lanes is whole, and the round trip measured, in ns
(01 R33). -/
structure LaneRetrain where
  halfWhole : Bool
  rtt       : Nat
  deriving DecidableEq, Repr

/-- A chip that can be reached: its serial, the chip port towards it on the shortest path, and that path's hops (01 R36). -/
structure Reach where
  serial : Nat
  port   : Nat
  hops   : Nat
  deriving DecidableEq, Repr

/-- What a start sequence finds in the silicon, the flash and the board: the outcome of each test of 03 R61 and R65. -/
structure StartReport where
  /-- the step that fails, 0 when every step passes -/
  failStep  : Nat
  /-- its cause (03 R61) -/
  failCause : Nat
  /-- the same of the cold start that follows an abandoned warm start (03 R63) -/
  coldStep  : Nat
  coldCause : Nat
  /-- stages that fail self-test (03 R65) -/
  fenced    : List Nat
  /-- chip ports that fail self-test (03 R65) -/
  deadPorts : List Nat
  /-- chip ports trained in step 6, with their round trips in ns (03 R76) -/
  trained   : List (Nat × Nat)
  /-- the chips that answer through the trained ports (01 R36) -/
  reach     : List Reach
  /-- the upstream chip's time in its timecode beat, and the round trip measured with timecode beats, in tc (01 R36) -/
  upTime    : Word
  beatTrip  : Nat
  /-- the root of a mesh that holds acquired time and to which a port partner belongs (03 R76) -/
  joins     : Option Nat
  /-- the recovery image verifies (03 R64) -/
  recoveryOk : Bool
  deriving DecidableEq, Repr

/-- A placement request from a home chip (06 R140). -/
structure PlaceRequest where
  serial  : Nat
  crew    : Nat
  words   : List Word
  members : List Nat
  /-- the candidate's effective priority as its home chip placed it (06 R142) -/
  eff     : Nat
  deriving DecidableEq, Repr

/-- A peer's answer to a placement request (06 R140). -/
inductive PlaceReply where
  | fit | nofit | badpeer
  deriving DecidableEq, Repr

/-- The instructions, operations and events of the opcode table. -/
inductive Instr where
  /-- COLD_START (R61): Power-up of the module supply, or a RESTART command, runs start steps 1 to 7 in order and sets READY once step 6 has passed. -/
  | coldStart (report : StartReport)
  /-- WARM_START (R61): A PCIe conventional reset that leaves the module supply on runs the warm form of the start steps. -/
  | warmStart (report : StartReport)
  /-- FUNCTION_LEVEL_RESET (R43): A PCIe function-level reset discards all crew state without events, resets the listed registers and performs a warm start. -/
  | functionLevelReset (report : StartReport)
  /-- START_STEP_RETRY (R63): When the 10 ms retry interval after a failed cold-start step expires, the step is attempted again; after the fourth failure the recovery image boots. -/
  | startStepRetry (report : StartReport)
  /-- POWER_REMOVAL (R77): Removal of the module supply loses every key slot, the timecode, all queues, all crew set-up, the fence map and memory contents. -/
  | powerRemoval
  /-- REGISTER_WRITE (R6): A host write to a register that has no row of its own sets RW fields, applies W1C or W1S bits, and ignores reserved fields. -/
  | registerWrite (off : Nat) (val : BitVec 64) (en : BitVec 8)
  /-- CREW_ENABLE (R46): A write of 1 to CREW_CTL.EN checks BUSY, the key range, the power shares and CREW_PTROOT, and either starts the crew afresh or records ERR. -/
  | crewEnable (crew : Nat) (val : BitVec 64)
  /-- CREW_TEARDOWN (R47): A write of 0 to CREW_CTL.EN while EN is 1 freezes and releases the crew's regions, discards its queues and aborts its launch slots. -/
  | crewTeardown (crew : Nat)
  /-- PEER_TEARDOWN (R47): On receipt of a teardown notice for a cross-chip scene, the chip freezes its members with cause PEERLOST and writes SCENE_FAULT. -/
  | peerTeardown (serial : Nat)
  /-- SLATE_PUSH (R50): A STAGING write that enables byte 63 commits the push, with result PUSHED, FULL, SEALED or INCOMPLETE. -/
  | slatePush (crew : Nat) (prio : Nat) (val : BitVec 64) (en : BitVec 8)
  /-- QUEUE_UNSEAL (R132): A write of 1 to QCTL.UNSEAL while the queue is sealed retries the failed spill write or refill read. -/
  | queueUnseal (crew : Nat) (prio : Nat)
  /-- LAUNCH_GO (R55): LCMD GO on an IDLE launch slot copies and checks the record, then rejects it or joins the scheduler as a one-member scene. -/
  | launchGo (crew : Nat) (slot : Nat)
  /-- LAUNCH_ABORT (R55): LCMD ABORT removes the take or releases its region without saving, and sets the slot to ABORTED. -/
  | launchAbort (crew : Nat) (slot : Nat)
  /-- LAUNCH_RELEASE (R55): LCMD RELEASE returns a DONE, FAULTED, REJECTED or ABORTED slot to IDLE and releases a frozen region. -/
  | launchRelease (crew : Nat) (slot : Nat)
  /-- SEED_COMMIT (R57): A SEED_COMMIT write is checked for EARLY, LATE, BADTAG and FULL, and a passing commit places a token in the ingress FIFO. -/
  | seedCommit (crew : Nat) (slot : Nat) (entry : Nat) (val : BitVec 64)
  /-- EVENT_RING_CONSUME (R58): A host write of CW_EVCONS frees ring space and sends the MSI-X vector when PROD differs from CONS and IE is set. -/
  | eventRingConsume (ring : Nat) (val : BitVec 64)
  /-- DC_HI_READ (R60): A host read of DC_HI returns record bits [79:64] and advances DC_IDX by one. -/
  | dcHiRead (crew : Nat)
  /-- HOST_REGION_RELEASE (R295): DC_CMD RELEASE on a FROZEN member named by DC_SEL ends that member. -/
  | hostRegionRelease (crew : Nat)
  /-- HOST_MEMORY_READ (R49): A host read through a crew's BAR2 window is translated and deciphered, and returns zero with a HOSTMEM_FAULT event if translation faults. -/
  | hostMemoryRead (crew : Nat) (off : Nat) (len : Nat)
  /-- HOST_MEMORY_WRITE (R49): A host write through a crew's BAR2 window is translated and enciphered, and is dropped with a HOSTMEM_FAULT event if translation faults. -/
  | hostMemoryWrite (crew : Nat) (off : Nat) (bytes : List (BitVec 8))
  /-- PW_STAT_READ (R78): A read of PW_STAT returns the power status and clears the count of windows over cap. -/
  | pwStatRead
  /-- CECNT_READ (R311): A read of DEV_CECNT[d] returns the count of corrected errors and clears it. -/
  | cecntRead (die : Nat)
  /-- SIGN (R71): TR_CMD SIGN advances the flash identity index and signs DEV_ID, the timecode and TR_MSG under the old index. -/
  | sign
  /-- SIGN_COMPLETE (R71): When the XMSS signature completes, it is written to TR_SIG with result OK. -/
  | signComplete
  /-- UPDATE (R69): TR_CMD UPDATE reads the image from host memory, verifies it, writes it to the inactive bank and switches the marker. -/
  | update
  /-- UPDATE_COMPLETE (R69): Completion of the update records OK, BADIMG, BADSIG or ROLLBACK in TR_STAT. -/
  | updateComplete
  /-- RESTART (R72): TR_CMD RESTART discards all crew state without events and performs a cold start. -/
  | restart (report : StartReport)
  /-- KEY_LOAD (R75): KS_CMD LOAD checks the slot, captures and clears KS_DATA, and writes the key into all twelve controller groups. -/
  | keyLoad (slot : BitVec 13)
  /-- KEY_LOAD_COMPLETE (R75): Once every controller group holds the key, BUSY and CHANGING clear. -/
  | keyLoadComplete
  /-- KEY_RETIRE (R75): KS_CMD RETIRE marks its slots CHANGING and waits for accesses under the old key to perform. -/
  | keyRetire (slot : BitVec 13) (count : BitVec 13)
  /-- KEY_RETIRE_COMPLETE (R75): After the old key's accesses have performed, the slots are zeroed in every group and BUSY clears. -/
  | keyRetireComplete
  /-- PTW_WRITE (R308): A PTW_DATA write that enables byte 63 writes the 64-byte table block at PTW_ADDR as one event under slot 0. -/
  | ptwWrite (val : BitVec 64) (en : BitVec 8)
  /-- PTW_READ (R308): A read of PTW_DATA returns the table block at PTW_ADDR. -/
  | ptwRead
  /-- XL_INV (R308): XL_INV waits for earlier PTW writes, then makes every translation cache drop the matching entries of the crew. -/
  | xlInv (val : BitVec 64)
  /-- XL_INV_COMPLETE (R308): BUSY clears once every access translated with a dropped entry has performed at system scope. -/
  | xlInvComplete
  /-- TIMECODE_REACQUIRE (R40): TC_CMD REACQ requests re-acquisition, pending while a cross-chip scene is resident. -/
  | timecodeReacquire
  /-- REACQUISITION (R38): Once no cross-chip scene is resident, a lagging follower steps forward or a leading follower slews at -1,000 ppm. -/
  | reacquisition
  /-- PORT_RETRAIN (R40): LK_CTL RETRAIN fails the port's open circuits and trains the port. -/
  | portRetrain (port : Nat)
  /-- PORT_DISABLE (R40): Setting LK_CTL.DISABLE fails the port under R34 and keeps it untrained. -/
  | portDisable (port : Nat)
  /-- TOKEN_BEAT (R30): A received token beat delivers its 512-bit token on circuit CIRC and returns credit as the buffer drains. -/
  | tokenBeat (port : Nat) (beat : Beat)
  /-- REDUCTION_BEAT (R30): A received reduction beat delivers its token to the adder bound to circuit CIRC. -/
  | reductionBeat (port : Nat) (beat : Beat)
  /-- COMMAND_BEAT (R30): A received command beat delivers one command-network packet. -/
  | commandBeat (port : Nat) (beat : Beat)
  /-- TIMECODE_BEAT (R37): A received timecode beat gives the measured offset, and the follower corrects its rate by at most ±100 ppm or falls out of step. -/
  | timecodeBeat (port : Nat) (beat : TimedBeat)
  /-- TIMECODE_BEAT_SEND (R37): Every 1,024 tc, every port sends a timecode beat. -/
  | timecodeBeatSend
  /-- LINK_CONTROL_BEAT (R30): A received link-control beat returns credits to circuits and carries training and lane status. -/
  | linkControlBeat (port : Nat) (beat : Beat)
  /-- MEMORY_BEAT (R30): A received memory beat carries a remote-gather request or returned data. -/
  | memoryBeat (port : Nat) (beat : Beat)
  /-- CODEWORD_UNCORRECTABLE (R33): An uncorrectable codeword, a reserved TYPE or a SEQ gap drops beats until the expected SEQ arrives and requests replay. -/
  | codewordUncorrectable (port : Nat)
  /-- LANE_FAILURE (R33): A failed lane makes the port retrain within 50 µs at half width and replay what was in flight. -/
  | laneFailure (port : Nat) (retrain : LaneRetrain)
  /-- ROOT_LOST (R39): On loss of the root, the remaining chips elect the lowest serial as root, which keeps its count. -/
  | rootLost (serials : List Nat) (ports : List Nat) (hops : List Nat)
  /-- THERMAL_READING (R89): Every 100 µs each cluster's thermal level moves by the reading, up to a die excursion or a thermal shutdown. -/
  | thermalReading (readings : List Nat)
  /-- CAP_WINDOW (R94): At each 1,000,000 tc window boundary, the controller recomputes crew budgets, ceilings, cap levels and base levels. -/
  | capWindow (module : Nat) (crews : List Nat)
  /-- BASE_LEVEL_CHANGE (R86): A change of base level slews the rail and locks the idle generator to the new base. -/
  | baseLevelChange (cluster : Nat) (level : Nat)
  /-- GENERATOR_SWITCH (R86): At the first spine-7 edge after lock and settling, every spine of the cluster switches to the new generator. -/
  | generatorSwitch (cluster : Nat)
  /-- PACING_STEP (R92): When the rail budget allows a rise of I/16, a paced region's pacing level falls by one. -/
  | pacingStep (region : Nat)
  /-- BALLAST_CUT (R93): If ballast remains 2 µs into a ramp while the module is over cap, it is removed at once and PW_CUT increments. -/
  | ballastCut
  /-- SCHEDULING_PASS (R137): The scheduler offers one candidate per queue by effective priority and weighted round robin, and places those that fit. -/
  | schedulingPass
  /-- SLATE_ENTER (R134): Once the dependency table has room, a slate enters its ranges in submission order and counts its blockers. -/
  | slateEnter (crew : Nat)
  /-- SPILL_WRITE (R129): A slate written to a queue's spill ring completes, or faults and seals the queue. -/
  | spillWrite (queue : Nat)
  /-- REFILL_READ (R129): A refill read from the ring head fills the window, or faults and seals the queue. -/
  | refillRead (queue : Nat)
  /-- PLACEMENT_REQUEST (R140): A peer chip searches for its members, then reserves and loads them and replies FIT, or replies NOFIT. -/
  | placementRequest (req : PlaceRequest)
  /-- PLACEMENT_REPLY (R140): On the last FIT the home chip sends COMMIT(T); on NOFIT or BADPEER it sends CANCEL. -/
  | placementReply (serial : Nat) (peer : Nat) (reply : PlaceReply)
  /-- PLACEMENT_TIMEOUT (R140): If a peer does not reply within 200 µs, the home scheduler sends CANCEL. -/
  | placementTimeout (serial : Nat)
  /-- PLACEMENT_COMMIT (R141): A peer receiving COMMIT starts its members at T, or freezes them with a link failure if T has passed. -/
  | placementCommit (serial : Nat) (tick : BitVec 64)
  /-- PLACEMENT_CANCEL (R140): On CANCEL a chip frees the stages and contexts it reserved. -/
  | placementCancel (serial : Nat)
  /-- START_TICK (R108): At tick T every PLACED member begins execution in the entry state, and opening-reel start tokens are injected. -/
  | startTick (serial : Nat)
  /-- HOLD_BEGIN (R298): Every source and ingress port of every member region emits one hold marker and then emits nothing more. -/
  | holdBegin (serial : Nat)
  /-- HOLD_MARKER (R299): A unit that cannot fire and whose inputs all hold markers consumes them and emits one marker on each output. -/
  | holdMarker (unit : UnitRef)
  /-- HOLD_COMPLETE (R302): When every unit is held and every context is at an instruction boundary, the context-save engine saves each region. -/
  | holdComplete (serial : Nat)
  /-- REGION_SAVE_COMPLETE (R302): When a region's save completes, its member becomes HELD and the scene becomes a candidate again. -/
  | regionSaveComplete (serial : Nat) (member : Nat)
  /-- MEMBER_END (R107): An exited member ends once no take is in progress, its counters are zero and its cue tables are empty. -/
  | memberEnd (serial : Nat) (member : Nat)
  /-- CONFIGURATION_LOAD (R167): A configuration load checks the image and the words, empties the written contexts, and writes reel words over the control network. -/
  | configurationLoad (region : Nat)
  /-- CONFIGURATION_COMPLETE_WAVE (R167): When every tile has written its last word, the report reaches the region's root. -/
  | configurationCompleteWave (region : Nat)
  /-- START_INJECTION (R168): D fc after the wave, every source receives its one start token in the same fc. -/
  | startInjection (region : Nat)
  /-- WRAP_SAMPLE (R170): Every 8 fc every tile samples its count, idleness, exhaustion and outstanding operations, and the sums reach the root. -/
  | wrapSample (region : Nat)
  /-- FREEZE (R294): A fabric fault pulls the freeze wire: units complete fc n, faulting units are marked, and the member traps or the take faults. -/
  | freeze (region : Nat) (soft : List UnitRef)
  /-- REGION_REPLAY (R295): frz CMD REPLAY on a replayable frozen region retries each marked unit from its latched tokens. -/
  | regionReplay (region : Nat)
  /-- REGION_RELEASE (R295): frz CMD RELEASE discards the region's tokens, latches and buffers and ends the take. -/
  | regionRelease (region : Nat)
  /-- REGION_REPORT (R295): frz CMD REPORT makes the member FROZEN, writes SCENE_FAULT and stops the context. -/
  | regionReport (region : Nat)
  /-- TOKEN_FORWARD (R153): Each output link forwards the oldest circuit head that holds credit, one token per fc. -/
  | tokenForward (stage : Nat) (tile : Nat) (output : BitVec 6)
  /-- ADDER_PAIR (R27): A port adder pairs the next remote and local tokens and sends their combination, a cut, a hold or an error. -/
  | adderPair (adder : Nat)
  /-- TRANSLATION_WALK (R307): A translation-cache miss makes the die walker read up to four table levels and return a leaf or a fault cause. -/
  | translationWalk (cache : Nat) (crew : Nat) (va : BitVec 64) (access : Access)
  /-- ASYNC_TRAP (R290): At the context's next issue slot a pending asynchronous trap sets xcause, xpc and xval and vectors to xvec. -/
  | asyncTrap (ctx : Nat)
  /-- RUN_AHEAD (R463): When a resolving branch would stall on a load, the context runs ahead from H in a shadow copy, filling rushes entries. -/
  | runAhead (ctx : Nat)
  /-- LOAD_DATA_RETURN (R458): A global load's data returns, writes its destination and lowers the load count, or raises an asynchronous UECC trap. -/
  | loadDataReturn (ctx : Nat) (index : Nat)
  /-- STORE_PERFORM (R458): A script store performs and the store count falls. -/
  | storePerform (ctx : Nat) (index : Nat)
  /-- CUE_ENTRY_ISSUE (R119): The oldest ready cue-table entry issues to its engine's inbox and pops its FIFO. -/
  | cueEntryIssue (stage : Nat)
  /-- CUE_ENTRY_RETIRE (R120): When its engine completes, an entry retires, releases its tiles and pushes its FIFO. -/
  | cueEntryRetire (stage : Nat) (entry : Nat)
  /-- OPERATION_COMPLETE (R262): An engine operation ends: it performs its join, sends its reply and makes its completion update. -/
  | operationComplete (op : Nat)
  /-- WALK_STEP (R273): After the previous read returns, a walk reads its record and executes rules until it follows, returns or fails. -/
  | walkStep (op : Nat)
  /-- WALK_HANDOFF (R275): A hand-off delivers the whole walk state to the home engine of the new pointer. -/
  | walkHandoff (op : Nat)
  /-- RULESET_INSTALL (R276): Once no walk of the set is present, an engine installs or releases a rule set. -/
  | rulesetInstall (op : Nat) (engine : Nat)
  /-- BARRIER_ELAPSED (R282): Every 1,024 tc, ELAPSED advances while arrivals wait and the scene is placed and not held. -/
  | barrierElapsed (crew : Nat) (die : Nat) (index : Nat)
  /-- BARRIER_TIMEOUT (R282): When ELAPSED reaches TIMEOUT, every waiting arrival completes with BARTIMEOUT and a barrier fault is raised. -/
  | barrierTimeout (crew : Nat) (die : Nat) (index : Nat)
  /-- ADD (R456): g[d] := g[a] + g[b] modulo 2^64. -/
  | add (d : BitVec 5) (a : BitVec 5) (b : BitVec 5)
  /-- SUB (R456): g[d] := g[a] - g[b]. -/
  | sub (d : BitVec 5) (a : BitVec 5) (b : BitVec 5)
  /-- AND (R456): g[d] := g[a] AND g[b]. -/
  | and (d : BitVec 5) (a : BitVec 5) (b : BitVec 5)
  /-- OR (R456): g[d] := g[a] OR g[b]. -/
  | or (d : BitVec 5) (a : BitVec 5) (b : BitVec 5)
  /-- XOR (R456): g[d] := g[a] XOR g[b]. -/
  | xor (d : BitVec 5) (a : BitVec 5) (b : BitVec 5)
  /-- SLL (R456): Logical left shift by g[b][5:0]. -/
  | sll (d : BitVec 5) (a : BitVec 5) (b : BitVec 5)
  /-- SRL (R456): Logical right shift by g[b][5:0]. -/
  | srl (d : BitVec 5) (a : BitVec 5) (b : BitVec 5)
  /-- SRA (R456): Arithmetic right shift by g[b][5:0]. -/
  | sra (d : BitVec 5) (a : BitVec 5) (b : BitVec 5)
  /-- SLT (R456): g[d] := 1 if g[a] < g[b] signed, else 0. -/
  | slt (d : BitVec 5) (a : BitVec 5) (b : BitVec 5)
  /-- SLTU (R456): g[d] := 1 if g[a] < g[b] unsigned, else 0. -/
  | sltu (d : BitVec 5) (a : BitVec 5) (b : BitVec 5)
  /-- MUL (R456): g[d] := low 64 bits of the product. -/
  | mul (d : BitVec 5) (a : BitVec 5) (b : BitVec 5)
  /-- MULH (R456): g[d] := high 64 bits of the signed product. -/
  | mulh (d : BitVec 5) (a : BitVec 5) (b : BitVec 5)
  /-- MULHU (R456): g[d] := high 64 bits of the unsigned product. -/
  | mulhu (d : BitVec 5) (a : BitVec 5) (b : BitVec 5)
  /-- DIV (R456): Signed quotient, truncated; a zero divisor traps DIVZERO. -/
  | div (d : BitVec 5) (a : BitVec 5) (b : BitVec 5)
  /-- DIVU (R456): Unsigned quotient; a zero divisor traps DIVZERO. -/
  | divu (d : BitVec 5) (a : BitVec 5) (b : BitVec 5)
  /-- REM (R456): Signed remainder with the sign of the dividend; a zero divisor traps DIVZERO. -/
  | rem (d : BitVec 5) (a : BitVec 5) (b : BitVec 5)
  /-- REMU (R456): Unsigned remainder; a zero divisor traps DIVZERO. -/
  | remu (d : BitVec 5) (a : BitVec 5) (b : BitVec 5)
  /-- ADDI (R457): g[d] := g[a] + sext(imm15). -/
  | addi (d : BitVec 5) (a : BitVec 5) (imm : BitVec 15)
  /-- ANDI (R457): g[d] := g[a] AND sext(imm15). -/
  | andi (d : BitVec 5) (a : BitVec 5) (imm : BitVec 15)
  /-- ORI (R457): g[d] := g[a] OR sext(imm15). -/
  | ori (d : BitVec 5) (a : BitVec 5) (imm : BitVec 15)
  /-- XORI (R457): g[d] := g[a] XOR sext(imm15). -/
  | xori (d : BitVec 5) (a : BitVec 5) (imm : BitVec 15)
  /-- SLTI (R457): g[d] := 1 if g[a] < imm signed, else 0. -/
  | slti (d : BitVec 5) (a : BitVec 5) (imm : BitVec 15)
  /-- SLLI (R457): Logical left shift by n. -/
  | slli (d : BitVec 5) (a : BitVec 5) (n : BitVec 6)
  /-- SRLI (R457): Logical right shift by n. -/
  | srli (d : BitVec 5) (a : BitVec 5) (n : BitVec 6)
  /-- SRAI (R457): Arithmetic right shift by n. -/
  | srai (d : BitVec 5) (a : BitVec 5) (n : BitVec 6)
  /-- LDI (R457): g[d] := sext of the 20-bit immediate. -/
  | ldi (d : BitVec 5) (imm : BitVec 20)
  /-- LSI (R457): g[d] := (g[a] << 15) | zext(imm15). -/
  | lsi (d : BitVec 5) (a : BitVec 5) (imm : BitVec 15)
  /-- LB (R458): Global load of one byte, sign-extended. -/
  | lb (d : BitVec 5) (a : BitVec 5) (imm : BitVec 15)
  /-- LBU (R458): Global load of one byte, zero-extended. -/
  | lbu (d : BitVec 5) (a : BitVec 5) (imm : BitVec 15)
  /-- LH (R458): Global load of 2 bytes, sign-extended. -/
  | lh (d : BitVec 5) (a : BitVec 5) (imm : BitVec 15)
  /-- LHU (R458): Global load of 2 bytes, zero-extended. -/
  | lhu (d : BitVec 5) (a : BitVec 5) (imm : BitVec 15)
  /-- LW (R458): Global load of 4 bytes, sign-extended. -/
  | lw (d : BitVec 5) (a : BitVec 5) (imm : BitVec 15)
  /-- LWU (R458): Global load of 4 bytes, zero-extended. -/
  | lwu (d : BitVec 5) (a : BitVec 5) (imm : BitVec 15)
  /-- LD (R458): Global load of 8 bytes. -/
  | ld (d : BitVec 5) (a : BitVec 5) (imm : BitVec 15)
  /-- SB (R458): Global store of the low byte of g[d]. -/
  | sb (d : BitVec 5) (a : BitVec 5) (imm : BitVec 15)
  /-- SH (R458): Global store of the low 2 bytes of g[d]. -/
  | sh (d : BitVec 5) (a : BitVec 5) (imm : BitVec 15)
  /-- SW (R458): Global store of the low 4 bytes of g[d]. -/
  | sw (d : BitVec 5) (a : BitVec 5) (imm : BitVec 15)
  /-- SD (R458): Global store of the 8 bytes of g[d]. -/
  | sd (d : BitVec 5) (a : BitVec 5) (imm : BitVec 15)
  /-- LDP (R460): Load 8 bytes from private memory into g[d]. -/
  | ldp (d : BitVec 5) (a : BitVec 5) (imm : BitVec 15)
  /-- STP (R460): Store g[d] as 8 bytes into private memory. -/
  | stp (d : BitVec 5) (a : BitVec 5) (imm : BitVec 15)
  /-- LDA (R459): Acquire-marked global load at the named width and scope; frees the context's rushes entries. -/
  | lda (d : BitVec 5) (a : BitVec 5) (width : BitVec 2) (scope : BitVec 2)
  /-- SDR (R459): Release-marked global store of g[b] at the named width and scope. -/
  | sdr (a : BitVec 5) (b : BitVec 5) (width : BitVec 2) (scope : BitVec 2)
  /-- BEQ (R461): Branch if g[a] = g[b]. -/
  | beq (a : BitVec 5) (b : BitVec 5) (off : BitVec 15)
  /-- BNE (R461): Branch if g[a] differs from g[b]. -/
  | bne (a : BitVec 5) (b : BitVec 5) (off : BitVec 15)
  /-- BLT (R461): Branch if g[a] < g[b], signed. -/
  | blt (a : BitVec 5) (b : BitVec 5) (off : BitVec 15)
  /-- BGE (R461): Branch if g[a] ≥ g[b], signed. -/
  | bge (a : BitVec 5) (b : BitVec 5) (off : BitVec 15)
  /-- BLTU (R461): Branch if g[a] < g[b], unsigned. -/
  | bltu (a : BitVec 5) (b : BitVec 5) (off : BitVec 15)
  /-- BGEU (R461): Branch if g[a] ≥ g[b], unsigned. -/
  | bgeu (a : BitVec 5) (b : BitVec 5) (off : BitVec 15)
  /-- J (R462): Jump to pc + 4 × sext(off25); a jump to the exit address exits the member. -/
  | j (off : BitVec 25)
  /-- JAL (R462): Jump and set lr := pc + 4. -/
  | jal (off : BitVec 25)
  /-- JALR (R462): Jump to base + sext(imm15), linking to lr when d = 1. -/
  | jalr (link : BitVec 1) (a : BitVec 5) (imm : BitVec 15)
  /-- HINT (R463): Opens a new run-ahead generation G with likely path H for the next resolving branch. -/
  | hint (off : BitVec 25)
  /-- TAKE (R465): Waits for any take in progress, loads the contexts in WMASK, and starts context ACT. -/
  | take (d : BitVec 5) (a : BitVec 5) (act : BitVec 2) (wmask : BitVec 4) (map : BitVec 2)
  /-- CTX (R466): Loads the contexts in WMASK from a reel without starting a take. -/
  | ctx (d : BitVec 5) (a : BitVec 5) (wmask : BitVec 4) (map : BitVec 2)
  /-- BIND_SOURCE (R467): Sets a memory-source script binding of a reel port. -/
  | bindSource (d : BitVec 5) (a : BitVec 5) (b : BitVec 5) (port : BitVec 8)
  /-- BIND_SINK (R467): Sets a memory-sink script binding of a reel port. -/
  | bindSink (d : BitVec 5) (a : BitVec 5) (b : BitVec 5) (port : BitVec 8)
  /-- BIND_SEED (R467): Sets a seed-port binding with an empty 64-token FIFO. -/
  | bindSeed (d : BitVec 5) (port : BitVec 8)
  /-- BIND_QUERY (R467): Returns the tokens moved and the SINKOVF of a port's binding in the last take. -/
  | bindQuery (d : BitVec 5) (port : BitVec 8)
  /-- SEED (R468): Commits one token from private memory to a seed port, or marks the port exhausted. -/
  | seed (d : BitVec 5) (a : BitVec 5) (b : BitVec 5) (port : BitVec 8)
  /-- WRAPW (R469): Waits until no take is in progress, then writes the last take's outcome. -/
  | wrapw (d : BitVec 5)
  /-- HOLD (R470): Yields the scene by holding it as a pre-emption does, or returns POOLFULL. -/
  | hold (d : BitVec 5)
  /-- CUE (R471): Issues g[a]..g[a+3] as a cue into the stage's dependency table and returns a ticket. -/
  | cue (d : BitVec 5) (a : BitVec 5)
  /-- WAITC (R472): Waits until the load, store, copy and tile-operation counts are at or below their bounds. -/
  | waitc (l : BitVec 5) (st : BitVec 5) (c : BitVec 9) (t : BitVec 6)
  /-- FENCE (R473): Stalls until the context's earlier accesses have performed at the scope. -/
  | fence (scope : BitVec 2)
  /-- SPAWN (R474): Pushes the slate at g[a] into a queue of the crew and returns its handle. -/
  | spawn (d : BitVec 5) (a : BitVec 5)
  /-- JOIN (R475): Decrements the join counter of the slate named by the handle in g[a], or traps JOINREF. -/
  | join (a : BitVec 5)
  /-- BAR (R476): Makes one barrier arrival and waits for its completion. -/
  | bar (d : BitVec 5) (a : BitVec 5) (phase : BitVec 1)
  /-- ALGLD (R477): Loads and checks a structure table into algebra slot 1 to 7. -/
  | algld (a : BitVec 5) (slot : BitVec 15)
  /-- TRAP (R478): Takes a precise TRAP trap with xval = zext(imm15). -/
  | trap (imm : BitVec 15)
  /-- TRET (R291): Returns from a handler to xpc and clears status.TM. -/
  | tret
  /-- SYSR (R479): Reads a system register into g[d]. -/
  | sysr (d : BitVec 5) (reg : BitVec 12)
  /-- SYSW (R479): Writes g[d] into a system register, subject to access and PRIV. -/
  | sysw (d : BitVec 5) (reg : BitVec 12)
  /-- COPY (R433): Copies one tile of a source tensor to one tile of a destination tensor. -/
  | copy (op : Nat)
  /-- COPYAD (R434): Copies between a tensor tile and global memory given by address, possibly in the host aperture. -/
  | copyad (op : Nat)
  /-- RGATHER (R436): Gathers rows indexed by a tensor from a peer chip's memory. -/
  | rgather (op : Nat)
  /-- ZERO (R435): Writes +0 into every element of a destination tile. -/
  | zero (op : Nat)
  /-- WALK (R437): Starts one traversal walk from an argument block. -/
  | walk (op : Nat)
  /-- RSLOAD (R438): Validates and installs a rule set in one engine or all twelve. -/
  | rsload (op : Nat)
  /-- RSREL (R439): Releases a rule set in one engine or all engines. -/
  | rsrel (op : Nat)
  /-- ATADD (R441): Atomic add at a sync variable or a global target. -/
  | atadd (op : Nat)
  /-- ATMIN (R441): Atomic signed minimum. -/
  | atmin (op : Nat)
  /-- ATMAX (R441): Atomic signed maximum. -/
  | atmax (op : Nat)
  /-- ATAND (R441): Atomic bitwise AND. -/
  | atand (op : Nat)
  /-- ATOR (R441): Atomic bitwise OR. -/
  | ator (op : Nat)
  /-- ATXOR (R441): Atomic bitwise XOR. -/
  | atxor (op : Nat)
  /-- ATSWP (R441): Atomic swap. -/
  | atswp (op : Nat)
  /-- ATCAS (R441): Atomic compare-and-swap. -/
  | atcas (op : Nat)
  /-- ACCADD (R442): Adds a PART value exactly into an ACC64 sync variable. -/
  | accadd (op : Nat)
  /-- BARINIT (R443): Initialises a sync variable as a barrier of the issuing scene. -/
  | barinit (op : Nat)
  /-- ARRIVE (R282): Makes one barrier arrival, releasing the phase when ARRIVED reaches COUNT. -/
  | arrive (op : Nat)
  /-- ALLOC (R444): Takes N 256-byte chunks from a bump allocator, or returns NOCHUNK. -/
  | alloc (op : Nat)
  /-- SWRITE (R445): Replaces a whole sync variable. -/
  | swrite (op : Nat)
  /-- SREAD (R445): Reads a whole sync variable into the reply. -/
  | sread (op : Nat)
  /-- CBIND (R446): Binds a port adder to local, remote and outgoing circuits in a mode. -/
  | cbind (op : Nat)
  /-- CREL (R446): Releases a port adder once no token is left unpaired. -/
  | crel (op : Nat)
  /-- REGEN (R447): Regenerates a 4-of-8 compressed tensor from a dense master every P steps. -/
  | regen (op : Nat)
  /-- SAVE (R448): Copies a stage or context image to a save area. -/
  | save (op : Nat)
  /-- RESTORE (R448): Copies a stage or context image back from a save area. -/
  | restore (op : Nat)
  /-- PASS (R361): Moves the head of input 0 to output 0 unchanged. -/
  | pass (stage : Nat) (tile : Nat) (oslot : Nat)
  /-- STEER (R362): Sends a data token to the false or true output by the control value, and sends cuts and control errors to both. -/
  | steer (stage : Nat) (tile : Nat) (oslot : Nat)
  /-- MERGE (R363): Takes a token from the data input that the control names. -/
  | merge (stage : Nat) (tile : Nat) (oslot : Nat)
  /-- CARRY (R365): Emits a loop's initial value, then its fed-back values, until a cut of rank END. -/
  | carry (stage : Nat) (tile : Nat) (oslot : Nat)
  /-- INVAR (R367): Repeats a held value once for each token of the iteration stream. -/
  | invar (stage : Nat) (tile : Nat) (oslot : Nat)
  /-- FORK (R368): Copies each input token to every routed output, within the output windows. -/
  | fork (stage : Nat) (tile : Nat) (oslot : Nat)
  /-- JOIN_OPERATOR (R369): Once every routed input holds a token, sends input 0's token or the first error. -/
  | joinOperator (stage : Nat) (tile : Nat) (oslot : Nat)
  /-- PERMIT (R370): Grants the earliest request one permit token. -/
  | permit (stage : Nat) (tile : Nat) (oslot : Nat)
  /-- ALU_ADD (R381): Slot-wise a + b. -/
  | aluAdd (stage : Nat) (slot : Nat)
  /-- ALU_SUB (R381): Slot-wise a - b. -/
  | aluSub (stage : Nat) (slot : Nat)
  /-- ALU_MUL (R381): Slot-wise a × b. -/
  | aluMul (stage : Nat) (slot : Nat)
  /-- ALU_FMA (R381): Slot-wise a × b + c with one rounding. -/
  | aluFma (stage : Nat) (slot : Nat)
  /-- ALU_MIN (R381): Slot-wise minimum. -/
  | aluMin (stage : Nat) (slot : Nat)
  /-- ALU_MAX (R381): Slot-wise maximum. -/
  | aluMax (stage : Nat) (slot : Nat)
  /-- ALU_ABS (R381): Slot-wise absolute value. -/
  | aluAbs (stage : Nat) (slot : Nat)
  /-- ALU_NEG (R381): Slot-wise negation. -/
  | aluNeg (stage : Nat) (slot : Nat)
  /-- ALU_RCP (R381): Slot-wise reciprocal. -/
  | aluRcp (stage : Nat) (slot : Nat)
  /-- ALU_RSQRT (R381): Slot-wise reciprocal square root. -/
  | aluRsqrt (stage : Nat) (slot : Nat)
  /-- ALU_ADDS (R381): Saturating integer add. -/
  | aluAdds (stage : Nat) (slot : Nat)
  /-- ALU_SUBS (R381): Saturating integer subtract. -/
  | aluSubs (stage : Nat) (slot : Nat)
  /-- ALU_CEQ (R381): All ones where a = b. -/
  | aluCeq (stage : Nat) (slot : Nat)
  /-- ALU_CNE (R381): All ones where a differs from b. -/
  | aluCne (stage : Nat) (slot : Nat)
  /-- ALU_CLT (R381): All ones where a < b. -/
  | aluClt (stage : Nat) (slot : Nat)
  /-- ALU_CLE (R381): All ones where a ≤ b. -/
  | aluCle (stage : Nat) (slot : Nat)
  /-- ALU_SEL (R381): a where c is nonzero, otherwise b. -/
  | aluSel (stage : Nat) (slot : Nat)
  /-- ALU_AND (R381): Bitwise AND. -/
  | aluAnd (stage : Nat) (slot : Nat)
  /-- ALU_OR (R381): Bitwise OR. -/
  | aluOr (stage : Nat) (slot : Nat)
  /-- ALU_XOR (R381): Bitwise XOR. -/
  | aluXor (stage : Nat) (slot : Nat)
  /-- ALU_NOT (R381): Bitwise NOT. -/
  | aluNot (stage : Nat) (slot : Nat)
  /-- ALU_SHL (R381): Integer left shift. -/
  | aluShl (stage : Nat) (slot : Nat)
  /-- ALU_SHR (R381): Integer logical right shift. -/
  | aluShr (stage : Nat) (slot : Nat)
  /-- ALU_SRA (R381): Integer arithmetic right shift. -/
  | aluSra (stage : Nat) (slot : Nat)
  /-- ALU_CLZ (R381): Count of leading zeros. -/
  | aluClz (stage : Nat) (slot : Nat)
  /-- ALU_POPC (R381): Count of set bits. -/
  | aluPopc (stage : Nat) (slot : Nat)
  /-- ALU_MOV (R381): Passes a through, start tokens included. -/
  | aluMov (stage : Nat) (slot : Nat)
  /-- ALU_BCAST (R381): Broadcasts slot k2 of a to every slot. -/
  | aluBcast (stage : Nat) (slot : Nat)
  /-- ALG_AMUL (R383): Algebra product under the table, with the conjugate and swap modifiers. -/
  | algAmul (stage : Nat) (slot : Nat)
  /-- ALG_ACONJ (R383): Algebra conjugate. -/
  | algAconj (stage : Nat) (slot : Nat)
  /-- ALG_ANORM (R383): Algebra norm in component 0. -/
  | algAnorm (stage : Nat) (slot : Nat)
  /-- ALG_ASCALE (R383): Scales every component by component 0 of b. -/
  | algAscale (stage : Nat) (slot : Nat)
  /-- ALG_AADD (R383): Component-wise algebra add. -/
  | algAadd (stage : Nat) (slot : Nat)
  /-- ALG_ASUB (R383): Component-wise algebra subtract. -/
  | algAsub (stage : Nat) (slot : Nat)
  /-- CVT_CVT (R385): Converts between float formats under the rounding mode. -/
  | cvtCvt (stage : Nat) (slot : Nat)
  /-- CVT_CVTI (R385): Converts float to integer, saturating. -/
  | cvtCvti (stage : Nat) (slot : Nat)
  /-- CVT_CVTF (R385): Converts integer to float. -/
  | cvtCvtf (stage : Nat) (slot : Nat)
  /-- CVT_CVTA (R385): Converts ACC64 FINAL or PART values to another format. -/
  | cvtCvta (stage : Nat) (slot : Nat)
  /-- WCV_SPLIT (R387): Splits each token into 2^LG pieces. -/
  | wcvSplit (stage : Nat) (slot : Nat)
  /-- WCV_PACK (R387): Gathers 2^LG tokens into one. -/
  | wcvPack (stage : Nat) (slot : Nat)
  /-- WCV_UNZIP (R387): Sends even slots to output 0 and odd slots to output 1. -/
  | wcvUnzip (stage : Nat) (slot : Nat)
  /-- RDC_SUMC (R389): Canonical-tree or modular sum over a fibre. -/
  | rdcSumc (stage : Nat) (slot : Nat)
  /-- RDC_SUMA (R389): Exact ACC64 sum over a fibre. -/
  | rdcSuma (stage : Nat) (slot : Nat)
  /-- RDC_MAXR (R389): Maximum over a fibre. -/
  | rdcMaxr (stage : Nat) (slot : Nat)
  /-- RDC_MINR (R389): Minimum over a fibre. -/
  | rdcMinr (stage : Nat) (slot : Nat)
  /-- RDC_CNT (R389): Count of present slots over a fibre. -/
  | rdcCnt (stage : Nat) (slot : Nat)
  /-- RDC_ARGMAX (R389): Position of the largest value in a fibre. -/
  | rdcArgmax (stage : Nat) (slot : Nat)
  /-- SEQ_RANGE (R391): Emits an arithmetic sequence instance. -/
  | seqRange (stage : Nat) (slot : Nat)
  /-- SEQ_NEST (R391): Emits a nested index space instance. -/
  | seqNest (stage : Nat) (slot : Nat)
  /-- SEQ_MTOK (R391): Emits matrix control words, then a drain word and a cut. -/
  | seqMtok (stage : Nat) (slot : Nat)
  /-- SEQ_BTAB (R391): Emits a control word for each listed block index. -/
  | seqBtab (stage : Nat) (slot : Nat)
  /-- SEQ_TAGS (R391): Numbers present slots from a base. -/
  | seqTags (stage : Nat) (slot : Nat)
  /-- ISX_ISECT (R393): Intersects two coordinate fibres. -/
  | isxIsect (stage : Nat) (slot : Nat)
  /-- ISX_UNION (R393): Unites two coordinate fibres. -/
  | isxUnion (stage : Nat) (slot : Nat)
  /-- ISX_DIFF (R393): Difference of two coordinate fibres. -/
  | isxDiff (stage : Nat) (slot : Nat)
  /-- SPA_ACCUM (R394): Accumulates by coordinate and flushes in ascending order. -/
  | spaAccum (stage : Nat) (slot : Nat)
  /-- SPA_FLUSH (R394): Accumulates by coordinate and flushes in order of first arrival. -/
  | spaFlush (stage : Nat) (slot : Nat)
  /-- SPA_FLUSHS (R394): As accum, omitting entries whose sum is zero. -/
  | spaFlushs (stage : Nat) (slot : Nat)
  /-- SPA_CLR (R394): Counts distinct coordinates and discards the entries. -/
  | spaClr (stage : Nat) (slot : Nat)
  /-- FLT_KEEP (R395): Masks off slots whose predicate is false. -/
  | fltKeep (stage : Nat) (slot : Nat)
  /-- FLT_DROP (R395): Masks off slots whose predicate is true. -/
  | fltDrop (stage : Nat) (slot : Nat)
  /-- FLT_COMPACT (R395): Packs the kept slots densely. -/
  | fltCompact (stage : Nat) (slot : Nat)
  /-- ORD_REORD (R397): Merges inputs by tag in consecutive order through a 64-token window. -/
  | ordReord (stage : Nat) (slot : Nat)
  /-- ORD_TAG (R396): Writes a sequence tag into lane 15. -/
  | ordTag (stage : Nat) (slot : Nat)
  /-- ELB_SLACK (R398): Buffers tokens in a 64-token FIFO. -/
  | elbSlack (stage : Nat) (slot : Nat)
  /-- ELB_WATCH (R398): Buffers tokens and reports occupancy at cuts. -/
  | elbWatch (stage : Nat) (slot : Nat)
  /-- CRT_TURN (R399): Corner-turns 16 × 16 blocks of 32-bit slots. -/
  | crtTurn (stage : Nat) (slot : Nat)
  /-- CRT_TURNW (R399): Corner-turns 8 × 8 blocks of 64-bit slots. -/
  | crtTurnw (stage : Nat) (slot : Nat)
  /-- MMA (R406): Accumulates real matrix products into a slot. -/
  | mma (stage : Nat)
  /-- MMAA (R406): Accumulates algebra matrix products into d slots. -/
  | mmaa (stage : Nat)
  /-- MMAS (R407): Accumulates 4-of-8 sparse products under metadata. -/
  | mmas (stage : Nat)
  /-- MMAB (R408): Accumulates FP4 block-scaled products. -/
  | mmab (stage : Nat)
  /-- ACC_CLEAR (R409): Clears one accumulator slot or all four. -/
  | accClear (stage : Nat)
  /-- DRAINP (R410): Drains a slot as PART tokens or Y units. -/
  | drainp (stage : Nat)
  /-- DRAINF (R410): Drains a slot as FINAL tokens or Y units, setting SAT if clamped. -/
  | drainf (stage : Nat)
  /-- STAT (R411): Sends a slot's status, exponent and term counter. -/
  | stat (stage : Nat)
  /-- MTX_NOP (R409): Consumes the control token with no effect. -/
  | mtxNop (stage : Nat)
  /-- MEM_LD (R418): One array vector read for each index token. -/
  | memLd (stage : Nat) (slot : Nat)
  /-- MEM_ST (R418): One array vector write for each index and data pair. -/
  | memSt (stage : Nat) (slot : Nat)
  /-- MEM_LDX (R418): One vector read for each present index lane. -/
  | memLdx (stage : Nat) (slot : Nat)
  /-- MEM_STX (R418): One vector write for each present index lane. -/
  | memStx (stage : Nat) (slot : Nat)
  /-- MEM_GLD (R419): Reads 64 global bytes at the address token. -/
  | memGld (stage : Nat) (slot : Nat)
  /-- MEM_GST (R419): Writes masked lanes to a global address. -/
  | memGst (stage : Nat) (slot : Nat)
  /-- MEM_GLDX (R419): Indexed global element reads. -/
  | memGldx (stage : Nat) (slot : Nat)
  /-- MEM_GSTX (R419): Indexed global element writes. -/
  | memGstx (stage : Nat) (slot : Nat)
  /-- MEM_TAS (R420): Test-and-set of array bits, returning the old bits. -/
  | memTas (stage : Nat) (slot : Nat)
  /-- MEM_RADD (R421): Read-modify-write add on array elements. -/
  | memRadd (stage : Nat) (slot : Nat)
  /-- MEM_RMIN (R421): Read-modify-write signed minimum. -/
  | memRmin (stage : Nat) (slot : Nat)
  /-- MEM_RMAX (R421): Read-modify-write signed maximum. -/
  | memRmax (stage : Nat) (slot : Nat)
  /-- MEM_ROR (R421): Read-modify-write OR. -/
  | memRor (stage : Nat) (slot : Nat)
  /-- MEM_RAND (R421): Read-modify-write AND. -/
  | memRand (stage : Nat) (slot : Nat)
  /-- MEM_RXOR (R421): Read-modify-write XOR. -/
  | memRxor (stage : Nat) (slot : Nat)
  /-- MEM_ECUE (R422): Sends token lanes 0 to 3 as a cue to its engine. -/
  | memEcue (stage : Nat) (slot : Nat)
  /-- GATH (R425): Fills row latches with one index per lane. -/
  | gath (stage : Nat)
  /-- GSEQ (R425): Fills row latches with consecutive indices from one index. -/
  | gseq (stage : Nat)
  /-- ACCESS_PERFORM (R208): A global access of a memory node, gather unit, launch source or sink, or stream port is performed by its home controller, which returns read data, status or an error to the agent. -/
  | accessPerform (stage : Nat) (index : Nat)
  /-- SQUARE_GRANT (R183): In each fc a square or Y bank grants the oldest pending access, subject to the orientation turnaround, and the access performs. -/
  | squareGrant (stage : Nat) (array : Nat) (square : Nat)
  /-- COMBINING_BUFFER_RELEASE (R218): The stream port's UO combining buffer releases a buffered write to the port of its own accord, earlier than any fence, wrap or continuity emission forces it. -/
  | combiningBufferRelease (stage : Nat) (index : Nat)
  /-- FREEZE_ORDER (R353): A SCENEFRZ freeze order from another member's region arrives over the control network and freezes this member region with the originating cause. -/
  | freezeOrder (region : Nat) (cause : BitVec 16)
  /-- PORT_TRAINING_COMPLETE (R76): A chip port completes link training, records its round trip in LK_STAT, and joins a mesh or is left out of step when its partner belongs to another mesh. -/
  | portTrainingComplete (port : Nat) (rtt : Nat) (halfWidth : Bool) (otherMesh : Bool)
  deriving DecidableEq, Repr

end Sys2Proof
end

