-- ==== Sys2Proof/WellFormed.lean ====
section
/-! DEFINITION. Which terms stand for something the part has: stages below 512, contexts below 2,048, ports below 12,
crews below 8, the operand limits of 13 R331, and so on. -/
namespace Sys2Proof

/-- The assigned system register numbers (18 R480). -/
def sysRegs : List Nat :=
  [0x000, 0x001, 0x002, 0x003, 0x004, 0x005, 0x008, 0x009, 0x00A, 0x010, 0x011, 0x012, 0x018, 0x019, 0x020, 0x021, 0x022,
   0x023]

/-- Whether an instruction term names only agents and operands that exist. -/
def wellFormed : Instr → Bool
  | .coldStart _ => true
  | .warmStart _ => true
  | .functionLevelReset _ => true
  | .startStepRetry _ => true
  | .powerRemoval => true
  | .registerWrite off _ _ => off < 0x10000000 && off % 8 == 0
  | .crewEnable crew _ => crew < 8
  | .crewTeardown crew => crew < 8
  | .peerTeardown _ => true
  | .slatePush crew prio _ _ => crew < 8 && prio < 8
  | .queueUnseal crew prio => crew < 8 && prio < 8
  | .launchGo crew slot => crew < 8 && slot < 8
  | .launchAbort crew slot => crew < 8 && slot < 8
  | .launchRelease crew slot => crew < 8 && slot < 8
  | .seedCommit crew slot entry _ => crew < 8 && slot < 8 && entry < 12
  | .eventRingConsume ring _ => ring < 9
  | .dcHiRead crew => crew < 8
  | .hostRegionRelease crew => crew < 8
  | .hostMemoryRead crew off _ => crew < 8 && off < 0x100000000
  | .hostMemoryWrite crew off _ => crew < 8 && off < 0x100000000
  | .pwStatRead => true
  | .cecntRead die => die < 4
  | .sign => true
  | .signComplete => true
  | .update => true
  | .updateComplete => true
  | .restart _ => true
  | .keyLoad _ => true
  | .keyLoadComplete => true
  | .keyRetire _ _ => true
  | .keyRetireComplete => true
  | .ptwWrite _ _ => true
  | .ptwRead => true
  | .xlInv _ => true
  | .xlInvComplete => true
  | .timecodeReacquire => true
  | .reacquisition => true
  | .portRetrain port => port < 12
  | .portDisable port => port < 12
  | .tokenBeat port _ => port < 12
  | .reductionBeat port _ => port < 12
  | .commandBeat port _ => port < 12
  | .timecodeBeat port _ => port < 12
  | .timecodeBeatSend => true
  | .linkControlBeat port _ => port < 12
  | .memoryBeat port _ => port < 12
  | .codewordUncorrectable port => port < 12
  | .laneFailure port _ => port < 12
  | .rootLost _ _ _ => true
  | .thermalReading readings => readings.length == 32
  | .capWindow _ crews => crews.length == 8
  | .baseLevelChange cluster level => cluster < 32 && level < 8
  | .generatorSwitch cluster => cluster < 32
  | .pacingStep region => region < 512
  | .ballastCut => true
  | .schedulingPass => true
  | .slateEnter crew => crew < 8
  | .spillWrite queue => queue < 64
  | .refillRead queue => queue < 64
  | .placementRequest _ => true
  | .placementReply _ peer _ => peer < 16
  | .placementTimeout _ => true
  | .placementCommit _ _ => true
  | .placementCancel _ => true
  | .startTick _ => true
  | .holdBegin _ => true
  | .holdMarker unit => unit.stage < 512 && unit.slot < 32
  | .holdComplete _ => true
  | .regionSaveComplete _ member => member < 64
  | .memberEnd _ member => member < 64
  | .configurationLoad region => region < 512
  | .configurationCompleteWave region => region < 512
  | .startInjection region => region < 512
  | .wrapSample region => region < 512
  | .freeze region _ => region < 512
  | .regionReplay region => region < 512
  | .regionRelease region => region < 512
  | .regionReport region => region < 512
  | .tokenForward stage tile _ => stage < 512 && tile < 4
  | .adderPair _ => true
  | .translationWalk _ crew _ _ => crew < 8
  | .asyncTrap ctx => ctx < 2048
  | .runAhead ctx => ctx < 2048
  | .loadDataReturn ctx _ => ctx < 2048
  | .storePerform ctx _ => ctx < 2048
  | .cueEntryIssue stage => stage < 512
  | .cueEntryRetire stage entry => stage < 512 && entry < 64
  | .operationComplete _ => true
  | .walkStep _ => true
  | .walkHandoff _ => true
  | .rulesetInstall _ engine => engine < 12
  | .barrierElapsed crew die _ => crew < 8 && die < 4
  | .barrierTimeout crew die _ => crew < 8 && die < 4
  | .add _ _ _ => true
  | .sub _ _ _ => true
  | .and _ _ _ => true
  | .or _ _ _ => true
  | .xor _ _ _ => true
  | .sll _ _ _ => true
  | .srl _ _ _ => true
  | .sra _ _ _ => true
  | .slt _ _ _ => true
  | .sltu _ _ _ => true
  | .mul _ _ _ => true
  | .mulh _ _ _ => true
  | .mulhu _ _ _ => true
  | .div _ _ _ => true
  | .divu _ _ _ => true
  | .rem _ _ _ => true
  | .remu _ _ _ => true
  | .addi _ _ _ => true
  | .andi _ _ _ => true
  | .ori _ _ _ => true
  | .xori _ _ _ => true
  | .slti _ _ _ => true
  | .slli _ _ _ => true
  | .srli _ _ _ => true
  | .srai _ _ _ => true
  | .ldi _ _ => true
  | .lsi _ _ _ => true
  | .lb _ _ _ => true
  | .lbu _ _ _ => true
  | .lh _ _ _ => true
  | .lhu _ _ _ => true
  | .lw _ _ _ => true
  | .lwu _ _ _ => true
  | .ld _ _ _ => true
  | .sb _ _ _ => true
  | .sh _ _ _ => true
  | .sw _ _ _ => true
  | .sd _ _ _ => true
  | .ldp _ _ _ => true
  | .stp _ _ _ => true
  | .lda _ _ _ _ => true
  | .sdr _ _ _ _ => true
  | .beq _ _ _ => true
  | .bne _ _ _ => true
  | .blt _ _ _ => true
  | .bge _ _ _ => true
  | .bltu _ _ _ => true
  | .bgeu _ _ _ => true
  | .j _ => true
  | .jal _ => true
  | .jalr _ _ _ => true
  | .hint _ => true
  | .take _ _ _ _ _ => true
  | .ctx _ _ wmask _ => wmask ≠ 0
  | .bindSource _ _ _ _ => true
  | .bindSink _ _ _ _ => true
  | .bindSeed _ _ => true
  | .bindQuery _ _ => true
  | .seed _ _ _ _ => true
  | .wrapw _ => true
  | .hold _ => true
  | .cue _ a => a.toNat ≤ 28
  | .waitc _ _ _ _ => true
  | .fence _ => true
  | .spawn _ _ => true
  | .join _ => true
  | .bar _ _ _ => true
  | .algld _ slot => 1 ≤ slot.toNat && slot.toNat ≤ 7
  | .trap _ => true
  | .tret => true
  | .sysr _ reg => sysRegs.contains reg.toNat
  | .sysw _ reg => sysRegs.contains reg.toNat
  | .copy _ => true
  | .copyad _ => true
  | .rgather _ => true
  | .zero _ => true
  | .walk _ => true
  | .rsload _ => true
  | .rsrel _ => true
  | .atadd _ => true
  | .atmin _ => true
  | .atmax _ => true
  | .atand _ => true
  | .ator _ => true
  | .atxor _ => true
  | .atswp _ => true
  | .atcas _ => true
  | .accadd _ => true
  | .barinit _ => true
  | .arrive _ => true
  | .alloc _ => true
  | .swrite _ => true
  | .sread _ => true
  | .cbind _ => true
  | .crel _ => true
  | .regen _ => true
  | .save _ => true
  | .restore _ => true
  | .pass stage tile oslot => stage < 512 && tile < 4 && oslot < 4
  | .steer stage tile oslot => stage < 512 && tile < 4 && oslot < 4
  | .merge stage tile oslot => stage < 512 && tile < 4 && oslot < 4
  | .carry stage tile oslot => stage < 512 && tile < 4 && oslot < 4
  | .invar stage tile oslot => stage < 512 && tile < 4 && oslot < 4
  | .fork stage tile oslot => stage < 512 && tile < 4 && oslot < 4
  | .joinOperator stage tile oslot => stage < 512 && tile < 4 && oslot < 4
  | .permit stage tile oslot => stage < 512 && tile < 4 && oslot < 4
  | .aluAdd stage slot => stage < 512 && slot < 8
  | .aluSub stage slot => stage < 512 && slot < 8
  | .aluMul stage slot => stage < 512 && slot < 8
  | .aluFma stage slot => stage < 512 && slot < 8
  | .aluMin stage slot => stage < 512 && slot < 8
  | .aluMax stage slot => stage < 512 && slot < 8
  | .aluAbs stage slot => stage < 512 && slot < 8
  | .aluNeg stage slot => stage < 512 && slot < 8
  | .aluRcp stage slot => stage < 512 && slot < 8
  | .aluRsqrt stage slot => stage < 512 && slot < 8
  | .aluAdds stage slot => stage < 512 && slot < 8
  | .aluSubs stage slot => stage < 512 && slot < 8
  | .aluCeq stage slot => stage < 512 && slot < 8
  | .aluCne stage slot => stage < 512 && slot < 8
  | .aluClt stage slot => stage < 512 && slot < 8
  | .aluCle stage slot => stage < 512 && slot < 8
  | .aluSel stage slot => stage < 512 && slot < 8
  | .aluAnd stage slot => stage < 512 && slot < 8
  | .aluOr stage slot => stage < 512 && slot < 8
  | .aluXor stage slot => stage < 512 && slot < 8
  | .aluNot stage slot => stage < 512 && slot < 8
  | .aluShl stage slot => stage < 512 && slot < 8
  | .aluShr stage slot => stage < 512 && slot < 8
  | .aluSra stage slot => stage < 512 && slot < 8
  | .aluClz stage slot => stage < 512 && slot < 8
  | .aluPopc stage slot => stage < 512 && slot < 8
  | .aluMov stage slot => stage < 512 && slot < 8
  | .aluBcast stage slot => stage < 512 && slot < 8
  | .algAmul stage slot => stage < 512 && slot < 8
  | .algAconj stage slot => stage < 512 && slot < 8
  | .algAnorm stage slot => stage < 512 && slot < 8
  | .algAscale stage slot => stage < 512 && slot < 8
  | .algAadd stage slot => stage < 512 && slot < 8
  | .algAsub stage slot => stage < 512 && slot < 8
  | .cvtCvt stage slot => stage < 512 && slot < 8
  | .cvtCvti stage slot => stage < 512 && slot < 8
  | .cvtCvtf stage slot => stage < 512 && slot < 8
  | .cvtCvta stage slot => stage < 512 && slot < 8
  | .wcvSplit stage slot => stage < 512 && slot < 8
  | .wcvPack stage slot => stage < 512 && slot < 8
  | .wcvUnzip stage slot => stage < 512 && slot < 8
  | .rdcSumc stage slot => stage < 512 && slot < 8
  | .rdcSuma stage slot => stage < 512 && slot < 8
  | .rdcMaxr stage slot => stage < 512 && slot < 8
  | .rdcMinr stage slot => stage < 512 && slot < 8
  | .rdcCnt stage slot => stage < 512 && slot < 8
  | .rdcArgmax stage slot => stage < 512 && slot < 8
  | .seqRange stage slot => stage < 512 && slot < 8
  | .seqNest stage slot => stage < 512 && slot < 8
  | .seqMtok stage slot => stage < 512 && slot < 8
  | .seqBtab stage slot => stage < 512 && slot < 8
  | .seqTags stage slot => stage < 512 && slot < 8
  | .isxIsect stage slot => stage < 512 && slot < 8
  | .isxUnion stage slot => stage < 512 && slot < 8
  | .isxDiff stage slot => stage < 512 && slot < 8
  | .spaAccum stage slot => stage < 512 && slot < 8
  | .spaFlush stage slot => stage < 512 && slot < 8
  | .spaFlushs stage slot => stage < 512 && slot < 8
  | .spaClr stage slot => stage < 512 && slot < 8
  | .fltKeep stage slot => stage < 512 && slot < 8
  | .fltDrop stage slot => stage < 512 && slot < 8
  | .fltCompact stage slot => stage < 512 && slot < 8
  | .ordReord stage slot => stage < 512 && slot < 8
  | .ordTag stage slot => stage < 512 && slot < 8
  | .elbSlack stage slot => stage < 512 && slot < 8
  | .elbWatch stage slot => stage < 512 && slot < 8
  | .crtTurn stage slot => stage < 512 && slot < 8
  | .crtTurnw stage slot => stage < 512 && slot < 8
  | .mma stage => stage < 512
  | .mmaa stage => stage < 512
  | .mmas stage => stage < 512
  | .mmab stage => stage < 512
  | .accClear stage => stage < 512
  | .drainp stage => stage < 512
  | .drainf stage => stage < 512
  | .stat stage => stage < 512
  | .mtxNop stage => stage < 512
  | .memLd stage slot => stage < 512 && (decide (slot = 9) || decide (slot = 10))
  | .memSt stage slot => stage < 512 && (decide (slot = 9) || decide (slot = 10))
  | .memLdx stage slot => stage < 512 && (decide (slot = 9) || decide (slot = 10))
  | .memStx stage slot => stage < 512 && (decide (slot = 9) || decide (slot = 10))
  | .memGld stage slot => stage < 512 && (decide (slot = 9) || decide (slot = 10))
  | .memGst stage slot => stage < 512 && (decide (slot = 9) || decide (slot = 10))
  | .memGldx stage slot => stage < 512 && (decide (slot = 9) || decide (slot = 10))
  | .memGstx stage slot => stage < 512 && (decide (slot = 9) || decide (slot = 10))
  | .memTas stage slot => stage < 512 && (decide (slot = 9) || decide (slot = 10))
  | .memRadd stage slot => stage < 512 && (decide (slot = 9) || decide (slot = 10))
  | .memRmin stage slot => stage < 512 && (decide (slot = 9) || decide (slot = 10))
  | .memRmax stage slot => stage < 512 && (decide (slot = 9) || decide (slot = 10))
  | .memRor stage slot => stage < 512 && (decide (slot = 9) || decide (slot = 10))
  | .memRand stage slot => stage < 512 && (decide (slot = 9) || decide (slot = 10))
  | .memRxor stage slot => stage < 512 && (decide (slot = 9) || decide (slot = 10))
  | .memEcue stage slot => stage < 512 && (decide (slot = 9) || decide (slot = 10))
  | .gath stage => stage < 512
  | .gseq stage => stage < 512
  | .accessPerform stage _ => stage < 512
  | .squareGrant stage array _ => stage < 512 && array < 3
  | .combiningBufferRelease stage _ => stage < 512
  | .freezeOrder region _ => region < 512
  | .portTrainingComplete port _ _ _ => port < 12

end Sys2Proof
end

