-- ==== Sys2Proof/Decode.lean ====
section
/-! DEFINITION. Decoding and encoding of director script words (13 R329-R332): any four bytes either decode to an
instruction or are rejected by name. A rejected word takes the ILLEGAL trap (13 R313, 12 R289). Operand limits that a
word's fields can break (13 R331: a register above g28 in CUE, an empty WMASK in CTX, a slot outside 1-7 in ALGLD) are
checked where the instruction runs, and take ILLEGAL too. -/
namespace Sys2Proof

/-- Why a word is no instruction (13 R313, R330). -/
inductive DecodeError where
  /-- the major opcode is unassigned (13 R331) -/
  | unassigned
  /-- a reserved fn value (13 R332) -/
  | reservedFn
  /-- a field that the instruction does not use is not zero (13 R330) -/
  | unusedField
  /-- fewer than four bytes -/
  | short
  deriving DecidableEq, Repr

/-- `len` bits of the word from bit `lo`. -/
def fRange (w : Code) (lo len : Nat) : BitVec len := w.extractLsb' lo len
/-- The major opcode, bits [31:25]. -/
def fOp (w : Code) : BitVec 7 := fRange w 25 7
/-- Field d (B format: a), bits [24:20]. -/
def fD (w : Code) : BitVec 5 := fRange w 20 5
/-- Field a (B format: b), bits [19:15]. -/
def fA (w : Code) : BitVec 5 := fRange w 15 5
/-- Field b, bits [14:10]. -/
def fB (w : Code) : BitVec 5 := fRange w 10 5
/-- Field fn, bits [9:0]. -/
def fFn (w : Code) : BitVec 10 := fRange w 0 10
/-- Field imm15 or off15, bits [14:0]. -/
def fImm (w : Code) : BitVec 15 := fRange w 0 15

/-- An unused field must be zero (13 R330). -/
def zeroField {n : Nat} (f : BitVec n) (r : Except DecodeError Instr) : Except DecodeError Instr :=
  if f = 0#n then r else .error .unusedField

/-- The OP group (13 R332). -/
def decodeOp (w : Code) : Except DecodeError Instr :=
  let d := fD w
  let a := fA w
  let b := fB w
  match (fFn w).toNat with
  | 0x0 => .ok (.add d a b)
  | 0x1 => .ok (.sub d a b)
  | 0x2 => .ok (.and d a b)
  | 0x3 => .ok (.or d a b)
  | 0x4 => .ok (.xor d a b)
  | 0x5 => .ok (.sll d a b)
  | 0x6 => .ok (.srl d a b)
  | 0x7 => .ok (.sra d a b)
  | 0x8 => .ok (.slt d a b)
  | 0x9 => .ok (.sltu d a b)
  | 0xa => .ok (.mul d a b)
  | 0xb => .ok (.mulh d a b)
  | 0xc => .ok (.mulhu d a b)
  | 0xd => .ok (.div d a b)
  | 0xe => .ok (.divu d a b)
  | 0xf => .ok (.rem d a b)
  | 0x10 => .ok (.remu d a b)
  | _ => .error .reservedFn

/-- BIND by its KIND, fn[9:8] (18 R467); a and b are zero with KIND 2 and 3. -/
def decodeBind (w : Code) : Except DecodeError Instr :=
  match (fRange w 8 2).toNat with
  | 0 => .ok (.bindSource (fD w) (fA w) (fB w) (fRange w 0 8))
  | 1 => .ok (.bindSink (fD w) (fA w) (fB w) (fRange w 0 8))
  | 2 => zeroField (fRange w 10 10) (.ok (.bindSeed (fD w) (fRange w 0 8)))
  | _ => zeroField (fRange w 10 10) (.ok (.bindQuery (fD w) (fRange w 0 8)))

/-- A script word to its instruction (13 R331). -/
def decode (w : Code) : Except DecodeError Instr :=
  match (fOp w).toNat with
  | 0x01 => decodeOp w
  | 0x02 => .ok (.addi (fD w) (fA w) (fImm w))
  | 0x03 => .ok (.andi (fD w) (fA w) (fImm w))
  | 0x04 => .ok (.ori (fD w) (fA w) (fImm w))
  | 0x05 => .ok (.xori (fD w) (fA w) (fImm w))
  | 0x06 => .ok (.slti (fD w) (fA w) (fImm w))
  | 0x07 => zeroField (fRange w 6 9) (.ok (.slli (fD w) (fA w) (fRange w 0 6)))
  | 0x08 => zeroField (fRange w 6 9) (.ok (.srli (fD w) (fA w) (fRange w 0 6)))
  | 0x09 => zeroField (fRange w 6 9) (.ok (.srai (fD w) (fA w) (fRange w 0 6)))
  | 0x0a => .ok (.ldi (fD w) (fRange w 0 20))
  | 0x0b => .ok (.lsi (fD w) (fA w) (fImm w))
  | 0x10 => .ok (.lb (fD w) (fA w) (fImm w))
  | 0x11 => .ok (.lbu (fD w) (fA w) (fImm w))
  | 0x12 => .ok (.lh (fD w) (fA w) (fImm w))
  | 0x13 => .ok (.lhu (fD w) (fA w) (fImm w))
  | 0x14 => .ok (.lw (fD w) (fA w) (fImm w))
  | 0x15 => .ok (.lwu (fD w) (fA w) (fImm w))
  | 0x16 => .ok (.ld (fD w) (fA w) (fImm w))
  | 0x18 => .ok (.sb (fD w) (fA w) (fImm w))
  | 0x19 => .ok (.sh (fD w) (fA w) (fImm w))
  | 0x1a => .ok (.sw (fD w) (fA w) (fImm w))
  | 0x1b => .ok (.sd (fD w) (fA w) (fImm w))
  | 0x1c => .ok (.ldp (fD w) (fA w) (fImm w))
  | 0x1d => .ok (.stp (fD w) (fA w) (fImm w))
  | 0x1e => zeroField (fRange w 4 11) (.ok (.lda (fD w) (fA w) (fRange w 2 2) (fRange w 0 2)))
  | 0x1f => zeroField (fD w) (zeroField (fRange w 4 6) (.ok (.sdr (fA w) (fB w) (fRange w 2 2) (fRange w 0 2))))
  | 0x20 => .ok (.beq (fD w) (fA w) (fImm w))
  | 0x21 => .ok (.bne (fD w) (fA w) (fImm w))
  | 0x22 => .ok (.blt (fD w) (fA w) (fImm w))
  | 0x23 => .ok (.bge (fD w) (fA w) (fImm w))
  | 0x24 => .ok (.bltu (fD w) (fA w) (fImm w))
  | 0x25 => .ok (.bgeu (fD w) (fA w) (fImm w))
  | 0x28 => .ok (.j (fRange w 0 25))
  | 0x29 => .ok (.jal (fRange w 0 25))
  | 0x2a => zeroField (fRange w 21 4) (.ok (.jalr (fRange w 20 1) (fA w) (fImm w)))
  | 0x2b => .ok (.hint (fRange w 0 25))
  | 0x30 => zeroField (fRange w 8 7) (.ok (.take (fD w) (fA w) (fRange w 6 2) (fRange w 2 4) (fRange w 0 2)))
  | 0x31 => zeroField (fRange w 6 9) (.ok (.ctx (fD w) (fA w) (fRange w 2 4) (fRange w 0 2)))
  | 0x32 => decodeBind w
  | 0x33 => zeroField (fRange w 8 2) (.ok (.seed (fD w) (fA w) (fB w) (fRange w 0 8)))
  | 0x34 => zeroField (fRange w 0 20) (.ok (.wrapw (fD w)))
  | 0x35 => zeroField (fRange w 0 20) (.ok (.hold (fD w)))
  | 0x38 => zeroField (fRange w 0 15) (.ok (.cue (fD w) (fA w)))
  | 0x39 => .ok (.waitc (fD w) (fA w) (fRange w 6 9) (fRange w 0 6))
  | 0x3a => zeroField (fRange w 2 23) (.ok (.fence (fRange w 0 2)))
  | 0x3b => zeroField (fRange w 0 15) (.ok (.spawn (fD w) (fA w)))
  | 0x3c => zeroField (fD w) (zeroField (fRange w 0 15) (.ok (.join (fA w))))
  | 0x3d => zeroField (fRange w 1 14) (.ok (.bar (fD w) (fA w) (fRange w 0 1)))
  | 0x3e => zeroField (fD w) (.ok (.algld (fA w) (fImm w)))
  | 0x40 => zeroField (fRange w 15 10) (.ok (.trap (fImm w)))
  | 0x41 => zeroField (fRange w 0 25) (.ok .tret)
  | 0x42 => zeroField (fRange w 0 8) (.ok (.sysr (fD w) (fRange w 8 12)))
  | 0x43 => zeroField (fRange w 0 8) (.ok (.sysw (fD w) (fRange w 8 12)))
  | _ => .error .unassigned

/-- The word of four bytes, the least significant byte first (00 R3). -/
def wordOfBytes (b0 b1 b2 b3 : Byte) : Code := b3 ++ b2 ++ b1 ++ b0

/-- Decoding any bytes: the instruction and the bytes that follow it. -/
def decodeBytes : List Byte → Except DecodeError (Instr × List Byte)
  | b0 :: b1 :: b2 :: b3 :: rest =>
    match decode (wordOfBytes b0 b1 b2 b3) with
    | .ok i => .ok (i, rest)
    | .error e => .error e
  | _ => .error .short

/-- The four bytes of a word as memory holds them. -/
def codeBytes (w : Code) : List Byte :=
  [w.extractLsb' 0 8, w.extractLsb' 8 8, w.extractLsb' 16 8, w.extractLsb' 24 8]

/-- The instruction the decoder reads from an instruction whose bits are `w` (bits above `nbits` are zero). -/
def decodeTableWord (nbits w : Nat) : Option Instr :=
  match decodeBytes (codeBytes (BitVec.ofNat 32 (w % 2 ^ nbits))) with
  | .ok (i, _) => some i
  | .error _ => none

/-- RR format: op, d, a, b, fn (13 R329). -/
def wordRR (op : BitVec 7) (d a b : BitVec 5) (fn : BitVec 10) : Code := op ++ d ++ a ++ b ++ fn
/-- RI and B formats: op, d, a, imm15 (13 R329). -/
def wordRI (op : BitVec 7) (d a : BitVec 5) (imm : BitVec 15) : Code := op ++ d ++ a ++ imm
/-- LDI: op, d and a 20-bit immediate (13 R330). -/
def wordLDI (op : BitVec 7) (d : BitVec 5) (imm : BitVec 20) : Code := op ++ d ++ imm
/-- J format: op, off25 (13 R329). -/
def wordJ (op : BitVec 7) (off : BitVec 25) : Code := op ++ off
/-- W format: op, L, S, C, T (13 R329). -/
def wordW (op : BitVec 7) (l st : BitVec 5) (c : BitVec 9) (t : BitVec 6) : Code := op ++ l ++ st ++ c ++ t
/-- SY format: op, d, sysreg, zero (13 R329). -/
def wordSY (op : BitVec 7) (d : BitVec 5) (reg : BitVec 12) : Code := op ++ d ++ reg ++ 0#8

/-- The word of a script instruction (13 R329-R332); the other steps of the part have no script word. -/
def encode : Instr → Option Code
  | .coldStart _ => none
  | .warmStart _ => none
  | .functionLevelReset _ => none
  | .startStepRetry _ => none
  | .powerRemoval => none
  | .registerWrite _ _ _ => none
  | .crewEnable _ _ => none
  | .crewTeardown _ => none
  | .peerTeardown _ => none
  | .slatePush _ _ _ _ => none
  | .queueUnseal _ _ => none
  | .launchGo _ _ => none
  | .launchAbort _ _ => none
  | .launchRelease _ _ => none
  | .seedCommit _ _ _ _ => none
  | .eventRingConsume _ _ => none
  | .dcHiRead _ => none
  | .hostRegionRelease _ => none
  | .hostMemoryRead _ _ _ => none
  | .hostMemoryWrite _ _ _ => none
  | .pwStatRead => none
  | .cecntRead _ => none
  | .sign => none
  | .signComplete => none
  | .update => none
  | .updateComplete => none
  | .restart _ => none
  | .keyLoad _ => none
  | .keyLoadComplete => none
  | .keyRetire _ _ => none
  | .keyRetireComplete => none
  | .ptwWrite _ _ => none
  | .ptwRead => none
  | .xlInv _ => none
  | .xlInvComplete => none
  | .timecodeReacquire => none
  | .reacquisition => none
  | .portRetrain _ => none
  | .portDisable _ => none
  | .tokenBeat _ _ => none
  | .reductionBeat _ _ => none
  | .commandBeat _ _ => none
  | .timecodeBeat _ _ => none
  | .timecodeBeatSend => none
  | .linkControlBeat _ _ => none
  | .memoryBeat _ _ => none
  | .codewordUncorrectable _ => none
  | .laneFailure _ _ => none
  | .rootLost _ _ _ => none
  | .thermalReading _ => none
  | .capWindow _ _ => none
  | .baseLevelChange _ _ => none
  | .generatorSwitch _ => none
  | .pacingStep _ => none
  | .ballastCut => none
  | .schedulingPass => none
  | .slateEnter _ => none
  | .spillWrite _ => none
  | .refillRead _ => none
  | .placementRequest _ => none
  | .placementReply _ _ _ => none
  | .placementTimeout _ => none
  | .placementCommit _ _ => none
  | .placementCancel _ => none
  | .startTick _ => none
  | .holdBegin _ => none
  | .holdMarker _ => none
  | .holdComplete _ => none
  | .regionSaveComplete _ _ => none
  | .memberEnd _ _ => none
  | .configurationLoad _ => none
  | .configurationCompleteWave _ => none
  | .startInjection _ => none
  | .wrapSample _ => none
  | .freeze _ _ => none
  | .regionReplay _ => none
  | .regionRelease _ => none
  | .regionReport _ => none
  | .tokenForward _ _ _ => none
  | .adderPair _ => none
  | .translationWalk _ _ _ _ => none
  | .asyncTrap _ => none
  | .runAhead _ => none
  | .loadDataReturn _ _ => none
  | .storePerform _ _ => none
  | .cueEntryIssue _ => none
  | .cueEntryRetire _ _ => none
  | .operationComplete _ => none
  | .walkStep _ => none
  | .walkHandoff _ => none
  | .rulesetInstall _ _ => none
  | .barrierElapsed _ _ _ => none
  | .barrierTimeout _ _ _ => none
  | .add d a b => some (wordRR 0x01 d a b 0x000)
  | .sub d a b => some (wordRR 0x01 d a b 0x001)
  | .and d a b => some (wordRR 0x01 d a b 0x002)
  | .or d a b => some (wordRR 0x01 d a b 0x003)
  | .xor d a b => some (wordRR 0x01 d a b 0x004)
  | .sll d a b => some (wordRR 0x01 d a b 0x005)
  | .srl d a b => some (wordRR 0x01 d a b 0x006)
  | .sra d a b => some (wordRR 0x01 d a b 0x007)
  | .slt d a b => some (wordRR 0x01 d a b 0x008)
  | .sltu d a b => some (wordRR 0x01 d a b 0x009)
  | .mul d a b => some (wordRR 0x01 d a b 0x00a)
  | .mulh d a b => some (wordRR 0x01 d a b 0x00b)
  | .mulhu d a b => some (wordRR 0x01 d a b 0x00c)
  | .div d a b => some (wordRR 0x01 d a b 0x00d)
  | .divu d a b => some (wordRR 0x01 d a b 0x00e)
  | .rem d a b => some (wordRR 0x01 d a b 0x00f)
  | .remu d a b => some (wordRR 0x01 d a b 0x010)
  | .addi d a imm => some (wordRI 0x02 d a imm)
  | .andi d a imm => some (wordRI 0x03 d a imm)
  | .ori d a imm => some (wordRI 0x04 d a imm)
  | .xori d a imm => some (wordRI 0x05 d a imm)
  | .slti d a imm => some (wordRI 0x06 d a imm)
  | .slli d a n => some (wordRI 0x07 d a (0#9 ++ n))
  | .srli d a n => some (wordRI 0x08 d a (0#9 ++ n))
  | .srai d a n => some (wordRI 0x09 d a (0#9 ++ n))
  | .ldi d imm => some (wordLDI 0x0a d imm)
  | .lsi d a imm => some (wordRI 0x0b d a imm)
  | .lb d a imm => some (wordRI 0x10 d a imm)
  | .lbu d a imm => some (wordRI 0x11 d a imm)
  | .lh d a imm => some (wordRI 0x12 d a imm)
  | .lhu d a imm => some (wordRI 0x13 d a imm)
  | .lw d a imm => some (wordRI 0x14 d a imm)
  | .lwu d a imm => some (wordRI 0x15 d a imm)
  | .ld d a imm => some (wordRI 0x16 d a imm)
  | .sb d a imm => some (wordRI 0x18 d a imm)
  | .sh d a imm => some (wordRI 0x19 d a imm)
  | .sw d a imm => some (wordRI 0x1a d a imm)
  | .sd d a imm => some (wordRI 0x1b d a imm)
  | .ldp d a imm => some (wordRI 0x1c d a imm)
  | .stp d a imm => some (wordRI 0x1d d a imm)
  | .lda d a width scope => some (wordRR 0x1e d a 0 (0#6 ++ width ++ scope))
  | .sdr a b width scope => some (wordRR 0x1f 0 a b (0#6 ++ width ++ scope))
  | .beq a b off => some (wordRI 0x20 a b off)
  | .bne a b off => some (wordRI 0x21 a b off)
  | .blt a b off => some (wordRI 0x22 a b off)
  | .bge a b off => some (wordRI 0x23 a b off)
  | .bltu a b off => some (wordRI 0x24 a b off)
  | .bgeu a b off => some (wordRI 0x25 a b off)
  | .j off => some (wordJ 0x28 off)
  | .jal off => some (wordJ 0x29 off)
  | .jalr link a imm => some (wordRI 0x2a (0#4 ++ link) a imm)
  | .hint off => some (wordJ 0x2b off)
  | .take d a act wmask map => some (wordRI 0x30 d a (0#7 ++ act ++ wmask ++ map))
  | .ctx d a wmask map => some (wordRI 0x31 d a (0#9 ++ wmask ++ map))
  | .bindSource d a b port => some (wordRR 0x32 d a b (0#2 ++ port))
  | .bindSink d a b port => some (wordRR 0x32 d a b (1#2 ++ port))
  | .bindSeed d port => some (wordRR 0x32 d 0 0 (2#2 ++ port))
  | .bindQuery d port => some (wordRR 0x32 d 0 0 (3#2 ++ port))
  | .seed d a b port => some (wordRR 0x33 d a b (0#2 ++ port))
  | .wrapw d => some (wordRR 0x34 d 0 0 0)
  | .hold d => some (wordRR 0x35 d 0 0 0)
  | .cue d a => some (wordRR 0x38 d a 0 0)
  | .waitc l st c t => some (wordW 0x39 l st c t)
  | .fence scope => some (wordRR 0x3a 0 0 0 (0#8 ++ scope))
  | .spawn d a => some (wordRR 0x3b d a 0 0)
  | .join a => some (wordRR 0x3c 0 a 0 0)
  | .bar d a phase => some (wordRI 0x3d d a (0#14 ++ phase))
  | .algld a slot => some (wordRI 0x3e 0 a slot)
  | .trap imm => some (wordRI 0x40 0 0 imm)
  | .tret => some (wordRR 0x41 0 0 0 0)
  | .sysr d reg => some (wordSY 0x42 d reg)
  | .sysw d reg => some (wordSY 0x43 d reg)
  | .copy _ => none
  | .copyad _ => none
  | .rgather _ => none
  | .zero _ => none
  | .walk _ => none
  | .rsload _ => none
  | .rsrel _ => none
  | .atadd _ => none
  | .atmin _ => none
  | .atmax _ => none
  | .atand _ => none
  | .ator _ => none
  | .atxor _ => none
  | .atswp _ => none
  | .atcas _ => none
  | .accadd _ => none
  | .barinit _ => none
  | .arrive _ => none
  | .alloc _ => none
  | .swrite _ => none
  | .sread _ => none
  | .cbind _ => none
  | .crel _ => none
  | .regen _ => none
  | .save _ => none
  | .restore _ => none
  | .pass _ _ _ => none
  | .steer _ _ _ => none
  | .merge _ _ _ => none
  | .carry _ _ _ => none
  | .invar _ _ _ => none
  | .fork _ _ _ => none
  | .joinOperator _ _ _ => none
  | .permit _ _ _ => none
  | .aluAdd _ _ => none
  | .aluSub _ _ => none
  | .aluMul _ _ => none
  | .aluFma _ _ => none
  | .aluMin _ _ => none
  | .aluMax _ _ => none
  | .aluAbs _ _ => none
  | .aluNeg _ _ => none
  | .aluRcp _ _ => none
  | .aluRsqrt _ _ => none
  | .aluAdds _ _ => none
  | .aluSubs _ _ => none
  | .aluCeq _ _ => none
  | .aluCne _ _ => none
  | .aluClt _ _ => none
  | .aluCle _ _ => none
  | .aluSel _ _ => none
  | .aluAnd _ _ => none
  | .aluOr _ _ => none
  | .aluXor _ _ => none
  | .aluNot _ _ => none
  | .aluShl _ _ => none
  | .aluShr _ _ => none
  | .aluSra _ _ => none
  | .aluClz _ _ => none
  | .aluPopc _ _ => none
  | .aluMov _ _ => none
  | .aluBcast _ _ => none
  | .algAmul _ _ => none
  | .algAconj _ _ => none
  | .algAnorm _ _ => none
  | .algAscale _ _ => none
  | .algAadd _ _ => none
  | .algAsub _ _ => none
  | .cvtCvt _ _ => none
  | .cvtCvti _ _ => none
  | .cvtCvtf _ _ => none
  | .cvtCvta _ _ => none
  | .wcvSplit _ _ => none
  | .wcvPack _ _ => none
  | .wcvUnzip _ _ => none
  | .rdcSumc _ _ => none
  | .rdcSuma _ _ => none
  | .rdcMaxr _ _ => none
  | .rdcMinr _ _ => none
  | .rdcCnt _ _ => none
  | .rdcArgmax _ _ => none
  | .seqRange _ _ => none
  | .seqNest _ _ => none
  | .seqMtok _ _ => none
  | .seqBtab _ _ => none
  | .seqTags _ _ => none
  | .isxIsect _ _ => none
  | .isxUnion _ _ => none
  | .isxDiff _ _ => none
  | .spaAccum _ _ => none
  | .spaFlush _ _ => none
  | .spaFlushs _ _ => none
  | .spaClr _ _ => none
  | .fltKeep _ _ => none
  | .fltDrop _ _ => none
  | .fltCompact _ _ => none
  | .ordReord _ _ => none
  | .ordTag _ _ => none
  | .elbSlack _ _ => none
  | .elbWatch _ _ => none
  | .crtTurn _ _ => none
  | .crtTurnw _ _ => none
  | .mma _ => none
  | .mmaa _ => none
  | .mmas _ => none
  | .mmab _ => none
  | .accClear _ => none
  | .drainp _ => none
  | .drainf _ => none
  | .stat _ => none
  | .mtxNop _ => none
  | .memLd _ _ => none
  | .memSt _ _ => none
  | .memLdx _ _ => none
  | .memStx _ _ => none
  | .memGld _ _ => none
  | .memGst _ _ => none
  | .memGldx _ _ => none
  | .memGstx _ _ => none
  | .memTas _ _ => none
  | .memRadd _ _ => none
  | .memRmin _ _ => none
  | .memRmax _ _ => none
  | .memRor _ _ => none
  | .memRand _ _ => none
  | .memRxor _ _ => none
  | .memEcue _ _ => none
  | .gath _ => none
  | .gseq _ => none
  | .accessPerform _ _ => none
  | .squareGrant _ _ _ => none
  | .combiningBufferRelease _ _ => none
  | .freezeOrder _ _ => none
  | .portTrainingComplete _ _ _ _ => none

end Sys2Proof
end

