-- ==== Sys2Proof/Config.lean ====
section
/-! DEFINITION. What the spec leaves to each implementation or leaves open: uninterpreted constants with no body. -/
namespace Sys2Proof.Config

/-- The value of the n-th open (unpredictable, 00 R8) word the machine meets; `State.freeCtr` counts them.
[DESIGN CHOICE, log 2] -/
opaque freeValue : Nat → BitVec 64

/-- The value of the n-th open block of 512 bits. [DESIGN CHOICE, log 2] -/
opaque freeBlock : Nat → BitVec 512

/-- Word `n` of the private memory that a context finds at its entry (08 R200: its contents at entry are unpredictable); each
entry has a number of its own. [DESIGN CHOICE, log 2] -/
opaque privateWord : Nat → Nat → BitVec 64

/-- The byte that a plain read of a sync backing area returns, unpredictable by 11 R279: free-value count, time, reader and
virtual address of the byte. [DESIGN CHOICE, log 2] -/
opaque backingByte : Nat → Nat → Nat → Nat → BitVec 8

/-- What is derived at manufacture from the device secret (03 R70, with no formula): 0 the seed of the identity key's chains, 1
the key of its pseudorandom function, 2 its public SEED. [PRESUMED, log 14] -/
opaque identitySeed : BitVec 256 → Nat → BitVec 256

/-- The current, in mA, to which the activity of a die tends at its n-th estimate, ten ns apart (04 R90: estimated from
activity counters). [PRESUMED, log 14] -/
opaque railCurrent : Nat → Nat → Nat

/-- The module's running 1 ms average power, in W, at its n-th sample, ten ns apart (04 R93: measured, with no formula).
[PRESUMED, log 14] -/
opaque averagePower : Nat → Nat

/-- Whether the flash takes the write after the n-th open value (03 R69, R71: a flash may fail). [DEDUCED, log 20] -/
opaque flashTakes : Nat → Bool

/-- Whether that write reads back as it was written. [DEDUCED, log 20] -/
opaque flashReads : Nat → Bool

end Sys2Proof.Config
end

