-- ==== Sys2Proof/Machine/Crypto.lean ====
section
/-! DEFINITION. The published algorithms the spec names: Keccak and its extendable-output functions (10 R235; 03 R61, R67),
XMSS verification (03 R67) and AES-XTS-256 (01 R21). The spec names FIPS 202, NIST SP 800-208, FIPS 197 and IEEE 1619 and does
not restate them. -/
namespace Sys2Proof.Machine

/-! ## Bytes and numbers (00 R3) -/

/-- The number that bytes hold, least significant first. -/
def leNat : List Byte → Nat
  | [] => 0
  | b :: bs => b.toNat + 256 * leNat bs

/-- `n` bytes of a number, least significant first. -/
def leBytes : Nat → Nat → List Byte
  | 0, _ => []
  | n + 1, v => BitVec.ofNat 8 v :: leBytes n (v / 256)

/-! ## Keccak (FIPS 202) -/

/-- A lane rotated towards its high end. -/
def turnLane (v : Word) (n : Nat) : Word := v.rotateLeft (n % 64)

/-- The 1,600 bits: lane x of sheet row y stands at place x + 5 y. -/
abbrev Sponge := List Word

/-- The parities of the five columns. -/
def columnParity (s : Sponge) : List Word :=
  match s with
  | [] => []
  | _ => (List.range 5).map fun x => ((List.range 5).map fun y => s.getD (x + 5 * y) 0).foldl (· ^^^ ·) 0

/-- Every lane takes in the parities of the columns beside it. -/
def mixColumnsIn (s : Sponge) : Sponge :=
  let p := columnParity s
  s.mapIdx fun i v => v ^^^ p.getD ((i + 4) % 5) 0 ^^^ turnLane (p.getD ((i + 1) % 5) 0) 1

/-- The lanes move along one cycle of 24 places; the t-th move turns its lane by the t-th triangular number. -/
def carryLanes : Nat → Nat → Nat → Nat → Word → Sponge → Sponge
  | 0, _, _, _, _, s => s
  | n + 1, t, x, y, v, s =>
    let y' := (2 * x + 3 * y) % 5
    let k := y + 5 * y'
    carryLanes n (t + 1) y y' (s.getD k 0) (s.set k (turnLane v ((t + 1) * (t + 2) / 2)))

/-- Each lane takes in the two that follow it in its row. -/
def mixRows (s : Sponge) : Sponge :=
  s.mapIdx fun i v =>
    let next := fun d => s.getD (i - i % 5 + (i + d) % 5) 0
    v ^^^ (next 2 &&& ~~~ next 1)

/-- One bit of the shift register x^8 + x^6 + x^5 + x^4 + 1 that makes the round constants. -/
def shiftBit (r : Nat) : Nat := if r < 128 then 2 * r else Nat.xor (2 * r) 0x171

/-- The constant of a round from the register as the round begins, and the register after it: bits stand at the places 2^j - 1. -/
def roundConstant (r : Nat) : Word × Nat :=
  (List.range 7).foldl (fun (p : Word × Nat) j =>
    (if p.2 % 2 = 1 then p.1 ||| (1 : Word) <<< (2 ^ j - 1) else p.1, shiftBit p.2)) (0, r)

/-- `n` rounds. -/
def keccakRounds : Nat → Nat → Sponge → Sponge
  | 0, _, s => s
  | n + 1, r, s =>
    let (k, r') := roundConstant r
    let s := mixColumnsIn s
    let s := mixRows (carryLanes 24 0 1 0 (s.getD 1 0) s)
    keccakRounds n r' (s.modify 0 (· ^^^ k))

/-- The permutation of 24 rounds. -/
def keccakF (s : Sponge) : Sponge := keccakRounds 24 1 s

/-- Take one block of bytes into the sponge. -/
def absorbBlock (s : Sponge) (bs : List Byte) : Sponge :=
  s.mapIdx fun i v => v ^^^ BitVec.ofNat 64 (leNat ((bs.drop (8 * i)).take 8))

/-- Take a message into the sponge, `rate` bytes at a time, with the padding of an extendable-output function. -/
def absorbAll (rate : Nat) : Nat → Sponge → List Byte → Sponge
  | 0, s, _ => s
  | fuel + 1, s, m =>
    if rate ≤ m.length then absorbAll rate fuel (keccakF (absorbBlock s (m.take rate))) (m.drop rate)
    else
      let last := m ++ 0x1F :: List.replicate (rate - 1 - m.length) 0
      keccakF (absorbBlock s (last.modify (rate - 1) (· ||| 0x80)))

/-- The first bytes an extendable-output function of this rate gives, at most one block. -/
def xof (rate n : Nat) (m : List Byte) : List Byte :=
  ((absorbAll rate (m.length / rate + 1) (List.replicate 25 0) m).flatMap fun v => leBytes 8 v.toNat).take n

/-- SHAKE256 cut to 32 bytes (03 R61, R67). [PRESUMED, log 14] -/
def shake256 (m : List Byte) : List Byte := xof 136 32 m

/-! ## XMSS-SHAKE256_20_256 (NIST SP 800-208) -/

/-- A number as `n` bytes, most significant first. -/
def bigBytes (n v : Nat) : List Byte := (leBytes n v).reverse

/-- The four keyed functions, by the number that separates them: 0 F, 1 H, 2 the message hash, 3 the pseudorandom function. -/
def xmssHash (kind : Nat) (key m : List Byte) : List Byte := shake256 (bigBytes 32 kind ++ key ++ m)

/-- A hash address: kind (0 one-time signature, 1 its tree of keys, 2 the hash tree), four words of the kind. -/
def xmssAddr (kind a b c d : Nat) : List Byte :=
  bigBytes 12 0 ++ bigBytes 4 kind ++ bigBytes 4 a ++ bigBytes 4 b ++ bigBytes 4 c ++ bigBytes 4 d

/-- Bytes masked by as many others. -/
def maskBytes (a b : List Byte) : List Byte := b.zipIdx.map fun (q : Byte × Nat) => a.getD q.2 0 ^^^ q.1

/-- One step of a chain. -/
def chainStep (seed : List Byte) (leaf chain i : Nat) (x : List Byte) : List Byte :=
  let r := fun k => xmssHash 3 seed (xmssAddr 0 leaf chain i k)
  xmssHash 0 (r 0) (maskBytes x (r 1))

/-- A chain from place `i` on. -/
def chainFrom (seed : List Byte) (leaf chain : Nat) : Nat → Nat → List Byte → List Byte
  | 0, _, x => x
  | n + 1, i, x => chainFrom seed leaf chain n (i + 1) (chainStep seed leaf chain i x)

/-- Two nodes hashed into one, under an address of this kind. -/
def joinNodes (seed : List Byte) (kind a height index : Nat) (l r : List Byte) : List Byte :=
  let k := fun j => xmssHash 3 seed (xmssAddr kind a height index j)
  xmssHash 1 (k 0) (maskBytes l (k 1) ++ maskBytes r (k 2))

/-- The 67 digits of base 16 that a 32-byte digest and its checksum give. -/
def chainDigits (d : List Byte) : List Nat :=
  let ms := d.flatMap fun b => [b.toNat / 16, b.toNat % 16]
  let sum := (ms.map (15 - ·)).sum
  ms ++ [sum / 256 % 16, sum / 16 % 16, sum % 16]

/-- One level of the tree of chain ends: neighbours join, an odd one passes. -/
def joinLevel (seed : List Byte) (leaf height : Nat) : Nat → List (List Byte) → List (List Byte)
  | i, a :: b :: rest => joinNodes seed 1 leaf height i a b :: joinLevel seed leaf height (i + 1) rest
  | _, rest => rest

/-- The root of the tree of chain ends. -/
def joinChains (seed : List Byte) (leaf : Nat) : Nat → Nat → List (List Byte) → List Byte
  | 0, _, l => l.headD []
  | fuel + 1, height, l =>
    match l with
    | [] => []
    | [x] => x
    | _ => joinChains seed leaf fuel (height + 1) (joinLevel seed leaf height 0 l)

/-- Climb the hash tree along an authentication path. -/
def climb (seed : List Byte) (leaf : Nat) : Nat → List (List Byte) → List Byte → List Byte
  | _, [], x => x
  | k, n :: rest, x =>
    let up := if leaf / 2 ^ k % 2 = 0 then joinNodes seed 2 0 k (leaf / 2 ^ (k + 1)) x n else joinNodes seed 2 0 k (leaf / 2 ^ (k + 1)) n x
    climb seed leaf (k + 1) rest up

/-- Bytes cut into pieces of 32. -/
def pieces32 : Nat → List Byte → List (List Byte)
  | 0, _ => []
  | n + 1, bs => bs.take 32 :: pieces32 n (bs.drop 32)

/-- Verification (03 R67): a public key of OID, root and seed; a signature of index, r, 67 chains and a path of 20 nodes.
[PRESUMED, log 14] -/
def xmssVerify (pub msg sig : List Byte) : Bool :=
  let root := (pub.drop 4).take 32
  let seed := pub.drop 36
  let leaf := leNat (sig.take 4).reverse
  let r := (sig.drop 4).take 32
  let digest := xmssHash 2 (r ++ root ++ bigBytes 32 leaf) msg
  let ends := ((pieces32 67 (sig.drop 36)).zip (chainDigits digest)).mapIdx fun i (p : List Byte × Nat) =>
    chainFrom seed leaf i (15 - p.2) p.2 p.1
  pub.length == 68 && sig.length == 2820 && pub.take 4 == [0, 0, 0, 0x12] && decide (leaf < 2 ^ 20) &&
    climb seed leaf 0 (pieces32 20 (sig.drop 2180)) (joinChains seed leaf 8 0 ends) == root

/-- A signing key: the seed of its chains, the key of its pseudorandom function, and the public SEED (SP 800-208). -/
structure SignKey where
  chains : List Byte
  prf    : List Byte
  seed   : List Byte
  deriving DecidableEq, Repr

/-- The start of a chain of a one-time key. [PRESUMED, log 14] -/
def chainStart (k : SignKey) (leaf chain : Nat) : List Byte := xmssHash 4 k.chains (k.seed ++ xmssAddr 0 leaf chain 0 0)

/-- A leaf of the hash tree: the ends of the 67 chains of a one-time key, joined. -/
def treeLeaf (k : SignKey) (leaf : Nat) : List Byte :=
  joinChains k.seed leaf 8 0 ((List.range 67).map fun i => chainFrom k.seed leaf i 15 0 (chainStart k leaf i))

/-- The node of the hash tree at a height, by its place. -/
def treeNode (k : SignKey) : Nat → Nat → List Byte
  | 0, i => treeLeaf k i
  | h + 1, i => joinNodes k.seed 2 0 h i (treeNode k h (2 * i)) (treeNode k h (2 * i + 1))

/-- The public key (03 R67): OID, root and SEED. [PRESUMED, log 14] -/
def xmssPublic (k : SignKey) : List Byte := [0, 0, 0, 0x12] ++ treeNode k 20 0 ++ k.seed

/-- The signature under a state index (03 R67, R71): the index, r, 67 chains and the path of 20 nodes. [PRESUMED, log 14] -/
def xmssSign (k : SignKey) (leaf : Nat) (msg : List Byte) : List Byte :=
  let r := xmssHash 3 k.prf (bigBytes 32 leaf)
  let digest := xmssHash 2 (r ++ treeNode k 20 0 ++ bigBytes 32 leaf) msg
  let chains := (chainDigits digest).mapIdx fun i n => chainFrom k.seed leaf i n 0 (chainStart k leaf i)
  let path := (List.range 20).map fun h => treeNode k h (Nat.xor (leaf / 2 ^ h) 1)
  bigBytes 4 leaf ++ r ++ chains.flatten ++ path.flatten

/-! ## AES-256 (FIPS 197) and XTS (IEEE 1619) -/

/-- A byte times x in GF(2^8). -/
def timesX (b : Byte) : Byte := if b.msb then b <<< 1 ^^^ 0x1B else b <<< 1

/-- The product in GF(2^8). -/
def fieldMul (a b : Byte) : Byte :=
  ((List.range 8).foldl (fun (p : Byte × Byte) i => (if b.getLsbD i then p.1 ^^^ p.2 else p.1, timesX p.2)) (0, a)).1

/-- The inverse, as the 254th power; zero stays zero. -/
def fieldInv (b : Byte) : Byte :=
  ((List.range 7).foldl (fun (p : Byte × Byte) _ => let q := fieldMul p.1 p.1; (q, fieldMul p.2 q)) (b, 1)).2

/-- The byte substitution and its inverse. -/
def subByte (b : Byte) : Byte :=
  let v := fieldInv b
  [1, 2, 3, 4].foldl (fun acc n => acc ^^^ v.rotateLeft n) (v ^^^ 0x63)
def unsubByte (b : Byte) : Byte := fieldInv (b.rotateLeft 1 ^^^ b.rotateLeft 3 ^^^ b.rotateLeft 6 ^^^ 0x05)

/-- The key schedule, newest word first: every eighth word is turned and substituted, the fourth after it only substituted. -/
def growKey : Nat → Nat → Byte → List (List Byte) → List (List Byte)
  | 0, _, _, ws => ws
  | n + 1, i, rc, ws =>
    let t := ws.headD []
    let t' := if i % 8 = 0 then maskBytes ((t.drop 1 ++ t.take 1).map subByte) [rc, 0, 0, 0] else if i % 8 = 4 then t.map subByte else t
    growKey n (i + 1) (if i % 8 = 0 then timesX rc else rc) (maskBytes (ws.getD 7 []) t' :: ws)

/-- The 15 round keys of a 32-byte key. -/
def roundKeys (key : List Byte) : List (List Byte) :=
  let first := (List.range 8).map fun i => (key.drop (4 * i)).take 4
  let ws := (growKey 52 8 1 first.reverse).reverse
  (List.range 15).map fun i => ((ws.drop (4 * i)).take 4).flatMap id

/-- The rows of the 16 bytes turned: row r by r columns, or back. -/
def turnRows (back : Bool) (s : List Byte) : List Byte :=
  (List.range 16).map fun i => s.getD ((if back then i + 16 - 4 * (i % 4) else i + 4 * (i % 4)) % 16) 0

/-- Each column times a fixed polynomial, given by its coefficients. -/
def mulColumns (cs : List Byte) (s : List Byte) : List Byte :=
  (List.range 16).map fun i =>
    ((List.range 4).map fun j => fieldMul (cs.getD ((j + 4 - i % 4) % 4) 0) (s.getD (i - i % 4 + j) 0)).foldl (· ^^^ ·) 0

/-- A block of 16 bytes enciphered. -/
def aesEnc (key s : List Byte) : List Byte :=
  match roundKeys key with
  | [] => s
  | k0 :: ks =>
    let mid := (ks.take 13).foldl (fun s k => maskBytes (mulColumns [2, 3, 1, 1] (turnRows false (s.map subByte))) k) (maskBytes s k0)
    maskBytes (turnRows false (mid.map subByte)) (ks.getD 13 [])

/-- A block of 16 bytes deciphered. -/
def aesDec (key s : List Byte) : List Byte :=
  match (roundKeys key).reverse with
  | [] => s
  | k0 :: ks =>
    let first := (turnRows true (maskBytes s k0)).map unsubByte
    let mid := (ks.take 13).foldl (fun s k => (turnRows true (mulColumns [14, 11, 13, 9] (maskBytes s k))).map unsubByte) first
    maskBytes mid (ks.getD 13 [])

/-- The tweak of the next 16 bytes of a data unit. -/
def nextTweak (t : Nat) : Nat := Nat.xor (2 * t % 2 ^ 128) (if 2 ^ 127 ≤ t then 0x87 else 0)

/-- The four blocks of a 64-byte data unit, each between two masks of its tweak. -/
def xtsBlocks (f : List Byte → List Byte) : Nat → Nat → List Byte → List Byte
  | 0, _, _ => []
  | n + 1, t, bs =>
    let m := leBytes 16 t
    maskBytes (f (maskBytes (bs.take 16) m)) m ++ xtsBlocks f n (nextTweak t) (bs.drop 16)

/-- A 64-byte block enciphered (or deciphered) with AES-XTS-256 (01 R21): key 1 is the low half of the slot, key 2 the high one
(03 R73), and the tweak is the block's number PA[45:6]. -/
def xtsUnit (dec : Bool) (key : BitVec 512) (blk : Nat) (bs : List Byte) : List Byte :=
  let k1 := leBytes 32 key.toNat
  let k2 := leBytes 32 (key.toNat / 2 ^ 256)
  xtsBlocks (if dec then aesDec k1 else aesEnc k1) 4 (leNat (aesEnc k2 (leBytes 16 blk))) bs

/-- What reads from a block written under one key and read under another: the ciphertext deciphered (03 R75).
[PRESUMED, log 14] -/
def recipher (k1 k2 : BitVec 512) (blk : Nat) (plain : List Byte) : List Byte := xtsUnit true k2 blk (xtsUnit false k1 blk plain)

end Sys2Proof.Machine
end

