-- ==== Sys2Proof/Machine/State.lean ====
section
/-! DEFINITION. The state of the part as plain data: every register, store, queue and table the spec names, and the
schedule that says which agent moves next. Stages are numbered 128 * die + index (07 R147), director contexts
4 * stage + context, regions by the raster number of their origin. A list of (key, value) pairs is a sparse map: keys rise
strictly and a key that is not listed reads as the map's default. -/
namespace Sys2Proof.Machine

/-- Why the machine stops. -/
inductive Fault where
  /-- Nothing can ever move again without the module supply: raised by the step when the schedule is empty and the
  part is off or halted (03 R64, R77; 04 R89). Stopping there is safe. -/
  | stopped
  deriving DecidableEq, Repr

/-- Why an instruction has no meaning. -/
inductive Refusal where
  /-- Raised by the dispatcher for an instruction that has no meaning in the model; safe. -/
  | notModelled (mnemonic : String)
  deriving DecidableEq, Repr

/-- What every meaning answers. -/
abbrev Result (σ : Type) := Host.Outcome σ Fault Refusal

/-- Bytes at addresses, in canonical form. -/
abbrev Memory := List Host.Cell

/-- One turn of the schedule: an event of the table, the issue slot of a director, or the passing of time.
[DESIGN CHOICE, log 12] -/
inductive Turn where
  | event (i : Instr)
  /-- the director of this stage issues -/
  | issue (stage : Nat)
  /-- `tc` timecode ticks pass, and `fc` fabric cycles in every region -/
  | tick (tc fc : Nat)
  deriving DecidableEq, Repr

/-- A fabric token (07 R158). -/
structure Token where
  tag  : BitVec 4
  mask : BitVec 16 := 0
  data : Block := 0
  deriving DecidableEq, Repr

/-- A token in a router buffer, with the fc in which it arrived (07 R153). -/
structure Arrived where
  tok : Token
  at_ : Nat
  deriving DecidableEq, Repr

/-! ## Start, trust, keys, translation registers (01, 02, 03, 12) -/

/-- Fuses, flash, start sequence and trust block (03). [DESIGN CHOICE, log 4] -/
structure Chip where
  powered      : Bool := true
  halt         : Option (BitVec 8) := none
  ready        : Bool := true
  stepCode     : BitVec 8 := 0x70
  attempts     : Nat := 0
  retryStep    : Option Nat := none
  serial       : BitVec 32 := 0
  revision     : BitVec 8 := 0
  fusedFence   : List Nat := []
  minVersion   : Nat := 0
  fwDigest     : BitVec 256 := 0
  secret       : BitVec 256 := 0
  bankA        : List Byte := []
  bankB        : List Byte := []
  recoveryImage : List Byte := []
  activeB      : Bool := false
  training     : Bool := true
  index        : Nat := 0
  cert         : List Byte := []
  sig          : List Byte := []
  thermalMarker : Bool := false
  /-- whether the flash takes the next write of an index or image, and whether that write reads back (03 R69, R71) -/
  flashTakes   : Bool := true
  flashReads   : Bool := true
  /-- the running image, and the digest recorded when the last cold start verified it (03 R61) -/
  loadedImage  : List Byte := []
  loadedDigest : Option (BitVec 256) := some 0x2f76d56e64270cb5821bb862ea52cd3f24eb3e74eb3f3b23138da80b2bddb946
  runVersion   : BitVec 16 := 0
  recovery     : Bool := false
  bootThermal  : Bool := false
  bootAttempts : BitVec 8 := 0
  bootCode     : BitVec 8 := 0
  /-- the trust command in progress: 0 none, 1 SIGN, 2 UPDATE (TR_STAT.BUSY) -/
  trCmd        : Nat := 0
  /-- the index SIGN uses (03 R71) -/
  trIndex      : Nat := 0
  /-- the image bytes UPDATE read, and the result it will record (03 R69) -/
  trImage      : List Byte := []
  trPending    : BitVec 8 := 0
  trResult     : BitVec 8 := 0
  trCount      : BitVec 32 := 0
  sigTime      : Word := 0
  fwAddr       : Word := 0
  fwLen        : Word := 0
  msg          : BitVec 256 := 0
  fence        : List Nat := []
  /-- chip ports that failed self-test in this start (03 R65) -/
  deadPorts    : List Nat := []
  /-- cold-start step 6 has passed: the link registers are valid (01 R40) -/
  linkValid    : Bool := true
  lpddr        : List Nat := [0, 0, 0, 0]
  cecnt        : List (BitVec 32) := [0, 0, 0, 0]
  deriving DecidableEq, Repr

/-- A key command in progress (03 R75). -/
structure KeyCmd where
  retire : Bool
  slot   : Nat
  count  : Nat
  key    : BitVec 512 := 0
  deriving DecidableEq, Repr

/-- The key store (01 R22, 03 R73). [DESIGN CHOICE, log 4] -/
structure KeyStore where
  slots    : List (Nat × BitVec 512) := [(0, 0)]
  changing : List Nat := []
  data     : BitVec 512 := 0
  pend     : Option KeyCmd := none
  dropped  : Bool := false
  result   : BitVec 8 := 0
  count    : BitVec 32 := 0
  qsel     : Word := 0
  /-- controller groups (0-11) whose copy of a slot is uncorrectable, with the slot (12 R311) -/
  hurt     : List (Nat × Nat) := []
  deriving DecidableEq, Repr

/-- A cached leaf translation (12 R309). -/
structure TlbEntry where
  cache : Nat
  crew  : Nat
  bits  : Nat
  page  : Nat
  entry : Word
  deriving DecidableEq, Repr

/-- Page-table and invalidation registers (12 R308) and the translation caches (R309). [DESIGN CHOICE, log 4] -/
structure Xlat where
  ptwAddr : Word := 0
  ptwData : Block := 0
  inv     : Option Word := none
  dropped : Bool := false
  count   : BitVec 32 := 0
  tlb     : List TlbEntry := []
  deriving DecidableEq, Repr

/-! ## Links (01) -/

/-- An open chip-port circuit (01 R31). -/
structure PortCircuit where
  circ   : Nat
  alloc  : Nat
  credit : Nat
  failed : Bool := false
  /-- the receiver has given it reduction buffers: its tokens go as reduction beats (R30, R31) -/
  reduce : Bool := false
  deriving DecidableEq, Repr

/-- A chip port (01 R29-R34, R40). [DESIGN CHOICE, log 4] -/
structure Port where
  rtt      : BitVec 16 := 0
  state    : BitVec 4 := 0
  replays  : BitVec 32 := 0
  tcen     : Bool := true
  disable  : Bool := false
  txSeq    : BitVec 12 := 0
  rxSeq    : BitVec 12 := 0
  /-- dropping beats until the expected SEQ arrives (01 R33) -/
  dropping : Bool := false
  tries    : Nat := 0
  /-- the last beats sent, oldest first, kept for replay (01 R33) -/
  sent     : List Beat := []
  /-- the SEQ up to which the other side has received in order -/
  acked    : BitVec 12 := 0xFFF
  /-- beats that wait to be sent, oldest first; they take SEQ and ACK as they go (01 R32) -/
  due      : List Beat := []
  /-- beats to be sent again, in order (01 R33) -/
  replay   : List Beat := []
  /-- the beat on the lanes -/
  lane     : Option Beat := none
  /-- the type served last in round robin (01 R32) -/
  lastType : BitVec 4 := 6
  /-- ninths of a beat's time left over from the last tick (01 R28, R29) -/
  slotRem  : Nat := 0
  /-- receive buffers of command and memory beats free at the other side (01 R31) -/
  cmdCredit : Nat := 64
  memCredit : Nat := 64
  /-- the other side reports that it runs at half width (01 R30) -/
  farHalf  : Bool := false
  circuits : List PortCircuit := []
  /-- packets of messages that are not yet whole, oldest first -/
  cmds     : List (BitVec 64 × BitVec 128) := []
  /-- it takes part in timecode since the last acquisition, and the last time received on it (01 R30, R40) -/
  tcOn     : Bool := true
  echo     : Word := 0
  deriving DecidableEq, Repr

/-- The chip ports and the timecode mesh (01 R35-R40). [DESIGN CHOICE, log 4] -/
structure Links where
  ports     : List Port := List.replicate 12 {}
  outOfStep : Bool := false
  root      : Bool := true
  /-- the serial of the root that this chip follows (01 R36) -/
  rootSerial : Nat := 0
  /-- reachable chips by serial, and the port towards each (13 R328) -/
  routes    : List (Nat × Nat) := []
  reacq     : Bool := false
  hops      : BitVec 4 := 0
  offset    : BitVec 32 := 0
  /-- rate correction in ppm (01 R37), and the millionths of a tick it has left over -/
  rate      : Int := 0
  frac      : Nat := 0
  /-- a re-acquisition is slewing the counter back (01 R38) -/
  slewing   : Bool := false
  /-- chips of the mesh known to be out of step, by serial (01 R38, 06 R140) -/
  peersOut  : List Nat := []
  /-- when the last timecode beats were sent (01 R37) -/
  lastBeat  : Nat := 0
  /-- requests of remote gathers that wait for a key slot: port, circuit, request (11 R270) -/
  served    : List (Nat × Nat × Block) := []
  deriving DecidableEq, Repr

/-- A port adder (01 R26, R27; 11 R284). Adders 0-127 are die-edge: 32 * edge + 16 * side + n; 128 + 8 * p + n chip ports. -/
structure Adder where
  scene  : Nat
  mode   : BitVec 2
  remote : Nat
  locl   : Nat
  out    : Nat
  /-- when the local and the remote side's tokens that wait to be paired arrived, oldest first (04 R95) -/
  lAt    : List Nat := []
  rAt    : List Nat := []
  /-- a pairing has been made since the local member's take began -/
  paired : Bool := false
  /-- a release waits for both inputs to drain (17 R446) -/
  draining : Bool := false
  deriving DecidableEq, Repr

/-! ## Power (04) -/

/-- A cluster's base level, handover and heat (04 R84-R89). [DESIGN CHOICE, log 5] -/
structure Cluster where
  level   : Nat := 0
  /-- the level being locked to, if a handover is in progress (R86) -/
  target  : Option Nat := none
  /-- the level ordered and not yet begun: a handover may be in progress (R97) -/
  queued  : Option Nat := none
  /-- the level the cap controller last set (R89, R94) -/
  set     : Nat := 0
  thermal : Nat := 0
  temp    : Nat := 0
  deriving DecidableEq, Repr

/-- A die rail (04 R84, R89). [DESIGN CHOICE, log 5] -/
structure Rail where
  excursion : Bool := false
  rising    : Bool := false
  mv        : Nat := 340
  /-- the estimated rail current, in mA (R90) -/
  est       : Nat := 0
  deriving DecidableEq, Repr

/-- Per-crew power control (04 R78, R82, R94). [DESIGN CHOICE, log 5] -/
structure CrewPower where
  last    : Nat := 0
  budget  : Nat := 0
  level   : Nat := 0
  ceiling : Nat := 0
  lowRun  : Nat := 0
  /-- ballast energy charged to the crew since the last window boundary, in mA * mV * tc (R93) -/
  burnt   : Nat := 0
  deriving DecidableEq, Repr

/-- A ballast ramp on a rail (04 R91, R93): whose work stopped, its current in mA, and when it began. -/
structure Ballast where
  crew  : Nat
  die   : Nat
  ma    : Nat
  began : Nat
  deriving DecidableEq, Repr

/-- What waits for the rail budget (04 R92): a step of a paced region, a cluster's base-level rise, a fall of a cluster's
thermal level, a fall of a crew's cap level. -/
inductive Rise where
  | pace (region : Nat)
  | base (cluster : Nat)
  | cool (cluster : Nat)
  | cap (crew : Nat)
  deriving DecidableEq, Repr

/-- A waiting rise and what each rail has granted it, in mA. -/
structure RiseWait where
  rise : Rise
  paid : List Nat := [0, 0, 0, 0]
  deriving DecidableEq, Repr

/-- The power block and the power controller (04). [DESIGN CHOICE, log 5] -/
structure Power where
  modeReg  : BitVec 3 := 1
  capReg   : BitVec 2 := 1
  mode     : BitVec 3 := 1
  cap      : BitVec 2 := 1
  lastAvg  : Nat := 0
  /-- the module's running 1 ms average, in W (R93) -/
  running  : Nat := 0
  overs    : BitVec 16 := 0
  overRun  : Nat := 0
  lowRun   : Nat := 0
  slackHi  : BitVec 16 := 2000
  slackLo  : BitVec 16 := 250
  cut      : BitVec 32 := 0
  window   : Nat := 0
  clusters : List Cluster := List.replicate 32 {}
  rails    : List Rail := List.replicate 4 {}
  crews    : List CrewPower := List.replicate 8 {}
  ballast  : List Ballast := []
  /-- rises that wait for the rail budget, in the order in which they arrived (R92) -/
  waits    : List RiseWait := []
  deriving DecidableEq, Repr

/-! ## Host interface (02) -/

/-- An event ring (02 R58). -/
structure Ring where
  base : Word := 0
  size : Word := 0
  prod : BitVec 32 := 0
  cons : BitVec 32 := 0
  lost : BitVec 32 := 0
  ctl  : Word := 0
  /-- LINK_FAIL events of step 3, port and time, kept until the ring is first enabled (02 R58, 03 R65) -/
  kept : List (Nat × Word) := []
  deriving DecidableEq, Repr

/-- A push block (02 R50). -/
structure PushBlock where
  staging : Block := 0
  mask    : BitVec 64 := 0
  result  : BitVec 8 := 0
  deriving DecidableEq, Repr

/-- The outside end of one reel port: a memory source or sink, a seed FIFO (02 R54-R57, 18 R467). -/
structure PortEnd where
  /-- 1 seed, 2 memory source, 3 memory sink (02 R54) -/
  kind      : Nat := 0
  addr      : Word := 0
  count     : Nat := 0
  endcut    : Nat := 0
  /-- blocks or tokens moved in this take -/
  moved     : Nat := 0
  /-- the end cut has been sent -/
  ended     : Bool := false
  fifo      : List Token := []
  /-- emission slots since the start token (04 R87); for a sink, the blocks written -/
  slot      : Nat := 0
  /-- the port has emitted its hold marker (12 R298) -/
  marked    : Bool := false
  exhausted : Bool := false
  ovf       : Bool := false
  lastMoved : Nat := 0
  lastOvf   : Bool := false
  deriving DecidableEq, Repr

/-- One seed page (02 R56). -/
structure SeedPage where
  data : Block := 0
  err  : BitVec 4 := 0
  /-- EXHAUSTED as the entry's take left it, once its region is gone -/
  exhausted : Bool := false
  deriving DecidableEq, Repr

/-- A launch slot (02 R53-R55). -/
structure Launch where
  record : List Word := List.replicate 32 0
  taken  : List Word := []
  state  : BitVec 4 := 0
  code   : BitVec 8 := 0
  die    : BitVec 4 := 0
  origin : BitVec 9 := 0
  count  : BitVec 32 := 0
  lres   : List (BitVec 64) := List.replicate 12 0
  pages  : List SeedPage := List.replicate 12 {}
  scene  : Option Nat := none
  began  : Word := 0
  deriving DecidableEq, Repr

/-- A crew's set-up block and window (02 R44-R60, 06 R128, 11 R278). -/
structure Crew where
  en      : Bool := false
  err     : BitVec 4 := 0
  weight  : BitVec 8 := 1
  power   : BitVec 8 := 0
  quantum : BitVec 16 := 100
  quota   : BitVec 10 := 0
  ptroot  : Word := 0
  keys    : Word := 0
  save    : Word := 0
  qring   : Word := 0
  sync    : Word := 0
  tearing : Bool := false
  ring    : Ring := {}
  membase : Word := 0
  push    : List PushBlock := List.replicate 8 {}
  dcSel   : Word := 0
  dcIdx   : Word := 0
  /-- the drain-chain block has been used since the crew's enabling (02 R47, R60) -/
  dcUsed  : Bool := false
  slots   : List Launch := List.replicate 8 {}
  deriving DecidableEq, Repr

/-! ## Scheduler and scenes (05, 06) -/

/-- One piece of an access within a 64-byte block. -/
structure Piece where
  va   : Word
  pa   : Nat
  len  : Nat
  key  : Nat
  kind : BitVec 2
  host : Bool := false
  deriving DecidableEq, Repr

/-- A host access that waits its turn: accesses and commits are taken in the order they arrived (02 R49, R52). -/
inductive HostAct where
  /-- a commit, or a register write behind one, that has not taken effect -/
  | start (i : Instr)
  /-- a window access that has not begun, with the virtual address it had when it arrived; one that its crew's teardown has
  found here keeps the crew's PTROOT and KEYS (02 R47, R49) -/
  | read (crew : Nat) (va : Word) (len : Nat) (torn : Option (Word × Word))
  | write (crew : Nat) (va : Word) (bytes : List Byte) (torn : Option (Word × Word))
  /-- the blocks of a window write, or of a window read, that have yet to be performed -/
  | store (crew : Nat) (ps : List Piece) (bytes : List Byte)
  | fetch (crew : Nat) (ps : List Piece)
  deriving DecidableEq, Repr

/-- A queued slate (06 R124-R144). -/
structure Slate where
  words     : List Word
  sub       : Nat
  crew      : Nat
  prio      : Nat
  joincnt   : Nat
  /-- place in the crew's submission order (02 R51) -/
  order     : Nat
  entered   : Bool := false
  preds     : List Nat := []
  readyAt   : Option Nat := none
  notFitAt  : Option Nat := none
  /-- the scene placed from it, if any -/
  scene     : Option Nat := none
  /-- the launch slot whose bare take it is (02 R55) -/
  launch    : Option (Nat × Nat) := none
  /-- not offered to peers before this time (06 R140) -/
  xnext     : Nat := 0
  /-- its place in the queue's spill ring, counted from the crew's enabling; none in the window -/
  ringPos   : Option Nat := none
  deriving DecidableEq, Repr

/-- One of the 64 slate queues (06 R128-R132). -/
structure Queue where
  sealed  : Bool := false
  held    : Option Slate := none
  sealVA  : Word := 0
  sealKind : Nat := 0
  /-- a slate whose spill write has not completed, and whether a script waits for it -/
  spill   : Option Slate := none
  /-- an UNSEAL whose access waits for a key slot (R132) -/
  retry   : Bool := false
  ringHead : Nat := 0
  ringLen : Nat := 0
  subs    : Nat := 0
  deriving DecidableEq, Repr

/-- An entered range (06 R133-R135), with the slate that holds it (by crew submission order). -/
structure Dep where
  crew  : Nat
  order : Nat
  wr    : Bool
  base  : Nat
  len   : Nat
  deriving DecidableEq, Repr

/-- A cross-chip placement awaiting its replies (06 R140). -/
structure XReq where
  serial   : Nat
  crew     : Nat
  prio     : Nat
  order    : Nat
  waiting  : List Nat
  deadline : Nat
  deriving DecidableEq, Repr

/-- The hardware scheduler (06). [DESIGN CHOICE, log 7] -/
structure Sched where
  queues   : List Queue := List.replicate 64 {}
  slates   : List Slate := []
  nextOrder : Nat := 0
  deps     : List Dep := []
  credit   : List Nat := List.replicate 8 0
  last     : Nat := 7
  lastPass : Nat := 0
  /-- victims chosen in the pass that runs (06 R146) -/
  taken    : List Nat := []
  resv     : List (Nat × Nat) := []
  xreqs    : List XReq := []
  /-- something has happened since the last pass that calls for another (06 R137) -/
  due      : Bool := false
  deriving DecidableEq, Repr

/-- Member states (05 R107). -/
inductive MemberState where
  | placed | running | held | frozen | ended
  deriving DecidableEq, Repr

/-- A scene member (05 R103). -/
structure Member where
  region : Nat
  w      : Nat
  h      : Nat
  ctx    : Option Nat := none
  /-- the context allocated for the resume of a held member (05 R105) -/
  next   : Option Nat := none
  state  : MemberState := .placed
  ports  : List (Nat × PortEnd) := []
  saved  : Bool := false
  saveVA : Word := 0
  /-- the origin of its region when it was held -/
  was    : Nat := 0
  /-- the exit address has been reached (05 R107) -/
  exiting : Bool := false
  /-- a frozen member that the host has released and whose accesses and operations have yet to end (05 R111, 12 R295) -/
  release : Bool := false
  deriving DecidableEq, Repr

/-- A scene circuit (05 R110, 23 R510). -/
structure SceneCircuit where
  smem  : Nat
  sport : Nat
  dmem  : Nat
  dport : Nat
  alloc : Nat := 4
  q     : List Token := []
  /-- the DIR 2 port has emitted its hold marker, and its end cut has been delivered (07 R168) -/
  marked : Bool := false
  exhausted : Bool := false
  /-- emission slots of the DIR 2 port since the start token (04 R87) -/
  slot  : Nat := 0
  /-- the chip port through which the circuit leaves or arrives, and its circuit number there -/
  via   : Option (Nat × Nat) := none
  /-- it leaves through that port -/
  outward : Bool := false
  /-- the through places assigned to it (07 R155): 4 * (64 * tile row + tile column) + the side of the router's input -/
  path  : List Nat := []
  /-- error tokens of a freeze with FRZERR that wait for credit (14 R353) -/
  late  : List Token := []
  deriving DecidableEq, Repr

/-- A scene (05 R108-R111). -/
structure Scene where
  crew     : Nat
  prio     : Nat
  order    : Nat
  sub      : Nat
  words    : List Word
  members  : List Member
  tick     : Option Nat := none
  eff      : Nat := 0
  lastStart : Nat := 0
  started  : Bool := false
  xchip    : Bool := false
  home     : Bool := true
  /-- the chip map: serials by chip slot, and each member's slot (06 R139) -/
  chips    : List Nat := []
  slots    : List Nat := []
  /-- the other chips whose members have not all ended, as the home chip counts them -/
  away     : List Nat := []
  algs     : List (Nat × BitVec 128) := []
  circuits : List SceneCircuit := []
  launch   : Option (Nat × Nat) := none
  /-- a hold has been asked for, by the scheduler or a HOLD step (12 R298) -/
  wanted   : Bool := false
  /-- the hold is in flight -/
  holding  : Bool := false
  /-- its images are being saved -/
  saving   : Bool := false
  isHeld   : Bool := false
  /-- the save areas taken from the crew's pool -/
  areas    : List (Nat × Nat) := []
  /-- the scene stands ready on this chip, and its peers have been asked, or its home chip answered (06 R140) -/
  told     : Bool := false
  /-- freeze orders on their way to other member regions, with the cause (14 R353) -/
  orders   : List (Nat × BitVec 16) := []
  deriving DecidableEq, Repr

/-! ## Director contexts (05, 08, 12, 18) -/

/-- What a context waits for; the instruction at `pc` is executed again when it may proceed. -/
inductive Wait where
  | none
  /-- WAITC, WRAPW, SPAWN, JOIN, FENCE, CUE, BAR, ALGLD: the named wait of 18 -/
  | stall
  /-- TAKE, CTX, BIND or SEED waits; if its region freezes meanwhile, FROZEN comes into this register (18 R464) -/
  | step (d : BitVec 5)
  /-- at the exit address (05 R107) -/
  | exit
  /-- yielded by HOLD until resume, then OK into this register (18 R470) -/
  | hold (d : BitVec 5)
  /-- BAR's arrival has been made: status comes into this register (18 R476) -/
  | bar (d : BitVec 5)
  /-- an acquire-marked cue or load (09 R218, R224) -/
  | acquire
  /-- TAKE's load or start is in progress: the status comes into this register (18 R465) -/
  | take (d : BitVec 5)
  | ctxLoad (d : BitVec 5)
  deriving DecidableEq, Repr

/-- A context's life (05 R104, R107; 12 R292). -/
inductive CtxState where
  | free | running | parked | halted
  deriving DecidableEq, Repr

/-- An outstanding global load (18 R458). -/
structure Load where
  d      : BitVec 5
  va     : Word
  n      : Nat
  signed : Bool
  pa     : Nat
  key    : Nat
  kind   : BitVec 2
  acq    : Bool := false
  scope  : BitVec 2 := 0
  /-- place in the context's issue order (09 R205) -/
  seq    : Nat := 0
  /-- place in the stream port's order of acceptance (09 R210) -/
  stamp  : Nat := 0
  deriving DecidableEq, Repr

/-- An outstanding global store (18 R458). -/
structure Store where
  va    : Word
  bytes : List Byte
  pa    : Nat
  key   : Nat
  kind  : BitVec 2
  rel   : Bool := false
  scope : BitVec 2 := 0
  seq   : Nat := 0
  /-- a UO write that waits in the stream port's combining buffer (09 R218) -/
  buffered : Bool := false
  /-- place in the stream port's order of acceptance (09 R210); 0 in the buffer -/
  stamp : Nat := 0
  deriving DecidableEq, Repr

/-- A barrier arrival that BAR has made: the BAR's address, its sync address, and its status once complete (18 R476,
12 R290). -/
structure BarArrival where
  pc   : Word
  addr : Nat
  done : Option (BitVec 16) := none
  deriving DecidableEq, Repr

/-- A rushes-buffer entry (08 R201). -/
structure Rush where
  block    : Nat
  /-- the physical block it was read from; none for a faulted entry -/
  pa       : Option Nat := none
  data     : Block
  gen      : BitVec 4
  faulted  : Bool := false
  resolved : Bool := false
  /-- its parity is wrong (12 R311) -/
  hurt     : Bool := false
  deriving DecidableEq, Repr

/-- Where run-ahead stands on the likely path: its address, how many instructions it may still run, and its shadow registers
(18 R463). -/
structure RunAhead where
  pc   : Word
  left : Nat
  regs : List (Option Word)
  deriving DecidableEq, Repr

/-- A pending asynchronous trap (12 R290). -/
structure AsyncTrap where
  cause : BitVec 8
  val   : Word
  deriving DecidableEq, Repr

/-- A director context (18 R455, R480). [DESIGN CHOICE, log 8] -/
structure Ctx where
  state   : CtxState := .free
  scene   : Nat := 0
  member  : Nat := 0
  crew    : Nat := 0
  pc      : Word := 0
  g       : List (Nat × Word) := []
  lr      : Word := 0xFFFFFFFFFFFFFFFC
  tm      : Bool := false
  gen     : BitVec 4 := 0
  xcause  : Word := 0
  xpc     : Word := 0
  xval    : Word := 0
  xvec    : Word := 0
  sheet   : Word := 0
  dcidx   : Word := 0
  cyc     : Word := 0
  mapLast : BitVec 2 := 0
  copies  : Nat := 0
  tiles   : Nat := 0
  loads   : List Load := []
  stores  : List Store := []
  tickets : Word := 0
  pend    : List AsyncTrap := []
  /-- the likely path of the open generation (18 R463) -/
  hint    : Option Word := none
  rushes  : List Rush := []
  /-- where run-ahead stands on the likely path (18 R463) -/
  ahead   : Option RunAhead := none
  wait    : Wait := .none
  /-- private memory: the words written since the entry, by word number; the others are unpredictable (08 R200) -/
  priv    : List (Nat × Word) := []
  /-- which entry this is, the name of its unpredictable words (the model's own) -/
  entry   : Nat := 0
  privBad : List Nat := []
  /-- the ticket of an acquire-marked cue not yet retired (09 R224) -/
  acq     : Option Word := none
  /-- word 0 of an acquire-marked cue that has retired with BADCUE: its trap is taken in the next issue slot (12 R290, 13 R343) -/
  acqBad  : Option Word := none
  bars    : List BarArrival := []
  /-- the next place in issue order (the model's own) -/
  nextSeq : Nat := 0
  /-- when it was parked (05 R104) -/
  parkedAt : Nat := 0
  deriving DecidableEq, Repr

/-! ## Regions and takes (05, 07) -/

/-- A port binding word in force (14 R351). -/
structure Binding where
  port    : Nat
  dir     : BitVec 2
  endrank : Nat
  alloc   : Nat
  circ    : Nat
  stage   : Nat
  tile    : Nat
  deriving DecidableEq, Repr

/-- What a region records of a loaded context (14 R344-R353). -/
structure RegCtx where
  mapping  : BitVec 2
  spine    : BitVec 3
  iest     : Nat
  scenefrz : Bool := false
  frzerr   : Bool := false
  bindings : List Binding := []
  /-- the image that it was loaded from -/
  image    : Word := 0
  deriving DecidableEq, Repr

/-- A marked faulting unit (12 R294). -/
structure Mark where
  unit   : UnitRef
  cause  : BitVec 16
  value  : Word := 0
  replay : Bool := false
  deriving DecidableEq, Repr

/-- A frozen region's record (12 R293-R295). -/
structure Frozen where
  cause  : BitVec 16
  marks  : List Mark
  replay : Bool
  value  : Word
  stoppedLoad : Bool := false
  deriving DecidableEq, Repr

/-- A configuration load that has been requested (07 R167, 18 R465, R466). -/
structure LoadReq where
  image : Word
  map   : BitVec 2
  wmask : BitVec 4
  /-- the context to start, if the step starts a take -/
  act   : Option (BitVec 2)
  /-- the context to answer, none for an opening reel or a launch -/
  ctx   : Option Nat
  sheet : Word := 0
  /-- the mapping read and checked, whose words are being written; none before the checks -/
  words : Option (List Word) := none
  /-- the blocks of the image read so far (09 R221, 13 R343) -/
  got   : List Byte := []
  /-- the scene's algebra tables as the load began (10 R253) -/
  algs  : List (Nat × BitVec 128) := []
  /-- the reload of a held region's reel and mapping (12 R303) -/
  resume : Bool := false
  deriving DecidableEq, Repr

/-- A take's phases (07 R167-R171). -/
inductive TakePhase where
  | idle | loading | waved | started
  deriving DecidableEq, Repr

/-- A region (07 R147, 05 R100). [DESIGN CHOICE, log 9] -/
structure Region where
  w        : Nat
  h        : Nat
  crew     : Nat
  scene    : Nat
  member   : Nat
  ctx      : Option Nat := none
  reel     : Word := 0
  fc       : Nat := 0
  active   : BitVec 2 := 0
  loaded   : List (Nat × RegCtx) := []
  load     : Option LoadReq := none
  phase    : TakePhase := .idle
  sheet    : Word := 0
  descs    : List (Nat × List Word) := []
  algs     : List (Nat × BitVec 128) := []
  takeCtx  : Option Nat := none
  /-- 0x36 NOTAKE until a take has ended, then 0x00 OK or 0x35 FAULTED (18 R464) -/
  last     : BitVec 8 := 0x36
  lastOvf  : Bool := false
  frozen   : Option Frozen := none
  faults   : List Mark := []
  holding  : Bool := false
  heldUnits : List UnitRef := []
  pacing   : Nat := 0
  slack    : Nat := 0
  slackRun : Int := 0
  slackHold : Nat := 0
  sample   : Option Int := none
  pendOps  : Nat := 0
  began    : Nat := 0
  /-- its take started while a hold of the scene was asked for (07 R176) -/
  early    : Bool := false
  deriving DecidableEq, Repr

/-! ## Stages (07, 08, 14, 15, 16) -/

/-- A 512-bit state register with its mask (07 R156). -/
structure QReg where
  data : Block := 0
  mask : BitVec 16 := 0
  deriving DecidableEq, Repr

/-- A unit's configuration in one context (14 R347, R348). -/
structure UnitCfg where
  word : Word
  k0   : Word := 0
  k1   : Word := 0
  k2   : Word := 0
  k3   : Word := 0
  deriving DecidableEq, Repr

/-- One SPA scratch entry or RDC running entry (15 R388-R394). -/
structure Entry where
  key   : Nat
  has   : Bool
  bits  : BitVec 64
  sum   : Int
  deriving DecidableEq, Repr

/-- One array access of a memory node in progress (16 R418-R424). -/
structure MemEvent where
  /-- 0 W, 1 X, 2 Y, 3 global -/
  array : Nat
  /-- byte address in the array, or physical address -/
  addr  : Nat
  col   : Bool := false
  write : Bool := false
  /-- lanes written, or the data operand -/
  mask  : BitVec 16 := 0
  data  : Block := 0
  /-- cells of the vector within the tensor (08 R191); for a global write, the bytes written as a mask -/
  ext   : Nat := 32
  /-- read-modify-write function: 0 none, 1 tas, 2 radd, 3 rmin, 4 rmax, 5 ror, 6 rand, 7 rxor; 8 waits for stx's data -/
  rmw   : Nat := 0
  /-- width in bytes (global, RMW), and the byte of the result it goes to -/
  len   : Nat := 64
  slot  : Nat := 0
  key   : Nat := 0
  kind  : BitVec 2 := 0
  va    : Word := 0
  /-- a separate result token is sent after this event (ldx) -/
  emits : Bool := false
  /-- sub-element of a packed cell, for an RMW -/
  sub   : Nat := 0
  age   : Nat := 0
  /-- the bits of each cell that hold elements, and those of the last cell of the extent (08 R187) -/
  full  : Nat := 0xFFFF
  last  : Nat := 0xFFFF
  /-- its place in the order in which the stream port accepted it; 0 while it has not been accepted (09 R210) -/
  stamp : Nat := 0
  /-- its data are at the head of input b until it performs (`stx`) -/
  popB  : Bool := false
  deriving DecidableEq, Repr

/-- A memory node's token operation in progress (16 R423, R424): the events still to be made, first first. -/
structure MemOp where
  events  : List MemEvent
  outMask : BitVec 16 := 0
  outData : Block := 0
  /-- a result token is sent on output 0 at the end -/
  sends   : Bool := true
  /-- the policy is POISON -/
  poison  : Bool := false
  err     : Option Token := none
  /-- it takes a token of input b -/
  useB    : Bool := false
  /-- its operand tokens have left the latches: every access has been granted or accepted (09 R223) -/
  popped  : Bool := false
  /-- its continuity token has been sent: every access has been accepted, at stage scope (09 R209) -/
  contSent : Bool := false
  /-- it began before its continuity token arrived, on a relaxed edge (09 R216) -/
  early   : Bool := false
  deriving DecidableEq, Repr

/-- A unit of a stage: latches, state registers and internal stores (07 R156, 15 R379). -/
structure UnitState where
  a      : List Token := []
  b      : List Token := []
  c      : List Token := []
  cont   : List Token := []
  q0     : QReg := {}
  q1     : QReg := {}
  q2     : QReg := {}
  q3     : QReg := {}
  flags  : BitVec 8 := 0
  /-- stored tokens: WCV gathered, ELB FIFO, ORD window, CRT blocks, ISX and FLT partial output tokens -/
  toks   : List Token := []
  toks2  : List Token := []
  /-- running entries: SPA scratch, RDC running result -/
  entries : List Entry := []
  /-- counters: RDC position and term count, SEQ position, CVT counter, ORD expected tag, ELB report counters -/
  n0     : Nat := 0
  n1     : Nat := 0
  n2     : Nat := 0
  n3     : Nat := 0
  /-- the first error met by an open fibre or group -/
  err    : Option Token := none
  /-- results that wait for credit, oldest first: the tokens of one fc go together, each with its output port (2 is the
  continuity output) -/
  out    : List (List (Nat × Token)) := []
  started : Bool := false
  exhausted : Bool := false
  /-- emission slots since the start token (04 R87) -/
  slot   : Nat := 0
  /-- the source has emitted its hold marker (12 R298) -/
  marked : Bool := false
  /-- nonzero while an operation that has consumed operands is part-way: a triggered SEQ instance, a control token -/
  conts  : Nat := 0
  op     : Option MemOp := none
  /-- a memory node's earlier operations, oldest first: their accesses are accepted, their results not yet sent (16 R423) -/
  past   : List MemOp := []
  /-- continuity tokens of relaxed edges that are discarded when they arrive (09 R216) -/
  owed   : Nat := 0
  deriving DecidableEq, Repr

/-- A router operator slot's state (14 R357-R372). -/
structure SlotState where
  phase   : Bool := false
  held    : Bool := false
  toks    : List Token := []
  /-- unsent counts per fork output (14 R368) -/
  lags    : List Nat := [0, 0, 0, 0]
  /-- carry residue: the oldest 64 tokens; `spilled` more stand in the spill area in Y, oldest first (12 R301) -/
  residue : List Token := []
  spilled : Nat := 0
  started : Bool := false
  deriving DecidableEq, Repr

/-- A route word in force at a router (14 R349). -/
structure Route where
  ctx  : Nat
  tile : Nat
  /-- the endpoint code the circuit arrives on; 0x40 the ingress of a port binding (12 R297) -/
  frm  : Nat
  circ : Nat
  /-- the endpoint code it leaves on; 0x40 the egress of a port binding -/
  out  : Nat
  deriving DecidableEq, Repr

/-- An accumulator slot (10 R242, R245): sparse 96-bit sums of its 256 cells as integers. -/
structure Acc where
  sums  : List (Nat × Int) := []
  exp   : Int := 0
  terms : Nat := 0
  sat   : Bool := false
  clamp : Bool := false
  inv   : Bool := false
  meta' : Bool := false
  head  : Nat := 0
  deriving DecidableEq, Repr

/-- A row latch of the gather unit (08 R199). -/
structure GLatch where
  /-- entry j: none absent, or the vector read with its lane mask -/
  rows : List (Option Token)
  err  : Option Token := none
  /-- the matrix node refuses it under a FREEZE policy (08 R192) -/
  freeze : Bool := false
  deriving DecidableEq, Repr

/-- A cue-table entry (05 R119, 17 R430). -/
structure CueEntry where
  words   : List (BitVec 32)
  ctx     : Nat
  crew    : Nat
  scene   : Nat
  sheet   : Word
  ticket  : Word
  /-- the issuing context's accesses before this place are earlier than the cue (09 R224) -/
  seq     : Nat := 0
  ins     : List (Nat × Nat)
  outs    : List (Nat × Nat)
  issued  : Bool := false
  done    : Bool := false
  /-- the status of its completion -/
  status  : BitVec 16 := 0
  /-- tiles released; the push waits for room (05 R120) -/
  released : Bool := false
  op      : Option Nat := none
  deriving DecidableEq, Repr

/-- A UO write waiting in the combining buffer of a stream port (09 R218). -/
structure Combined where
  /-- 16 + context, or the stage slot of a memory node -/
  agent : Nat
  va    : Word := 0
  pa    : Nat
  key   : Nat
  bytes : List Byte
  deriving DecidableEq, Repr

/-- A square's or Y bank's arbiter (08 R184, R185). [DESIGN CHOICE, log 9] -/
structure Square where
  col   : Bool := false
  last  : Option Nat := none
  deriving DecidableEq, Repr

/-- An access that the matrix node, the gather unit, the traversal reply path or a copy engine asks of a square or a Y bank
(08 R183). [DESIGN CHOICE, log 9] -/
structure SqReq where
  /-- the rank of its agent: 1 matrix fetch, 2 matrix drain, 3 gather, 6 traversal reply, 7 copy -/
  rank  : Nat := 0
  /-- the engine operation that makes it; 0 for a unit of the stage -/
  op    : Nat := 0
  array : Nat
  addr  : Nat
  col   : Bool := false
  write : Bool := false
  /-- the bits written -/
  wm    : Block := 0
  /-- what is written, or what was read -/
  data  : Block := 0
  /-- which operand or entry of its agent it belongs to -/
  part  : Nat := 0
  /-- the fc in which it became ready (R183) -/
  age   : Nat := 0
  /-- it has been granted -/
  done  : Bool := false
  /-- the uncorrectable cells that a read met -/
  bad   : List Nat := []
  deriving DecidableEq, Repr

/-- A stage (07 R149, 08 R177). [DESIGN CHOICE, log 8; DESIGN CHOICE, log 9] -/
structure Stage where
  region  : Option Nat := none
  warr    : Memory := []
  xarr    : Memory := []
  yarr    : Memory := []
  /-- uncorrectable cells: (array, byte address of the cell or entry) -/
  bad     : List (Nat × Nat) := []
  /-- cells that read with a corrected error (08 R180) -/
  soft    : List (Nat × Nat) := []
  /-- of these, the cells that have been read and whose corrected value has yet to be written back (08 R180) -/
  mend    : List (Nat × Nat) := []
  squares : List (Nat × Square) := []
  /-- accesses asked of squares and banks by agents other than the memory nodes, oldest first -/
  reqs    : List SqReq := []
  cfg     : List (Nat × UnitCfg) := []
  rcfg    : List (Nat × Word) := []
  routes  : List Route := []
  bufs    : List (Nat × List Arrived) := []
  units   : List (Nat × UnitState) := []
  rslots  : List (Nat × SlotState) := []
  acc     : List (Nat × Acc) := []
  latches : List GLatch := []
  table   : List CueEntry := []
  fifos   : List (Nat × Nat) := []
  comb    : List Combined := []
  /-- memory-node writes that the stream port has accepted and that have yet to perform, by stage slot (09 R210) -/
  port    : List (Nat × MemEvent) := []
  /-- the next place in the stream port's order of acceptance (09 R210) -/
  portNext : Nat := 1
  /-- the director's cached instruction lines, by crew * 2^42 + line number: one may serve an older word (13 R343) -/
  icache  : List (Nat × Block) := []
  arrivals : List (Nat × BitVec 1) := []
  lastCtx : Nat := 3
  deriving DecidableEq, Repr

/-! ## Engines (11, 17) -/

/-- A traversal walk's state (11 R272). -/
structure WalkState where
  ptr    : BitVec 48
  key    : BitVec 128
  steps  : Nat := 0
  w0     : Word := 0
  w1     : Word := 0
  rset   : Nat
  version : BitVec 16
  limit  : Nat
  abort  : Bool
  engine : Nat
  handoff : Bool := false
  /-- whether a record has been read, and the last one -/
  hasRec  : Bool := false
  lastRec : List Byte := []
  /-- RETLEN of the set it runs on -/
  retlen  : Nat := 64
  /-- the X tensor and row that receive the record (17 R437) -/
  xdesc   : List Word := []
  xrow    : Nat := 0
  /-- the part of the next record read so far (R273) -/
  read    : List Byte := []
  /-- the record has been returned and its rows are being written into X -/
  replying : Bool := false
  deriving DecidableEq, Repr

/-- Where an engine operation stands (11 R261, R262). -/
inductive OpPhase where
  /-- a SAVE cue for which its engine's inbox has no place yet (11 R261) -/
  | asked
  | inbox | running | waiting | finished
  deriving DecidableEq, Repr

/-- Where the reply to another chip's packet goes: the port it came through, its TICKET, the CHIP field that names its sender, and
the endpoint that sent it (13 R328). -/
structure ReplyTo where
  port   : Nat
  ticket : Nat
  chip   : Nat
  dest   : Nat
  deriving DecidableEq, Repr

/-- An engine operation in flight (11 R261-R267). -/
structure Op where
  words  : List (BitVec 32)
  crew   : Nat
  scene  : Nat
  stage  : Nat
  /-- the issuing context, none for a fabric agent -/
  ctx    : Option Nat
  ticket : Word := 0
  sheet  : Word
  /-- the unit of a fabric agent's cue -/
  unit   : Option Nat := none
  phase  : OpPhase := .inbox
  status : BitVec 16 := 0
  detail : Word := 0
  result : List Block := []
  walk   : Option WalkState := none
  /-- engines that have yet to install or release a rule set (17 R438) -/
  todo   : List Nat := []
  /-- a remote arrival's sender chip and timecode (11 R283) -/
  sent   : Word := 0
  /-- the BAR that made this arrival -/
  barPc  : Option Word := none
  /-- where the reply of a packet from another chip goes (13 R328) -/
  remote : Option ReplyTo := none
  /-- rows written by a remote gather (11 R270) -/
  rows   : Nat := 0
  /-- what was read when the cue issued: its argument blocks, its descriptors, its scene's algebra tables, the first fault
  of these reads (17 R429, R431; 08 R195; 10 R253), and the die that homes a GLOB target (17 R440) -/
  args   : List Byte := []
  descs  : List (Nat × List Word) := []
  algs   : List (Nat × BitVec 128) := []
  pre    : Option (BitVec 16 × Word) := none
  /-- RETLEN of the receiving engine's set when a `walk` issued (17 R437) -/
  retlen : Option Nat := none
  home   : Nat := 0
  /-- what is left to do, one event each: the elements of a destination block (09 R221), groups, pieces of a row -/
  plan   : List (List Nat) := []
  /-- destination blocks written -/
  blocks : List Nat := []
  /-- a destination block read so that it can be rewritten (11 R269) -/
  kept   : Option Block := none
  /-- the source and the destination of a copy may share bytes (11 R269) -/
  mixed  : Bool := false
  /-- the elements read and not yet written, by index (11 R269) -/
  vals   : Option (List (Nat × Nat)) := none
  /-- the chip that sent a remote arrival, by serial (11 R283) -/
  peer   : Nat := 0
  /-- its chip port has failed while a delivered row is being written (11 R271) -/
  linkDown : Bool := false
  deriving DecidableEq, Repr

/-- An installed rule set (11 R272, R276). -/
structure RuleSet where
  crew    : Nat
  version : BitVec 16
  rlen    : Nat
  retlen  : Nat
  rules   : List Word
  deriving DecidableEq, Repr

/-- A sync variable in an on-chip place (11 R279). -/
structure SyncPlace where
  crew  : Nat
  die   : Nat
  index : Nat
  val   : BitVec 128
  dirty : Bool
  bad   : Bool := false
  deriving DecidableEq, Repr

/-- A waiting barrier arrival (11 R282). -/
structure BarWait where
  crew  : Nat
  die   : Nat
  index : Nat
  phase : BitVec 1
  op    : Nat
  sent  : Word
  /-- ticks that count in the unit of 1,024 that runs (05 R110) -/
  ran   : Nat := 0
  deriving DecidableEq, Repr

/-- The engines (11). -/
structure Engines where
  ops     : List (Nat × Op) := []
  nextOp  : Nat := 0
  nextSerial : Nat := 0
  sets    : List (Nat × RuleSet) := []
  places  : List SyncPlace := []
  waits   : List BarWait := []
  adders  : List (Nat × Adder) := []
  deriving DecidableEq, Repr

/-! ## The machine -/

/-- The state of the part. [DESIGN CHOICE, log 1] -/
structure State where
  agenda   : List Turn := []
  /-- whose turn it is when the schedule is empty: the directors' or the part's own events', and which of these comes first -/
  flip     : Bool := false
  turn     : Nat := 0
  cur      : Nat := 0
  freeCtr  : Nat := 0
  hostRead : List Byte := []
  /-- host accesses that wait, oldest first -/
  hostWait : List HostAct := []
  timecode : Word := 0
  chip     : Chip := {}
  keys     : KeyStore := {}
  xl       : Xlat := {}
  links    : Links := {}
  power    : Power := {}
  devRing  : Ring := {}
  msix     : List Nat := []
  /-- the MSI-X table as 64-bit words, two to a vector, and the pending bits (02 R44) -/
  msixTable : List Word := (List.replicate 9 [0, 0x100000000]).flatten
  msixPend : List Nat := []
  crews    : List Crew := List.replicate 8 {}
  mem      : Memory := []
  /-- per 64-byte block, the key its content was enciphered under -/
  ciph     : List (Nat × BitVec 512) := []
  bad      : List Nat := []
  /-- blocks that read with a corrected error (01 R18) -/
  soft     : List Nat := []
  hostMem  : Memory := []
  sched    : Sched := {}
  scenes   : List (Nat × Scene) := []
  regions  : List (Nat × Region) := []
  ctxs     : List (Nat × Ctx) := []
  stages   : List (Nat × Stage) := []
  eng      : Engines := {}
  /-- what the last save to each image address recorded beside the bytes (12 R304): crew * 2^32 + address / 2^16 -/
  images   : List (Nat × Stage) := []
  ctxImages : List (Nat × Ctx) := []
  /-- the regions of held members, by 64 * scene + member -/
  heldRegions : List (Nat × Region) := []
  deriving DecidableEq, Repr

/-- The part right after a passed cold start (03 R61, R62): READY, no crew enabled, every queue, region and context
empty. Values the spec does not state are named in notes/assumptions. [DESIGN CHOICE, log 3] -/
def State.reset : State := {}

end Sys2Proof.Machine
end

