-- ==== Sys2Proof/Machine/Ops.lean ====
section
/-! DEFINITION. The named operations over the state: reading and writing records of the state, memory under its keys,
translation, event rings, and taking and leaving director traps. -/
namespace Sys2Proof.Machine

/-! ## Bytes and words (00 R3) -/

/-- Pad or cut a byte list to `n` bytes. -/
def takePad (n : Nat) (bs : List Byte) : List Byte := (bs ++ List.replicate n 0).take n

/-- A 64-bit word of bytes. -/
def wordOf (bs : List Byte) : Word := BitVec.ofNat 64 (leNat (bs.take 8))

/-- A block of bytes. -/
def blockOf (bs : List Byte) : Block := BitVec.ofNat 512 (leNat (bs.take 64))

/-- The bytes of a block. -/
def blockBytes (b : Block) : List Byte := leBytes 64 b.toNat

/-- Cut bytes into blocks of 64, the last padded with zeros. -/
def blocksOf : Nat → List Byte → List Block
  | 0, _ => []
  | _, [] => []
  | n + 1, bs => blockOf (bs.take 64) :: blocksOf n (bs.drop 64)

/-- Bits `[lo + len - 1 : lo]` of a number. -/
def bits (v lo len : Nat) : Nat := v / 2 ^ lo % 2 ^ len

/-- Bits of a word. -/
def wbits (w : Word) (lo len : Nat) : Nat := bits w.toNat lo len

/-- One bit of a word. -/
def wbit (w : Word) (i : Nat) : Bool := wbits w i 1 == 1

/-- Replace bits `[lo + len - 1 : lo]` of a word. -/
def setBits (w : Word) (lo len v : Nat) : Word :=
  BitVec.ofNat 64 (w.toNat - wbits w lo len * 2 ^ lo + v % 2 ^ len * 2 ^ lo)

/-- The bytes of a word that a write enables replace the old ones (02 R42). -/
def mergeBytes (old new : Word) (en : BitVec 8) : Word :=
  BitVec.ofNat 64 (leNat ((List.range 8).map fun i =>
    BitVec.ofNat 8 (if bits en.toNat i 1 = 1 then wbits new (8 * i) 8 else wbits old (8 * i) 8)))

/-- Two's complement reading of the low `n` bits. -/
def sextInt (n v : Nat) : Int := if v % 2 ^ n < 2 ^ (n - 1) then (v % 2 ^ n : Nat) else (v % 2 ^ n : Nat) - (2 ^ n : Nat)

/-- An integer as a word modulo 2^64. -/
def wordOfInt (i : Int) : Word := BitVec.ofInt 64 i

/-! ## Records of the state -/

/-- The k-th element of a list replaced. -/
def setAt {α : Type} (l : List α) (k : Nat) (x : α) : List α := l.set k x

/-- The k-th element changed. -/
def modAt {α : Type} (l : List α) (k : Nat) (f : α → α) : List α := l.modify k f

/-- A director context. -/
def getCtx (s : State) (c : Nat) : Ctx := Sparse.get {} s.ctxs c
/-- Write a director context. -/
def setCtx (s : State) (c : Nat) (x : Ctx) : State := { s with ctxs := Sparse.insert s.ctxs c x }
/-- Change a director context. -/
def modCtx (s : State) (c : Nat) (f : Ctx → Ctx) : State := setCtx s c (f (getCtx s c))

/-- A stage. -/
def getStage (s : State) (i : Nat) : Stage := Sparse.get {} s.stages i
/-- Write a stage. -/
def setStage (s : State) (i : Nat) (x : Stage) : State := { s with stages := Sparse.insert s.stages i x }
/-- Change a stage. -/
def modStage (s : State) (i : Nat) (f : Stage → Stage) : State := setStage s i (f (getStage s i))

/-- A region, if one has this origin. -/
def getRegion (s : State) (r : Nat) : Option Region := Sparse.find? s.regions r
/-- Write a region. -/
def setRegion (s : State) (r : Nat) (x : Region) : State := { s with regions := Sparse.insert s.regions r x }
/-- Change a region that exists. -/
def modRegion (s : State) (r : Nat) (f : Region → Region) : State :=
  match getRegion s r with
  | some x => setRegion s r (f x)
  | none => s

/-- A scene, if one has this serial. -/
def getScene (s : State) (k : Nat) : Option Scene := Sparse.find? s.scenes k
/-- Write a scene. -/
def setScene (s : State) (k : Nat) (x : Scene) : State := { s with scenes := Sparse.insert s.scenes k x }
/-- Change a scene that exists. -/
def modScene (s : State) (k : Nat) (f : Scene → Scene) : State :=
  match getScene s k with
  | some x => setScene s k (f x)
  | none => s

/-- A scene's member. -/
def getMember (s : State) (k m : Nat) : Option Member :=
  match getScene s k with
  | some x => x.members[m]?
  | none => none

/-- Change a member of a scene. -/
def modMember (s : State) (k m : Nat) (f : Member → Member) : State :=
  modScene s k fun x => { x with members := modAt x.members m f }

/-- A crew's registers. -/
def getCrew (s : State) (c : Nat) : Crew := s.crews.getD c {}
/-- Change a crew's registers. -/
def modCrew (s : State) (c : Nat) (f : Crew → Crew) : State := { s with crews := modAt s.crews c f }

/-- An engine operation. -/
def getOp (s : State) (o : Nat) : Option Op := Sparse.find? s.eng.ops o
/-- Write an engine operation. -/
def setOp (s : State) (o : Nat) (x : Op) : State := { s with eng := { s.eng with ops := Sparse.insert s.eng.ops o x } }
/-- Change an engine operation that exists. -/
def modOp (s : State) (o : Nat) (f : Op → Op) : State :=
  match getOp s o with
  | some x => setOp s o (f x)
  | none => s

/-- A queue of the scheduler (8 * crew + priority). -/
def getQueue (s : State) (q : Nat) : Queue := s.sched.queues.getD q {}
/-- Change a queue. -/
def modQueue (s : State) (q : Nat) (f : Queue → Queue) : State :=
  { s with sched := { s.sched with queues := modAt s.sched.queues q f } }

/-- A fresh open value (00 R8); the counter moves on. [DESIGN CHOICE, log 2] -/
def freshWord (s : State) : Word × State := (Config.freeValue s.freeCtr, { s with freeCtr := s.freeCtr + 1 })

/-- The time in ticks. -/
def now (s : State) : Nat := s.timecode.toNat

/-! ## General registers (13 R330) -/

/-- `g0` reads zero. -/
def readG (x : Ctx) (r : BitVec 5) : Word := if r = 0 then 0 else Sparse.get 0 x.g r.toNat

/-- A write to `g0` is discarded. -/
def writeG (x : Ctx) (r : BitVec 5) (v : Word) : Ctx := if r = 0 then x else { x with g := Sparse.insert x.g r.toNat v }

/-! ## Private memory (08 R200) -/

/-- A word of private memory: what was written since the entry, else the unpredictable word found there.
[DESIGN CHOICE, log 2] -/
def privWord (x : Ctx) (n : Nat) : Word := (Sparse.find? x.priv n).getD (Config.privateWord x.entry n)

/-- `n` bytes of private memory from byte `a` on. -/
def privBytes (x : Ctx) (a n : Nat) : List Byte :=
  (List.range n).map fun i => (privWord x ((a + i) / 8)).extractLsb' (8 * ((a + i) % 8)) 8

/-! ## Geometry (07 R147-R149) -/

/-- Package column of a stage. -/
def stageX (i : Nat) : Nat := 16 * (i / 128 % 2) + i % 128 % 16
/-- Package row of a stage. -/
def stageY (i : Nat) : Nat := 8 * (i / 256) + i % 128 / 16
/-- Raster number of a stage. -/
def rasterOf (i : Nat) : Nat := 32 * stageY i + stageX i
/-- The stage at package coordinates. -/
def stageAt (x y : Nat) : Nat := 128 * (2 * (y / 8) + x / 16) + 16 * (y % 8) + x % 16
/-- The stage of a raster number. -/
def stageOfRaster (r : Nat) : Nat := stageAt (r % 32) (r / 32)
/-- The die of a stage. -/
def dieOf (i : Nat) : Nat := i / 128
/-- The cluster of a stage, 8 * die + number (07 R148). -/
def clusterOf (i : Nat) : Nat := 8 * (i / 128) + 4 * (i % 128 / 16 / 4) + i % 16 / 4

/-- The stages of a rectangle, in raster order. -/
def rectStages (origin w h : Nat) : List Nat :=
  (List.range h).flatMap fun dy => (List.range w).map fun dx => stageAt (origin % 32 + dx) (origin / 32 + dy)

/-- The stages of a region. -/
def regionStages (r : Nat) (x : Region) : List Nat := rectStages r x.w x.h

/-- The region that holds a stage. -/
def regionOf (s : State) (i : Nat) : Option (Nat × Region) :=
  match (getStage s i).region with
  | some r => (getRegion s r).map fun x => (r, x)
  | none => none

/-- A region origin as [12:9] die, [8:0] stage index (05 R106, 02 R59). -/
def originField (r : Nat) : Nat := (stageOfRaster r / 128) * 512 + stageOfRaster r % 128

/-! ## Physical memory under its keys (01 R14, R18, R21) -/

/-- Whether a physical address is populated tier-2 or tier-3 memory (01 R14). -/
def populated (s : State) (pa : Nat) : Bool :=
  if pa < 0x8000000000 then pa % 2 ^ 36 < 48 * 2 ^ 30
  else if pa < 0x10000000000 then pa % 2 ^ 37 < s.chip.lpddr.getD (bits pa 37 2) 0 * 2 ^ 30
  else false

/-- Whether a physical address lies in the host aperture (01 R14, R15). -/
def inAperture (pa : Nat) : Bool := 0x100000000000 ≤ pa && pa < 0x200000000000

/-- The die whose controllers home an address (01 R14, 11 R228). -/
def homeDie (pa : Nat) : Nat := if pa < 0x8000000000 then bits pa 36 3 / 2 else bits pa 37 2

/-- The traversal engine beside an address's home controller (11 R261, R272). -/
def homeEngine (pa : Nat) : Nat := if pa < 0x8000000000 then bits pa 36 3 else 8 + bits pa 37 2

/-- Whether a controller group has a good copy of a key slot, from which the others restore theirs before they serve
(12 R311). [DEDUCED, log 34] -/
def keyGood (s : State) (k : Nat) : Bool := s.keys.hurt.isEmpty || (List.range 12).any fun g => !s.keys.hurt.contains (g, k)

/-- The value of a key slot; an empty slot has none (01 R23), and one without a good copy is empty (12 R311). -/
def keyValue (s : State) (k : Nat) : Option (BitVec 512) := if keyGood s k then Sparse.find? s.keys.slots k else none

/-- Bytes from the first listed cell on; an unlisted byte reads zero. -/
def readFrom : Memory → Nat → Nat → List Byte
  | _, _, 0 => []
  | [], a, n + 1 => 0 :: readFrom [] (a + 1) n
  | (k, v) :: rest, a, n + 1 => if k = a then v :: readFrom rest (a + 1) n else 0 :: readFrom ((k, v) :: rest) (a + 1) n

/-- Bytes of memory as they lie, in plaintext of the key they were written under. [DESIGN CHOICE, log 6] -/
def rawBytes (m : Memory) (a n : Nat) : List Byte := readFrom (m.dropWhile fun p => p.1 < a) a n

/-- The cells of bytes; a zero byte is not listed. -/
def listedBytes : Nat → List Byte → Memory
  | _, [] => []
  | a, b :: bs => if b = 0 then listedBytes (a + 1) bs else (a, b) :: listedBytes (a + 1) bs

/-- Store bytes, keeping the canonical form. [DESIGN CHOICE, log 6] -/
def putBytes (m : Memory) (a : Nat) (bs : List Byte) : Memory :=
  (m.takeWhile fun p => p.1 < a) ++ listedBytes a bs ++ (m.dropWhile fun p => p.1 < a + bs.length)

/-- The canonical form of memory: addresses rise strictly and no listed byte is zero, which is what an unlisted byte
reads as. [DESIGN CHOICE, log 6] -/
def Memory.wf (m : Memory) : Bool := Sparse.wf 0 m

/-- Clear a range to zero. -/
def clearBytes (m : Memory) (a n : Nat) : Memory := Sparse.clear m a (a + n)

/-- A 64-byte block as it reads under a key: a block written under another key reads deciphered under this one
(03 R75); a block nothing has written reads zero. [DESIGN CHOICE, log 6] -/
def readBlockKey (s : State) (key : BitVec 512) (blk : Nat) : List Byte :=
  let plain := rawBytes s.mem (64 * blk) 64
  match Sparse.find? s.ciph blk with
  | none => plain
  | some k => if k = key then plain else recipher k key blk plain

/-- Read bytes within one 64-byte block. [DESIGN CHOICE, log 6] -/
def readInBlock (s : State) (key : BitVec 512) (pa n : Nat) : List Byte :=
  match Sparse.find? s.ciph (pa / 64) with
  | none => rawBytes s.mem pa n
  | some k => if k = key then rawBytes s.mem pa n else ((readBlockKey s key (pa / 64)).drop (pa % 64)).take n

/-- Put bytes into one 64-byte block under a key. [DESIGN CHOICE, log 6] -/
def putInBlock (s : State) (key : BitVec 512) (pa : Nat) (bs : List Byte) : State :=
  match Sparse.find? s.ciph (pa / 64) with
  | none => { s with mem := putBytes s.mem pa bs, ciph := Sparse.insert s.ciph (pa / 64) key }
  | some k =>
    if k = key then { s with mem := putBytes s.mem pa bs }
    else
      { s with mem := putBytes (putBytes s.mem (64 * (pa / 64)) (readBlockKey s key (pa / 64))) pa bs,
               ciph := Sparse.insert s.ciph (pa / 64) key }

/-- Write bytes within one 64-byte block under a key; the block's code is regenerated (01 R18). -/
def writeInBlock (s : State) (key : BitVec 512) (pa : Nat) (bs : List Byte) : State :=
  putInBlock { s with soft := s.soft.filter (· ≠ pa / 64) } key pa bs

/-- Whether a block reads uncorrectable (01 R18). -/
def badBlock (s : State) (pa : Nat) : Bool := s.bad.contains (pa / 64)

/-! ## Translation (12 R306-R310) -/

/-- Translation causes (12 R310). -/
def xNOMAP : BitVec 8 := 1
def xPERM : BitVec 8 := 2
def xBADPA : BitVec 8 := 3
def xKEYRANGE : BitVec 8 := 4
def xKEYEMPTY : BitVec 8 := 5
def xBADPTE : BitVec 8 := 6
def xPTEUECC : BitVec 8 := 7
def xNONCANON : BitVec 8 := 8

/-- A successful leaf: page size in bits, entry. -/
structure Leaf where
  bits  : Nat
  entry : Word
  deriving DecidableEq, Repr

/-- The index of level `lvl` (12 R307). -/
def vaIndex (lvl : Nat) (va : Word) : Nat :=
  match lvl with
  | 1 => wbits va 39 9
  | 2 => wbits va 30 9
  | 3 => wbits va 21 9
  | _ => wbits va 16 5

/-- Page bits of a level (12 R307). -/
def pageBits (lvl : Nat) : Nat := match lvl with | 2 => 30 | 3 => 21 | _ => 16

/-- A reserved bit set in an entry (12 R306). -/
def pteReserved (e : Word) : Bool :=
  wbits e 0 11 ≠ 0 || (!wbit e 62 && (wbits e 59 3 ≠ 0 || wbits e 46 13 ≠ 0 || wbit e 11))

/-- Whether a key slot lies in the crew's range (01 R22, 02 R44). -/
def inKeyRange (c : Crew) (k : Nat) : Bool := wbits c.keys 0 13 ≤ k && k < wbits c.keys 0 13 + wbits c.keys 16 13

/-- A leaf's own checks against the access (12 R307). -/
def leafCheck (c : Crew) (e : Word) (sz : Nat) (acc : Access) : Except (BitVec 8) Leaf :=
  if bits e.toNat 12 (sz - 12) ≠ 0 then .error xBADPTE
  else if wbits e 46 13 = 0 || !inKeyRange c (wbits e 46 13) then .error xKEYRANGE
  else if (acc == .write && !wbit e 59) || (acc == .fetch && !wbit e 11) then .error xPERM
  else .ok { bits := sz, entry := e }

/-- The walk from level `lvl` with the table at `t`; `fuel` levels remain. -/
def walkFrom (s : State) (c : Crew) (va : Word) (acc : Access) : Nat → Nat → Nat → Except (BitVec 8) Leaf
  | 0, _, _ => .error xBADPTE
  | fuel + 1, lvl, t =>
    if !populated s t then .error xBADPA
    else
      let pa := t + 8 * vaIndex lvl va
      if badBlock s pa then .error xPTEUECC
      else
        let e := wordOf (readInBlock s ((keyValue s 0).getD 0) pa 8)
        if !wbit e 63 then .error xNOMAP
        else if pteReserved e || wbits e 60 2 = 3 || (wbit e 62 && lvl = 1) || (!wbit e 62 && lvl = 4) then .error xBADPTE
        else if wbit e 62 then leafCheck c e (pageBits lvl) acc
        else walkFrom s c va acc fuel (lvl + 1) (wbits e 12 34 * 4096)

/-- A table walk (12 R307). -/
def tableWalk (s : State) (crew : Nat) (va : Word) (acc : Access) : Except (BitVec 8) Leaf :=
  if wbits va 48 16 ≠ 0 then .error xNONCANON
  else walkFrom s (getCrew s crew) va acc 4 1 (wbits (getCrew s crew).ptroot 12 34 * 4096)

/-- The blocks of table memory that a walk reads (12 R307). -/
def walkTrail (s : State) (va : Word) : Nat → Nat → Nat → List Nat
  | 0, _, _ => []
  | fuel + 1, lvl, t =>
    let pa := t + 8 * vaIndex lvl va
    if !populated s t || badBlock s pa then []
    else
      let e := wordOf (readInBlock s ((keyValue s 0).getD 0) pa 8)
      pa / 64 :: (if !wbit e 63 || pteReserved e || wbits e 60 2 = 3 || wbit e 62 then []
        else walkTrail s va fuel (lvl + 1) (wbits e 12 34 * 4096))

/-- A translated address: physical address, key slot, page kind (09 R217). -/
structure Xlated where
  pa   : Nat
  key  : Nat
  kind : BitVec 2
  deriving DecidableEq, Repr

/-- The physical address a leaf gives. -/
def leafAddr (l : Leaf) (va : Word) : Xlated :=
  { pa := bits l.entry.toNat l.bits (46 - l.bits) * 2 ^ l.bits + va.toNat % 2 ^ l.bits
    key := wbits l.entry 46 13, kind := BitVec.ofNat 2 (wbits l.entry 60 2) }

/-- Count corrected errors of a die, saturating (12 R311). -/
def countSoft (s : State) (die n : Nat) : State :=
  { s with chip := { s.chip with cecnt := modAt s.chip.cecnt die fun c => BitVec.ofNat 32 (min (2 ^ 32 - 1) (c.toNat + n)) } }

/-- The entry of a cache that covers an address (12 R309). -/
def tlbEntry (s : State) (cache crew : Nat) (va : Word) : Option TlbEntry :=
  s.xl.tlb.find? fun e => e.cache == cache && e.crew == crew && e.page == va.toNat / 2 ^ e.bits

/-- A cached leaf that covers the address (12 R309). [DEDUCED, log 34] -/
def tlbHit (s : State) (cache crew : Nat) (va : Word) : Option Leaf :=
  (tlbEntry s cache crew va).map fun e => { bits := e.bits, entry := e.entry }

/-- The crew and pages that an XL_INV value names (12 R308). -/
def invCrew (v : Word) : Nat := wbits v 61 3
def invWhole (v : Word) : Bool := wbit v 60
def invVA (v : Word) : Nat := wbits v 16 32 * 2 ^ 16

/-- Whether a cached entry matches an invalidation (12 R308). -/
def invMatches (v : Word) (e : TlbEntry) : Bool := e.crew == invCrew v && (invWhole v || e.page == invVA v / 2 ^ e.bits)

/-- An entry becomes the one its cache used last: of 64 entries, the one used longest ago leaves (12 R309). [DEDUCED, log 34] -/
def lastUsed (s : State) (e : TlbEntry) : State :=
  let mine := s.xl.tlb.filter (·.cache == e.cache)
  let kept := mine.filter (· ≠ e)
  { s with xl := { s.xl with tlb := s.xl.tlb.filter (·.cache ≠ e.cache) ++ kept.drop (kept.length - 63) ++ [e] } }

/-- A leaf enters a cache, but not while its page is being invalidated (12 R309, R312). [DEDUCED, log 34] -/
def cacheLeaf (s : State) (cache crew : Nat) (va : Word) (l : Leaf) : State :=
  let e : TlbEntry := { cache, crew, bits := l.bits, page := va.toNat / 2 ^ l.bits, entry := l.entry }
  if (match s.xl.inv with | some v => invMatches v e | none => false) then s else lastUsed s e

/-- The corrected reads of a table walk are counted (12 R311). -/
def countWalk (s : State) (crew : Nat) (va : Word) : State :=
  if s.soft.isEmpty then s
  else ((walkTrail s va 4 1 (wbits (getCrew s crew).ptroot 12 34 * 4096)).filter s.soft.contains).foldl
    (fun s b => countSoft s (homeDie (64 * b)) 1) s

/-- The walk that a miss makes: what it corrects is counted, and a leaf is cached (12 R309). -/
def walkPage (s : State) (cache crew : Nat) (va : Word) (acc : Access) : State :=
  match tableWalk s crew va acc with
  | .ok l => cacheLeaf (countWalk s crew va) cache crew va l
  | .error _ => countWalk s crew va

/-- What the translation of an address leaves in its cache: a hit is its latest use, a miss walks (12 R309). -/
def usePage (s : State) (cache crew : Nat) (va : Word) (acc : Access) : State :=
  if wbits va 48 16 ≠ 0 then s
  else
    match tlbEntry s cache crew va with
    | some e => lastUsed s e
    | none => walkPage s cache crew va acc

/-- The same for each block of an access of `n` bytes. -/
def usePages (s : State) (cache crew : Nat) (acc : Access) : Nat → Word → Nat → State
  | 0, _, _ => s
  | fuel + 1, va, n =>
    if n = 0 then s
    else
      let len := min n (64 - va.toNat % 64)
      usePages (usePage s cache crew va acc) cache crew acc fuel (va + BitVec.ofNat 64 len) (n - len)

/-- What an access's translations leave in the cache it goes through. -/
def useCache (s : State) (cache crew : Nat) (acc : Access) (va : Word) (n : Nat) : State :=
  usePages s cache crew acc (n / 64 + 2) va n

/-- Translate through a cache: a cached leaf serves the access while it stands (12 R308), a miss walks. [DEDUCED, log 34] -/
def translate (s : State) (cache crew : Nat) (va : Word) (acc : Access) : Except (BitVec 8) Xlated :=
  if wbits va 48 16 ≠ 0 then .error xNONCANON
  else
    match tlbHit s cache crew va with
    | some l =>
      match leafCheck (getCrew s crew) l.entry l.bits acc with
      | .ok l' => .ok (leafAddr l' va)
      | .error e => .error e
    | none =>
      match tableWalk s crew va acc with
      | .ok l => .ok (leafAddr l va)
      | .error e => .error e

/-- What can keep an access from being made. -/
inductive AccErr where
  /-- a translation fault (12 R310) at the address -/
  | xlate (cause : BitVec 8) (va : Word)
  /-- an uncorrectable block (01 R18) -/
  | uecc (va : Word)
  /-- the key slot is being loaded or retired: the access waits (01 R23) -/
  | wait
  deriving DecidableEq, Repr

/-- Translate one piece and check that its page can be reached: BADPA, KEYEMPTY (12 R307, 01 R14, R15, R23). -/
def pieceOf (s : State) (cache crew : Nat) (va : Word) (len : Nat) (acc : Access) (aperture : Bool) : Except AccErr Piece :=
  match translate s cache crew va acc with
  | .error c => .error (.xlate c va)
  | .ok x =>
    if !(if inAperture x.pa then aperture else populated s x.pa) then .error (.xlate xBADPA va)
    else if s.keys.changing.contains x.key then .error .wait
    else if (keyValue s x.key).isNone then .error (.xlate xKEYEMPTY va)
    else if inAperture x.pa then .ok { va, pa := x.pa - 0x100000000000, len, key := x.key, kind := x.kind, host := true }
    else .ok { va, pa := x.pa, len, key := x.key, kind := x.kind }

/-- The pieces of an access of `n` bytes; every piece is translated before any is performed (09 R220). -/
def pieces (s : State) (cache crew : Nat) (acc : Access) (aperture : Bool) : Nat → Word → Nat → Except AccErr (List Piece)
  | 0, _, _ => .ok []
  | fuel + 1, va, n =>
    if n = 0 then .ok []
    else
      let len := min n (64 - va.toNat % 64)
      match pieceOf s cache crew va len acc aperture with
      | .error e => .error e
      | .ok p =>
        match pieces s cache crew acc aperture fuel (va + BitVec.ofNat 64 len) (n - len) with
        | .error e => .error e
        | .ok ps => .ok (p :: ps)

/-- Read one piece. -/
def readPiece (s : State) (p : Piece) : List Byte :=
  if p.host then rawBytes s.hostMem p.pa p.len else readInBlock s ((keyValue s p.key).getD 0) p.pa p.len

/-- The read of a piece corrects its block, if it must (01 R18). -/
def countPiece (s : State) (p : Piece) : State :=
  if !p.host && s.soft.contains (p.pa / 64) then countSoft s (homeDie p.pa) 1 else s

/-- A write of part of a block reads the rest of it, and corrects it if it must (01 R18). -/
def countMerge (s : State) (p : Piece) : State := if p.len < 64 then countPiece s p else s

/-- Write one piece; a full block is good again (01 R18). -/
def writePiece (s : State) (p : Piece) (bs : List Byte) : State :=
  if p.host then { s with hostMem := putBytes s.hostMem p.pa bs }
  else
    let s' := writeInBlock s ((keyValue s p.key).getD 0) p.pa bs
    if p.len = 64 then { s' with bad := s'.bad.filter (· ≠ p.pa / 64) } else s'

/-- Whether reading (or merging into) a piece meets an uncorrectable block. -/
def pieceBad (s : State) (p : Piece) (write : Bool) : Bool := !p.host && badBlock s p.pa && !(write && p.len = 64)

/-- Read the pieces in ascending order. -/
def readPieces (s : State) : List Piece → Except AccErr (List Byte)
  | [] => .ok []
  | p :: ps =>
    if pieceBad s p false then .error (.uecc p.va)
    else
      match readPieces s ps with
      | .ok bs => .ok (readPiece s p ++ bs)
      | .error e => .error e

/-- Write the pieces in ascending order; the writes before a bad merge stand. -/
def writePieces : State → List Piece → List Byte → State × Option AccErr
  | s, [], _ => (s, none)
  | s, p :: ps, bs =>
    if pieceBad s p true then (s, some (.uecc p.va))
    else writePieces (writePiece (countMerge s p) p (bs.take p.len)) ps (bs.drop p.len)

/-- The size of a crew's sync backing area: none without sync space, else four dies of 2^SLOG variables (11 R278). -/
def backingSize (s : State) (crew : Nat) : Nat :=
  let slog := min 24 (wbits (getCrew s crew).sync 0 5)
  if slog = 0 then 0 else 4 * 2 ^ (slog + 4)

/-- Whether a byte lies in the crew's sync backing area. [DEDUCED, log 30] -/
def inBacking (s : State) (crew va : Nat) : Bool :=
  let base := wbits (getCrew s crew).sync 16 32 * 2 ^ 16
  base ≤ va && va < base + backingSize s crew

/-- What a plain read returns: what memory holds, but unpredictable bytes in the sync backing area (11 R279).
[DESIGN CHOICE, log 2; DEDUCED, log 30] -/
def plainBytes (s : State) (reader crew va : Nat) (bs : List Byte) : List Byte :=
  if backingSize s crew = 0 then bs
  else bs.zipIdx.map fun (p : Byte × Nat) =>
    if inBacking s crew (va + p.2) then Config.backingByte s.freeCtr (now s) reader (va + p.2) else p.1

/-- Whether a translation cache is a sync engine's: its fills of variables are no plain reads. -/
def isSyncCache (cache : Nat) : Bool := 524 ≤ cache && cache < 528

/-- Read `n` bytes of a crew's space. -/
def vread (s : State) (cache crew : Nat) (va : Word) (n : Nat) (aperture : Bool := false) : Except AccErr (List Byte) :=
  match pieces s cache crew .read aperture (n / 64 + 2) va n with
  | .ok ps =>
    match readPieces s ps with
    | .ok bs => .ok (if isSyncCache cache then bs else plainBytes s cache crew va.toNat bs)
    | .error e => .error e
  | .error e => .error e

/-- What a read leaves behind: the use of the translation cache, and the count of what it corrected (01 R18; 12 R309). -/
def countRead (s : State) (cache crew : Nat) (va : Word) (n : Nat) (aperture : Bool := false) : State :=
  let t := useCache s cache crew .read va n
  if s.soft.isEmpty then t
  else
    match pieces s cache crew .read aperture (n / 64 + 2) va n with
    | .ok ps => ps.foldl countPiece t
    | .error _ => t

/-- Write bytes into a crew's space. -/
def vwrite (s : State) (cache crew : Nat) (va : Word) (bs : List Byte) (aperture : Bool := false) : State × Option AccErr :=
  match pieces s cache crew .write aperture (bs.length / 64 + 2) va bs.length with
  | .ok ps => writePieces (useCache s cache crew .write va bs.length) ps bs
  | .error e => (s, some e)

/-! ## Event rings (02 R58, R59) -/

/-- The 32 bytes of an event record. -/
def eventBytes (typ crew source code : Nat) (info0 info1 time : Word) : List Byte :=
  leBytes 8 time.toNat ++ leBytes 4 code ++ leBytes 2 source ++ leBytes 1 (crew * 32) ++ leBytes 1 typ ++
  leBytes 8 info0.toNat ++ leBytes 8 info1.toNat

/-- Whether a ring is enabled: its size code is 6 to 16 (02 R58). -/
def ringOn (r : Ring) : Bool := 6 ≤ wbits r.size 0 5 && wbits r.size 0 5 ≤ 16

/-- Whether a ring has room. -/
def ringRoom (r : Ring) : Bool := ringOn r && (r.prod - r.cons).toNat < 2 ^ wbits r.size 0 5

/-- Ring number `n`: a crew's, or 8 for the device's. -/
def getRing (s : State) (n : Nat) : Ring := if n = 8 then s.devRing else (getCrew s n).ring
/-- Write a ring. -/
def setRing (s : State) (n : Nat) (r : Ring) : State :=
  if n = 8 then { s with devRing := r } else modCrew s n fun c => { c with ring := r }

/-- Whether a vector is masked in the MSI-X table: bit 0 of its vector control word. [PRESUMED, log 38] -/
def vectorMasked (s : State) (n : Nat) : Bool := wbit (s.msixTable.getD (2 * n + 1) 0) 32

/-- Send an MSI-X vector, or keep it pending while it is masked (02 R44). [PRESUMED, log 38] -/
def raiseVector (s : State) (n : Nat) : State :=
  if !vectorMasked s n then { s with msix := s.msix ++ [n] }
  else if s.msixPend.contains n then s
  else { s with msixPend := s.msixPend ++ [n] }

/-- The vector of a ring (02 R44). -/
def ringVector (n : Nat) : Nat := if n = 8 then 0 else 1 + n

/-- Put one record into a ring that has room: the record, then PROD, then the vector when the ring was empty. -/
def putRecord (s : State) (n : Nat) (bs : List Byte) : State :=
  let r := getRing s n
  let a := wbits r.base 12 52 * 4096 + 32 * (r.prod.toNat % 2 ^ wbits r.size 0 5)
  let s := { s with hostMem := putBytes s.hostMem a bs }
  let s := if wbit r.ctl 0 && r.prod == r.cons then raiseVector s (ringVector n) else s
  setRing s n { r with prod := r.prod + 1 }

/-- Count a dropped event, saturating (02 R58). -/
def dropEvent (s : State) (n : Nat) : State :=
  let r := getRing s n
  setRing s n { r with lost := if r.lost.toNat = 2 ^ 32 - 1 then r.lost else r.lost + 1 }

/-- Write a waiting EVLOST record first, when the ring has room. [DEDUCED, log 21] -/
def flushLost (s : State) (n : Nat) : State :=
  let r := getRing s n
  if r.lost ≠ 0 && ringRoom r then
    putRecord (setRing s n { r with lost := 0 }) n
      (eventBytes 0x40 (if n = 8 then 0 else n) 0 0 (BitVec.ofNat 64 r.lost.toNat) 0 s.timecode)
  else s

/-- Write the record of an event of this time, or drop and count it (02 R58). [DEDUCED, log 21] -/
def writeEventAt (s : State) (n typ source code : Nat) (info0 info1 time : Word) : State :=
  let s := flushLost s n
  if ringRoom (getRing s n) then
    putRecord s n (eventBytes typ (if n = 8 then 0 else n) source code info0 info1 time)
  else dropEvent s n

/-- Write the record of an event as it occurs. -/
def writeEvent (s : State) (n typ source code : Nat) (info0 info1 : Word) : State :=
  writeEventAt s n typ source code info0 info1 s.timecode

/-! ## Freezing a region (12 R292-R294) -/

/-- The tile of a unit (07 R149). -/
def unitTile (u : UnitRef) : Nat :=
  if u.slot < 4 then 2 else if u.slot < 8 then 3 else if u.slot = 8 then 0 else if u.slot < 16 then 1 else (u.slot - 16) / 4 % 4

/-- A unit's origin in error-token lane-1 layout (07 R161). -/
def unitOrigin (u : UnitRef) : Nat :=
  (if u.slot < 16 then u.slot else 15) + unitTile u * 16 + u.stage % 128 * 64 + u.stage / 128 * 2 ^ 13

/-- An error token (07 R161): cause, origin and value in lanes 0 to 3. -/
def errorToken (cause : BitVec 16) (origin : Nat) (value : Word) : Token :=
  { tag := 7, mask := 0xF,
    data := BitVec.ofNat 512 (cause.toNat + origin % 2 ^ 15 * 2 ^ 32 + value.toNat * 2 ^ 64) }

/-- What the region records of its active context. -/
def activeCtx (x : Region) : Option RegCtx := Sparse.find? x.loaded x.active.toNat

/-- The scene's circuit that a member's port sends on, and the rest of the list changed by `f`. -/
def modCircuits (f : SceneCircuit → SceneCircuit) (sel : SceneCircuit → Bool) (l : List SceneCircuit) : List SceneCircuit :=
  l.map fun q => if sel q then f q else q

/-- The effects of a freeze beyond the region (14 R353): SCENEFRZ orders to the other members, FRZERR error tokens that wait for
credit outside the region's DIR 3 ports. -/
def freezeSides (s : State) (r : Nat) (x : Region) (cause : BitVec 16) (marks : List Mark) (value : Word) : State :=
  match activeCtx x with
  | none => s
  | some a =>
    modScene s x.scene fun k =>
      let others := (k.members.map (·.region)).filter (· ≠ r)
      let origin := match marks with | m :: _ => unitOrigin m.unit | [] => 0
      let ports := (a.bindings.filter (·.dir = 3)).map (·.port)
      { k with
        orders := if a.scenefrz then k.orders ++ others.map fun o => (o, cause) else k.orders
        circuits := if a.frzerr then
            modCircuits (fun q => { q with late := q.late ++ [errorToken cause origin value] })
              (fun q => q.smem == x.member && ports.contains q.sport) k.circuits
          else k.circuits }

/-- A take step that waits for its load or start returns this status (07 R176, 18 R464). [DEDUCED, log 29] -/
def endTakeStep (s : State) (c : Nat) (status : Word) (uncount : Bool) : State :=
  modCtx s c fun x =>
    match x.wait with
    | .take d => { writeG x d status with pc := x.pc + 4, wait := .none, tiles := if uncount then x.tiles - 1 else x.tiles }
    | .ctxLoad d => { writeG x d status with pc := x.pc + 4, wait := .none }
    | _ => x

/-- A take step that waits on a region that freezes returns FROZEN at once (18 R464). -/
def endStep (s : State) (c : Nat) : State :=
  modCtx s c fun x =>
    match x.wait with
    | .step d => { writeG x d 0x34 with pc := x.pc + 4, wait := .none }
    | _ => x

/-- Freeze a region; the freeze record of a region already frozen stands. A load or start in progress stops, every context
the load had emptied is left not loaded, and its take step returns FROZEN (07 R176). -/
def freezeWith (s : State) (r : Nat) (cause : BitVec 16) (marks : List Mark) (value : Word) (replay : Bool) : State :=
  match getRegion s r with
  | none => s
  | some x =>
    if x.frozen.isSome then s
    else
      let stop := x.load.isSome
      let s := setRegion s r
        { x with
          frozen := some { cause, marks, replay := replay && !x.holding, value,
                           stoppedLoad := x.load.isSome }
          faults := [], holding := false
          loaded := match x.load with
            | some l => if l.words.isSome then x.loaded.filter fun p => bits l.wmask.toNat p.1 1 = 0 else x.loaded
            | none => x.loaded
          phase := if stop && x.phase ≠ .started then .idle else x.phase
          load := none }
      let s := match x.load with
        | some l => match l.ctx with
          | some c => endTakeStep s c 0x34 l.act.isSome
          | none => s
        | none => s
      let s := match x.ctx with | some c => endStep s c | none => s
      freezeSides s r x cause marks value

/-- Queue an asynchronous trap for a context (12 R290). [DEDUCED, log 29] -/
def queueTrap (s : State) (c : Nat) (cause : BitVec 8) (val : Word) : State :=
  modCtx s c fun x => { x with pend := x.pend ++ [{ cause, val }] }

/-- The record SCENE_FAULT of a member whose region faulted (02 R59, 12 R292, R295). [DEDUCED, log 28] -/
def sceneFault (s : State) (r : Nat) (code : Nat) (info1 : Word) : State :=
  match getRegion s r with
  | some x => writeEvent s x.crew 0x11 (originField r) code (BitVec.ofNat 64 (originField r)) info1
  | none => s

/-! ## Director traps (12 R289-R292) -/

/-- Trap causes (12 R289). -/
def tILLEGAL : BitVec 8 := 0x01
def tMISALIGN : BitVec 8 := 0x02
def tXLATE : BitVec 8 := 0x03
def tPRIV : BitVec 8 := 0x04
def tBADCUE : BitVec 8 := 0x05
def tDIVZERO : BitVec 8 := 0x06
def tTRAP : BitVec 8 := 0x07
def tUECC : BitVec 8 := 0x08
def tJOINREF : BitVec 8 := 0x09
def tTABLE : BitVec 8 := 0x0A
def tFABRIC : BitVec 8 := 0x10
def tBARRIER : BitVec 8 := 0x11

/-- The value of `xcause` (12 R289). -/
def xcauseWord (async : Bool) (sub cause : BitVec 8) : Word :=
  BitVec.ofNat 64 ((if async then 2 ^ 63 else 0) + sub.toNat * 256 + cause.toNat)

/-- The region of a context's member. -/
def ctxRegion (s : State) (c : Nat) : Option Nat :=
  (getMember s (getCtx s c).scene (getCtx s c).member).map (·.region)

/-- The stage of a context. -/
def ctxStage (c : Nat) : Nat := c / 4

/-- The context's UO writes leave the combining buffer (09 R218). -/
def drainUO (x : Ctx) : Ctx := { x with stores := x.stores.map fun t => { t with buffered := false } }

/-- The contexts' stores that have left the combining buffer take their places in the port's order (09 R210).
[DEDUCED, log 30] -/
def stampLeft (s : State) (stage : Nat) : State :=
  (List.range 4).foldl (fun s c =>
    let x := getCtx s (4 * stage + c)
    let left := fun (t : Store) => !t.buffered && t.stamp == 0
    if x.stores.any left then
      let n := (getStage s stage).portNext
      let r := x.stores.foldl (fun (a : List Store × Nat) t =>
        if left t then (a.1 ++ [{ t with stamp := a.2 }], a.2 + 1) else (a.1 ++ [t], a.2)) ([], n)
      modStage (setCtx s (4 * stage + c) { x with stores := r.1 }) stage fun g => { g with portNext := r.2 }
    else s) s

/-- A context's UO writes leave the combining buffer, and its port accepts them in their order (09 R210, R218). -/
def leaveBuffer (s : State) (c : Nat) : State := stampLeft (modCtx s c drainUO) (ctxStage c)

/-- A director halt (12 R292): the context stops, its region freezes with DIRHALT, the member is FROZEN, and SCENE_FAULT is
written with CODE[31] set. -/
def directorHalt (s : State) (c : Nat) (cause : BitVec 8) : State :=
  let x := getCtx s c
  let s := modCtx (leaveBuffer s c) c fun y => { y with state := .halted, wait := .none, rushes := [], hint := none }
  match ctxRegion s c with
  | none => s
  | some r =>
    let s := freezeWith s r 0x0019 [] 0 false
    let s := modMember s x.scene x.member fun m => { m with state := .frozen }
    sceneFault s r (2 ^ 31 + cause.toNat) 0

/-- Taking a trap (12 R290): `retpc` is the address `xpc` receives. -/
def takeTrap (s : State) (c : Nat) (cause sub : BitVec 8) (val : Word) (async : Bool) (retpc : Word) : State :=
  let x := getCtx s c
  if x.tm && !async then directorHalt s c cause
  else if x.tm then queueTrap s c cause val
  else if x.xvec = 0 then directorHalt s c cause
  else
    modCtx (leaveBuffer s c) c fun y =>
      { y with
        rushes := [], hint := none, wait := .none, xcause := xcauseWord async sub cause, xpc := retpc, xval := val, tm := true
        pc := x.xvec }

/-- A precise trap at the instruction being executed: it has no other effect, and `xpc` is its address. -/
def preciseTrap (s : State) (cause sub : BitVec 8) (val : Word) : State :=
  takeTrap s s.cur cause sub val false (getCtx s s.cur).pc

/-- Take the oldest pending asynchronous trap, if any, when no handler runs (12 R290, R291). [DEDUCED, log 29] -/
def takePending (s : State) (c : Nat) : State :=
  let x := getCtx s c
  match x.pend with
  | [] => s
  | t :: rest => if x.tm then s else takeTrap (setCtx s c { x with pend := rest }) c t.cause 0 t.val true x.pc

/-- Return from a trap (12 R291): pc := xpc, status.TM := 0, and the oldest pending asynchronous trap is taken next. -/
def trapReturn (s : State) (c : Nat) : State :=
  takePending (modCtx s c fun x => { x with pc := x.xpc, tm := false }) c

/-! ## The running context's own instruction -/

/-- The context whose turn it is. -/
def curCtx (s : State) : Ctx := getCtx s s.cur

/-- Change the context whose turn it is. -/
def modCur (s : State) (f : Ctx → Ctx) : State := modCtx s s.cur f

/-- Move past the instruction. -/
def advance (s : State) : State := modCur s fun x => { x with pc := x.pc + 4, wait := .none }

/-- Write a result and move past the instruction. -/
def retire (s : State) (d : BitVec 5) (v : Word) : State :=
  modCur s fun x => { writeG x d v with pc := x.pc + 4, wait := .none }

/-- The context waits; the instruction at pc will be executed again. [DEDUCED, log 29] -/
def stallCur (s : State) : State := modCur s fun x => { x with wait := .stall }

/-- A take step waits, and will be executed again; a freeze of its region ends it (18 R464). [DEDUCED, log 29] -/
def stallStep (s : State) (d : BitVec 5) : State := modCur s fun x => { x with wait := .step d }

/-- ILLEGAL with the instruction word (12 R289). [DEDUCED, log 29] -/
def illegal (s : State) (i : Instr) : State :=
  preciseTrap s tILLEGAL 0 (match encode i with | some w => w.setWidth 64 | none => 0)

/-- A register that awaits a load's data may be neither read nor written (05 R118, 18 R455). -/
def awaits (x : Ctx) (r : BitVec 5) : Bool := r ≠ 0 && x.loads.any fun l => l.d == r

/-- Whether any of these registers awaits data: then the context stalls. -/
def busyRegs (s : State) (rs : List (BitVec 5)) : Bool := rs.any (awaits (curCtx s))

/-- Run an instruction of the context whose turn it is: a context that is not running issues nothing; one whose operands
await data stalls. -/
def withRegs (s : State) (rs : List (BitVec 5)) (k : Ctx → State) : Result State :=
  if (curCtx s).state ≠ .running then .next s
  else if busyRegs s rs then .next (stallCur s)
  else .next (k (curCtx s))

/-- The trap of a failed access (18 R458): XLATE is precise, with its cause (12 R310); an uncorrectable read leaves its
instruction without effect and raises an asynchronous UECC trap; an access to a key slot that is changing waits. -/
def accTrap (s : State) (e : AccErr) : State :=
  match e with
  | .xlate cause va => preciseTrap s tXLATE cause va
  | .uecc va => queueTrap (advance s) s.cur tUECC va
  | .wait => stallCur s

/-- Whether every earlier load and store of the context has performed (09 R222). -/
def allPerformed (x : Ctx) : Bool := x.loads.isEmpty && x.stores.isEmpty

end Sys2Proof.Machine
end

