-- ==== Sys2Proof/Machine/Operands.lean ====
section
/-! DEFINITION. Operand forms of script instructions (13 R329, 18 R456-R462): sign and zero extension, effective
addresses, branch targets, access widths. -/
namespace Sys2Proof.Machine

/-- sext(imm15, 15). -/
def sext15 (imm : BitVec 15) : Word := imm.signExtend 64
/-- zext(imm15). -/
def zext15 (imm : BitVec 15) : Word := imm.setWidth 64

/-- The effective address of a load or store (18 R458, R460). -/
def effAddr (base : Word) (imm : BitVec 15) : Word := base + sext15 imm

/-- The target of a branch (18 R461). -/
def branchTarget (pc : Word) (off : BitVec 15) : Word := pc + 4 * sext15 off
/-- The target of a jump (18 R462). -/
def jumpTarget (pc : Word) (off : BitVec 25) : Word := pc + 4 * off.signExtend 64

/-- The exit address (05 R106). -/
def exitAddress : Word := 0xFFFFFFFFFFFFFFFC

/-- The width in bytes of LDA and SDR, fn[3:2] (18 R459). -/
def widthBytes (w : BitVec 2) : Nat := 2 ^ w.toNat

/-- Extend `n` loaded bytes to a word (18 R458). -/
def extendBytes (n : Nat) (signed : Bool) (bs : List Byte) : Word :=
  let v := leNat (bs.take n)
  if signed then wordOfInt (sextInt (8 * n) v) else BitVec.ofNat 64 v

/-- Natural alignment (09 R221). -/
def misaligned (va : Word) (n : Nat) : Bool := va.toNat % n ≠ 0

/-- A take step's image address is bad (18 R464). -/
def badImageAddr (va : Word) : Bool := wbits va 0 6 ≠ 0 || wbits va 48 16 ≠ 0

/-- The status word of a take step: the code in [7:0], the index of the failing word in [39:16] (18 R464). -/
def takeStatus (code : Nat) (index : Nat := 0) : Word := BitVec.ofNat 64 (index % 2 ^ 24 * 2 ^ 16 + code % 256)

end Sys2Proof.Machine
end

