-- ==== Sys2Proof/Machine/Flags.lean ====
section
/-! DEFINITION. The status words that the hardware computes: `status` and `cnt` (18 R481), `ctxid` (18 R480), `mapsel`
(04 R83), `frz` (12 R294); comparisons of the script instructions. -/
namespace Sys2Proof.Machine

/-- A truth value as a register value. -/
def boolWord (b : Bool) : Word := if b then 1 else 0

/-- `status` (18 R481). -/
def statusWord (x : Ctx) : Word := BitVec.ofNat 64 (16 * x.gen.toNat + (if x.tm then 1 else 0))

/-- `cnt` (18 R481). -/
def cntWord (x : Ctx) : Word :=
  BitVec.ofNat 64 (x.tiles % 64 * 2 ^ 32 + x.copies % 1024 * 2 ^ 16 + x.stores.length % 32 * 2 ^ 8 + x.loads.length % 32)

/-- `ctxid` (18 R480): [1:0] context, [14:8] stage index, [16:15] die. -/
def ctxidWord (c : Nat) : Word := BitVec.ofNat 64 (c % 4 + c / 4 % 128 * 2 ^ 8 + c / 4 / 128 * 2 ^ 15)

/-- Signed comparison. -/
def sltWord (a b : Word) : Bool := a.slt b
/-- Unsigned comparison. -/
def ultWord (a b : Word) : Bool := a.ult b

end Sys2Proof.Machine
end

