-- ==== Sys2Proof/Machine/ScriptMemory.lean ====
section
/-! DEFINITION. Script loads and stores, private memory, the waits and fences on them, and the events that perform them
(18 R458-R460, R472, R473; 08 R200-R202; 09 R207-R210, R218, R222). The stream port accepts an access as it is issued, or as
it leaves the port's combining buffer; the access is outstanding until LOAD_DATA_RETURN or STORE_PERFORM. -/
namespace Sys2Proof.Machine

/-! ## The stream port's order (09 R210) -/

/-- The port accepts an access: its place in the port's order. -/
def acceptNext (s : State) (stage : Nat) : Nat × State :=
  let s := stampLeft s stage
  ((getStage s stage).portNext, modStage s stage fun g => { g with portNext := g.portNext + 1 })

/-- The piece of memory that a node's global access reaches. -/
def eventPiece (e : MemEvent) : Piece := { va := e.va, pa := e.addr, len := e.len, key := e.key, kind := e.kind }

/-- Whether a node's global access cannot perform: it must read its block, which is uncorrectable (01 R18). -/
def eventStuck (s : State) (e : MemEvent) : Bool := pieceBad s (eventPiece e) (e.write && e.ext = 2 ^ e.len - 1)

/-- Whether a unit has failed, in a region that runs or has frozen (12 R293). -/
def unitFailed (x : Region) (u : UnitRef) : Bool :=
  x.faults.any (·.unit == u) || (match x.frozen with | some f => f.marks.any (·.unit == u) | none => false)

/-- The token operations that a memory node has in progress, oldest first. -/
def nodeOps (u : UnitState) : List MemOp := u.past ++ u.op.toList

/-- The accesses that a stage's port has accepted and that have yet to perform: place and address. One that
has failed is in no other's way. -/
def portAccepted (s : State) (stage : Nat) : List (Nat × Nat) :=
  ((List.range 4).flatMap fun c =>
    let x := getCtx s (4 * stage + c)
    x.loads.map (fun l => (l.stamp, l.pa)) ++ x.stores.map fun t => (t.stamp, t.pa)) ++
  (((getStage s stage).port.filter fun p => !eventStuck s p.2).map fun p => (p.2.stamp, p.2.addr)) ++
  (getStage s stage).units.flatMap fun u => (nodeOps u.2).filterMap fun m =>
    (m.events.head?.filter fun e => !eventStuck s e).map fun e => (e.stamp, e.addr)

/-- Whether an access must wait for one that the port accepted earlier and sends to the same home controller: the controller
performs a port's accesses in the order of their arrival (R210). -/
def portWaits (s : State) (stage stamp pa : Nat) : Bool :=
  (portAccepted s stage).any fun p => p.1 ≠ 0 && (stamp = 0 || p.1 < stamp) && homeEngine p.2 == homeEngine pa

/-- Whether a read that performs as it is issued must wait for accesses that the port accepted earlier (R210). -/
def readWaits (s : State) (stage crew : Nat) (va : Word) : Bool :=
  match pieceOf s stage crew va 1 .read false with
  | .ok p => portWaits s stage 0 p.pa
  | .error _ => false

/-! ## Issuing accesses -/

/-- Whether two byte ranges overlap. -/
def overlaps (a n b m : Nat) : Bool := a < b + m && b < a + n

/-- Whether the context may issue no access now: an acquire-marked cue or load, or an SO access, has not performed
(09 R218, R224). [DEDUCED, log 30] -/
def accessGate (x : Ctx) : Bool :=
  x.acq.isSome || x.loads.any (fun l => l.acq || l.kind == 1) || x.stores.any (fun t => t.kind == 1)

/-- Whether this access must still wait: behind the gate, or an SO access behind any earlier access. -/
def accessWaits (x : Ctx) (kind : BitVec 2) : Bool := accessGate x || (kind == 1 && !allPerformed x)

/-- The access waits; an SO access empties the combining buffer first (09 R218). -/
def waitAccess (s : State) (kind : BitVec 2) : State :=
  stallCur (if kind = 1 then leaveBuffer s s.cur else s)

/-- The rushes entry that serves a committed load: of a resolved generation, not faulted, of good parity, holding every byte
(08 R201; 12 R311). -/
def rushHit (x : Ctx) (va : Word) (n : Nat) : Option Rush :=
  x.rushes.find? fun r => r.resolved && !r.faulted && !r.hurt && r.block == va.toNat / 64 && va.toNat % 64 + n ≤ 64

/-- Free the entries that hold bytes of a block: by its virtual address, or by its frame where an alias filled them (08 R202;
09 R204, R207). -/
def freeRush (x : Ctx) (va : Word) (pa : Nat) : Ctx :=
  { x with rushes := x.rushes.filter fun r => r.block ≠ va.toNat / 64 && r.pa ≠ some (pa / 64) }

/-- A load discards the entries of its block whose parity is wrong (12 R311). [DEDUCED, log 34] -/
def dropHurt (x : Ctx) (va : Word) : Ctx := { x with rushes := x.rushes.filter fun r => !(r.hurt && r.block == va.toNat / 64) }

/-- Free every entry (08 R202). -/
def freeRushes (x : Ctx) : Ctx := { x with rushes := [] }

/-- Free the entry that served a load: an entry serves at most one. -/
def useRush (x : Ctx) (r : Rush) : Ctx := { x with rushes := x.rushes.erase r }

/-- The bytes of a block from an offset. -/
def blockSlice (b : Block) (off n : Nat) : List Byte := ((blockBytes b).drop off).take n

/-- Issue a load whose address is aligned (18 R458, R459). An entry of the rushes buffer does not serve bytes that an earlier
load has yet to read (09 R207). An acquire at stage scope has performed there once the port has
accepted it (09 R222). [DEDUCED, log 30] -/
def issueLoad (s : State) (d : BitVec 5) (va : Word) (n : Nat) (signed acq : Bool) (scope : BitVec 2) : State :=
  let t := usePage s (ctxStage s.cur) (curCtx s).crew va .read
  match pieceOf s (ctxStage s.cur) (curCtx s).crew va n .read false with
  | .error e => accTrap t e
  | .ok p =>
    if accessWaits (curCtx s) p.kind || (curCtx s).loads.length = 31 then waitAccess t p.kind
    else
      match if acq || (curCtx s).loads.any (fun o => overlaps o.pa o.n p.pa n) then none else rushHit (curCtx s) va n with
      | some r => retire (modCur t fun x => useRush (dropHurt x va) r) d (extendBytes n signed (blockSlice r.data (va.toNat % 64) n))
      | none =>
        let (stamp, s) := acceptNext t (ctxStage s.cur)
        advance (modCur s fun x =>
          { (if acq then freeRushes x else freeRush x va p.pa) with
            loads := x.loads ++ [{ d, va, n, signed, pa := p.pa, key := p.key, kind := p.kind,
                                   acq := acq && p.kind == 0 && scope != 0, scope, seq := x.nextSeq, stamp }],
            nextSeq := x.nextSeq + 1 })

/-- Blocks waiting in a stream port's combining buffer (09 R218). -/
def combCount (s : State) (stage : Nat) : Nat :=
  (getStage s stage).comb.length +
  ((List.range 4).flatMap fun c => (getCtx s (4 * stage + c)).stores.filter (·.buffered)).length

/-- Whether a stage's stream port sends UO writes without combining: NOCOMB of the active context's word for slot 12 (16 R427). -/
def noComb (s : State) (stage : Nat) : Bool :=
  match regionOf s stage with
  | some (_, x) => match Sparse.find? (getStage s stage).cfg (16 * x.active.toNat + 12) with | some k => wbit k.word 40 | none => false
  | none => false

/-- Whether a store must follow buffered UO writes of its context: it is a release, or overlaps one of them (09 R207, R218). -/
def storeFollows (x : Ctx) (p : Piece) (rel : Bool) : Bool :=
  (rel && p.kind == 0) || x.stores.any fun o => o.buffered && overlaps o.pa o.bytes.length p.pa p.len

/-- Issue a store whose address is aligned. Buffered writes that it must follow leave the buffer first, so that the port
accepts them before it. [DEDUCED, log 30] -/
def issueStore (s : State) (va : Word) (bytes : List Byte) (rel : Bool) (scope : BitVec 2) : State :=
  let t := usePage s (ctxStage s.cur) (curCtx s).crew va .write
  match pieceOf s (ctxStage s.cur) (curCtx s).crew va bytes.length .write false with
  | .error e => accTrap t e
  | .ok p =>
    if accessWaits (curCtx s) p.kind || (curCtx s).stores.length = 31 then waitAccess (leaveBuffer t s.cur) p.kind
    else
      let buffered := p.kind == 2 && !noComb s (ctxStage s.cur) && combCount s (ctxStage s.cur) < 64
      let u := if !buffered && storeFollows (curCtx s) p rel then leaveBuffer t s.cur else t
      let (stamp, s) := if buffered then (0, u) else acceptNext u (ctxStage s.cur)
      advance (modCur s fun x =>
        { freeRush x va p.pa with
          stores := x.stores ++ [{ va, bytes, pa := p.pa, key := p.key, kind := p.kind, rel := rel && p.kind == 0, scope,
                                   seq := x.nextSeq, buffered, stamp }],
          nextSeq := x.nextSeq + 1 })

/-- LB to LD. -/
def opLoad (d a : BitVec 5) (imm : BitVec 15) (n : Nat) (signed : Bool) (s : State) : Result State :=
  withRegs s [a, d] fun x =>
    let va := effAddr (readG x a) imm
    if misaligned va n then preciseTrap s tMISALIGN 0 va else issueLoad s d va n signed false 0

/-- SB to SD. -/
def opStore (d a : BitVec 5) (imm : BitVec 15) (n : Nat) (s : State) : Result State :=
  withRegs s [a, d] fun x =>
    let va := effAddr (readG x a) imm
    if misaligned va n then preciseTrap s tMISALIGN 0 va else issueStore s va (leBytes n (readG x d).toNat) false 0

def execLb (d a : BitVec 5) (imm : BitVec 15) (s : State) : Result State := opLoad d a imm 1 true s
def execLbu (d a : BitVec 5) (imm : BitVec 15) (s : State) : Result State := opLoad d a imm 1 false s
def execLh (d a : BitVec 5) (imm : BitVec 15) (s : State) : Result State := opLoad d a imm 2 true s
def execLhu (d a : BitVec 5) (imm : BitVec 15) (s : State) : Result State := opLoad d a imm 2 false s
def execLw (d a : BitVec 5) (imm : BitVec 15) (s : State) : Result State := opLoad d a imm 4 true s
def execLwu (d a : BitVec 5) (imm : BitVec 15) (s : State) : Result State := opLoad d a imm 4 false s
def execLd (d a : BitVec 5) (imm : BitVec 15) (s : State) : Result State := opLoad d a imm 8 false s
def execSb (d a : BitVec 5) (imm : BitVec 15) (s : State) : Result State := opStore d a imm 1 s
def execSh (d a : BitVec 5) (imm : BitVec 15) (s : State) : Result State := opStore d a imm 2 s
def execSw (d a : BitVec 5) (imm : BitVec 15) (s : State) : Result State := opStore d a imm 4 s
def execSd (d a : BitVec 5) (imm : BitVec 15) (s : State) : Result State := opStore d a imm 8 s

/-- LDA (18 R459): acquire-marked load at the address in g[a]; zero-extends, and frees the context's rushes entries. -/
def execLda (d a : BitVec 5) (width scope : BitVec 2) (s : State) : Result State :=
  withRegs s [a, d] fun x =>
    if misaligned (readG x a) (widthBytes width) then preciseTrap s tMISALIGN 0 (readG x a)
    else issueLoad s d (readG x a) (widthBytes width) false true scope

/-- SDR (18 R459): release-marked store of the low bytes of g[b]. -/
def execSdr (a b : BitVec 5) (width scope : BitVec 2) (s : State) : Result State :=
  withRegs s [a, b] fun x =>
    if misaligned (readG x a) (widthBytes width) then preciseTrap s tMISALIGN 0 (readG x a)
    else issueStore s (readG x a) (leBytes (widthBytes width) (readG x b).toNat) true scope

/-- The check of a private address (18 R460, 08 R200). -/
def privTrap (s : State) (va : Word) (align : Nat) : Option State :=
  if misaligned va align then some (preciseTrap s tMISALIGN 0 va)
  else if 0x8000 ≤ va.toNat then some (preciseTrap s tXLATE xNOMAP va)
  else none

/-- LDP (18 R460). -/
def execLdp (d a : BitVec 5) (imm : BitVec 15) (s : State) : Result State :=
  withRegs s [a, d] fun x =>
    let va := effAddr (readG x a) imm
    match privTrap s va 8 with
    | some t => t
    | none =>
      if x.privBad.contains (va.toNat / 8) then preciseTrap s tUECC 0 va
      else retire s d (privWord x (va.toNat / 8))

/-- STP (18 R460). -/
def execStp (d a : BitVec 5) (imm : BitVec 15) (s : State) : Result State :=
  withRegs s [a, d] fun x =>
    let va := effAddr (readG x a) imm
    match privTrap s va 8 with
    | some t => t
    | none =>
      advance (modCur s fun y =>
        { y with priv := Sparse.insert y.priv (va.toNat / 8) (readG x d),
                 privBad := y.privBad.filter (· ≠ va.toNat / 8) })

/-! ## Waits -/

/-- WAITC (18 R472): waits until every count is at or below its bound, then frees the rushes entries. A store bound below
the outstanding stores empties the combining buffer (09 R218). -/
def execWaitc (l st : BitVec 5) (c : BitVec 9) (t : BitVec 6) (s : State) : Result State :=
  withRegs s [] fun x =>
    if x.loads.length ≤ l.toNat && x.stores.length ≤ st.toNat && x.copies ≤ c.toNat && x.tiles ≤ t.toNat then
      advance (modCur s freeRushes)
    else stallCur (if x.stores.length ≤ st.toNat then s else leaveBuffer s s.cur)

/-- The director's cached instruction lines of a crew are dropped (13 R343). [DEDUCED, log 30] -/
def dropLines (s : State) (stage crew : Nat) : State :=
  modStage s stage fun g => { g with icache := Sparse.clear g.icache (crew * 2 ^ 42) ((crew + 1) * 2 ^ 42) }

/-- FENCE (18 R473, 09 R222): empties the combining buffer, waits until every earlier load and store has performed at its
scope, and frees the rushes entries. At stage scope the port's acceptance is enough; at system scope the director's cached
instruction lines of the crew are dropped. [DEDUCED, log 30] -/
def execFence (scope : BitVec 2) (s : State) : Result State :=
  withRegs s [] fun x =>
    let s := modCur (leaveBuffer s s.cur) freeRushes
    if scope ≠ 0 && !allPerformed x then stallCur s
    else advance (if scope = 3 then dropLines s (ctxStage s.cur) x.crew else s)

/-! ## Performing accesses -/

/-- Lay a store's bytes over bytes read at `pa` (09 R207: a read returns its agent's earlier write). -/
def overlay (pa : Nat) (bs : List Byte) (t : Store) : List Byte :=
  (List.range bs.length).map fun i =>
    if t.pa ≤ pa + i && pa + i < t.pa + t.bytes.length then t.bytes.getD (pa + i - t.pa) 0 else bs.getD i 0

/-- LOAD_DATA_RETURN (18 R458): the load performs at its home controller and its data reaches the register; an
uncorrectable block leaves the register unchanged and raises an asynchronous UECC trap. Loads of overlapping bytes perform
in issue order, a load returns an earlier unperformed store of its context, and an entry of the rushes buffer that was
filled since its issue is freed (08 R202). [DEDUCED, log 30] -/
def execLoadDataReturn (ctx index : Nat) (s : State) : Result State :=
  let x := getCtx s ctx
  match x.loads[index]? with
  | none => .next s
  | some l =>
    if (x.loads.any fun o => o.seq < l.seq && overlaps o.pa o.n l.pa l.n) ||
        portWaits s (ctxStage ctx) l.stamp l.pa then .next s
    else
      let s := setCtx s ctx { freeRush x l.va l.pa with loads := x.loads.eraseIdx index }
      let s := countPiece s { va := l.va, pa := l.pa, len := l.n, key := l.key, kind := 0 }
      if badBlock s l.pa then .next (queueTrap s ctx tUECC l.va)
      else
        let bs := (x.stores.filter (·.seq < l.seq)).foldl (overlay l.pa)
          (plainBytes s (ctxStage ctx) x.crew l.va.toNat (readInBlock s ((keyValue s l.key).getD 0) l.pa l.n))
        .next (modCtx s ctx fun y => writeG y l.d (extendBytes l.n l.signed bs))

/-- STORE_PERFORM (18 R458): a store outside the combining buffer performs, after its context's earlier accesses to the
same bytes (09 R207), a release after every earlier access has performed at its scope (R218, R222). A merge read that is
uncorrectable stops it, with an asynchronous UECC trap. -/
def execStorePerform (ctx index : Nat) (s : State) : Result State :=
  let x := getCtx s ctx
  match x.stores[index]? with
  | none => .next s
  | some t =>
    let near := t.scope = 0
    if t.buffered || portWaits s (ctxStage ctx) t.stamp t.pa
      || (x.stores.any fun o => o.seq < t.seq && ((t.rel && (!near || o.buffered)) || overlaps o.pa o.bytes.length t.pa t.bytes.length))
      || (x.loads.any fun o => o.seq < t.seq && ((t.rel && !near) || overlaps o.pa o.n t.pa t.bytes.length)) then .next s
    else
      let s := setCtx s ctx { x with stores := x.stores.eraseIdx index }
      let s := countPiece s { va := t.va, pa := t.pa, len := t.bytes.length, key := t.key, kind := 0 }
      if badBlock s t.pa then .next (queueTrap s ctx tUECC t.va)
      else .next (writeInBlock s ((keyValue s t.key).getD 0) t.pa t.bytes)

end Sys2Proof.Machine
end

