-- ==== Sys2Proof/Machine/Control.lean ====
section
/-! DEFINITION. Fetch, branches, jumps and run-ahead, and the trap instructions (18 R455, R461-R463, R478; 13 R343;
08 R201). -/
namespace Sys2Proof.Machine

/-! ## Fetch -/

/-- What a fetch gives: a word, a trap (cause, SUB), or a wait for a key slot. -/
inductive Fetched where
  | word (w : Code) (s : State)
  | trap (cause sub : BitVec 8)
  | wait
  deriving DecidableEq, Repr

/-- The key of a cached instruction line. -/
def lineKey (crew : Nat) (va : Word) : Nat := crew * 2 ^ 42 + va.toNat / 64

/-- Keep an instruction line; a full cache of 512 lines drops what it holds. -/
def keepLine (g : Stage) (key : Nat) (b : Block) : Stage :=
  { g with icache := Sparse.insert (if g.icache.length < 512 then g.icache else []) key b }

/-- The line a fetch sees: memory's, or, when a cached line differs from memory, either of the two (13 R343; the free value
decides). [DESIGN CHOICE, log 2; DEDUCED, log 30] -/
def lineSeen (s : State) (g : Stage) (key : Nat) (fresh : Block) : Block × State :=
  match Sparse.find? g.icache key with
  | none => (fresh, s)
  | some old =>
    if old = fresh then (fresh, s)
    else (if (Config.freeValue s.freeCtr).getLsbD 0 then old else fresh, { s with freeCtr := s.freeCtr + 1 })

/-- The instruction word at a context's pc (18 R455). -/
def fetch (s : State) (c : Nat) : Fetched :=
  let x := getCtx s c
  if misaligned x.pc 4 then .trap tMISALIGN 0
  else
    match pieceOf s (ctxStage c) x.crew x.pc 4 .fetch false with
    | .error (.xlate cause _) => .trap tXLATE cause
    | .error (.uecc _) => .trap tUECC 0
    | .error .wait => .wait
    | .ok p =>
      if badBlock s p.pa then .trap tUECC 0
      else
        let s := countPiece (usePage s (ctxStage c) x.crew x.pc .fetch) p
        let fresh := blockOf (readBlockKey s ((keyValue s p.key).getD 0) (p.pa / 64))
        let key := lineKey x.crew x.pc
        let (line, s) := lineSeen s (getStage s (ctxStage c)) key fresh
        let s := modStage s (ctxStage c) fun g => keepLine g key line
        match blockSlice line (x.pc.toNat % 64) 4 with
        | [b0, b1, b2, b3] => .word (wordOfBytes b0 b1 b2 b3) s
        | _ => .trap tILLEGAL 0

/-! ## Branches and jumps -/

/-- The resolving branch settles its generation: resolved if the next pc is the likely path, flushed otherwise
(18 R463). -/
def resolveHint (x : Ctx) (next : Word) : Ctx :=
  match x.hint with
  | none => x
  | some h =>
    if next = h then
      { x with hint := none, ahead := none, rushes := x.rushes.map fun r => if r.gen = x.gen then { r with resolved := true } else r }
    else { x with hint := none, ahead := none, rushes := x.rushes.filter fun r => r.gen ≠ x.gen || r.resolved }

/-- A branch (18 R461). -/
def opBranch (a b : BitVec 5) (off : BitVec 15) (f : Word → Word → Bool) (s : State) : Result State :=
  withRegs s [a, b] fun x =>
    let next := if f (readG x a) (readG x b) then branchTarget x.pc off else x.pc + 4
    modCur s fun y => { resolveHint y next with pc := next, wait := .none }

def execBeq (a b : BitVec 5) (off : BitVec 15) (s : State) : Result State := opBranch a b off (fun x y => x == y) s
def execBne (a b : BitVec 5) (off : BitVec 15) (s : State) : Result State := opBranch a b off (fun x y => x != y) s
def execBlt (a b : BitVec 5) (off : BitVec 15) (s : State) : Result State := opBranch a b off sltWord s
def execBge (a b : BitVec 5) (off : BitVec 15) (s : State) : Result State := opBranch a b off (fun x y => !sltWord x y) s
def execBltu (a b : BitVec 5) (off : BitVec 15) (s : State) : Result State := opBranch a b off ultWord s
def execBgeu (a b : BitVec 5) (off : BitVec 15) (s : State) : Result State := opBranch a b off (fun x y => !ultWord x y) s

/-- A jump: to the exit address it is an exit, and the context stalls at the jump until the member ends (05 R107). -/
def jumpTo (s : State) (target : Word) (link : Bool) : State :=
  if target = exitAddress then
    modCur (leaveBuffer s s.cur) fun x => { freeRushes x with hint := none, ahead := none, wait := .exit }
  else modCur s fun x => { x with pc := target, lr := if link then x.pc + 4 else x.lr, wait := .none }

def execJ (off : BitVec 25) (s : State) : Result State :=
  withRegs s [] fun x => jumpTo s (jumpTarget x.pc off) false
def execJal (off : BitVec 25) (s : State) : Result State :=
  withRegs s [] fun x => jumpTo s (jumpTarget x.pc off) true

/-- JALR (18 R462): the base is lr when a = 0; the target is computed before lr is written. -/
def execJalr (link : BitVec 1) (a : BitVec 5) (imm : BitVec 15) (s : State) : Result State :=
  withRegs s [a] fun x =>
    let target := (if a = 0 then x.lr else readG x a) + sext15 imm
    if misaligned target 4 then preciseTrap s tMISALIGN 0 target else jumpTo s target (link = 1)

/-- HINT (18 R463): GEN advances, an unresolved earlier generation is flushed, and the likely path is kept. -/
def execHint (off : BitVec 25) (s : State) : Result State :=
  withRegs s [] fun x =>
    advance (modCur s fun y =>
      { y with gen := x.gen + 1, hint := some (jumpTarget x.pc off), ahead := none,
               rushes := y.rushes.filter fun r => r.resolved })

/-! ## Run-ahead (18 R463) -/

/-- The shadow copy: known values of the registers that may be read. -/
abbrev Shadow := List (Option Word)

/-- A shadow register; g0 is zero. -/
def shadowGet (g : Shadow) (r : BitVec 5) : Option Word := if r = 0 then some 0 else (g.getD r.toNat none)
/-- Write a shadow register. -/
def shadowSet (g : Shadow) (r : BitVec 5) (v : Option Word) : Shadow := if r = 0 then g else g.set r.toNat v
/-- A two-operand result, unknown when an operand is. -/
def shadow2 (g : Shadow) (d a b : BitVec 5) (f : Word → Word → Word) : Shadow :=
  shadowSet g d (match shadowGet g a, shadowGet g b with | some x, some y => some (f x y) | _, _ => none)
/-- A one-operand result. -/
def shadow1 (g : Shadow) (d a : BitVec 5) (f : Word → Word) : Shadow := shadowSet g d ((shadowGet g a).map f)

/-- What one run-ahead instruction does. -/
inductive Ahead where
  | go (g : Shadow)
  | goTo (off : Word)
  | load (d : BitVec 5) (va : Word) (n : Nat)
  | stop
  deriving DecidableEq, Repr

/-- A run-ahead branch: followed when both operands are known. -/
def aheadBranch (g : Shadow) (a b : BitVec 5) (off : BitVec 15) (f : Word → Word → Bool) : Ahead :=
  match shadowGet g a, shadowGet g b with
  | some x, some y => .goTo (if f x y then 4 * sext15 off else 4)
  | _, _ => .stop

/-- A run-ahead load: its address must be known. -/
def aheadLoad (g : Shadow) (d a : BitVec 5) (imm : BitVec 15) (n : Nat) : Ahead :=
  match shadowGet g a with
  | some x => if misaligned (effAddr x imm) n then .stop else .load d (effAddr x imm) n
  | none => .go (shadowSet g d none)

/-- The run-ahead meaning of an instruction. -/
def aheadStep (g : Shadow) : Instr → Ahead
  | .add d a b => .go (shadow2 g d a b (· + ·))
  | .sub d a b => .go (shadow2 g d a b (· - ·))
  | .and d a b => .go (shadow2 g d a b (· &&& ·))
  | .or d a b => .go (shadow2 g d a b (· ||| ·))
  | .xor d a b => .go (shadow2 g d a b (· ^^^ ·))
  | .sll d a b => .go (shadow2 g d a b fun x y => x <<< wbits y 0 6)
  | .srl d a b => .go (shadow2 g d a b fun x y => x >>> wbits y 0 6)
  | .sra d a b => .go (shadow2 g d a b fun x y => x.sshiftRight (wbits y 0 6))
  | .slt d a b => .go (shadow2 g d a b fun x y => boolWord (sltWord x y))
  | .sltu d a b => .go (shadow2 g d a b fun x y => boolWord (ultWord x y))
  | .mul d a b => .go (shadow2 g d a b (· * ·))
  | .mulh d a b => .go (shadow2 g d a b fun x y => BitVec.ofInt 64 (x.toInt * y.toInt / 2 ^ 64))
  | .mulhu d a b => .go (shadow2 g d a b fun x y => BitVec.ofNat 64 (x.toNat * y.toNat / 2 ^ 64))
  | .addi d a i => .go (shadow1 g d a (· + sext15 i))
  | .andi d a i => .go (shadow1 g d a (· &&& sext15 i))
  | .ori d a i => .go (shadow1 g d a (· ||| sext15 i))
  | .xori d a i => .go (shadow1 g d a (· ^^^ sext15 i))
  | .slti d a i => .go (shadow1 g d a fun x => boolWord (sltWord x (sext15 i)))
  | .slli d a n => .go (shadow1 g d a (· <<< n.toNat))
  | .srli d a n => .go (shadow1 g d a (· >>> n.toNat))
  | .srai d a n => .go (shadow1 g d a fun x => x.sshiftRight n.toNat)
  | .ldi d i => .go (shadowSet g d (some (i.signExtend 64)))
  | .lsi d a i => .go (shadow1 g d a fun x => (x <<< 15) ||| zext15 i)
  | .lb d a i => aheadLoad g d a i 1
  | .lbu d a i => aheadLoad g d a i 1
  | .lh d a i => aheadLoad g d a i 2
  | .lhu d a i => aheadLoad g d a i 2
  | .lw d a i => aheadLoad g d a i 4
  | .lwu d a i => aheadLoad g d a i 4
  | .ld d a i => aheadLoad g d a i 8
  | .j off => .goTo (4 * off.signExtend 64)
  | .beq a b off => aheadBranch g a b off (fun x y => x == y)
  | .bne a b off => aheadBranch g a b off (fun x y => x != y)
  | .blt a b off => aheadBranch g a b off sltWord
  | .bge a b off => aheadBranch g a b off fun x y => !sltWord x y
  | .bltu a b off => aheadBranch g a b off ultWord
  | .bgeu a b off => aheadBranch g a b off fun x y => !ultWord x y
  | _ => .stop

/-- An entry enters a context's share of the rushes buffer (08 R201). -/
def addRush (s : State) (c : Nat) (r : Rush) : State := modCtx s c fun y => { y with rushes := y.rushes ++ [r] }

/-- A run-ahead load fills an entry with the whole block; a faulting one fills a faulted entry; an SO page issues nothing
(08 R201). It goes through the stage's stream port: none while an access that the port accepted earlier has yet to perform at
the same home (09 R210), or while it finds no free place among the context's 64. [DEDUCED, log 30] -/
def fillRush (s : State) (c : Nat) (va : Word) : Option State :=
  let x := getCtx s c
  let stage := ctxStage c
  let base := va - BitVec.ofNat 64 (va.toNat % 64)
  let t := usePage s stage x.crew base .read
  if 64 ≤ x.rushes.length || accessGate x then none
  else
    match pieceOf s stage x.crew base 64 .read false with
    | .error .wait => none
    | .error _ => some (addRush t c { block := va.toNat / 64, data := 0, gen := x.gen, faulted := true })
    | .ok p =>
      if p.kind = 1 || badBlock s p.pa then some t
      else if portWaits s stage 0 p.pa then none
      else
        let mem := plainBytes s stage x.crew base.toNat (readInBlock s ((keyValue s p.key).getD 0) p.pa 64)
        some (addRush (countPiece t p) c
          { block := va.toNat / 64, pa := some (p.pa / 64), data := blockOf (x.stores.foldl (overlay p.pa) mem), gen := x.gen })

/-- Whether a run-ahead load would fault: run-ahead stops there (18 R463). -/
def aheadFaults (s : State) (c : Nat) (va : Word) : Bool :=
  match pieceOf s (ctxStage c) (getCtx s c).crew va 1 .read false with
  | .error .wait => false
  | .error _ => true
  | .ok p => badBlock s p.pa

/-- Run-ahead stands at an address, with so many instructions left: none when it has stopped for good. -/
def standAhead (s : State) (c : Nat) (pc : Word) (left : Nat) (g : Shadow) : State :=
  modCtx s c fun x => { x with ahead := some { pc, left, regs := g } }

/-- Run ahead from an address; only rushes entries, and the place reached, change. A load that must wait (08 R201), and a fetch
whose key slot is changing, leave the rest for later; an instruction that may not run, or an address that faults, ends
run-ahead. -/
def runFrom : Nat → State → Nat → Word → Shadow → State
  | 0, s, c, pc, g => standAhead s c pc 0 g
  | left + 1, s, c, pc, g =>
    match fetch (modCtx s c fun x => { x with pc }) c with
    | .word w _ =>
      match decode w with
      | .error _ => standAhead s c pc 0 g
      | .ok i =>
        match aheadStep g i with
        | .stop => standAhead s c pc 0 g
        | .go g => runFrom left s c (pc + 4) g
        | .goTo off => runFrom left s c (pc + off) g
        | .load d va _ =>
          match fillRush s c va with
          | none => standAhead s c pc (left + 1) g
          | some t => if aheadFaults s c va then standAhead t c pc 0 g else runFrom left t c (pc + 4) (shadowSet g d none)
    | .wait => standAhead s c pc (left + 1) g
    | .trap .. => standAhead s c pc 0 g

/-- Whether an instruction is in B format. -/
def branchRegs : Instr → Option (BitVec 5 × BitVec 5)
  | .beq a b _ => some (a, b)
  | .bne a b _ => some (a, b)
  | .blt a b _ => some (a, b)
  | .bge a b _ => some (a, b)
  | .bltu a b _ => some (a, b)
  | .bgeu a b _ => some (a, b)
  | _ => none

/-- RUN_AHEAD (18 R463): a running context with an open generation whose next instruction is a branch on a register that
awaits a load fills rushes entries along the likely path, from where it stood. -/
def execRunAhead (ctx : Nat) (s : State) : Result State :=
  let x := getCtx s ctx
  match x.hint, fetch s ctx with
  | some h, .word w _ =>
    match decode w with
    | .error _ => .next s
    | .ok i =>
      match branchRegs i with
      | none => .next s
      | some (a, b) =>
        if x.state = .running && (awaits x a || awaits x b) then
          let known := fun (r : Nat) => if awaits x (BitVec.ofNat 5 r) then none else some (readG x (BitVec.ofNat 5 r))
          let at_ := x.ahead.getD { pc := h, left := 64, regs := (List.range 32).map known }
          .next (runFrom at_.left s ctx at_.pc at_.regs)
        else .next s
  | _, _ => .next s

/-! ## Traps -/

/-- TRAP (18 R478): a precise trap at the boundary after the instruction. -/
def execTrap (imm : BitVec 15) (s : State) : Result State :=
  withRegs s [] fun x => takeTrap s s.cur tTRAP 0 (zext15 imm) false (x.pc + 4)

/-- TRET (12 R291); outside a handler it is ILLEGAL. -/
def execTret (s : State) : Result State :=
  withRegs s [] fun x => if x.tm then trapReturn s s.cur else illegal s .tret

/-- Whether an asynchronous trap may end what the context waits for (12 R290): a load or a start in progress is
finished first. -/
def trapReady (x : Ctx) : Bool :=
  x.state == .running && (match x.wait with | .take _ => false | .ctxLoad _ => false | .hold _ => false | .acquire => false | _ => true)

/-- ASYNC_TRAP (12 R290): at the context's issue slot the oldest pending asynchronous trap is taken. -/
def execAsyncTrap (ctx : Nat) (s : State) : Result State :=
  if trapReady (getCtx s ctx) then .next (takePending s ctx) else .next s

end Sys2Proof.Machine
end

