-- ==== Sys2Proof/Machine/Issue.lean ====
section
/-! DEFINITION. The issue slot of a director (05 R118, 12 R290) and whether the part can move at all. -/
namespace Sys2Proof.Machine

/-- Whether a context may be given the issue slot: it is running, and it waits for nothing, or its wait is tried again, or
its barrier arrival has completed, or a pending asynchronous trap ends its wait. -/
def canIssue (x : Ctx) : Bool :=
  x.state == .running &&
  ((match x.wait with
    | .none => true
    | .stall => true
    | .step _ => true
    | .acquire => x.acq.isNone
    | .bar _ => x.bars.any fun b => b.pc == x.pc && b.done.isSome
    | _ => false) ||
   (trapReady x && !x.tm && !x.pend.isEmpty))

/-- The rotation of a director's contexts, beginning after the one that issued last (05 R118). -/
def rotation (last : Nat) : List Nat := [(last + 1) % 4, (last + 2) % 4, (last + 3) % 4, last % 4]

/-- The contexts of a stage that may issue, in rotation. -/
def readyList (s : State) (stage : Nat) : List Nat :=
  ((rotation (getStage s stage).lastCtx).map (4 * stage + ·)).filter fun c => canIssue (getCtx s c)

/-- The state in which context `c` has the issue slot. -/
def prepIssue (s : State) (c : Nat) : State :=
  { (modStage s (ctxStage c) fun g => { g with lastCtx := c % 4 }) with cur := c }

/-- Whether the part is off or halted (03 R64, R77; 04 R89). [DESIGN CHOICE, log 35] -/
def partStopped (s : State) : Bool := !s.chip.powered || s.chip.halt.isSome

end Sys2Proof.Machine
end

