-- ==== Sys2Proof/Machine/Beat.lean ====
section
/-! DEFINITION. Sending beats through a chip port (01 R29, R30, R33) and the packets they carry (13 R328). The spec gives
memory beats no layout; the one used here is the model's own (log). -/
namespace Sys2Proof.Machine

/-- A chip port. -/
def getChipPort (s : State) (p : Nat) : Port := s.links.ports.getD p {}

/-- Change a chip port. -/
def modChipPort (s : State) (p : Nat) (f : Port → Port) : State :=
  { s with links := { s.links with ports := modAt s.links.ports p f } }

/-- Whether a port carries traffic: trained at full or half width (R40). -/
def portUp (s : State) (p : Nat) : Bool := p < 12 && ((getChipPort s p).state == 1 || (getChipPort s p).state == 2)

/-- The last `n` of a list. -/
def keepLast {α : Type} (n : Nat) (l : List α) : List α := l.drop (l.length - n)

/-- A beat joins those that wait to be sent. -/
def sendBeat (s : State) (p : Nat) (typ : BitVec 4) (circ : Nat) (tag : BitVec 4) (mask : BitVec 16) (body : Block) : State :=
  if !portUp s p then s
  else modChipPort s p fun q =>
    { q with due := q.due ++ [{ typ, circ := BitVec.ofNat 12 circ, seq := 0, ack := 0, tag, mask, body }] }

/-! ## The sender (01 R32, R33) -/

/-- Whether the other side has a buffer for a waiting beat; a token's circuit gave its credit when the beat was made (R31). -/
def mayGo (q : Port) (b : Beat) : Bool :=
  (b.typ ≠ 3 || 0 < q.cmdCredit) && (b.typ ≠ 6 || 0 < q.memCredit)

/-- The types in the order in which a sender looks for its next beat (R32). -/
def typeOrder (last : BitVec 4) : List (BitVec 4) :=
  let k := match last with | 1 => 1 | 2 => 2 | 3 => 3 | _ => 0
  [4, 5] ++ ([1, 2, 3, 6] : List (BitVec 4)).rotateLeft k

/-- The place of the beat a sender picks next: oldest first within a type (R32). -/
def nextDue (q : Port) : Option Nat :=
  (typeOrder q.lastType).findSome? fun t => q.due.findIdx? fun b => b.typ == t && mayGo q b

/-- The body of a timecode beat: the time at transmission and the time last received. [DESIGN CHOICE, log 16] -/
def timecodeBody (time echo : Word) : Block := BitVec.ofNat 512 (time.toNat + echo.toNat * 2 ^ 64)

/-- One beat's time: a beat to be replayed goes first, in order; a new one takes the next SEQ and joins the 2,048 kept for
replay (R33). An idle beat leaves nothing behind. -/
def sendOne (time : Word) (q : Port) : Port :=
  match q.replay with
  | b :: rest => { q with replay := rest, lane := some b }
  | [] =>
    match nextDue q with
    | none => q
    | some k =>
      match q.due[k]? with
      | none => q
      | some w =>
        let b := { w with seq := q.txSeq, ack := q.rxSeq - 1, body := if w.typ = 4 then timecodeBody time q.echo else w.body }
        { q with
          due := q.due.eraseIdx k, txSeq := q.txSeq + 1, sent := keepLast 2048 (q.sent ++ [b]), lane := some b
          lastType := if b.typ = 4 || b.typ = 5 then q.lastType else b.typ
          cmdCredit := if b.typ = 3 then q.cmdCredit - 1 else q.cmdCredit
          memCredit := if b.typ = 6 then q.memCredit - 1 else q.memCredit }

/-- Several beats' time. -/
def sendMany (time : Word) : Nat → Port → Port
  | 0, q => q
  | n + 1, q => sendMany time n (sendOne time q)

/-- What a port sends as ticks pass: 200 GB/s are 25 beats of 72 bytes in 9 tc, at half width half of them (R28, R29, R33). -/
def sendBeats (time : Word) (tc : Nat) (q : Port) : Port :=
  if q.state ≠ 1 && q.state ≠ 2 then q
  else
    let d := if q.state = 1 then 9 else 18
    let t := q.slotRem + 25 * tc
    sendMany time (min (t / d) (q.replay.length + q.due.length)) { q with slotRem := t % d }

/-- The beats sent and not yet received in order by the other side, as far as they are kept (R33). -/
def inFlight (q : Port) (ack : BitVec 12) : List Beat := keepLast (q.txSeq - 1 - ack).toNat q.sent

/-- Send again, in order, what the other side lacks after `ack` (R33). -/
def replayFrom (ack : BitVec 12) (q : Port) : Port := { q with replay := inFlight q ack }

/-! ## Link control (01 R30, R31) -/

/-- A credit entry: the circuit in [11:0], the count in [19:12], the type of the buffers in [23:20]. [DESIGN CHOICE, log 16] -/
def creditEntry (typ circ n : Nat) : Nat := circ % 4096 + min 255 n * 2 ^ 12 + typ % 16 * 2 ^ 20

/-- The entries that return `n` credits of a circuit, at most 255 in each (R30). -/
def creditEntries (typ circ n : Nat) : List Nat :=
  (List.range ((n + 254) / 255)).map fun k => creditEntry typ circ (min 255 (n - 255 * k))

/-- Send a link-control beat: up to 16 credit entries, and in [31:24] of the first the status: bit 24 asks for a replay after
the beat's ACK, bit 25 says half width. [DESIGN CHOICE, log 16] -/
def sendControl (s : State) (p : Nat) (entries : List Nat) (replay : Bool) : State :=
  let half := (getChipPort s p).state == 2
  let status := (if replay then 2 ^ 24 else 0) + (if half then 2 ^ 25 else 0)
  sendBeat s p 5 0 0 0 (BitVec.ofNat 512
    ((((entries.take 16).zipIdx.map fun (e : Nat × Nat) => e.1 * 2 ^ (32 * e.2)).sum) + status))

/-- The body of a command beat (R328). -/
def commandBody (header : Word) (payload : BitVec 128) : Block := BitVec.ofNat 512 (header.toNat + payload.toNat * 2 ^ 64)

/-- A packet header (R328). -/
def packetHeader (kind crew chip dest source ticket idx last : Nat) : Word :=
  BitVec.ofNat 64 (kind % 16 * 2 ^ 60 + crew % 8 * 2 ^ 57 + 2 ^ 56 + chip % 16 * 2 ^ 52 + dest % 2 ^ 16 * 2 ^ 36 +
    source % 2 ^ 16 * 2 ^ 20 + ticket % 4096 * 2 ^ 8 + idx % 16 * 16 + last % 16)

/-- A die unit's endpoint (R328): class, instance. -/
def unitEndpoint (die cls inst : Nat) : Nat := die % 4 * 2 ^ 14 + 2 ^ 13 + cls % 16 * 2 ^ 9 + inst % 16 * 2 ^ 5

/-- A stage endpoint. -/
def stageEndpoint (stage unit ctx : Nat) : Nat := stage / 128 * 2 ^ 14 + stage % 128 * 2 ^ 6 + unit % 16 * 4 + ctx % 4

/-- Send one command packet through a port. -/
def sendPacket (s : State) (p : Nat) (header : Word) (payload : BitVec 128) : State :=
  sendBeat s p 3 0 0 0 (commandBody header payload)

/-- The chip port towards a chip, as acquisition found it (R328). -/
def portTowards (s : State) (serial : Nat) : Option Nat :=
  ((s.links.routes.find? (·.1 == serial)).map (·.2)).filter (portUp s)

/-- The serial of a chip slot of a scene. -/
def chipOfSlot (k : Scene) (slot : Nat) : Option Nat := (k.chips[slot]?).filter (· ≠ 0)

/-! ## Scene circuits through chip ports (01 R31) -/

/-- Change a scene's circuit. -/
def modCircuit (s : State) (scene n : Nat) (f : SceneCircuit → SceneCircuit) : State :=
  modScene s scene fun k => { k with circuits := modAt k.circuits n f }

/-- A scene's circuit. -/
def getCircuit (s : State) (scene n : Nat) : Option SceneCircuit :=
  match getScene s scene with
  | some k => k.circuits[n]?
  | none => none

/-- Whether a circuit feeds an adder, which then takes its tokens (01 R26). -/
def adderInput (s : State) (scene n : Nat) : Bool :=
  s.eng.adders.any fun p => p.2.scene == scene && (p.2.remote == n || p.2.locl == n)

/-- Change the open circuit of a chip port. -/
def modPortCircuit (s : State) (p circ : Nat) (f : PortCircuit → PortCircuit) : State :=
  modChipPort s p fun q => { q with circuits := q.circuits.map fun c => if c.circ = circ then f c else c }

/-- The credit left on a chip port's circuit. -/
def portCredit (s : State) (p circ : Nat) : Nat :=
  match (getChipPort s p).circuits.find? (·.circ == circ) with
  | some c => if c.failed then 0 else c.credit
  | none => 0

/-- Whether the other side takes a circuit's tokens as reduction beats. -/
def portReduce (s : State) (p circ : Nat) : Bool := (getChipPort s p).circuits.any fun c => c.circ == circ && c.reduce

/-- Whether a circuit takes another token: its receiver's buffer has room, or a router on the way (01 R24, 07 R155). The tokens
past the receiver's ALLOC stand in the routers' input buffers of 4 tokens; a hold marker has a place of its own (12 R298). -/
def circuitRoom (q : SceneCircuit) : Bool := (q.q.filter (·.tag != 5)).length < q.alloc + 4 * q.path.length

/-- A circuit's tokens that its receiver has not yet accepted into its buffer (07 R169): on this chip those past ALLOC; through a
chip port those not yet sent, and those sent that the other side has not acknowledged. -/
def unaccepted (s : State) (q : SceneCircuit) : List Token :=
  match q.via with
  | none => q.q.drop q.alloc
  | some (p, circ) =>
    if !q.outward then []
    else
      let c := getChipPort s p
      let mine := (inFlight c c.acked ++ c.due).filter fun b => (b.typ = 1 || b.typ = 2) && b.circ.toNat = circ
      (mine.map fun b => { tag := b.tag, mask := b.mask, data := b.body }) ++ q.q

/-- Send what a circuit that leaves through a chip port holds, while it has credit. -/
def flushCircuit (s : State) (scene n : Nat) : State :=
  match getCircuit s scene n with
  | none => s
  | some q =>
    match q.via, q.q with
    | some (p, circ), t :: rest =>
      if q.outward && portUp s p && 0 < portCredit s p circ then
        let s := sendBeat s p (if portReduce s p circ then 2 else 1) circ t.tag t.mask t.data
        modCircuit (modPortCircuit s p circ fun c => { c with credit := c.credit - 1 }) scene n fun q => { q with q := rest }
      else s
    | _, _ => s

/-- A token enters a circuit; where it feeds an adder, its arrival is timed (04 R95). -/
def pushCircuit (s : State) (scene n : Nat) (t : Token) : State :=
  let f := fun (p : Nat × Adder) =>
    if p.2.scene = scene && p.2.locl = n then (p.1, { p.2 with lAt := p.2.lAt ++ [now s] })
    else if p.2.scene = scene && p.2.remote = n then (p.1, { p.2 with rAt := p.2.rAt ++ [now s] })
    else p
  let s := { s with eng := { s.eng with adders := s.eng.adders.map f } }
  flushCircuit (modCircuit s scene n fun q => { q with q := q.q ++ [t] }) scene n

/-- Error tokens of a freeze follow what a circuit holds, as it takes them (14 R353). -/
def sendLate (s : State) (scene n : Nat) : State :=
  match getCircuit s scene n with
  | none => s
  | some q =>
    match q.late with
    | [] => s
    | t :: rest => if circuitRoom q then pushCircuit (modCircuit s scene n fun q => { q with late := rest }) scene n t else s

/-- The error tokens that wait at a scene's circuits. -/
def sendLates (s : State) (scene : Nat) : State :=
  match getScene s scene with
  | none => s
  | some k => (k.circuits.zipIdx.filter fun q => !q.1.late.isEmpty).foldl (fun s q => sendLate s scene q.2) s

/-- The buffers of a circuit that arrives through a chip port: a reduction beat's if an adder takes its tokens (R30). -/
def bufferType (s : State) (scene n : Nat) : Nat := if adderInput s scene n then 2 else 1

/-- A token has left a circuit that arrives through a chip port: its credit goes back in a link-control beat (01 R30, R31). While
the sender has been given more than the allocation that the take names, the receiver keeps it instead (23 R510). -/
def returnCredit (s : State) (scene n : Nat) (q : SceneCircuit) : State :=
  match q.via with
  | some (p, circ) =>
    if q.outward then s
    else if (getChipPort s p).circuits.any fun c => c.circ == circ && q.alloc < c.alloc then
      modPortCircuit s p circ fun c => { c with alloc := c.alloc - 1 }
    else sendControl s p [creditEntry (bufferType s scene n) circ 1] false
  | none => s

/-- Tell the sender which buffers a circuit's tokens now take: an adder has been bound to it, or released (R30, R31). -/
def tellBuffers (s : State) (scene n : Nat) : State :=
  match getCircuit s scene n with
  | some q => match q.via with
    | some (p, circ) => if q.outward then s else sendControl s p [creditEntry (bufferType s scene n) circ 0] false
    | none => s
  | none => s

end Sys2Proof.Machine
end

