-- ==== Sys2Proof/Machine/Fabric.lean ====
section
/-! DEFINITION. The token network of a region (07 R147-R166): units and their configuration, endpoints, router buffers,
credit, and the event that moves tokens. -/
namespace Sys2Proof.Machine

/-! ## Units and their configuration -/

/-- Configuration of a unit in the region's active context. -/
def unitCfg (g : Stage) (x : Region) (slot : Nat) : Option UnitCfg := Sparse.find? g.cfg (16 * x.active.toNat + slot)

/-- KIND of a configuration word (13 R314). -/
def cfgKind (c : UnitCfg) : Nat := wbits c.word 56 4
/-- OP. -/
def cfgOp (c : UnitCfg) : Nat := wbits c.word 48 8
/-- MOD. -/
def cfgMod (c : UnitCfg) : Nat := wbits c.word 40 8
/-- CLRQ. -/
def cfgClrq (c : UnitCfg) : Bool := wbit c.word 39
/-- SRC. -/
def cfgSrc (c : UnitCfg) : Bool := wbit c.word 38
/-- FWDST. -/
def cfgFwdst (c : UnitCfg) : Bool := wbit c.word 37
/-- Input port `p` enabled: a, b, c, continuity (13 R314 IOEN, 14 R347). -/
def cfgIn (c : UnitCfg) (p : Nat) : Bool := p < 4 && wbit c.word (23 - p)
/-- Output port `p` enabled: outputs 0 and 1, continuity. -/
def cfgOut (c : UnitCfg) (p : Nat) : Bool := p < 3 && wbit c.word (19 - p)

/-- A unit's state. -/
def getUnit (s : State) (stage slot : Nat) : UnitState := Sparse.get {} (getStage s stage).units slot
/-- Change a unit's state. -/
def modUnit (s : State) (stage slot : Nat) (f : UnitState → UnitState) : State :=
  modStage s stage fun g => { g with units := Sparse.insert g.units slot (f (Sparse.get {} g.units slot)) }

/-- An operator slot's word in the active context (14 R359). -/
def slotWord (g : Stage) (x : Region) (tile oslot : Nat) : Option Word :=
  Sparse.find? g.rcfg (16 * x.active.toNat + 4 * tile + oslot)
/-- An operator slot's state. -/
def getSlot (s : State) (stage tile oslot : Nat) : SlotState := Sparse.get {} (getStage s stage).rslots (4 * tile + oslot)
/-- Change an operator slot's state. -/
def modSlot (s : State) (stage tile oslot : Nat) (f : SlotState → SlotState) : State :=
  modStage s stage fun g =>
    { g with rslots := Sparse.insert g.rslots (4 * tile + oslot) (f (Sparse.get {} g.rslots (4 * tile + oslot))) }

/-- The tile of a stage slot (07 R149). -/
def slotTile (slot : Nat) : Nat := if slot < 4 then 2 else if slot < 8 then 3 else if slot = 8 then 0 else 1
/-- The unit index of a stage slot in its tile (13 R318). -/
def slotIndex (slot : Nat) : Nat := if slot < 4 then slot else if slot < 8 then slot - 4 else if slot = 8 then 0 else slot - 9
/-- The stage slot of a unit index in a tile, if it is a unit. -/
def tileSlot (tile idx : Nat) : Option Nat :=
  match tile with
  | 0 => if idx = 0 then some 8 else none
  | 1 => if idx < 4 then some (9 + idx) else none
  | 2 => if idx < 4 then some idx else none
  | _ => if idx < 4 then some (4 + idx) else none

/-- Endpoint code of a unit's port (13 R318). -/
def unitEnd (slot port : Nat) : Nat := 0x20 + 4 * slotIndex slot + port
/-- Endpoint code of an operator slot's port. -/
def slotEnd (oslot port : Nat) : Nat := 0x10 + 4 * oslot + port
/-- The endpoint code of a port binding, ingress or egress (12 R297). -/
def portEnd : Nat := 0x40

/-! ## Tokens -/

/-- A cut of rank r. -/
def cutTok (r : Nat) : Token := { tag := BitVec.ofNat 4 r }
/-- A continuity token. -/
def contTok : Token := { tag := 9 }
/-- A hold marker. -/
def holdTok : Token := { tag := 5 }
/-- A start token. -/
def startTok : Token := { tag := 8 }
/-- A data token with every lane set. -/
def fullTok (b : Block) : Token := { tag := 0, mask := 0xFFFF, data := b }

/-- A mask's lanes as data bits. -/
def laneBits (m : BitVec 16) : Block :=
  BitVec.ofNat 512 (((List.range 16).filter fun j => m.getLsbD j).foldl (fun a j => a + (2 ^ 32 - 1) * 2 ^ (32 * j)) 0)

/-- Zero in every masked-off lane, and in every lane of a token that is neither data nor error (07 R158). -/
def cleanTok (t : Token) : Token :=
  if t.tag = 0 || t.tag = 7 then { t with data := t.data &&& laneBits t.mask } else { t with data := 0, mask := 0 }

def isData (t : Token) : Bool := t.tag == 0
def isErr (t : Token) : Bool := t.tag == 7
def isHold (t : Token) : Bool := t.tag == 5
def isBubble (t : Token) : Bool := t.tag == 6
def isStart (t : Token) : Bool := t.tag == 8
def isCont (t : Token) : Bool := t.tag == 9
/-- A reserved tag (07 R160). -/
def isReserved (t : Token) : Bool := 10 ≤ t.tag.toNat
/-- A cut's rank, 0 for every other tag. -/
def cutRank (t : Token) : Nat := if 1 ≤ t.tag.toNat && t.tag.toNat ≤ 4 then t.tag.toNat else 0
def isCut (t : Token) : Bool := cutRank t ≠ 0
/-- Counted by the wrap tree (07 R160): every tag but a bubble. -/
def counted (t : Token) : Bool := t.tag != 6

/-- 32-bit lane j. -/
def lane (b : Block) (j : Nat) : Nat := bits b.toNat (32 * j) 32

/-! ## Router buffers (07 R152, R153, R159) -/

/-- The key of a circuit's buffer at a router input. -/
def bufKey (tile frm circ : Nat) : Nat := tile * 2 ^ 20 + frm * 2 ^ 12 + circ

/-- A circuit's buffer. -/
def getBuf (g : Stage) (key : Nat) : List Arrived := Sparse.get [] g.bufs key
/-- Write a circuit's buffer. -/
def setBuf (g : Stage) (key : Nat) (l : List Arrived) : Stage := { g with bufs := Sparse.set [] g.bufs key l }

/-- Credit: 4 places, and one beyond them that only a hold marker may take (12 R298). -/
def hasRoom (g : Stage) (key : Nat) (t : Token) : Bool := (getBuf g key).length < (if isHold t then 5 else 4)

/-- Put a token in a buffer. -/
def pushBuf (s : State) (stage key : Nat) (t : Token) (fc : Nat) : State :=
  modStage s stage fun g => setBuf g key (getBuf g key ++ [{ tok := t, at_ := fc }])

/-- Remove a buffer's head. -/
def popBuf (s : State) (stage key : Nat) : State := modStage s stage fun g => setBuf g key ((getBuf g key).drop 1)

/-- The head of a buffer. -/
def headBuf (g : Stage) (key : Nat) : Option Arrived := (getBuf g key).head?

/-- The route words in force at a router. -/
def activeRoutes (g : Stage) (x : Region) (tile : Nat) : List Route :=
  g.routes.filter fun r => r.ctx == x.active.toNat && r.tile == tile

/-- The circuit that begins at an endpoint: its buffer there. -/
def outKey (g : Stage) (x : Region) (tile frm : Nat) : Option Nat :=
  ((activeRoutes g x tile).find? (·.frm == frm)).map fun r => bufKey tile frm r.circ

/-- The circuit that ends at an endpoint: the buffer that feeds it. -/
def inKey (g : Stage) (x : Region) (tile out : Nat) : Option Nat :=
  ((activeRoutes g x tile).find? (·.out == out)).map fun r => bufKey tile r.frm r.circ

/-- The port bindings of the active context at a router. -/
def bindingsAt (x : Region) (stage tile : Nat) : List Binding :=
  match activeCtx x with
  | some a => a.bindings.filter fun b => b.stage == stage && b.tile == tile
  | none => []

/-- The buffer of an ingress binding's circuit. -/
def ingressKey (b : Binding) : Nat := bufKey b.tile portEnd b.circ

/-- The buffer that feeds an egress binding. -/
def egressKey (g : Stage) (x : Region) (b : Binding) : Option Nat :=
  ((activeRoutes g x b.tile).find? fun r => r.out == portEnd && r.circ == b.circ).map fun r => bufKey b.tile r.frm r.circ

/-- The router one link away: stage and tile, and the link input there (14 R349). -/
def linkTo (stage tile dir : Nat) : Nat × Nat × Nat :=
  let tx := 2 * stageX stage + tile % 2
  let ty := 2 * stageY stage + tile / 2
  let (nx, ny) := match dir with | 0 => (tx, ty - 1) | 1 => (tx + 1, ty) | 2 => (tx, ty + 1) | _ => (tx - 1, ty)
  (stageAt (nx / 2) (ny / 2), nx % 2 + 2 * (ny % 2), (dir + 2) % 4)

/-! ## Faults of a region's units (12 R294) -/

/-- Mark a faulting unit: it performs nothing, and the freeze wire is pulled. -/
def markFault (s : State) (r : Nat) (u : UnitRef) (cause : BitVec 16) (value : Word) (replay : Bool) : State :=
  modRegion s r fun x =>
    if x.faults.any (·.unit == u) then x else { x with faults := x.faults ++ [{ unit := u, cause, value, replay }] }

/-- Fabric fault causes (12 R293). -/
def fTOKTAG : BitVec 16 := 0x0001
def fCUTSKEW : BitVec 16 := 0x0002
def fXLATE : BitVec 16 := 0x0003
def fUECC : BitVec 16 := 0x0004
def fMETA : BitVec 16 := 0x0005
def fLINKFAIL : BitVec 16 := 0x0009
def fPERMIT : BitVec 16 := 0x000A
def fADDSKEW : BitVec 16 := 0x000B
def fADDEXP : BitVec 16 := 0x000C
def fADDTERMS : BitVec 16 := 0x000D
def fBADALIGN : BitVec 16 := 0x000E
def fBADARRAY : BitVec 16 := 0x000F
def fBADORIENT : BitVec 16 := 0x0010
def fBADPACK : BitVec 16 := 0x0011
def fBADINDEX : BitVec 16 := 0x0012
def fBADDESC : BitVec 16 := 0x0013
def fACCEXP : BitVec 16 := 0x0014
def fACCTERMS : BitVec 16 := 0x0015
def fBADFMT : BitVec 16 := 0x0016
def fRESIDUE : BitVec 16 := 0x0017
def fOPFAULT : BitVec 16 := 0x0018
def fDIRHALT : BitVec 16 := 0x0019
def fPEERLOST : BitVec 16 := 0x001A

/-- Whether units of a region may act: its take has started and it is not frozen. -/
def regionLive (x : Region) : Bool := x.phase == .started && x.frozen.isNone

/-! ## Bubbles (04 R87) -/

/-- rev4 of a slot number. -/
def rev4 (i : Nat) : Nat := bits i 0 1 * 8 + bits i 1 1 * 4 + bits i 2 1 * 2 + bits i 3 1

/-- A region's effective bubble level: the largest of the thermal, cap, slack and pacing levels. -/
def bubbleLevel (s : State) (r : Nat) (x : Region) : Nat :=
  let thermal := (regionStages r x).foldl (fun m i => max m (s.power.clusters.getD (clusterOf i) {}).thermal) 0
  max (max thermal (s.power.crews.getD x.crew {}).level) (max x.slack x.pacing)

/-- The token a source sends in emission slot `i`: the bubble in place of it, or the token. -/
def slotBubble (i b : Nat) : Bool := rev4 (i % 16) < b

/-! ## Latches -/

/-- Places of a unit's input latch: 2, and 8 more for the matrix node's control FIFO (07 R156, R166). -/
def latchSize (slot port : Nat) : Nat := if slot = 8 && port = 2 then 10 else 2

/-- A unit's latch of a port. -/
def latchOf (u : UnitState) (port : Nat) : List Token :=
  match port with | 0 => u.a | 1 => u.b | 2 => u.c | _ => u.cont

/-- Write a latch. -/
def setLatch (u : UnitState) (port : Nat) (l : List Token) : UnitState :=
  match port with
  | 0 => { u with a := l }
  | 1 => { u with b := l }
  | 2 => { u with c := l }
  | _ => { u with cont := l }

/-- Tags no input of a unit accepts at this port (07 R162): reserved tags; continuity at a data input; data, cut or start
at the continuity input; an error there at an element (15 R376). -/
def latchTagFault (slot port : Nat) (t : Token) : Bool :=
  isReserved t || (port < 3 && isCont t) || (port = 3 && (isData t || isCut t || isStart t || (isErr t && slot < 8)))

/-- ELB and ALU `mov` take start tokens on input a (15 R375). -/
def takesStart (c : UnitCfg) : Bool := cfgKind c = 10 || (cfgKind c = 0 && cfgOp c = 0x1A)

/-- A start token arrives at an input that does not accept one (07 R162, 15 R375). -/
def startFault (c : Option UnitCfg) (port : Nat) (t : Token) : Bool :=
  isStart t && !(port == 0 && (match c with | some c => takesStart c | none => false))

/-- The tokens of a group on enabled outputs, with a continuity token for each token on output 0 (15 R376). -/
def finishGroup (c : UnitCfg) (l : List (Nat × Token)) : List (Nat × Token) :=
  let l := l.filter fun q => cfgOut c q.1
  let n := if cfgOut c 2 then (l.filter fun q => q.1 == 0).length else 0
  l ++ List.replicate n (2, contTok)

/-! ## Moving tokens (07 R153) -/

/-- The order of a router's inputs for ties (07 R153). -/
def inputRank (frm : Nat) : Nat := if 0x20 ≤ frm then frm - 0x20 else if frm < 4 then 0x20 + frm else 0x30 + frm

/-- The circuit heads routed to an output, oldest first choice: arrived earliest, then the tie order, then the lower
circuit number. -/
def pickHead (g : Stage) (rs : List Route) (ok : Route → Token → Bool) : Option (Route × Token) :=
  rs.foldl (fun best r =>
    match headBuf g (bufKey r.tile r.frm r.circ) with
    | none => best
    | some h =>
      if !ok r h.tok then best
      else
        match best with
        | none => some (r, h.tok)
        | some (b, _) =>
          let hb := match headBuf g (bufKey b.tile b.frm b.circ) with | some q => q.at_ | none => 0
          if h.at_ < hb || (h.at_ == hb && (inputRank r.frm < inputRank b.frm || (inputRank r.frm == inputRank b.frm && r.circ < b.circ)))
          then some (r, h.tok) else best) none

/-- One link output sends one token. -/
def forwardLink (s : State) (x : Region) (stage tile dir : Nat) : State :=
  let g := getStage s stage
  let (st2, t2, in2) := linkTo stage tile dir
  match pickHead g ((activeRoutes g x tile).filter (·.out == dir))
      (fun r t => hasRoom (getStage s st2) (bufKey t2 in2 r.circ) t) with
  | none => s
  | some (r, t) => pushBuf (popBuf s stage (bufKey tile r.frm r.circ)) st2 (bufKey t2 in2 r.circ) t x.fc

/-- A token enters a unit's latch; a bubble is discarded there (04 R88); a tag the input does not accept is a fault. -/
def forwardLatch (s : State) (rg : Nat) (x : Region) (stage tile idx port : Nat) : State :=
  let g := getStage s stage
  match tileSlot tile idx, inKey g x tile (0x20 + 4 * idx + port) with
  | some slot, some key =>
    match headBuf g key with
    | none => s
    | some h =>
      let u := getUnit s stage slot
      if isBubble h.tok then popBuf s stage key
      else if latchTagFault slot port h.tok || startFault (unitCfg g x slot) port h.tok then markFault s rg { stage, slot } fTOKTAG 0 false
      else if (latchOf u port).length < latchSize slot port || (isHold h.tok && !(latchOf u port).any isHold) then
        modUnit (popBuf s stage key) stage slot fun u => setLatch u port (latchOf u port ++ [h.tok])
      else s
  | _, _ => s

/-- The scene circuit of a member's port on one side. -/
def circuitOf (k : Scene) (member port : Nat) (ingress : Bool) : Option (Nat × SceneCircuit) :=
  let go := fun (q : SceneCircuit) =>
    if ingress then q.dmem == member && q.dport == port else q.smem == member && q.sport == port
  (k.circuits.zipIdx.find? fun p => go p.1).map fun p => (p.2, p.1)

/-- Change a member's port end. -/
def modPort (s : State) (scene member port : Nat) (f : PortEnd → PortEnd) : State :=
  modMember s scene member fun m => { m with ports := Sparse.insert m.ports port (f (Sparse.get {} m.ports port)) }

/-- The end of a member's port. -/
def getPort (s : State) (scene member port : Nat) : Option PortEnd :=
  match getMember s scene member with
  | some m => Sparse.find? m.ports port
  | none => none

/-- A port sends its token into its circuit, or the bubble of this emission slot (04 R87). -/
def emitPort (s : State) (rg : Nat) (x : Region) (b : Binding) (slot : Nat) (t : Token) : State × Bool :=
  if slotBubble slot (bubbleLevel s rg x) then (pushBuf s b.stage (ingressKey b) { tag := 6 } x.fc, false)
  else (pushBuf s b.stage (ingressKey b) t x.fc, true)

/-- Whether a hold was asked for before the take's start and has not begun: each ingress port then sends its hold marker ahead of
any data (07 R176). -/
def markerFirst (s : State) (x : Region) : Bool :=
  x.early && (match getScene s x.scene with | some k => k.wanted | none => false)

/-- One ingress binding fed by a seed FIFO or a scene circuit moves one token into its circuit. -/
def moveIngress (s : State) (rg : Nat) (x : Region) (b : Binding) : State :=
  let g := getStage s b.stage
  if markerFirst s x then s
  else if b.dir = 2 then
    match getScene s x.scene with
    | none => s
    | some k =>
      match circuitOf k x.member b.port true with
      | none => s
      | some (n, q) =>
        if x.holding || q.marked || q.exhausted || adderInput s x.scene n then s
        else
          match q.q with
          | [] => s
          | t :: rest =>
            if !hasRoom g (ingressKey b) t then s
            else if isHold t then modCircuit s x.scene n fun q => { q with q := rest }
            else if isBubble t then returnCredit (modCircuit s x.scene n fun q => { q with q := rest }) x.scene n q
            else
              let (s, sent) := emitPort s rg x b q.slot t
              modCircuit (if sent then returnCredit s x.scene n q else s) x.scene n fun q =>
                { q with slot := q.slot + 1, q := if sent then rest else q.q,
                         exhausted := sent && isCut t && b.endrank ≤ cutRank t }
  else
    match getPort s x.scene x.member b.port with
    | none => s
    | some p =>
      if p.kind ≠ 1 || p.marked then s
      else
        match p.fifo with
        | [] => s
        | t :: rest =>
          if !hasRoom g (ingressKey b) t then s
          else
            let (s, sent) := emitPort s rg x b p.slot t
            modPort s x.scene x.member b.port fun p =>
              { p with slot := p.slot + 1, fifo := if sent then rest else p.fifo, moved := if sent then p.moved + 1 else p.moved }

/-- One egress binding of a scene circuit takes one token; a bubble is discarded (04 R88). A hold marker takes its reserved place in
the circuit (12 R298); at a chip port and at an adder it ends. [DEDUCED, log 27] -/
def moveEgress (s : State) (x : Region) (b : Binding) : State :=
  let g := getStage s b.stage
  match egressKey g x b with
  | none => s
  | some key =>
    match headBuf g key with
    | none => s
    | some h =>
      if isBubble h.tok then popBuf s b.stage key
      else
        match getScene s x.scene with
        | none => if isHold h.tok then popBuf s b.stage key else s
        | some k =>
          match circuitOf k x.member b.port false with
          | none => if isHold h.tok then popBuf s b.stage key else s
          | some (n, q) =>
            if isHold h.tok then
              let s := popBuf s b.stage key
              if q.via.isSome || adderInput s x.scene n then s else modCircuit s x.scene n fun q => { q with q := q.q ++ [h.tok] }
            else if circuitRoom q && q.late.isEmpty then pushCircuit (popBuf s b.stage key) x.scene n h.tok
            else s

/-- TOKEN_FORWARD (07 R153). Outputs 0 to 3 are the links; 0b10xxxx a unit's input latch (13 R318); 0x31 the ingress
bindings of the router that are fed by a seed FIFO or a scene circuit, 0x30 its scene-circuit egress bindings. The inputs
of operator slots are taken by the slots themselves (07 R154), memory sources and sinks by ACCESS_PERFORM. -/
def execTokenForward (stage tile : Nat) (output : BitVec 6) (s : State) : Result State :=
  match regionOf s stage with
  | none => .next s
  | some (r, x) =>
    if !regionLive x then .next s
    else
      let o := output.toNat
      if o < 4 then .next (forwardLink s x stage tile o)
      else if 0x20 ≤ o && o < 0x30 then .next (forwardLatch s r x stage tile (o / 4 % 4) (o % 4))
      else if o = 0x30 then .next (((bindingsAt x stage tile).filter (·.dir = 3)).foldl (fun s b => moveEgress s x b) s)
      else if o = 0x31 then
        .next (((bindingsAt x stage tile).filter fun b => b.dir = 0 || b.dir = 2).foldl (fun s b => moveIngress s r x b) s)
      else .next s

end Sys2Proof.Machine
end

