-- ==== Sys2Proof/Machine/Numbers.lean ====
section
/-! DEFINITION. Number formats, rounding, and arithmetic on values (10 R231-R240, R254-R256). -/
namespace Sys2Proof.Machine

/-! ## Formats -/

/-- A floating format (10 R231): exponent and mantissa widths, bias, FMT code (08 R197). -/
structure Fmt where
  code : Nat
  ew   : Nat
  mw   : Nat
  bias : Nat
  deriving DecidableEq, Repr

def fmt64 : Fmt := ⟨1, 11, 52, 1023⟩
def fmt32 : Fmt := ⟨2, 8, 23, 127⟩
def fmt16 : Fmt := ⟨3, 5, 10, 15⟩
def fmtB16 : Fmt := ⟨4, 8, 7, 127⟩
def fmtE4M3 : Fmt := ⟨5, 4, 3, 7⟩
def fmtE5M2 : Fmt := ⟨6, 5, 2, 15⟩
def fmtE2M1 : Fmt := ⟨7, 2, 1, 1⟩

/-- The float format of an FMT code. -/
def floatFmt (code : Nat) : Option Fmt :=
  match code with
  | 1 => some fmt64 | 2 => some fmt32 | 3 => some fmt16 | 4 => some fmtB16
  | 5 => some fmtE4M3 | 6 => some fmtE5M2 | 7 => some fmtE2M1 | _ => none

/-- The width of the integer format of an FMT code. -/
def intWidth (code : Nat) : Option Nat :=
  match code with | 8 => some 8 | 9 => some 4 | 10 => some 32 | 11 => some 64 | _ => none

/-- Bits of an element of a format (08 R197). -/
def fmtBits (code : Nat) : Nat :=
  match code with
  | 1 => 64 | 2 => 32 | 3 => 16 | 4 => 16 | 5 => 8 | 6 => 8 | 7 => 4 | 8 => 8 | 9 => 4 | 10 => 32 | 11 => 64 | 12 => 64
  | 13 => 128 | _ => 0

/-- FP64, FP32, FP16 and BF16: infinities and FTZ act on these only (10 R232). -/
def Fmt.ieee (f : Fmt) : Bool := f.code ≤ 4
/-- Width in bits. -/
def Fmt.width (f : Fmt) : Nat := 1 + f.ew + f.mw

/-! ## Values -/

/-- The value of a code: a finite one is man * 2^exp with a sign. -/
inductive FVal where
  | nan
  | inf (neg : Bool)
  | fin (neg : Bool) (man : Nat) (exp : Int)
  deriving DecidableEq, Repr

/-- Flags of 10 R240 as bits: 1 INV, 2 OVF, 4 UNF, 8 INX, and 16 DZ (15 R377). -/
abbrev FlagBits := Nat

/-- Either of two flag words. -/
def orFlags (a b : FlagBits) : FlagBits := a ||| b

/-- A zero. -/
def fzero (neg : Bool) : FVal := .fin neg 0 0

/-- Decode a code (10 R231, R233); FTZ reads a subnormal of an IEEE format as a zero of its sign (R232). -/
def decodeF (f : Fmt) (ftz : Bool) (v : Nat) : FVal :=
  let m := bits v 0 f.mw
  let e := bits v f.mw f.ew
  let neg := bits v (f.mw + f.ew) 1 = 1
  if f.ieee && e = 2 ^ f.ew - 1 then (if m = 0 then .inf neg else .nan)
  else if f.code = 5 && e = 15 && m = 7 then .nan
  else if f.code = 6 && e = 31 then (if m = 0 then .fin neg 7 13 else .nan)
  else if e = 0 then (if ftz && f.ieee then fzero neg else .fin neg m (1 - f.bias - f.mw))
  else .fin neg (2 ^ f.mw + m) ((e : Int) - f.bias - f.mw)

/-- The canonical NaN (10 R232); +6 in FP4 (R238). -/
def canonNan (f : Fmt) : Nat :=
  match f.code with
  | 5 => 0x7F
  | 6 => 0x7E
  | 7 => 0x7
  | _ => (2 ^ f.ew - 1) * 2 ^ f.mw + 2 ^ (f.mw - 1)

/-- The code of the largest finite value. -/
def maxCode (f : Fmt) : Nat :=
  match f.code with
  | 5 => 0x7E
  | 6 => 0x7B
  | 7 => 0x7
  | _ => (2 ^ f.ew - 2) * 2 ^ f.mw + (2 ^ f.mw - 1)

/-- The sign bit of a code. -/
def signBit (f : Fmt) (neg : Bool) : Nat := if neg then 2 ^ (f.ew + f.mw) else 0

/-- The code of an infinity; a format without one takes the largest finite value (10 R238). -/
def infCode (f : Fmt) (neg : Bool) : Nat :=
  signBit f neg + (if f.ieee then (2 ^ f.ew - 1) * 2 ^ f.mw else maxCode f)

/-- What overflow gives under a rounding mode (10 R238). -/
def overflowCode (f : Fmt) (rm : Nat) (neg : Bool) : Nat :=
  if !f.ieee then signBit f neg + maxCode f
  else
    match rm with
    | 0 => infCode f neg
    | 1 => infCode f neg
    | 3 => if neg then signBit f neg + maxCode f else infCode f neg
    | 4 => if neg then infCode f neg else signBit f neg + maxCode f
    | _ => signBit f neg + maxCode f

/-- Whether the fraction `rem / 2^sh` (a little more when sticky) rounds away from zero (10 R238). -/
def roundsUp (rm : Nat) (neg sticky : Bool) (lo rem sh r : Nat) : Bool :=
  if rem = 0 && !sticky then false
  else
    let half := 2 ^ sh / 2
    match rm with
    | 0 => rem > half || (rem = half && (sticky || lo % 2 = 1)) && sh ≠ 0
    | 1 => rem ≥ half && sh ≠ 0
    | 3 => !neg
    | 4 => neg
    | 5 => r < rem * 2 ^ 32 / 2 ^ sh
    | _ => false

/-- Round a nonzero magnitude in [man * 2^exp, (man + 1) * 2^exp), exact unless sticky, to a code with its flags (10 R238,
R240). The caller gives a sticky magnitude more bits than the format keeps. -/
def roundMag (f : Fmt) (rm r : Nat) (ftz neg : Bool) (man : Nat) (exp : Int) (sticky : Bool) : Nat × FlagBits :=
  let p := f.mw + 1
  let emin : Int := 1 - f.bias
  let e := max ((Nat.log2 man : Int) + exp) emin
  let u := e - p + 1
  let sh := (u - exp).toNat
  let big := man * 2 ^ (exp - u).toNat
  let lo := big / 2 ^ sh
  let rem := big % 2 ^ sh
  let up := roundsUp rm neg sticky lo rem sh r
  let q := if up then lo + 1 else lo
  let inexact := rem ≠ 0 || sticky
  let q' := if q = 2 ^ p then 2 ^ (p - 1) else q
  let u' := if q = 2 ^ p then u + 1 else u
  let biased := if q' < 2 ^ f.mw then 0 else (u' + f.mw + f.bias).toNat
  let code := if biased = 0 then q' else biased * 2 ^ f.mw + (q' - 2 ^ f.mw)
  if code > maxCode f then (overflowCode f rm neg, 2 + 8)
  else if q' < 2 ^ f.mw then
    if ftz && f.ieee then (signBit f neg, 4 + 8)
    else (signBit f neg + code, if inexact then 4 + 8 else 4)
  else (signBit f neg + code, if inexact then 8 else 0)

/-- A value to a code of a format (10 R238). A zero keeps its sign. -/
def encodeF (f : Fmt) (rm r : Nat) (ftz : Bool) (v : FVal) : Nat × FlagBits :=
  match v with
  | .nan => (canonNan f, 1)
  | .inf neg => (infCode f neg, if f.ieee then 0 else 2 + 8)
  | .fin neg man exp => if man = 0 then (signBit f neg, 0) else roundMag f rm r ftz neg man exp false

/-- A code that passes through a unit: a NaN leaves as the canonical one and raises INV, and under FTZ a subnormal leaves as a
zero of its sign (10 R232, R233). [DEDUCED, log 25] -/
def passF (f : Fmt) (ftz : Bool) (v : Nat) : Nat × FlagBits :=
  match decodeF f ftz v with
  | .nan => (canonNan f, 1)
  | x => ((encodeF f 0 0 ftz x).1, 0)

/-- A slot's value that passes through an element. -/
def passSlot (fm : Option Fmt) (ftz : Bool) (v : Nat) : Nat × FlagBits :=
  match fm with
  | some f => passF f ftz v
  | none => (v, 0)

/-! ## Exact arithmetic on values -/

/-- A signed mantissa at exponent `e` of a finite value whose own exponent is not below it. -/
def alignMan (neg : Bool) (man : Nat) (exp e : Int) : Int :=
  let m : Int := (man * 2 ^ (exp - e).toNat : Nat)
  if neg then -m else m

/-- A value of a signed integer times 2^e; `zneg` is the sign of an exact zero. -/
def finOfInt (i : Int) (e : Int) (zneg : Bool) : FVal := if i = 0 then fzero zneg else .fin (i < 0) i.natAbs e

/-- Negation. -/
def fneg : FVal → FVal
  | .nan => .nan
  | .inf n => .inf !n
  | .fin n m e => .fin (!n) m e

/-- Exact sum under the IEEE rules for specials; infinities of both signs give NaN. -/
def fadd (x y : FVal) : FVal :=
  match x, y with
  | .nan, _ => .nan
  | _, .nan => .nan
  | .inf a, .inf b => if a = b then .inf a else .nan
  | .inf a, _ => .inf a
  | _, .inf b => .inf b
  | .fin a m e, .fin b n g =>
    if m = 0 && n = 0 then fzero (a && b)
    else
      let k := if m = 0 then g else if n = 0 then e else min e g
      let mm := if m = 0 then 0 else alignMan a m e k
      let nn := if n = 0 then 0 else alignMan b n g k
      finOfInt (mm + nn) k false

/-- Exact product; infinity times zero gives NaN. -/
def fmul (x y : FVal) : FVal :=
  match x, y with
  | .nan, _ => .nan
  | _, .nan => .nan
  | .inf a, .inf b => .inf (a != b)
  | .inf a, .fin b n _ => if n = 0 then .nan else .inf (a != b)
  | .fin a m _, .inf b => if m = 0 then .nan else .inf (a != b)
  | .fin a m e, .fin b n g => .fin (a != b) (m * n) (e + g)

/-- Is a value a NaN. -/
def isNanV (x : FVal) : Bool := x == .nan
/-- Is a value a zero. -/
def isZeroV : FVal → Bool | .fin _ m _ => m = 0 | _ => false

/-- A value's place on the number line as (rank, signed mantissa, exponent) for comparison; never NaN. -/
def flt (x y : FVal) : Bool :=
  match x, y with
  | .inf a, .inf b => a && !b
  | .inf a, _ => a
  | _, .inf b => !b
  | .fin a m e, .fin b n g =>
    let k := min e g
    alignMan a m e k < alignMan b n g k
  | _, _ => false

/-- Equality of values that are not NaN. -/
def feq (x y : FVal) : Bool := !isNanV x && !isNanV y && !flt x y && !flt y x

/-- The sign of a value. -/
def fsign : FVal → Bool | .inf n => n | .fin n _ _ => n | .nan => false

/-- Smaller of two values, -0 below +0; NaN if either is. [DEDUCED, log 25] -/
def fmin (x y : FVal) : FVal :=
  if isNanV x || isNanV y then .nan
  else if flt x y then x else if flt y x then y else if fsign x then x else y
/-- Larger of two values. [DEDUCED, log 25] -/
def fmax (x y : FVal) : FVal :=
  if isNanV x || isNanV y then .nan
  else if flt x y then y else if flt y x then x else if fsign x then y else x

/-- The integer square root, by bits from the highest. -/
def isqrtLoop : Nat → Nat → Nat → Nat
  | 0, _, r => r
  | k + 1, n, r => if (r + 2 ^ k) * (r + 2 ^ k) ≤ n then isqrtLoop k n (r + 2 ^ k) else isqrtLoop k n r
/-- ⌊√n⌋. -/
def isqrt (n : Nat) : Nat := isqrtLoop (Nat.log2 n / 2 + 1) n 0

/-- 1 / a, correctly rounded (15 R382). -/
def rcpF (f : Fmt) (ftz : Bool) (x : FVal) : Nat × FlagBits :=
  match x with
  | .nan => (canonNan f, 1)
  | .inf n => (signBit f n, 0)
  | .fin n m e =>
    if m = 0 then (infCode f n, 16)
    else
      let k := Nat.log2 m + 130
      roundMag f 0 0 ftz n (2 ^ k / m) (-(k : Int) - e) (2 ^ k % m ≠ 0)

/-- 1 / √a, correctly rounded (15 R382): with a = m * 2^e, e even, 1/√a = √(2^(2k) / m) * 2^(-k - e/2). -/
def rsqrtF (f : Fmt) (ftz : Bool) (x : FVal) : Nat × FlagBits :=
  match x with
  | .nan => (canonNan f, 1)
  | .inf n => if n then (canonNan f, 1) else (0, 0)
  | .fin n m e =>
    if m = 0 then (infCode f n, 16)
    else if n then (canonNan f, 1)
    else
      let m' := if e % 2 = 0 then m else 2 * m
      let e' := if e % 2 = 0 then e else e - 1
      let k := Nat.log2 m' + 130
      let q := 2 ^ (2 * k) / m'
      let s := isqrt q
      roundMag f 0 0 ftz false s (-(k : Int) - e' / 2) (s * s ≠ q || 2 ^ (2 * k) % m' ≠ 0)

/-! ## Integers and conversions -/

/-- An integer of `w` bits as a code. -/
def intCode (w : Nat) (i : Int) : Nat := (i % (2 ^ w : Nat)).toNat

/-- Saturate to the two's complement range of `w` bits; OVF on saturation. -/
def saturate (w : Nat) (i : Int) : Nat × FlagBits :=
  let hi : Int := (2 ^ (w - 1) : Nat) - 1
  let lo : Int := -(2 ^ (w - 1) : Nat)
  if i > hi then (intCode w hi, 2) else if i < lo then (intCode w lo, 2) else (intCode w i, 0)

/-- Round a finite value to an integer under a mode (10 R238 with ulp 1); the flag is INX. -/
def roundInt (rm r : Nat) (neg : Bool) (man : Nat) (exp : Int) : Int × FlagBits :=
  let sh := (-exp).toNat
  let big := man * 2 ^ exp.toNat
  let lo := big / 2 ^ sh
  let rem := big % 2 ^ sh
  let q := if roundsUp rm neg false lo rem sh r then lo + 1 else lo
  (if neg then -(q : Int) else (q : Int), if rem = 0 then 0 else 8)

/-- Float to integer, saturating (10 R236); a nonzero value that becomes 0 raises UNF (R240). -/
def floatToInt (w rm r : Nat) (x : FVal) : Nat × FlagBits :=
  match x with
  | .nan => (2 ^ (w - 1) - 1, 1)
  | .inf neg => (if neg then 2 ^ (w - 1) else 2 ^ (w - 1) - 1, 2 + 8)
  | .fin neg man exp =>
    let (i, fi) := roundInt rm r neg man exp
    let (c, fs) := saturate w i
    (c, orFlags (if fs ≠ 0 then 8 else if i = 0 && man ≠ 0 then orFlags fi 4 else fi) fs)

/-- Integer to a value. -/
def intToF (w v : Nat) : FVal := finOfInt (sextInt w v) 0 false

/-! ## ACC64 (10 R242-R248) -/

/-- Bit length of a number. -/
def bitLength (n : Nat) : Nat := if n = 0 then 0 else Nat.log2 n + 1

/-- A term (10 R243): its integer, and CLAMP, INV and HEAD. -/
structure Term where
  t     : Int
  clamp : Bool := false
  inv   : Bool := false
  head  : Nat := 0
  deriving DecidableEq, Repr

/-- The largest term magnitude. -/
def termMax : Nat := 2 ^ 63 - 1

/-- An exact value enters a sum on the grid 2^E. -/
def termOf (x : FVal) (E : Int) : Term :=
  match x with
  | .nan => { t := 0, inv := true }
  | .inf neg => { t := if neg then -(termMax : Int) else termMax, clamp := true }
  | .fin neg man exp =>
    let (i, _) := roundInt 0 0 neg man (exp - E)
    if i.natAbs > termMax then { t := if neg then -(termMax : Int) else termMax, clamp := true, head := 63 }
    else { t := i, head := bitLength i.natAbs }

/-- The flags that an element raises as a value is rounded to the grid of a term (10 R240, 15 R377). -/
def termFlags (x : FVal) (E : Int) : FlagBits :=
  match x with
  | .nan => 1
  | .inf _ => 2 + 8
  | .fin neg man exp =>
    let (i, fl) := roundInt 0 0 neg man (exp - E)
    if i.natAbs > termMax then 2 + 8 else if i = 0 && man ≠ 0 then orFlags fl 4 else fl

/-- The ACC64 invalid marker (10 R247). -/
def accInvalid : Nat := 0x8000000000000000

/-- N of a FINAL drain, and whether it saturates. -/
def finalOf (sum : Int) : Nat × Bool :=
  if sum > termMax then (termMax, true)
  else if sum < -(termMax : Int) then (intCode 64 (-(termMax : Int)), true)
  else (intCode 64 sum, false)

/-! ## Algebras (10 R252-R255) -/

/-- Dimension of a structure table. -/
def algDim (tab : BitVec 128) : Nat := match bits tab.toNat 64 2 with | 0 => 1 | 1 => 2 | 2 => 4 | _ => 1

/-- The table of slot 0: the reals. -/
def algReals : BitVec 128 := 1

/-- Entry (i, j): target component and coefficient. -/
def algEntry (tab : BitVec 128) (i j : Nat) : Nat × Int :=
  let n := 4 * i + j
  (bits tab.toNat (4 * n + 2) 2, match bits tab.toNat (4 * n) 2 with | 1 => 1 | 3 => -1 | _ => 0)

/-- The load check of a table (10 R253). -/
def algOk (tab : BitVec 128) : Bool :=
  let v := tab.toNat
  let d := algDim tab
  bits v 64 2 ≠ 3 && bits v 66 2 = 0 && bits v 72 56 = 0 && bits v (68 + d) (4 - d) = 0 &&
  (List.range 16).all fun n =>
    let nib := bits v (4 * n) 4
    bits v (4 * n) 2 ≠ 2 && ((n / 4 < d && n % 4 < d) || nib = 0) && (nib % 4 = 0 || nib / 4 < d)

/-- Whether conjugation negates component i. -/
def algConj (tab : BitVec 128) (i : Nat) : Bool := bits tab.toNat (68 + i) 1 = 1

/-- A component built of products: its exact sum, or the special outcomes of 10 R254. -/
def sumProducts (ps : List FVal) : FVal :=
  if ps.any isNanV then .nan
  else if ps.any (· == .inf false) && ps.any (· == .inf true) then .nan
  else
    match ps.find? fun p => p == .inf false || p == .inf true with
    | some p => p
    | none => match ps with
      | [] => fzero false
      | p :: rest => rest.foldl fadd p

/-- Conjugate under a table. -/
def algConjugate (tab : BitVec 128) (a : List FVal) : List FVal :=
  a.zipIdx.map fun p => if algConj tab p.2 then fneg p.1 else p.1

/-- The algebra product with its modifiers (10 R254). -/
def algMul (tab : BitVec 128) (conjA conjB swap : Bool) (a b : List FVal) : List FVal :=
  let a := if conjA then algConjugate tab a else a
  let b := if conjB then algConjugate tab b else b
  let x := if swap then b else a
  let y := if swap then a else b
  let d := algDim tab
  let pairs := (List.range d).flatMap fun i => (List.range d).map fun j => (i, j)
  (List.range d).map fun k =>
    sumProducts (pairs.filterMap fun (i, j) =>
      let (t, c) := algEntry tab i j
      if t = k && c ≠ 0 then
        let p := fmul (x.getD i (fzero false)) (y.getD j (fzero false))
        some (if c < 0 then fneg p else p)
      else none)

/-- The norm: the scalar component of a times its conjugate (10 R255). -/
def algNorm (tab : BitVec 128) (a : List FVal) : FVal :=
  (algMul tab false true false a a).getD 0 (fzero false)

/-! ## Slots of a token (15 R374) -/

/-- Width of a type code. -/
def tyWidth (ty : Nat) : Nat := match ty with | 0 => 32 | 1 => 16 | 2 => 16 | 3 => 64 | 4 => 32 | 5 => 64 | 6 => 16 | _ => 8
/-- Float types are 0 to 3. -/
def tyFloat (ty : Nat) : Option Fmt :=
  match ty with | 0 => some fmt32 | 1 => some fmt16 | 2 => some fmtB16 | 3 => some fmt64 | _ => none

/-- Slots per token of a width. -/
def slotCount (w : Nat) : Nat := 512 / w

/-- A slot's bits. -/
def slotBits (w : Nat) (b : Block) (i : Nat) : Nat := bits b.toNat (w * i) w

/-- Whether a slot is present: every lane it covers is set (07 R158). -/
def slotHere (w : Nat) (m : BitVec 16) (i : Nat) : Bool :=
  (List.range (max 1 (w / 32))).all fun k => m.getLsbD (w * i / 32 + k)

/-- The slots of a token, absent ones none. [DEDUCED, log 25] -/
def slotsOf (w : Nat) (t : Token) : List (Option Nat) :=
  (List.range (slotCount w)).map fun i => if slotHere w t.mask i then some (slotBits w t.data i) else none

/-- Data bits of slots; absent slots are zero. -/
def packSlots (w : Nat) : List (Option Nat) → Nat
  | [] => 0
  | v :: rest => (v.getD 0) % 2 ^ w + 2 ^ w * packSlots w rest

/-- The lane mask of slots: a lane is set when a slot that touches it is present. -/
def slotMask (w : Nat) (vs : List (Option Nat)) : BitVec 16 :=
  BitVec.ofNat 16 ((List.range 16).foldl (fun a j =>
    let here := if w < 32 then (vs.drop (32 / w * j)).take (32 / w) |>.any Option.isSome
                else (vs.getD (32 * j / w) none).isSome
    if here then a + 2 ^ j else a) 0)

/-- A data token of slots. -/
def slotTok (w : Nat) (vs : List (Option Nat)) : Token :=
  { tag := 0, mask := slotMask w vs, data := BitVec.ofNat 512 (packSlots w vs) }

/-- Cut a list into runs of `n`. -/
def chunks {α : Type} (n : Nat) : Nat → List α → List (List α)
  | 0, _ => []
  | _, [] => []
  | fuel + 1, l => l.take n :: chunks n fuel (l.drop n)

/-! ## Stochastic rounding (10 R239) -/

/-- The first four bytes of SHAKE128 over a message of 32 bytes, as a little-endian number (rate 168 bytes). -/
def shake128of32 (w0 w1 w2 w3 : BitVec 64) : Nat := leNat (xof 168 4 ([w0, w1, w2, w3].flatMap fun w => leBytes 8 w.toNat))

/-- r of tensor id, element index, step counter and seed. -/
def srBits (t n s g : Nat) : Nat :=
  shake128of32 (BitVec.ofNat 64 (t % 1024)) (BitVec.ofNat 64 n) (BitVec.ofNat 64 s) (BitVec.ofNat 64 g)

end Sys2Proof.Machine
end

