-- ==== Sys2Proof/Machine/Reel.lean ====
section
/-! DEFINITION. Riljor images and the checks of a configuration load (13 R314-R323, R339-R341; 14 R354, R359; 15, 16 for
reserved modifier and constant values). -/
namespace Sys2Proof.Machine

/-! ## Images (13 R339-R341) -/

/-- One bit step of CRC-32C, reflected. -/
def crcBit (c : BitVec 32) : BitVec 32 := if c.getLsbD 0 then (c >>> 1) ^^^ 0x82F63B78 else c >>> 1

/-- One byte of CRC-32C. -/
def crcByte (c : BitVec 32) (b : Byte) : BitVec 32 :=
  crcBit (crcBit (crcBit (crcBit (crcBit (crcBit (crcBit (crcBit (c ^^^ b.setWidth 32))))))))

/-- CRC-32C of RFC 3720. -/
def crc32c (bs : List Byte) : BitVec 32 := bs.foldl crcByte 0xFFFFFFFF ^^^ 0xFFFFFFFF

/-- A little-endian field of an image. -/
def imgField (bs : List Byte) (off n : Nat) : Nat := leNat ((bs.drop off).take n)

/-- A failed load: its code (13 R323, 14 R354; 0x32 IMGFAULT) and the index of the failing word. -/
structure LoadFail where
  code  : Nat
  index : Nat := 0
  deriving DecidableEq, Repr

/-- A parsed reel image: shape and the words of each mapping. -/
structure Reel where
  w    : Nat
  h    : Nat
  maps : List (Nat × List Word)
  deriving DecidableEq, Repr

/-- The 64-bit words of bytes. -/
def wordsOf : Nat → List Byte → List Word
  | 0, _ => []
  | n + 1, bs => wordOf (bs.take 8) :: wordsOf n (bs.drop 8)

/-- Whether a header begins a valid image of kind 1 (R339, R341). -/
def headerOk (hd : List Byte) : Bool :=
  hd.take 4 == [0x52, 0x4C, 0x4A, 0x52] && imgField hd 4 2 == 1 && imgField hd 6 2 == 1 &&
  decide (64 ≤ imgField hd 8 8) && decide (imgField hd 8 8 ≤ 2 ^ 30)

/-- A section table entry: type, index, offset, size. -/
structure Section where
  typ  : Nat
  idx  : Nat
  off  : Nat
  size : Nat
  deriving DecidableEq, Repr

/-- The section table. -/
def sectionsOf (img : List Byte) : List Section :=
  (List.range (imgField img 16 4)).map fun n =>
    let e := imgField img 20 4 + 32 * n
    { typ := imgField img e 2, idx := imgField img (e + 2) 2, off := imgField img (e + 8) 8, size := imgField img (e + 16) 8 }

/-- The words of a section. -/
def sectionWords (img : List Byte) (x : Section) : List Word := wordsOf (x.size / 8) (img.drop x.off)

/-- A REELWORDS section's own checks (R341). -/
def reelSectionOk (img : List Byte) (x : Section) : Bool :=
  x.size ≠ 0 && x.size % 8 == 0 &&
  match sectionWords img x with
  | [] => false
  | w :: _ => wbits w 60 4 == 7 && wbits w 58 2 == x.idx

/-- The whole image is checked (R341) and its mappings read. -/
def parseImage (img : List Byte) : Option Reel :=
  let len := imgField img 8 8
  if !headerOk img || len < imgField img 20 4 + 32 * imgField img 16 4 then none
  else
    let ss := sectionsOf img
    let rs := ss.filter (·.typ == 1)
    if (ss.any fun x => x.off + x.size > len || !([1, 2, 0x20, 0x22].contains x.typ))
      || (rs.map (·.idx)).eraseDups.length ≠ rs.length
      || (rs.foldl (fun a x => a + 2 ^ x.idx) 0) ≠ imgField img 26 1
      || rs.any (fun x => !reelSectionOk img x)
      || crc32c (img.take 28 ++ [0, 0, 0, 0] ++ img.drop 32) ≠ BitVec.ofNat 32 (imgField img 28 4) then none
    else
      some { w := imgField img 24 2 % 32 + 1, h := imgField img 24 2 / 32 % 16 + 1,
             maps := rs.map fun x => (x.idx, sectionWords img x) }

/-- Read an image at a 64-byte aligned virtual address (R341): IMGFAULT 0x32, BADIMAGE 0x01; a changing key slot waits. -/
def readImage (s : State) (cache crew : Nat) (va : Word) : Except (Option LoadFail) Reel :=
  match vread s cache crew va 64 with
  | .error .wait => .error none
  | .error _ => .error (some { code := 0x32 })
  | .ok hd =>
    if !headerOk hd then .error (some { code := 1 })
    else
      match vread s cache crew va (imgField hd 8 8) with
      | .error .wait => .error none
      | .error _ => .error (some { code := 0x32 })
      | .ok img => match parseImage img with
        | some r => .ok r
        | none => .error (some { code := 1 })

/-- The corrected errors of the reads of an image are counted (01 R18). -/
def countImage (s : State) (cache crew : Nat) (va : Word) : State :=
  match vread s cache crew va 64 with
  | .ok hd => countRead s cache crew va (max 64 (imgField hd 8 8))
  | .error _ => s

/-- What reading the next block of an image comes to: more to read, or the whole image, checked. -/
inductive ImageRead where
  | more (bs : List Byte)
  | whole (im : Reel)
  deriving DecidableEq, Repr

/-- The bytes of the next block of an image of which `got` has been read: the header's block first. -/
def blockLen (got : List Byte) : Nat := if got.isEmpty then 64 else min 64 (imgField got 8 8 - got.length)

/-- Read the next block of an image as one event (09 R221, 13 R343): IMGFAULT 0x32, BADIMAGE 0x01; a changing key slot waits. -/
def nextBlock (s : State) (cache crew : Nat) (va : Word) (got : List Byte) : Except (Option LoadFail) ImageRead :=
  match vread s cache crew (va + BitVec.ofNat 64 got.length) (blockLen got) with
  | .error .wait => .error none
  | .error _ => .error (some { code := 0x32 })
  | .ok bs =>
    let img := got ++ bs
    if !headerOk img then .error (some { code := 1 })
    else if img.length < imgField img 8 8 then .ok (.more img)
    else match parseImage (img.take (imgField img 8 8)) with
      | some r => .ok (.whole r)
      | none => .error (some { code := 1 })

/-- What that read leaves behind (01 R18; 12 R309). -/
def countBlock (s : State) (cache crew : Nat) (va : Word) (got : List Byte) : State :=
  countRead s cache crew (va + BitVec.ofNat 64 got.length) (blockLen got)

/-- The mapping a request loads (04 R82): the widest present at or below the request and the ceiling; mapping 0 and the
requested mapping must be present. [DEDUCED, log 22] -/
def pickMapping (r : Reel) (req ceiling : Nat) : Option (Nat × List Word) :=
  if (r.maps.any (·.1 == 0)) && (r.maps.any (·.1 == req)) then
    (r.maps.filter fun m => m.1 ≤ min req ceiling).foldl (fun b m =>
      match b with | some x => if x.1 < m.1 then some m else some x | none => some m) none
  else none

/-! ## Words and their fields (13 R314) -/

/-- A word of a mapping, its index in the section and the context header it stands under. -/
structure RWord where
  i   : Nat
  w   : Word
  cur : Option Nat
  deriving DecidableEq, Repr

/-- TYPE. -/
def RWord.typ (x : RWord) : Nat := wbits x.w 60 4
/-- Target CTX of types 1 to 5. -/
def RWord.ctx (x : RWord) : Nat := wbits x.w 15 2
def RWord.dx (x : RWord) : Nat := wbits x.w 10 5
def RWord.dy (x : RWord) : Nat := wbits x.w 6 4
def RWord.tile (x : RWord) : Nat := wbits x.w 4 2
def RWord.slot (x : RWord) : Nat := wbits x.w 0 4
def RWord.kind (x : RWord) : Nat := wbits x.w 56 4
def RWord.op (x : RWord) : Nat := wbits x.w 48 8
def RWord.rop (x : RWord) : Nat := wbits x.w 56 4
def RWord.oslot (x : RWord) : Nat := wbits x.w 54 2
def RWord.rmod (x : RWord) : Nat := wbits x.w 49 5
def RWord.param (x : RWord) : Nat := wbits x.w 17 32
def RWord.frm (x : RWord) : Nat := wbits x.w 54 6
def RWord.tgt (x : RWord) : Nat := wbits x.w 48 6
/-- CIRC of a route word. -/
def RWord.circ (x : RWord) : Nat := wbits x.w 36 12
def RWord.port (x : RWord) : Nat := wbits x.w 52 8
def RWord.dir (x : RWord) : Nat := wbits x.w 50 2
def RWord.endrank (x : RWord) : Nat := wbits x.w 47 3
def RWord.alloc (x : RWord) : Nat := wbits x.w 36 11
/-- CIRC of a port binding word. -/
def RWord.pcirc (x : RWord) : Nat := wbits x.w 24 12
/-- Same router (or stage and tile). -/
def RWord.sameTile (x y : RWord) : Bool := x.ctx == y.ctx && x.dx == y.dx && x.dy == y.dy && x.tile == y.tile
/-- Types 1 to 5: the words with a target. -/
def RWord.targeted (x : RWord) : Bool := 1 ≤ x.typ && x.typ ≤ 5
/-- Input port `p` of a unit word enabled. -/
def RWord.ioIn (x : RWord) (p : Nat) : Bool := p < 4 && wbit x.w (23 - p)
/-- Output port `p` of a unit word enabled. -/
def RWord.ioOut (x : RWord) (p : Nat) : Bool := p < 3 && wbit x.w (19 - p)

/-- Words with their indices and the context header they stand under. -/
def indexWords : Nat → Option Nat → List Word → List RWord
  | _, _, [] => []
  | i, cur, w :: ws =>
    let cur := if wbits w 60 4 = 0 then some (wbits w 58 2) else cur
    { i, w, cur } :: indexWords (i + 1) cur ws

/-- The first word, in section order, that breaks a check. -/
def firstBad (code : Nat) (ws : List RWord) (p : RWord → Bool) : Option LoadFail :=
  (ws.find? p).map fun x => { code, index := x.i }

/-- A malformed endpoint code (R318). -/
def badEnd (code : Nat) (isFrom : Bool) : Bool :=
  match code / 16 with
  | 0 => code / 4 % 4 ≠ 0
  | 1 => false
  | 2 => isFrom && code % 4 = 3
  | _ => true

/-- BADWORD. -/
def badWord (x : RWord) : Bool :=
  match x.typ with
  | 0 => wbits x.w 40 18 ≠ 0 || wbits x.w 0 20 ≠ 0
  | 1 => wbits x.w 24 13 ≠ 0 || x.cur ≠ some x.ctx
  | 2 => wbits x.w 49 8 ≠ 0 || x.cur ≠ some x.ctx
  | 3 => x.cur ≠ some x.ctx
  | 4 => wbits x.w 17 19 ≠ 0 || x.cur ≠ some x.ctx || badEnd x.frm true || badEnd x.tgt false
  | 5 => wbits x.w 17 7 ≠ 0 || x.cur ≠ some x.ctx
  | 6 => wbits x.w 0 56 ≠ 0 || x.cur ≠ some (wbits x.w 58 2)
  | 7 => x.i ≠ 0 || wbits x.w 52 3 ≠ 0 || wbits x.w 0 20 ≠ 0
  | _ => true

/-- The port binding that ends route word `x`'s circuit at its router, on the ingress or the egress side. -/
def bindingOf (ws : List RWord) (x : RWord) (ingress : Bool) : Option RWord :=
  ws.find? fun b => b.typ == 5 && b.sameTile x && b.pcirc == x.circ && (b.dir % 2 == 0) == ingress

/-- The endpoint a route word's code names: a port binding of the circuit at the router stands under code 0. -/
def realEnd (ws : List RWord) (x : RWord) (isFrom : Bool) : Nat :=
  let code := if isFrom then x.frm else x.tgt
  if code = 0 && (bindingOf ws x isFrom).isSome then portEnd else code

/-- The configuration word of a unit at a router's stage. -/
def unitWord (ws : List RWord) (x : RWord) (slot : Nat) : Option RWord :=
  ws.find? fun u => u.typ == 1 && u.ctx == x.ctx && u.dx == x.dx && u.dy == x.dy && u.slot == slot

/-- The router slot word of an operator slot. -/
def slotWordOf (ws : List RWord) (x : RWord) (oslot : Nat) : Option RWord :=
  ws.find? fun u => u.typ == 3 && u.sameTile x && u.oslot == oslot

/-- Tile coordinates of a link's far end, offset by one so that none is negative. -/
def linkOut (x : RWord) (dir : Nat) : Nat × Nat :=
  let tx := 2 * x.dx + x.tile % 2 + 1
  let ty := 2 * x.dy + x.tile / 2 + 1
  match dir with | 0 => (tx, ty - 1) | 1 => (tx + 1, ty) | 2 => (tx, ty + 1) | _ => (tx - 1, ty)

/-- A unit, operator slot or link endpoint that is refused with BADTARGET (R318, R323). -/
def endRefused (ws : List RWord) (w h : Nat) (x : RWord) (isFrom : Bool) : Bool :=
  let code := realEnd ws x isFrom
  if code = portEnd then false
  else
    match code / 16 with
    | 0 => !isFrom && (let (tx, ty) := linkOut x code; !(1 ≤ tx && tx ≤ 2 * w && 1 ≤ ty && ty ≤ 2 * h))
    | 1 => (slotWordOf ws x (code / 4 % 4)).isNone
    | _ =>
      match tileSlot x.tile (code / 4 % 4) with
      | none => true
      | some slot =>
        match unitWord ws x slot with
        | none => true
        | some u => !(if isFrom then u.ioOut (code % 4) else u.ioIn (code % 4))

/-- BADTARGET. -/
def badTarget (ws : List RWord) (w h : Nat) (x : RWord) : Bool :=
  x.targeted &&
  (w ≤ x.dx || h ≤ x.dy || x.slot == 13 || x.slot == 14 || (3 ≤ x.typ && x.slot ≠ 15) ||
   (x.typ ≤ 2 && x.slot ≠ 15 && slotTile x.slot ≠ x.tile) ||
   (x.typ == 4 && (endRefused ws w h x true || endRefused ws w h x false)))

/-- A KIND legal at a slot (R319). -/
def kindLegal (kind slot : Nat) : Bool :=
  if kind < 12 then slot < 8
  else if kind = 12 then slot = 8
  else if kind = 13 then slot = 9 || slot = 10
  else if kind = 14 then slot = 11
  else slot = 12

/-- The number of assigned OP codes of a kind (R320, R322). -/
def opCount (kind : Nat) : Nat := [28, 6, 4, 3, 6, 5, 3, 4, 3, 2, 2, 2, 1, 16, 2, 1].getD kind 0

/-- BADOP. -/
def badOp (x : RWord) : Bool := (x.typ == 1 && opCount x.kind ≤ x.op) || (x.typ == 3 && 8 ≤ x.rop)

/-- What may appear once in a context (R315). -/
def dupKey (x : RWord) : Option (List Nat) :=
  match x.typ with
  | 1 => some [1, x.ctx, x.dx, x.dy, x.slot]
  | 2 => some [2, x.ctx, x.dx, x.dy, x.slot, wbits x.w 57 3]
  | 3 => some [3, x.ctx, x.dx, x.dy, x.tile, x.oslot]
  | 4 => some [4, x.ctx, x.dx, x.dy, x.tile, x.frm, x.circ]
  | 5 => some [5, x.ctx, x.port]
  | 6 => some [6, wbits x.w 58 2]
  | _ => none

/-- DUPWORD. -/
def dupWord (ws : List RWord) (x : RWord) : Bool :=
  match dupKey x with
  | none => false
  | some k => ws.any fun y => y.i < x.i && dupKey y == some k

/-- The words that follow a context header. -/
def headerCount (ws : List RWord) (x : RWord) : Nat :=
  ((ws.drop (x.i + 1)).takeWhile fun y => y.typ ≠ 0).length

/-- BADCOUNT. -/
def badCount (ws : List RWord) (x : RWord) : Bool :=
  if x.typ = 7 then wbits x.w 20 20 ≠ ws.length - 1
  else if x.typ = 0 then
    wbits x.w 20 20 ≠ headerCount ws x || ws.any fun y => y.typ == 0 && y.i < x.i && wbits x.w 58 2 ≤ wbits y.w 58 2
  else false

/-! ## Circuits (13 R316) -/

/-- A circuit's two ends: the words that hold its producer and its consumer. -/
structure Path where
  first : RWord
  last  : RWord
  deriving DecidableEq, Repr

/-- The route words of a circuit. -/
def circuitWords (ws : List RWord) (ctx circ : Nat) : List RWord :=
  ws.filter fun x => x.typ == 4 && x.ctx == ctx && x.circ == circ

/-- The route word of a circuit at the far end of a link. -/
def nextHop (rs : List RWord) (x : RWord) : Option RWord :=
  let far := linkOut x x.tgt
  rs.find? fun y => (2 * y.dx + y.tile % 2 + 1, 2 * y.dy + y.tile / 2 + 1) == far && y.frm == (x.tgt + 2) % 4

/-- Follow a circuit from `x`; `n` words remain to be passed. The last word if the path ends exactly there. -/
def follow (ws rs : List RWord) : Nat → RWord → Option RWord
  | 0, _ => none
  | n + 1, x =>
    if 4 ≤ realEnd ws x false then (if n = 0 then some x else none)
    else
      match nextHop rs x with
      | some y => follow ws rs n y
      | none => none

/-- The path of a circuit: one producer, every word, one consumer. -/
def pathOf (ws : List RWord) (ctx circ : Nat) : Option Path :=
  let rs := circuitWords ws ctx circ
  match rs.filter fun x => 4 ≤ realEnd ws x true with
  | [x] => (follow ws rs rs.length x).map fun y => { first := x, last := y }
  | _ => none

/-- A unit, operator-slot or port end: context, router, endpoint code (and circuit, for a port). -/
def endKey (ws : List RWord) (x : RWord) (isFrom : Bool) : List Nat :=
  let e := realEnd ws x isFrom
  [x.ctx, x.dx, x.dy, x.tile, e, if e = portEnd then x.circ else 0]

/-- Whether a circuit breaks R316: no single path, or an end that an earlier circuit already uses. -/
def circuitBad (ws : List RWord) (ctx circ : Nat) (at_ : Nat) : Bool :=
  match pathOf ws ctx circ with
  | none => true
  | some p =>
    ws.any fun y => y.typ == 4 && y.i < at_ && y.circ ≠ circ && y.ctx == ctx &&
      ((4 ≤ realEnd ws y true && endKey ws y true == endKey ws p.first true) ||
       (4 ≤ realEnd ws y false && endKey ws y false == endKey ws p.last false))

/-- BADCIRC, for a route word or a port binding. -/
def badCirc (ws : List RWord) (x : RWord) : Bool :=
  if x.typ = 4 then circuitBad ws x.ctx x.circ x.i
  else if x.typ = 5 then
    (ws.any fun b => b.typ == 5 && b.i < x.i && b.sameTile x && b.pcirc == x.pcirc && b.dir % 2 == x.dir % 2) ||
    (match pathOf ws x.ctx x.pcirc with
     | none => true
     | some p =>
       let e := if x.dir % 2 = 0 then p.first else p.last
       !(e.sameTile x && realEnd ws e (x.dir % 2 = 0) == portEnd))
  else false

/-! ## Structural checks (14 R354) -/

/-- LINKFULL: more than 12 circuits leave a router by one link direction. -/
def linkFull (ws : List RWord) (x : RWord) : Bool :=
  x.typ == 4 && realEnd ws x false < 4 &&
  12 ≤ (ws.filter fun y => y.typ == 4 && y.i < x.i && y.sameTile x && realEnd ws y false == x.tgt).length

/-- TILEWORDS: more than 64 words of a context target one tile. -/
def tileFull (ws : List RWord) (x : RWord) : Bool :=
  x.targeted && 64 ≤ (ws.filter fun y => y.targeted && y.i < x.i && y.sameTile x).length

/-- The unit or operator slot at a route word's end. -/
def endNode (ws : List RWord) (x : RWord) (isFrom : Bool) : Option Nat :=
  let e := realEnd ws x isFrom
  let base := (x.dx * 16 + x.dy) * 64
  match e / 16 with
  | 1 => some (base + 16 + 4 * x.tile + e / 4 % 4)
  | 2 => (tileSlot x.tile (e / 4 % 4)).map fun n => base + n
  | _ => none

/-- Whether a route word ends at a carry's feedback input. -/
def endsAtFeedback (ws : List RWord) (x : RWord) : Bool :=
  let e := realEnd ws x false
  e / 16 == 1 && e % 4 == 1 &&
  match slotWordOf ws x (e / 4 % 4) with
  | some u => u.rop == 3
  | none => false

/-- The circuits of a context. -/
def circuitsOf (ws : List RWord) (ctx : Nat) : List Nat :=
  ((ws.filter fun x => x.typ == 4 && x.ctx == ctx).map (·.circ)).eraseDups

/-- Channels from producer to consumer, but for those into a carry's feedback input. -/
def channelEdges (ws : List RWord) (ctx : Nat) : List (Nat × Nat) :=
  (circuitsOf ws ctx).filterMap fun c =>
    match pathOf ws ctx c with
    | none => none
    | some p =>
      if endsAtFeedback ws p.last then none
      else
        match endNode ws p.first true, endNode ws p.last false with
        | some a, some b => some (a, b)
        | _, _ => none

/-- Take away the channels whose producer nothing feeds, again and again: what is left lies on or behind a cycle. -/
def pruneEdges : Nat → List (Nat × Nat) → List (Nat × Nat)
  | 0, es => es
  | n + 1, es => pruneEdges n (es.filter fun e => es.any fun f => f.2 == e.1)

/-- The contexts a mapping holds. -/
def mapContexts (ws : List RWord) : List Nat := (ws.filter (·.typ == 0)).map fun x => wbits x.w 58 2

/-- NOBACKEDGE. -/
def noBackEdge (ws : List RWord) : Bool :=
  (mapContexts ws).any fun c => (pruneEdges (channelEdges ws c).length (channelEdges ws c)) ≠ []

/-- TOKEN records that the stores of an element's kind may give (15 R379). [DESIGN CHOICE, log 40] -/
def storeTokens (kind op mod : Nat) : Nat :=
  let w := tyWidth (mod / 32)
  let byLane := bits mod 1 1 = 1
  let numbers := if byLane then (slotCount w + 15) / 16 else 1
  match kind with
  | 0 => 1 | 1 => 1 | 2 => 2
  | 3 => if op = 1 then 2 ^ (mod % 8) - 1 else 0
  | 4 => 2 + (if op = 4 then numbers else if op = 5 then 1 + numbers
      else if op = 0 && (tyFloat (mod / 32)).isSome then (if byLane then 64 else max 32 w / 8) else 1)
  | 5 => 2 | 6 => 2
  | 7 => 3 + (if bits mod 4 1 = 1 then 64 else 32)
  | 8 => 1 | 9 => if op = 1 then 1 else 65 | 10 => 65 | 11 => 2 * (if op = 0 then 16 else 8) + 1 | _ => 0

/-- Drain-chain records of an operator slot's state, at most (14 R372, 12 R305): a carry's 64 tokens of residue, an
invar's value, of a fork with greatest window W the W + 1 tokens that a branch may lag behind (14 R368). -/
def slotRecords (rop param : Nat) : Nat :=
  let windows := (List.range 4).map fun b => bits param (4 * b) 4
  9 + (match rop with | 3 => 9 * 64 | 4 => 9 | 5 => 9 * (1 + windows.foldl max 0) | _ => 0)

/-- The records that a stage can produce in a context (12 R296, R305): with its latches, buffers and stores, the metadata of every
unit and router, and `q0`-`q3` of every element. The accumulators have their own place in an image (12 R304), so their ACC records
are not counted, but the UNIT record of their node is. [DEDUCED, log 22] -/
def recordBound (ws : List RWord) (ctx dx dy : Nat) : Nat :=
  let here := ws.filter fun x => x.targeted && x.ctx == ctx && x.dx == dx && x.dy == dy
  let meta' := 1 + 13 * 3 + 4 * 6
  let units := (here.filter (·.typ == 1)).map fun u =>
    let latch := 18 * ((List.range 4).filter (u.ioIn ·)).length + (if u.kind = 12 then 72 else 0)
    let st := if u.slot < 8 then 9 * storeTokens u.kind u.op (wbits u.w 40 8) else 0
    latch + (if latch = 0 then 0 else 1) + st
  let routers := (List.range 4).map fun t =>
    let b := 36 * (here.filter fun x => x.typ == 4 && x.tile == t).length
    let st := ((here.filter fun x => x.typ == 3 && x.tile == t).map fun x => slotRecords x.rop x.param).sum
    b + (if b = 0 then 0 else 1) + st + (if st = 0 then 0 else 1)
  meta' + 8 * (1 + 9 * 4) + 1 + units.sum + routers.sum

/-- RECORDS, over the contexts that the load writes. [DEDUCED, log 22] -/
def tooManyRecords (ws : List RWord) (wmask w h : Nat) : Bool :=
  (mapContexts ws).any fun c => bits wmask c 1 == 1 &&
    (List.range w).any fun dx => (List.range h).any fun dy => 3568 < recordBound ws c dx dy

/-- BADPORT (R351). -/
def badPort (x : RWord) : Bool :=
  x.typ == 5 &&
  !((if x.dir = 2 then 1 ≤ x.endrank && x.endrank ≤ 4 else x.endrank = 0) &&
    (if 2 ≤ x.dir then 4 ≤ x.alloc && x.alloc ≤ 1024 else x.alloc = 0))

/-- A unit's constants, from the parameter words of its context (R348). -/
def constsOf (ws : List RWord) (u : RWord) : UnitCfg :=
  (ws.filter fun x => x.typ == 2 && x.ctx == u.ctx && x.dx == u.dx && x.dy == u.dy && x.slot == u.slot).foldl (fun c x =>
    let lo := 32 * wbits x.w 57 1
    let v := wbits x.w 17 32
    match wbits x.w 58 2 with
    | 0 => { c with k0 := setBits c.k0 lo 32 v }
    | 1 => { c with k1 := setBits c.k1 lo 32 v }
    | 2 => { c with k2 := setBits c.k2 lo 32 v }
    | _ => { c with k3 := setBits c.k3 lo 32 v }) { word := u.w }

/-- Bits of a constant outside those listed as (low, length) fields. -/
def strayBits (k : Word) (fields : List (Nat × Nat)) : Bool :=
  k.toNat ≠ (fields.map fun (p : Nat × Nat) => wbits k p.1 p.2 * 2 ^ p.1).sum

/-- ALU operations that read operand b (15 R381). -/
def aluReadsB (op : Nat) : Bool := op ≤ 5 || (10 ≤ op && op ≤ 19) || (0x15 ≤ op && op ≤ 0x17)
/-- ALU operations that read operand c. -/
def aluReadsC (op : Nat) : Bool := op = 3 || op = 16

/-- ALU types allowed (15 R381). -/
def aluTypeOk (op ty : Nat) : Bool :=
  if op = 8 || op = 9 then ty < 4
  else if op = 10 || op = 11 || (0x15 ≤ op && op ≤ 0x19) then 4 ≤ ty
  else true

/-- The report rank of the flag-keeping kinds (15 R377): reserved values. -/
def badReport (c : UnitCfg) : Bool := wbit c.k3 63 || 4 < wbits c.k3 60 3 || (cfgOut c 1 && wbits c.k3 60 3 = 0)

/-- A modifier that an element's operation reserves (15). -/
def elementModBad (c : UnitCfg) : Bool :=
  let m := cfgMod c
  let op := cfgOp c
  let ty := m / 32
  match cfgKind c with
  | 0 => badReport c || !aluTypeOk op ty || (m / 16 % 2 = 1 && 4 ≤ ty) || m / 4 % 4 = 3 || 2 ≤ m % 4 ||
      (m / 4 % 4 ≠ 0 && !aluReadsB op) || (m % 4 ≠ 0 && !aluReadsC op)
  | 1 => badReport c || 2 < ty || m % 2 = 1 || (op ≠ 0 && m / 2 % 8 ≠ 0)
  | 2 => badReport c || 5 < ty || m % 16 ≠ 0
  | 3 => if op = 2 then m % 32 ≠ 0 else m % 8 = 0 || 4 < m % 8 || m / 16 ≠ 0
  | 4 => badReport c || (m % 2 = 1 && op ≠ 1) || (m / 2 % 2 = 1 && op = 1)
  | 5 => m % 16 ≠ 0 || m / 64 ≠ 0 || (op = 1 && m / 16 % 4 = 3) || (op = 3 && m ≠ 0) || ((op = 3 || op = 4) && !cfgIn c 0)
  | 6 => m ≠ 0 || (op = 2 && cfgOut c 1)
  | 7 => badReport c || m % 4 ≠ 0 || ty = 3 || ty = 5
  | 8 => m % 16 ≠ 0 || (m / 16 % 2 = 1 && op = 2)
  | 9 => if op = 0 then 1 < m else m ≠ 0
  | 10 => if op = 0 then m ≠ 0 else 3 < m
  | _ => m ≠ 0

/-- Reserved values of the matrix node (16 R401). -/
def mtxBad (c : UnitCfg) : Bool :=
  [cfgMod c != 0, cfgOut c 1, !cfgIn c 2, strayBits c.k0 [(0, 10), (16, 10), (32, 10)],
   strayBits c.k1 [(0, 6), (8, 6), (16, 6), (24, 6), (32, 32)], c.k2 != 0, c.k3 != 0].any id

/-- Read-modify-write operations of a memory node. -/
def memRmwOp (op : Nat) : Bool := decide (9 ≤ op) && decide (op ≤ 14)

/-- The bits of a memory node's constants that have a use (16 R417). -/
def memFields (op : Nat) (src : Bool) : List (List (Nat × Nat)) :=
  [if op < 4 || memRmwOp op then [(0, 10)] else [],
   if op = 6 || op = 7 || (op = 4 && src) then [(0, 48)] else if op = 8 then [(0, 22)] else [],
   if op = 0 && src then [(0, 8)] else if op = 2 || op = 3 then [(0, 32)] else if op = 6 || op = 7 then [(0, 3)]
     else if memRmwOp op then [(0, 3), (32, 32)] else [],
   if src then [(0, 35)] else []]

/-- Reserved values of a memory node (16 R416, R417). -/
def memBad (c : UnitCfg) : Bool :=
  let m := cfgMod c
  let op := cfgOp c
  let src := cfgSrc c
  let f := memFields op src
  [m % 2 == 1, m / 2 % 4 == 3, m / 128 == 1 && decide (4 ≤ op), src && (!(op == 0 || op == 4) || cfgIn c 0),
   (op == 1 || op == 3 || op == 5 || op == 7) && !cfgIn c 1, strayBits c.k0 (f.getD 0 []), strayBits c.k1 (f.getD 1 []),
   op == 8 && decide (2 ≤ wbits c.k1 20 2), strayBits c.k2 (f.getD 2 []),
   memRmwOp op && !([4, 6, 7].contains (wbits c.k2 0 3)), strayBits c.k3 (f.getD 3 []),
   src && decide (4 < wbits c.k3 32 3)].any id

/-- Reserved values of the gather unit (16 R425). -/
def gthBad (c : UnitCfg) : Bool :=
  let m := cfgMod c
  [m / 8 % 16 != 0, m % 2 == 1, m / 2 % 4 == 3, strayBits c.k0 [(0, 10)], strayBits c.k1 [(0, 48)], c.k2 != 0, c.k3 != 0].any id

/-- A modifier or constant that a fixed unit's operation reserves (16). -/
def nodeModBad (c : UnitCfg) : Bool :=
  match cfgKind c with
  | 12 => mtxBad c
  | 13 => memBad c
  | 14 => gthBad c
  | _ => [decide (1 < cfgMod c), c.k0 != 0, c.k1 != 0, c.k2 != 0, c.k3 != 0].any id

/-- The routed output ports of an operator slot, and its routed inputs. -/
def slotPorts (ws : List RWord) (x : RWord) (isOut : Bool) : List Nat :=
  (List.range 4).filter fun p => ws.any fun y => y.typ == 4 && y.sameTile x && realEnd ws y isOut == slotEnd x.oslot p

/-- A modifier or parameter that a router operator reserves (14 R359). -/
def ropModBad (ws : List RWord) (x : RWord) : Bool :=
  let m := x.rmod
  let p := x.param
  let badEnd' := m / 8 ≠ 0 || m % 8 = 0 || 4 < m % 8
  match x.rop with
  | 1 => p ≠ 0
  | 2 => p ≠ 0
  | 3 => badEnd' || p / 2 ^ 21 ≠ 0 || 1024 < bits p 10 11
  | 4 => badEnd' || p ≠ 0
  | 5 => m ≠ 0 || p / 2 ^ 16 ≠ 0 ||
      (List.range 4).any fun b => bits p (4 * b) 4 ≠ 0 && !(slotPorts ws x true).contains b
  | 7 => m ≠ 0 || p = 0 || 4 < p
  | _ => m ≠ 0 || p ≠ 0

/-- BADMOD. -/
def badMod (ws : List RWord) (x : RWord) : Bool :=
  if x.typ = 1 then (if x.kind < 12 then elementModBad (constsOf ws x) else nodeModBad (constsOf ws x))
  else if x.typ = 3 then ropModBad ws x
  else false

/-- OPPORTS (14 R359). -/
def badOpPorts (ws : List RWord) (x : RWord) : Bool :=
  x.typ == 3 &&
  (let i := slotPorts ws x false
   let o := slotPorts ws x true
   !(match x.rop with
     | 0 => i == [0] && o == [0]
     | 1 => i == [0, 2] && o == [0, 1]
     | 2 => i == [0, 1, 2] && o == [0]
     | 3 => i == [0, 1] && o == [0]
     | 4 => i == [0, 1] && o == [0]
     | 5 => i == [0] && o.contains 0
     | 6 => i.contains 0 && o == [0]
     | _ => i.contains 0 && i.contains 3 && o == i.filter (· ≠ 3)))

/-- DANGLING. -/
def dangling (ws : List RWord) (x : RWord) : Bool :=
  x.typ == 1 &&
  (let routed := fun (isOut : Bool) (p : Nat) =>
     ws.any fun y => y.typ == 4 && y.ctx == x.ctx && y.dx == x.dx && y.dy == x.dy && y.tile == x.tile &&
       realEnd ws y isOut == unitEnd x.slot p
   ((List.range 4).any fun p => x.ioIn p && !routed false p) || ((List.range 3).any fun p => x.ioOut p && !routed true p) ||
   (wbit x.w 37 && (!wbit x.w 38 || !x.ioOut 0)) ||
   (!x.ioIn 0 && !x.ioIn 1 && !x.ioIn 2 && (x.ioOut 0 || x.ioOut 1 || x.ioOut 2) && !wbit x.w 38))

/-- SPILLAREA. -/
def badSpill (x : RWord) : Bool := x.typ == 3 && x.rop == 3 && 1024 < bits x.param 0 10 + bits x.param 10 11

/-- NOCONFIG. -/
def noConfig (ws : List RWord) (x : RWord) : Bool :=
  ((x.typ == 1 || x.typ == 2) && x.slot == 15) || (x.typ == 2 && (unitWord ws x x.slot).isNone)

/-- The checks of a word against R323 and R354, with their codes, in order. -/
def wordChecks (ws : List RWord) (w h : Nat) : List (Nat × (RWord → Bool)) :=
  [(0x02, badWord), (0x03, badTarget ws w h), (0x04, fun x => x.typ == 1 && !kindLegal x.kind x.slot), (0x05, badOp),
   (0x07, dupWord ws), (0x06, badCount ws), (0x09, badCirc ws), (0x10, linkFull ws), (0x11, tileFull ws)]

/-- The structural checks that follow NOBACKEDGE and RECORDS. -/
def lateChecks (ws : List RWord) : List (Nat × (RWord → Bool)) :=
  [(0x14, badPort), (0x15, badMod ws), (0x16, badOpPorts ws), (0x17, dangling ws), (0x18, badSpill), (0x19, noConfig ws)]

/-- The first failing check of a list. -/
def runChecks (ws : List RWord) (cs : List (Nat × (RWord → Bool))) : Option LoadFail :=
  cs.findSome? fun c => firstBad c.1 ws c.2

/-- The checks of a mapping's words, in the order of R323 and then of R354. NOBACKEDGE and RECORDS name no single word. -/
def checkWords (words : List Word) (wmask w h : Nat) : Option LoadFail :=
  let ws := indexWords 0 none words
  match runChecks ws (wordChecks ws w h) with
  | some f => some f
  | none =>
    if noBackEdge ws then some { code := 0x12 }
    else if tooManyRecords ws wmask w h then some { code := 0x13 }
    else runChecks ws (lateChecks ws)

end Sys2Proof.Machine
end

