-- ==== Sys2Proof/Machine/Scene.lean ====
section
/-! DEFINITION. Regions, members and scenes as they come and go: placing a stage, releasing a region, the end of a member
and of a scene, refusal of a slate, and a launch slot's outcomes (02 R55; 05 R107-R111; 06 R127, R135). -/
namespace Sys2Proof.Machine

/-! ## Stages and regions -/

/-- Accesses that engines ask for at a stage: they outlive its region, since operations run to completion (11 R267). -/
def engineReqs (s : State) (g : Stage) : List SqReq := g.reqs.filter fun q => 6 ≤ q.rank && (getOp s q.op).isSome

/-- A stage as a region is placed on it: arrays and unit state are zero (08 R179, 15 R379), and the director keeps its
rotation. An engine's request that waits is older than the region's (08 R183). [DESIGN CHOICE, log 9] -/
def placedStage (s : State) (old : Stage) (r : Nat) : Stage :=
  { region := some r, lastCtx := old.lastCtx, reqs := (engineReqs s old).map fun q => { q with age := 0 } }

/-- Mark a rectangle as held by region `r`. -/
def placeStages (s : State) (r w h : Nat) : State :=
  (rectStages r w h).foldl (fun s i => setStage s i (placedStage s (getStage s i) r))
    s

/-- The estimated current of a region's mapping on a die's rail at its base level, in mA (04 R81, R92). [DEDUCED, log 19] -/
def mappingCurrent (s : State) (r : Nat) (x : Region) (d : Nat) : Nat :=
  match (regionStages r x).find? fun i => dieOf i == d, activeCtx x with
  | some i, some a => a.iest * 1000 * ((s.power.clusters.getD (clusterOf i) {}).level + 4) / 8
  | _, _ => 0

/-- The current that a region's work draws on a die's rail, in mA: its mapping's, less its bubbles. [DEDUCED, log 19] -/
def regionDraw (s : State) (r : Nat) (x : Region) (d : Nat) : Nat :=
  if regionLive x then mappingCurrent s r x d * (16 - bubbleLevel s r x) / 16 else 0

/-- Ballast takes the place of a region's work as it stops, from the current of that work on (04 R91). -/
def startBallast (s : State) (r : Nat) (x : Region) : State :=
  let ramps := (List.range 4).filterMap fun d =>
    if regionDraw s r x d = 0 then none else some ({ crew := x.crew, die := d, ma := regionDraw s r x d, began := now s } : Ballast)
  { s with power := { s.power with ballast := s.power.ballast ++ ramps } }

/-- Merge the enabled bytes of a global write. -/
def mergePiece (old : List Byte) (e : MemEvent) : List Byte :=
  (List.range e.len).map fun i => if bits e.ext i 1 = 1 then BitVec.ofNat 8 (bits e.data.toNat (8 * i) 8) else old.getD i 0

/-- A global write performs; none where its block must be merged and is uncorrectable (01 R18). -/
def eventWrite (s : State) (e : MemEvent) : Option State :=
  let p := eventPiece e
  if eventStuck s e then none
  else
    let s := if e.ext = 2 ^ 64 - 1 then s else countPiece s p
    some (writePiece s p (mergePiece (readPiece s p) e))

/-- A write that waits in the combining buffer, as an access. -/
def combinedEvent (w : Combined) : MemEvent :=
  { array := 3, va := w.va, addr := w.pa, write := true, len := w.bytes.length, ext := 2 ^ w.bytes.length - 1, key := w.key, kind := 2
    data := BitVec.ofNat 512 (leNat w.bytes) }

/-- The accepted writes of the memory nodes' operations in progress, with their nodes. -/
def acceptedWrites (g : Stage) : List (Nat × MemEvent) :=
  g.units.flatMap fun u => (nodeOps u.2).flatMap fun m =>
    (m.events.filter fun e => e.array = 3 && e.write && e.stamp ≠ 0).map fun e => (u.1, e)

/-- Put an access where it stands in the order of its port. -/
def insertStamp (e : MemEvent) : List MemEvent → List MemEvent
  | [] => [e]
  | f :: l => if e.stamp < f.stamp then e :: f :: l else f :: insertStamp e l

/-- The writes that a stage's port accepted, and those in its combining buffer, perform (09 R223). -/
def performBuffered (s : State) (stage : Nat) : State :=
  let g := getStage s stage
  ((((g.port ++ acceptedWrites g).map (·.2)).foldr insertStamp []) ++ g.comb.map combinedEvent).foldl (fun s e => (eventWrite s e).getD s) s

/-- Release a region: its stages are free and run ballast. -/
def freeRegion (s : State) (r : Nat) : State :=
  match getRegion s r with
  | none => s
  | some x =>
    let st := regionStages r x
    let s := startBallast s r x
    let s := st.foldl performBuffered s
    let s := st.foldl (fun s i => modStage s i fun g => if g.region = some r then { g with region := none, table := [], comb := [], port := [], reqs := engineReqs s g, squares := [] } else g) s
    let s := { s with power := { s.power with waits := s.power.waits.filter fun w => w.rise ≠ Rise.pace r } }
    { s with regions := Sparse.erase s.regions r, sched := { s.sched with due := true } }

/-- The stores that a context has issued still perform (09 R223). -/
def performStores (s : State) (c : Nat) : State :=
  (getCtx s c).stores.foldl (fun s t =>
    if badBlock s t.pa then s else writeInBlock s ((keyValue s t.key).getD 0) t.pa t.bytes) s

/-- Free a director context. -/
def freeCtx (s : State) (c : Nat) : State :=
  let s := performStores s c
  { s with ctxs := Sparse.erase s.ctxs c }

/-- Free the contexts of a member: its own, and one allocated for its resume. -/
def freeMemberCtx (s : State) (m : Member) : State :=
  (m.ctx.toList ++ m.next.toList).foldl freeCtx s

/-! ## Slates -/

/-- The slate with this submission order. -/
def findSlate (s : State) (order : Nat) : Option Slate := s.sched.slates.find? (·.order == order)

/-- Change a slate. -/
def modSlate (s : State) (order : Nat) (f : Slate → Slate) : State :=
  { s with sched := { s.sched with slates := s.sched.slates.map fun x => if x.order = order then f x else x } }

/-- Whether a slate is ready (06 R135). -/
def slateReady (x : Slate) : Bool := x.entered && x.joincnt == 0 && x.preds.isEmpty

/-- Record when slates became ready (06 R137); a pass is due. -/
def noteReady (s : State) : State :=
  let f := fun (x : Slate) => if slateReady x && x.readyAt.isNone then { x with readyAt := some (now s) } else x
  { s with sched := { s.sched with slates := s.sched.slates.map f, due := true } }

/-- Release a slate (06 R135): its entries leave the dependency table, its waiters lose a blocker, and its queue entry and
any reservation for it are freed. -/
def releaseSlate (s : State) (order : Nat) : State :=
  noteReady { s with sched := { s.sched with
      deps := s.sched.deps.filter (·.order ≠ order)
      slates := (s.sched.slates.filter (·.order ≠ order)).map fun x => { x with preds := x.preds.filter (· ≠ order) }
      resv := s.sched.resv.filter (·.2 ≠ order)
      xreqs := s.sched.xreqs.filter (·.order ≠ order)
      due := true } }

/-- A field of a slate's word. -/
def slateField (ws : List Word) (word lo len : Nat) : Nat := wbits (ws.getD word 0) lo len

/-- Submission number of a slate, modulo 2^24. -/
def subNumber (x : Slate) : Nat := x.sub % 2 ^ 24

/-! ## Launch slots (02 R53-R55) -/

/-- A launch slot. -/
def getLaunch (s : State) (crew slot : Nat) : Launch := (getCrew s crew).slots.getD slot {}

/-- Change a launch slot. -/
def modLaunch (s : State) (crew slot : Nat) (f : Launch → Launch) : State :=
  modCrew s crew fun c => { c with slots := modAt c.slots slot f }

/-- LSTAT states. -/
def lIDLE : BitVec 4 := 0
def lPLACING : BitVec 4 := 1
def lLOADING : BitVec 4 := 2
def lRUNNING : BitVec 4 := 3
def lHELD : BitVec 4 := 4
def lDONE : BitVec 4 := 5
def lFAULTED : BitVec 4 := 6
def lREJECTED : BitVec 4 := 7
def lABORTED : BitVec 4 := 8

/-- KIND and PORT of a record's entry. -/
def entryKind (rec : List Word) (e : Nat) : Nat := wbits (rec.getD (9 + 2 * e) 0) 12 4
def entryPort (rec : List Word) (e : Nat) : Nat := wbits (rec.getD (9 + 2 * e) 0) 0 8

/-- A launch slot with the tokens moved by each entry's port in LRES. -/
def viewLaunch (s : State) (l : Launch) : Launch :=
  match l.scene.bind (getScene s) with
  | none => l
  | some k =>
    match k.members with
    | [] => l
    | m :: _ =>
      let port := fun e => if entryKind l.taken e = 0 then none else Sparse.find? m.ports (entryPort l.taken e)
      let moved := fun e => match port e with | some p => BitVec.ofNat 64 p.moved | none => 0
      { l with lres := (List.range 12).map moved }

/-- Make the tokens moved final in LRES, and EXHAUSTED of the seed pages, as a take's region goes. -/
def copyLres (s : State) (crew slot : Nat) : State :=
  modLaunch s crew slot fun l =>
    let ports := match l.scene.bind (getScene s) with
      | some k => (k.members.take 1).flatMap (·.ports)
      | none => []
    let seen := fun (q : SeedPage × Nat) =>
      match Sparse.find? ports (entryPort l.taken q.2) with
      | some p => { q.1 with exhausted := p.exhausted }
      | none => q.1
    { (viewLaunch s l) with pages := l.pages.zipIdx.map seen }

/-- A launch is rejected with a code, and LAUNCH_REJECT is written (R55, R59). -/
def rejectLaunch (s : State) (crew slot : Nat) (code : BitVec 8) : State :=
  writeEvent (modLaunch s crew slot fun l => { l with state := lREJECTED, code, scene := none }) crew 0x04 slot code.toNat 0 0

/-! ## Scheduler messages (06 R140, 13 R328)

The spec gives their payload no layout; this one is the model's own (log): [3:0] what it says, [31:16] the scene's serial on
its home chip, [63:32] the home chip, [127:64] a tick, a cause, a chip, or a member with its slack. -/

def pREQUEST : Nat := 0
def pFIT : Nat := 1
def pNOFIT : Nat := 2
def pBADPEER : Nat := 3
def pCOMMIT : Nat := 4
def pCANCEL : Nat := 5
def pTEARDOWN : Nat := 6
def pHOLD : Nat := 7
def pFREEZE : Nat := 8
def pENDED : Nat := 9
def pSTEP : Nat := 10
def pSLACK : Nat := 11
def pORDER : Nat := 12

/-- The home chip of a scene, and its serial there: a scene of another chip stands under 2^16 times its home chip plus its
serial. -/
def sceneName (s : State) (key : Nat) : Nat × Nat :=
  if key < 65536 then (s.chip.serial.toNat, key) else (key / 65536, key % 65536)

/-- The key of a scene named by its home chip and its serial there. -/
def sceneKey (s : State) (chip serial : Nat) : Nat := if chip = s.chip.serial.toNat then serial else 65536 * chip + serial

/-- The payload of a message about a scene. [DESIGN CHOICE, log 16] -/
def placePayload (s : State) (key op v : Nat) : BitVec 128 :=
  let (chip, serial) := sceneName s key
  BitVec.ofNat 128 (op % 16 + serial % 65536 * 2 ^ 16 + chip % 2 ^ 32 * 2 ^ 32 + v % 2 ^ 64 * 2 ^ 64)

/-- Send one packet of a message to the scheduler of another chip of the scene. -/
def placePacket (s : State) (crew : Nat) (chips : List Nat) (dest idx last : Nat) (payload : BitVec 128) : State :=
  match portTowards s dest with
  | some p => sendPacket s p (packetHeader 4 crew (chips.findIdx (· == dest)) (unitEndpoint 0 5 0) (unitEndpoint 0 5 0) 0 idx last) payload
  | none => s

/-- Send a one-packet message about a scene. [DESIGN CHOICE, log 16] -/
def sendPlace (s : State) (key crew : Nat) (chips : List Nat) (dest op v : Nat) : State :=
  placePacket s crew chips dest 0 0 (placePayload s key op v)

/-- The other chips of a scene that hold members. -/
def otherChips (s : State) (k : Scene) : List Nat :=
  ((k.slots.map fun j => k.chips.getD j 0).filter fun c => c ≠ 0 && c ≠ s.chip.serial.toNat).eraseDups

/-- Tell every other chip of a scene, its home chip among them. [DESIGN CHOICE, log 16] -/
def tellChips (s : State) (key : Nat) (k : Scene) (op v : Nat) : State :=
  let home := (sceneName s key).1
  let cs := otherChips s k
  let cs := if !k.home && !cs.contains home then home :: cs else cs
  cs.foldl (fun s c => sendPlace s key k.crew k.chips c op v) s

/-! ## Members and scenes -/

/-- A scene circuit through a chip port closes at the scene's end (01 R31); the credit of tokens it still holds from the other
side goes back (07 R176). -/
def closeCircuit (k : Nat) (s : State) (c : SceneCircuit × Nat) : State :=
  match c.1.via with
  | some (p, circ) =>
    let held := if c.1.outward then 0 else c.1.q.length
    let s := if held = 0 then s else sendControl s p (creditEntries (bufferType s k c.2) circ held) false
    modChipPort s p fun c => { c with circuits := c.circuits.filter (·.circ ≠ circ) }
  | none => s

/-- Remove a scene and everything it holds, writing nothing: what remains of its operations ends. -/
def dropScene (s : State) (k : Nat) : State :=
  match getScene s k with
  | none => s
  | some x =>
    let s := x.members.foldl (fun s m =>
      if m.state = .ended then s else freeMemberCtx (freeRegion s m.region) m) s
    let s := x.circuits.zipIdx.foldl (closeCircuit k) s
    { s with scenes := Sparse.erase s.scenes k, heldRegions := s.heldRegions.filter fun p => p.1 / 64 ≠ k
             eng := { s.eng with
               adders := s.eng.adders.filter fun p => p.2.scene ≠ k
               waits := s.eng.waits.filter fun b => match getOp s b.op with | some o => o.scene ≠ k || o.remote.isSome | none => true
               ops := s.eng.ops.filter fun p => p.2.scene ≠ k || p.2.remote.isSome } }

/-- Whether an operation may stand while its member or scene ends: an arrival that waits at a barrier, a collective cue that waits
for its inputs. -/
def standsStill (o : Op) : Bool :=
  let w := (o.words.getD 0 0).toNat
  (bits w 24 8 == 0x2A && o.phase == .waiting) || (bits w 20 4 == 3 && o.phase == .inbox)

/-- Whether an operation of a scene has yet to act on memory. -/
def sceneActs (s : State) (k : Nat) : Bool := s.eng.ops.any fun p => p.2.scene = k && p.2.remote.isNone && !standsStill p.2

/-- The end of a scene (05 R111): ranges and queue entry are released. Once every memory effect has been performed, SCENE_DONE is
written if SLATEEV is set, or the home chip is told. -/
def endScene (s : State) (k : Nat) : State :=
  match getScene s k with
  | none => s
  | some x =>
    let s := if x.home then releaseSlate s x.order else s
    if sceneActs s k then s
    else
      let s := dropScene s k
      if !x.home then sendPlace s k x.crew x.chips (sceneName s k).1 pENDED s.chip.serial.toNat
      else if wbit (getCrew s x.crew).ring.ctl 1 && x.launch.isNone && (getCrew s x.crew).en then
        writeEvent s x.crew 0x10 (8 * x.crew + x.prio) 0 (BitVec.ofNat 64 (slateField x.words 1 0 48))
          (BitVec.ofNat 64 (slateField x.words 0 0 48))
      else s

/-- Whether every member of a scene has ended, on this chip and on the others. -/
def allEnded (x : Scene) : Bool := x.members.all (·.state == .ended) && x.away.isEmpty

/-- A member ends (05 R107): its context is freed and its region released; the last one ends the scene. -/
def endMember (s : State) (k m : Nat) : State :=
  match getMember s k m with
  | none => s
  | some x =>
    if x.state = .ended then s
    else
      let s := freeMemberCtx (freeRegion s x.region) x
      let s := modMember s k m fun y => { y with state := .ended, ctx := none, region := 0x10000 }
      match getScene s k with
      | some y => if allEnded y then endScene s k else s
      | none => s

/-- A slate is refused (06 R127): it is removed, its ranges released, and SCENE_FAULT written. [DEDUCED, log 28] -/
def refuseSlate (s : State) (x : Slate) (cause : Nat) : State :=
  let s := releaseSlate s x.order
  match x.launch with
  | some (c, slot) => rejectLaunch s c slot (if cause = 2 then 0x02 else if cause = 3 then 0x04 else 0x01)
  | none =>
    writeEvent s x.crew 0x11 (8 * x.crew + x.prio) (cause * 2 ^ 24 + subNumber x) 0xFFFFFFFFFFFFFFFF 0

/-- The opening load of a placed scene fails (06 R138): its members' regions and contexts are freed, and it is refused; a
peer frees what it reserved and answers NOFIT (R140). [DEDUCED, log 17] -/
def failPlacement (s : State) (k : Nat) (cause : Nat) : State :=
  match getScene s k with
  | none => s
  | some x =>
    let s := dropScene s k
    let s := if x.home then (otherChips s x).foldl (fun s c => sendPlace s k x.crew x.chips c pCANCEL 0) s else s
    match x.launch with
    | some (c, slot) => rejectLaunch (releaseSlate s x.order) c slot 0x01
    | none =>
      if x.home then
        match findSlate s x.order with
        | some sl => refuseSlate s sl cause
        | none => s
      else sendPlace s k x.crew x.chips (sceneName s k).1 pNOFIT s.chip.serial.toNat

/-- A bare take ends at its wrap (02 R55): DONE, LRES final, LAUNCH_DONE, and the region is freed. CODE of the record is 0, also
after a SINKOVF. [DESIGN CHOICE, log 37] -/
def finishLaunch (s : State) (k : Nat) (crew slot : Nat) : State :=
  match getScene s k with
  | none => s
  | some x =>
    let s := copyLres s crew slot
    let l := getLaunch s crew slot
    let s := modLaunch s crew slot fun l => { l with state := lDONE, scene := none }
    let s := releaseSlate (dropScene s k) x.order
    writeEvent s crew 0x02 slot 0 (l.lres.foldl (· + ·) 0) (s.timecode - l.began)

end Sys2Proof.Machine
end

