-- ==== Sys2Proof/Machine/Drain.lean ====
section
/-! DEFINITION. The tokens of a region as the wrap tree counts them (07 R169), and the drain chain of a region (12 R296,
R297; 14 R372). -/
namespace Sys2Proof.Machine

/-! ## The wrap tree's count (07 R169) -/

/-- Counted tokens of a list. -/
def countToks (l : List Token) : Nat := (l.filter counted).length

/-- Whether a unit's stored tokens stay counted: ELB, CRT and ORD elements hold tokens for later re-emission. -/
def countsStore (kind : Nat) : Bool := kind = 9 || kind = 10 || kind = 11

/-- The kind of a unit in the active context; 16 for a unit with no configuration word. -/
def unitKind (g : Stage) (x : Region) (slot : Nat) : Nat :=
  match unitCfg g x slot with
  | some c => cfgKind c
  | none => 16

/-- Counted tokens of a unit. -/
def unitTokens (g : Stage) (x : Region) (slot : Nat) (u : UnitState) : Nat :=
  countToks u.a + countToks u.b + countToks u.c + countToks u.cont + (u.out.map fun l => countToks (l.map (·.2))).sum +
  (if countsStore (unitKind g x slot) then countToks u.toks + countToks u.toks2 else 0)

/-- The routed outputs of a fork. -/
def forkOutputs (g : Stage) (x : Region) (tile oslot : Nat) : List Nat :=
  (List.range 4).filter fun p => (outKey g x tile (slotEnd oslot p)).isSome

/-- Counted tokens of an operator slot: each owed copy of a fork's store, an invar's held value, residue. -/
def slotTokens (rop : Nat) (u : SlotState) : Nat :=
  (if rop = 5 then u.lags.sum else countToks u.toks) + countToks u.residue + u.spilled

/-- ROP of an operator slot's word; 8 when the slot is not configured. -/
def slotRop (g : Stage) (x : Region) (tile oslot : Nat) : Nat :=
  match slotWord g x tile oslot with
  | some w => wbits w 56 4
  | none => 8

/-- Counted tokens of a stage. -/
def stageTokens (g : Stage) (x : Region) : Nat :=
  (g.bufs.map fun (p : Nat × List Arrived) => countToks (p.2.map (·.tok))).sum +
  (g.units.map fun (p : Nat × UnitState) => unitTokens g x p.1 p.2).sum +
  (g.rslots.map fun (p : Nat × SlotState) => slotTokens (slotRop g x (p.1 / 4) (p.1 % 4)) p.2).sum

/-- Counted tokens that a region's scene-circuit egress ports have sent and their receivers have not accepted (07 R169). -/
def egressTokens (s : State) (x : Region) : Nat :=
  match getScene s x.scene with
  | some k => ((k.circuits.filter (·.smem == x.member)).map fun q => countToks (unaccepted s q)).sum
  | none => 0

/-- The region's wrap-tree count. -/
def tokenCount (s : State) (r : Nat) (x : Region) : Nat :=
  ((regionStages r x).map fun i => stageTokens (getStage s i) x).sum + egressTokens s x

/-! ## Exhaustion (07 R168) -/

/-- Whether a stage's marked sources are exhausted. -/
def stageExhausted (g : Stage) (x : Region) : Bool :=
  (List.range 13).all fun slot =>
    match unitCfg g x slot with
    | some c => !cfgSrc c || (Sparse.get {} g.units slot).exhausted
    | none => true

/-- Whether an ingress binding is exhausted. -/
def portExhausted (s : State) (x : Region) (b : Binding) : Bool :=
  if b.dir = 2 then
    match getScene s x.scene with
    | some k => match circuitOf k x.member b.port true with
      | some (_, q) => q.exhausted
      | none => false
    | none => false
  else if b.dir = 0 then
    match getPort s x.scene x.member b.port with
    | some p => if p.kind = 1 then p.exhausted && p.fifo.isEmpty else p.kind = 2 && p.ended
    | none => false
  else true

/-- Whether every source of the region is exhausted. -/
def allExhausted (s : State) (r : Nat) (x : Region) : Bool :=
  ((regionStages r x).all fun i => stageExhausted (getStage s i) x) &&
  (match activeCtx x with
   | some a => a.bindings.all (portExhausted s x)
   | none => true)

/-! ## Records (12 R297) -/

/-- A drain-chain record of 80 bits. -/
structure Rec where
  typ     : Nat
  slot    : Nat := 0
  info    : Nat := 0
  payload : Nat := 0
  deriving DecidableEq, Repr

/-- The record's bits. -/
def Rec.bits (r : Rec) : BitVec 80 :=
  BitVec.ofNat 80 (r.typ % 16 * 2 ^ 76 + r.slot % 16 * 2 ^ 72 + r.info % 256 * 2 ^ 64 + r.payload % 2 ^ 64)

/-- A TOKEN record and its eight DATA records. -/
def tokRecs (slot info circ place : Nat) (t : Token) : List Rec :=
  { typ := 3, slot, info,
    payload := t.tag.toNat * 2 ^ 60 + t.mask.toNat * 2 ^ 44 + circ % 4096 * 2 ^ 32 + place % 256 * 2 ^ 24 } ::
  (List.range 8).map fun p => { typ := 4, slot, info := p, payload := bits t.data.toNat (64 * p) 64 }

/-- Token records of a list with rising places. -/
def tokListRecs (slot info circ : Nat) (l : List Token) : List Rec :=
  l.zipIdx.flatMap fun (p : Token × Nat) => tokRecs slot info circ p.2 p.1

/-- A scalar store: one TOKEN record whose lanes hold the numbers. -/
def scalarTok (vs : List Nat) : Token :=
  fullTok (BitVec.ofNat 512 ((vs.zipIdx.map fun (p : Nat × Nat) => p.1 % 2 ^ 32 * 2 ^ (32 * p.2)).sum))

/-- The unit as the router counts it: an operator slot belongs to its router, slot 15. -/
def recSlot (u : UnitRef) : Nat := if u.slot < 16 then u.slot else 15

/-- A UNIT record. -/
def unitRec (x : Region) (stage tile slot : Nat) : Rec :=
  let marks := match x.frozen with | some f => f.marks | none => []
  let m := marks.find? fun m => m.unit.stage == stage && recSlot m.unit == slot && unitTile m.unit == tile
  { typ := 2, slot, info := if m.isSome then 0x80 else 0,
    payload := slot + tile * 16 + stage % 128 * 64 + stage / 128 * 2 ^ 13 +
      (match m with | some m => m.cause.toNat * 2 ^ 32 | none => 0) }

/-- Records of a category, headed by the UNIT record when there are any. -/
def withUnit (x : Region) (stage tile slot : Nat) (l : List Rec) : List Rec :=
  if l.isEmpty then [] else unitRec x stage tile slot :: l

/-- The units of a tile in stage-slot order. -/
def tileUnits (tile : Nat) : List Nat :=
  match tile with | 0 => [8] | 1 => [9, 10, 11, 12] | 2 => [0, 1, 2, 3] | _ => [4, 5, 6, 7]

/-- Insert a buffer at its place: the tie order of inputs, then the circuit number. -/
def insertBuf (b : Nat × List Arrived) : List (Nat × List Arrived) → List (Nat × List Arrived)
  | [] => [b]
  | c :: cs =>
    let rank := fun (k : Nat) => inputRank (k / 2 ^ 12 % 2 ^ 8) * 2 ^ 12 + k % 2 ^ 12
    if rank b.1 ≤ rank c.1 then b :: c :: cs else c :: insertBuf b cs

/-- Router buffers of a tile. -/
def bufRecs (g : Stage) (tile : Nat) : List Rec :=
  ((g.bufs.filter fun b => b.1 / 2 ^ 20 == tile).foldr insertBuf []).flatMap fun (b : Nat × List Arrived) =>
    tokListRecs 15 (b.1 / 2 ^ 12 % 2 ^ 8) (b.1 % 2 ^ 12) (b.2.map (·.tok))

/-- The circuit that feeds a unit's port. -/
def portCirc (g : Stage) (x : Region) (slot port : Nat) : Nat :=
  match inKey g x (slotTile slot) (unitEnd slot port) with
  | some k => k % 2 ^ 12
  | none => 0

/-- Latches of a unit. -/
def latchRecs (g : Stage) (x : Region) (slot : Nat) : List Rec :=
  let u := Sparse.get {} g.units slot
  (List.range 4).flatMap fun p => tokListRecs slot p (portCirc g x slot p) (latchOf u p)

/-- Numbers in 32-bit lanes, 16 to a token; one that is absent leaves its lane off. -/
def laneToks (l : List (Option Nat)) : List Token := (chunks 16 l.length l).map (slotTok 32)

/-- RDC's running result (15 R379): the first error of the fibre; `suma`'s sum, TERMS and STATUS; the counts of `cnt`; the values
and then the positions of `argmax`; the canonical tree's subtrees by size; or the value of each group.
[DESIGN CHOICE, log 40] -/
def rdcStore (op mod : Nat) (u : UnitState) : List Token :=
  let ty := mod / 32
  let w := tyWidth ty
  let byLane := bits mod 1 1 = 1
  let groups := List.range (if byLane then slotCount w else 1)
  let entry := fun (grp level : Nat) => u.entries.find? fun e => e.key == 128 * grp + level && e.has
  let value := fun (e : Entry) => e.bits.toNat
  let number := fun (e : Entry) => (e.sum % 2 ^ 32).toNat
  match u.err with
  | some e => [e]
  | none =>
    if op = 1 then
      let v := match u.entries with | e :: _ => (e.sum % 2 ^ 128).toNat | [] => 0
      [slotTok 32 ([v, v / 2 ^ 32, v / 2 ^ 64, v / 2 ^ 96, u.n1, u.n1 / 2 ^ 32, u.n2, u.n3].map some)]
    else if op = 4 then laneToks (groups.map fun k => (entry k 0).map number)
    else if op = 5 then slotTok w (groups.map fun k => (entry k 0).map value) :: laneToks (groups.map fun k => (entry k 0).map number)
    else if op = 0 && (tyFloat ty).isSome then
      let levels := List.range ((u.entries.filter (·.has)).foldl (fun m e => max m (e.key % 128 + 1)) 0)
      if byLane then levels.map fun l => slotTok w (groups.map fun k => (entry k l).map value)
      else (chunks (512 / max 32 w) levels.length (levels.map fun l => (entry 0 l).map value)).map (slotTok (max 32 w))
    else [slotTok w (groups.map fun k => (entry k 0).map value)]

/-- SPA's scratch in order of first arrival: the first error; eight entries to a token, the coordinate and the value in two lanes;
under EXACT four, the coordinate and the 96-bit sum in four lanes. [DESIGN CHOICE, log 40] -/
def spaStore (mod : Nat) (u : UnitState) : List Token :=
  let sums := fun (e : Entry) => let v := (e.sum % 2 ^ 96).toNat; [v, v / 2 ^ 32, v / 2 ^ 64].map fun n => if e.has then some n else none
  u.err.toList ++
  laneToks (u.entries.flatMap fun e =>
    some e.key :: (if bits mod 4 1 = 1 then sums e else [if e.has then some e.bits.toNat else none]))

/-- The internal stores of an element in the order of 15 R379; an ISX's, FLT's and CRT's stored tokens are all it lists.
[DESIGN CHOICE, log 40] -/
def storeToks (c : UnitCfg) (u : UnitState) : List (List Token) :=
  let flags := [scalarTok [u.flags.toNat]]
  match cfgKind c with
  | 0 => [flags]
  | 1 => [flags]
  | 2 => [flags, [scalarTok [u.n0, u.n0 / 2 ^ 32]]]
  | 3 => [u.toks]
  | 4 => [flags, rdcStore (cfgOp c) (cfgMod c) u, [scalarTok [u.n0, u.n0 / 2 ^ 32]]]
  | 5 => [[scalarTok [u.n0, u.n0 / 2 ^ 32, u.n1, u.n1 / 2 ^ 32, u.n2, u.n2 / 2 ^ 32, u.conts]], [scalarTok [u.n3]]]
  | 6 => [u.toks, u.toks2]
  | 7 => [flags, spaStore (cfgMod c) u, [scalarTok [u.n0]]]
  | 8 => [u.toks]
  | 9 => [[scalarTok [u.n0]], u.toks]
  | 10 => [u.toks, [scalarTok [u.n0, u.n1, u.n2]]]
  | 11 => [u.toks, (u.out.flatMap id).filterMap fun q => if q.1 = 0 then some q.2 else none]
  | _ => []

/-- The status word of an accumulator slot (10 R245). -/
def accStatus (a : Acc) : Nat :=
  (if a.sat then 2 ^ 31 else 0) + (if a.clamp then 2 ^ 30 else 0) + (if a.inv then 2 ^ 29 else 0) +
  (if a.meta' then 2 ^ 28 else 0) + a.head % 128 * 2 ^ 20

/-- Accumulator records of a matrix node's slot (12 R297). -/
def accRecs (a : Acc) : List Rec :=
  let status := accStatus a
  { typ := 5, slot := 8, info := 0, payload := status + (a.exp % 2 ^ 16).toNat * 2 ^ 32 } ::
  { typ := 5, slot := 8, info := 1, payload := a.terms % 2 ^ 33 } ::
  (List.range 256).flatMap fun c =>
    let v := (Sparse.get 0 a.sums c % 2 ^ 96).toNat
    [{ typ := 5, slot := 8, info := 0, payload := v % 2 ^ 64 }, { typ := 5, slot := 8, info := 1, payload := v / 2 ^ 64 }]

/-- State records of a unit: `q0`-`q3` of an element and the stores of its kind, the accumulators of the matrix node. -/
def stateRecs (g : Stage) (x : Region) (slot : Nat) : List Rec :=
  let u : UnitState := Sparse.get {} g.units slot
  if slot < 8 then
    (([u.q0, u.q1, u.q2, u.q3].zipIdx).flatMap fun (q : QReg × Nat) =>
      tokRecs slot (0x80 + q.2) 0 0 { tag := 0, mask := q.1.mask, data := q.1.data }) ++
    (match unitCfg g x slot with
     | some c => (storeToks c u).flatMap (tokListRecs slot 0xA0 0)
     | none => [])
  else if slot = 8 then (List.range 4).flatMap fun q => accRecs (Sparse.get {} g.acc q)
  else []

/-- A residue entry of the spill area in Y (12 R301). -/
def spilledTok (g : Stage) (entry : Nat) : Token :=
  let bs := rawBytes g.yarr (128 * entry) 67
  { tag := BitVec.ofNat 4 (leNat (bs.drop 66)), mask := BitVec.ofNat 16 (leNat ((bs.drop 64).take 2)), data := blockOf bs }

/-- The residue of a carry that stands in Y. -/
def spilledToks (g : Stage) (x : Region) (tile oslot : Nat) (v : SlotState) : List Token :=
  let base := wbits ((slotWord g x tile oslot).getD 0) 17 10
  (List.range v.spilled).map fun n => spilledTok g (base + n)

/-- Phase bits of an operator slot. -/
def slotPhase (rop : Nat) (u : SlotState) : Nat := (if u.phase && (rop = 3 || rop = 4) then 1 else 0) + (if u.held then 4 else 0)

/-- State of a router's operator slots (14 R372). -/
def ropRecs (g : Stage) (x : Region) (tile : Nat) (image : Bool) : List Rec :=
  (List.range 4).flatMap fun o =>
    let rop := slotRop g x tile o
    if rop = 8 then []
    else
      let u : SlotState := Sparse.get {} g.rslots (4 * tile + o)
      let lag := if rop = 5 then (u.lags.zipIdx.map fun (p : Nat × Nat) => p.1 % 32 * 2 ^ (8 * p.2)).sum else 0
      tokRecs 15 0xA0 o 0 (scalarTok [slotPhase rop u, lag, if rop = 3 then u.residue.length + u.spilled else 0]) ++
      tokListRecs 15 0xA0 o u.toks ++ tokListRecs 15 0x90 o (u.residue ++ (if image then [] else spilledToks g x tile o u))

/-- META record 1 of a region (12 R297). -/
def meta1 (x : Region) : Nat :=
  ((List.range 4).map fun c => if (Sparse.find? x.loaded c).isSome then 2 ^ c else 0).sum + x.active.toNat * 16 +
  (if x.load.isSome || (match x.frozen with | some f => f.stoppedLoad | none => false) then 64 else 0)

/-- Metadata records of a unit. -/
def metaRecs (g : Stage) (x : Region) (slot : Nat) : List Rec :=
  [{ typ := 6, slot, info := 0, payload := match unitCfg g x slot with | some c => c.word.toNat | none => 0 },
   { typ := 6, slot, info := 1, payload := meta1 x }]

/-- Metadata records of a router. -/
def routerMeta (g : Stage) (x : Region) (tile : Nat) : List Rec :=
  ((List.range 4).map fun o =>
    { typ := 6, slot := 15, info := 0, payload := match slotWord g x tile o with | some w => w.toNat | none => 0 }) ++
  [{ typ := 6, slot := 15, info := 1, payload := meta1 x }]

/-- The records of one tile. -/
def tileRecs (g : Stage) (x : Region) (stage tile : Nat) (image : Bool) : List Rec :=
  let us := tileUnits tile
  let w := withUnit x stage tile
  w 15 (bufRecs g tile) ++ (us.flatMap fun u => w u (latchRecs g x u)) ++
  (us.flatMap fun u => w u (stateRecs g x u)) ++ w 15 (ropRecs g x tile image) ++
  (us.flatMap fun u => w u (metaRecs g x u)) ++ w 15 (routerMeta g x tile)

/-- The records of one stage. -/
def stageRecs (s : State) (x : Region) (stage : Nat) (image : Bool) : List Rec :=
  { typ := 1, payload := stage % 128 * 64 + stage / 128 * 2 ^ 13 } ::
  (List.range 4).flatMap fun t => tileRecs (getStage s stage) x stage t image

/-- The chain after the three region records. -/
def chainBody (s : State) (r : Nat) (x : Region) : List Rec := (regionStages r x).flatMap fun i => stageRecs s x i false

/-- The place in a chain of a unit's first UNIT record; an operator slot's is its router's. -/
def chainIndex (body : List Rec) (u : UnitRef) : Nat :=
  (body.findIdx? fun c => c.typ == 2 && c.payload % 2 ^ 32 == unitOrigin u).getD body.length

/-- Insert a mark at its place: by the chain, then by the operator slot. [DEDUCED, log 28] -/
def insertMark (body : List Rec) (m : Mark) : List Mark → List Mark
  | [] => [m]
  | y :: ys =>
    let a := chainIndex body m.unit
    let b := chainIndex body y.unit
    if a < b || (a == b && m.unit.slot ≤ y.unit.slot) then m :: y :: ys else y :: insertMark body m ys

/-- The marks of a region in drain-chain order (12 R294, R296). [DEDUCED, log 28] -/
def sortMarks (s : State) (r : Nat) (x : Region) (ms : List Mark) : List Mark := ms.foldr (insertMark (chainBody s r x)) []

/-- FIRST: the index of the first marked unit's UNIT record. -/
def firstIndex (s : State) (r : Nat) (x : Region) : Nat :=
  match x.frozen with
  | none => 0
  | some f =>
    if f.marks.isEmpty then 0
    else
      match (chainBody s r x).findIdx? fun c => c.typ == 2 && c.info == 0x80 with
      | some n => n + 3
      | none => 0

/-- The drain chain of a frozen region. [DEDUCED, log 23] -/
def drainChain (s : State) (r : Nat) (x : Region) : List Rec :=
  match x.frozen with
  | none => []
  | some f =>
    [{ typ := 0, info := 0, payload := f.cause.toNat + firstIndex s r x % 2 ^ 32 * 2 ^ 16 + min f.marks.length 255 * 2 ^ 48 },
     { typ := 0, info := 1, payload := f.value.toNat },
     { typ := 0, info := 2, payload := tokenCount s r x % 2 ^ 32 + (if allExhausted s r x then 2 ^ 32 else 0) }] ++
    chainBody s r x

/-- Record `n` of a region's chain, zero beyond its end. -/
def drainAt (s : State) (r : Nat) (n : Nat) : BitVec 80 :=
  match getRegion s r with
  | some x => match (drainChain s r x)[n]? with
    | some c => c.bits
    | none => 0
  | none => 0

/-! ## The host's cursor (02 R60) -/

/-- The region of a crew that DC_SEL names, if it is frozen. -/
def dcRegion (s : State) (crew : Nat) : Option Nat :=
  let sel := (getCrew s crew).dcSel
  let i := 128 * wbits sel 9 4 + wbits sel 0 9
  let r := rasterOf i
  match getRegion s r with
  | some x => if wbits sel 0 9 < 128 && x.crew = crew && x.frozen.isSome then some r else none
  | none => none

/-- DC_HI_READ (02 R60): record bits [79:64], and DC_IDX advances by one. The window of a crew that is not enabled reads
zero and changes nothing (R42), and so does any while the part is stopped (04 R89). [DEDUCED, log 23] -/
def execDcHiRead (crew : Nat) (s : State) : Result State :=
  let c := getCrew s crew
  if partStopped s || !c.en then .next { s with hostRead := leBytes 8 0 }
  else
    let v := match dcRegion s crew with
      | some r => (drainAt s r c.dcIdx.toNat).toNat / 2 ^ 64
      | none => 0
    .next { modCrew s crew fun c => { c with dcIdx := c.dcIdx + 1, dcUsed := true } with hostRead := leBytes 8 v }

end Sys2Proof.Machine
end

