-- ==== Sys2Proof/Machine/Fault.lean ====
section
/-! DEFINITION. Fabric faults: the freeze, the orders to other regions, and the commands on a frozen region
(12 R292-R295, R312; 14 R353). -/
namespace Sys2Proof.Machine

/-- The system register `frz` of a region (12 R294). -/
def frzWord (s : State) (r : Nat) : Word :=
  match getRegion s r with
  | none => 0
  | some x =>
    match x.frozen with
    | none => 0
    | some f => BitVec.ofNat 64 (2 ^ 63 + (if f.replay then 2 ^ 62 else 0) + firstIndex s r x % 2 ^ 32 * 2 ^ 16 + f.cause.toNat)

/-- The launch slot whose bare take a region is. -/
def regionLaunch (s : State) (x : Region) : Option (Nat × Nat) :=
  match getScene s x.scene with
  | some k => k.launch
  | none => none

/-- A context that a hold had stopped goes on; HOLD writes OK (18 R470). -/
def resumeCtx (s : State) (c : Nat) : State :=
  modCtx s c fun x =>
    if x.state = .parked then
      match x.wait with
      | .hold d => { writeG x d 0 with state := .running, pc := x.pc + 4, wait := .none }
      | _ => { x with state := .running }
    else x

/-- What a freeze tells the member: a FABRIC trap to its context; a bare take moves to FAULTED with LAUNCH_FAULT
(12 R294, 02 R55). A context that a hold in flight had stopped goes on, to take the trap (R312). [DEDUCED, log 27] -/
def tellFreeze (s : State) (r : Nat) : State :=
  match getRegion s r with
  | none => s
  | some x =>
    match regionLaunch s x, x.ctx, x.frozen with
    | some (crew, slot), _, some f =>
      let s := copyLres s crew slot
      writeEvent (modLaunch s crew slot fun l => { l with state := lFAULTED, code := f.cause.setWidth 8 }) crew 0x03 slot
        f.cause.toNat (BitVec.ofNat 64 (originField r)) (BitVec.ofNat 64 (firstIndex s r x))
    | none, some c, some _ => queueTrap (resumeCtx s c) c tFABRIC (frzWord s r)
    | _, _, _ => s

/-- A region whose active context asks for SCENEFRZ freezes: the scene's other chips are told to freeze theirs (14 R353).
[DESIGN CHOICE, log 16] -/
def orderChips (s : State) (x : Region) (cause : BitVec 16) : State :=
  match activeCtx x, getScene s x.scene with
  | some a, some k => if a.scenefrz && k.xchip then tellChips s x.scene k pORDER cause.toNat else s
  | _, _ => s

/-- A fabric fault freezes a region and tells its member; a region that is frozen stays as it is. [DEDUCED, log 28] -/
def freezeRegion (s : State) (r : Nat) (cause : BitVec 16) (marks : List Mark) (value : Word) (replay : Bool) : State :=
  match getRegion s r with
  | none => s
  | some x =>
    if x.frozen.isSome then s
    else
      let t := orderChips (sendLates (freezeWith s r cause marks value replay) x.scene) x cause
      tellFreeze (startBallast t r x) r

/-! ## Ending a hold that cannot complete -/

/-- Take the hold markers out of a stage's channels. -/
def dropMarkers (g : Stage) : Stage :=
  let keep := fun (l : List Token) => l.filter fun t => !isHold t
  { g with
    bufs := (g.bufs.map fun (p : Nat × List Arrived) => (p.1, p.2.filter fun a => !isHold a.tok)).filter fun p => p.2 ≠ []
    units := g.units.map fun (p : Nat × UnitState) =>
      (p.1, { p.2 with a := keep p.2.a, b := keep p.2.b, c := keep p.2.c, cont := keep p.2.cont, marked := false
                       toks := if p.2.toks.any isHold then keep p.2.toks else p.2.toks
                       out := (p.2.out.map fun l => l.filter fun q => !isHold q.2).filter fun l => l ≠ [] })
    rslots := g.rslots.map fun (p : Nat × SlotState) => (p.1, { p.2 with held := false, started := false }) }

/-- A hold of a scene ends without a save (12 R312): markers leave the channels, and the contexts go on. [DEDUCED, log 27] -/
def cancelHold (s : State) (k : Nat) : State :=
  match getScene s k with
  | none => s
  | some x =>
    if !x.holding then s
    else
      let s := x.members.foldl (fun s m =>
        let s := match getRegion s m.region with
          | some y =>
            let s := setRegion s m.region { y with holding := false, heldUnits := [] }
            (regionStages m.region y).foldl (fun s i => modStage s i dropMarkers) s
          | none => s
        match m.ctx with | some c => resumeCtx s c | none => s) s
      modScene s k fun x => { x with
        holding := false
        saving := false
        areas := []
        members := x.members.map fun m =>
          { m with ports := m.ports.map fun (p : Nat × PortEnd) => (p.1, { p.2 with marked := false })
                   state := if m.state = .held then .running else m.state }
        circuits := x.circuits.map fun q => { q with marked := false, q := q.q.filter fun t => !isHold t } }

/-! ## The freeze wire -/

/-- Whether a unit belongs to a region. -/
def unitIn (r : Nat) (x : Region) (u : UnitRef) : Bool := (regionStages r x).contains u.stage

/-- FREEZE (12 R294): the marked units of this fc, and units whose buffers, latches, state registers or context stores read
uncorrectable (`soft`, R311), freeze the region; the cause is that of the lowest in drain-chain order. A carry that finds its
residue area full fails the hold, and SCENE_FAULT is written (R301). -/
def execFreeze (region : Nat) (soft : List UnitRef) (s : State) : Result State :=
  match getRegion s region with
  | none => .next s
  | some x =>
    let marks := sortMarks s region x (x.faults ++ ((soft.filter (unitIn region x)).map fun u => { unit := u, cause := fUECC }))
    match marks with
    | [] => .next s
    | m :: _ =>
      let full := marks.any (·.cause == fRESIDUE) && x.frozen.isNone
      let s := freezeRegion s region m.cause marks m.value m.replay
      .next (if full then sceneFault (cancelHold s x.scene) region fRESIDUE.toNat 0 else s)

/-- FREEZE_ORDER (14 R353): an order of a SCENEFRZ freeze reaches this region; an order from another chip's region may
reach a member of a cross-chip scene. -/
def execFreezeOrder (region : Nat) (cause : BitVec 16) (s : State) : Result State :=
  match getRegion s region with
  | none => .next s
  | some x =>
    match getScene s x.scene with
    | none => .next s
    | some k =>
      if k.orders.contains (region, cause) then
        .next (freezeRegion (setScene s x.scene { k with orders := k.orders.erase (region, cause) }) region cause [] 0 false)
      else if k.xchip then .next (freezeRegion s region cause [] 0 false)
      else .next s

/-! ## Commands on a frozen region (12 R295) -/

/-- Whether the stored tokens of a kind are discarded at a release. -/
def dropsStore (kind : Nat) : Bool := [3, 6, 8, 9, 10, 11, 12].contains kind

/-- Kinds whose cursors into their stored or head tokens go with the tokens: ISX, FLT, the matrix node, the gather unit. -/
def dropsCursor (kind : Nat) : Bool := [6, 8, 12, 14].contains kind

/-- A unit after a release: its tokens are gone, its state registers and scalar stores stay. -/
def releaseUnit (kind : Nat) (u : UnitState) : UnitState :=
  { u with
    a := [], b := [], c := [], cont := [], out := [], op := none, past := [], conts := 0, started := false, exhausted := false, slot := 0
    marked := false
    toks := if dropsStore kind then [] else u.toks
    toks2 := if dropsStore kind then [] else u.toks2
    n0 := if dropsCursor kind then 0 else u.n0
    n1 := if kind = 6 then 0 else u.n1
    n2 := if kind = 6 then 0 else u.n2 }

/-- A stage after a release: tokens, latches, buffers and ungranted accesses of its units are discarded, operator slots return
to their initial state. The writes that its port accepted still perform (09 R223), but for those that cannot. -/
def releaseStage (s : State) (x : Region) (g : Stage) : Stage :=
  { g with
    bufs := [], latches := [], rslots := [], reqs := g.reqs.filter fun q => 6 ≤ q.rank
    port := (g.port ++ acceptedWrites g).filter fun p => !eventStuck s p.2
    units := g.units.map fun (p : Nat × UnitState) => (p.1, releaseUnit (unitKind g x p.1) p.2) }

/-- The tile operation of the take's context is over. -/
def uncountTake (s : State) (x : Region) : State :=
  match x.takeCtx with
  | some c => modCtx s c fun y => { y with tiles := y.tiles - 1 }
  | none => s

/-- The ports of a member record the take that has ended (18 R467). -/
def closePorts (s : State) (x : Region) : State :=
  modMember s x.scene x.member fun m =>
    { m with ports := m.ports.map fun (p : Nat × PortEnd) => (p.1, { p.2 with lastMoved := p.2.moved, lastOvf := p.2.ovf }) }

/-- Cues that the region's units sent no longer count for its takes. -/
def orphanCues (s : State) (r : Nat) (x : Region) : State :=
  { s with eng := { s.eng with ops := s.eng.ops.map fun (p : Nat × Op) =>
      (p.1, if p.2.unit.isSome && (regionStages r x).contains p.2.stage then { p.2 with unit := none } else p.2) } }

/-- Whether a sink binding of the take overflowed. -/
def takeOverflow (s : State) (x : Region) : Bool :=
  match getMember s x.scene x.member, activeCtx x with
  | some m, some a => a.bindings.any fun b => match Sparse.find? m.ports b.port with | some p => p.ovf | none => false
  | _, _ => false

/-- Release a frozen region: its tokens are discarded and the take ends as FAULTED (12 R295). -/
def releaseRegion (s : State) (r : Nat) : State :=
  match getRegion s r with
  | none => s
  | some x =>
    if x.frozen.isNone then s
    else
      let s := cancelHold s x.scene
      let s := (regionStages r x).foldl (fun s i => modStage s i (releaseStage s x)) s
      let s := if x.phase = .idle then s else orphanCues (closePorts (uncountTake s x) x) r x
      modRegion s r fun y =>
        { y with
          frozen := none, faults := [], phase := .idle, load := none, takeCtx := none, pendOps := 0, holding := false
          heldUnits := [], sample := none, pacing := 0
          last := if x.phase = .idle then y.last else 0x35, lastOvf := if x.phase = .idle then y.lastOvf else takeOverflow s x }

/-- Why an access or a descriptor cannot be used. -/
inductive DescErr where
  /-- the key slot is changing: the read waits -/
  | wait
  /-- a fault with its cause and value -/
  | bad (cause : BitVec 16) (value : Word)
  deriving DecidableEq, Repr

/-- Lanes 2-3 of an XLATE error (12 R293). [DEDUCED, log 28] -/
def xlateValue (cause : BitVec 8) (va : Word) : Word := BitVec.ofNat 64 (va.toNat % 2 ^ 48 + cause.toNat * 2 ^ 48)

/-- The fault of a failed access of a fabric agent. -/
def accFault : AccErr → DescErr
  | .wait => .wait
  | .xlate c va => .bad fXLATE (xlateValue c va)
  | .uecc va => .bad fUECC (BitVec.ofNat 64 (va.toNat % 2 ^ 48))

/-- The translation of a global access is made afresh (R295); an access keeps its place in the port's order. One whose key slot is
changing keeps its translation. -/
def retranslate (s : State) (stage crew : Nat) (e : MemEvent) : Except DescErr MemEvent :=
  if e.array ≠ 3 then .ok e
  else
    match pieceOf s stage crew e.va 1 (if e.write then .write else .read) false with
    | .ok p => .ok { e with addr := p.pa, key := p.key, kind := p.kind }
    | .error a => match accFault a with | .wait => .ok e | d => .error d

/-- The accesses of a marked unit's operations, and its accepted writes, with their translations made afresh. -/
def retryUnit (s : State) (crew : Nat) (u : UnitRef) : Except DescErr State :=
  let fresh := retranslate s u.stage crew
  let v := getUnit s u.stage u.slot
  let redo := fun (m : MemOp) => (m.events.mapM fresh).map fun l => { m with events := l }
  let write := fun (p : Nat × MemEvent) => if p.1 = u.slot then (fresh p.2).map fun e => (p.1, e) else .ok p
  match v.past.mapM redo, v.op.toList.mapM redo, (getStage s u.stage).port.mapM write with
  | .ok past, .ok op, .ok port =>
    .ok (modStage (modUnit s u.stage u.slot fun v => { v with past, op := op.head? }) u.stage fun g => { g with port })
  | .error e, _, _ => .error e
  | _, .error e, _ => .error e
  | _, _, .error e => .error e

/-- A marked unit retries; one whose translation fails again is marked again, and the region freezes again (R312). -/
def retryMarked (r : Nat) (x : Region) (s : State) (u : UnitRef) : State :=
  if 13 ≤ u.slot then s
  else
    match retryUnit s x.crew u with
    | .ok s => s
    | .error (.bad cause v) => markFault s r u cause v true
    | .error .wait => s

/-- A drain that the freeze cut short starts again from its first row (16 R428). -/
def restartDrain (u : UnitState) : UnitState := if u.n0 = 1 then { u with out := [], n0 := 0 } else u

/-- The matrix node of a stage after a replay. -/
def restartDrains (x : Region) (g : Stage) : Stage :=
  if unitKind g x 8 = 12 then
    match Sparse.find? g.units 8 with
    | some u => { g with units := Sparse.insert g.units 8 (restartDrain u) }
    | none => g
  else g

/-- Replay a frozen region that may be replayed: every unit restarts, and the marked ones retry from their latched tokens. -/
def replayRegion (s : State) (r : Nat) : State :=
  match getRegion s r with
  | none => s
  | some x =>
    match x.frozen with
    | none => s
    | some f =>
      if !f.replay then s
      else
        let s := (regionStages r x).foldl (fun s i => modStage s i (restartDrains x)) s
        let s := modRegion s r fun y => { y with frozen := none, faults := [] }
        (f.marks.map (·.unit)).foldl (retryMarked r x) s

/-- Report a frozen region: the member becomes FROZEN, SCENE_FAULT is written and the context stops. A hold in flight ends: after a
report the scene is not pre-empted (R312). -/
def reportRegion (s : State) (r : Nat) : State :=
  match getRegion s r with
  | none => s
  | some x =>
    match x.frozen with
    | none => s
    | some f =>
      let s := modMember (cancelHold s x.scene) x.scene x.member fun m => { m with state := .frozen }
      let s := match x.ctx with
        | some c => modCtx (leaveBuffer s c) c fun y => { y with state := .halted, wait := .none, rushes := [], hint := none }
        | none => s
      sceneFault s r f.cause.toNat 0

/-- REGION_REPLAY, REGION_RELEASE and REGION_REPORT: the member's commands (12 R295); one that is not accepted is
ignored. A bare take has no context to send them. -/
def execRegionReplay (region : Nat) (s : State) : Result State := .next (replayRegion s region)
def execRegionRelease (region : Nat) (s : State) : Result State := .next (releaseRegion s region)
def execRegionReport (region : Nat) (s : State) : Result State := .next (reportRegion s region)

/-- Whether nothing that a member has begun is still to act on memory: its context's accesses, the writes its stream ports have
accepted, but for those that cannot perform, and the operations of its cues, but for those that may stand (05 R111). -/
def memberQuiet (s : State) (k : Nat) (m : Member) (stands : Op → Bool) : Bool :=
  (match m.ctx with | some c => allPerformed (getCtx s c) | none => true) &&
  match getRegion s m.region with
  | none => true
  | some x =>
    let st := regionStages m.region x
    st.all (fun i => ((getStage s i).port ++ acceptedWrites (getStage s i)).all fun p => eventStuck s p.2) &&
    s.eng.ops.all fun p => p.2.scene ≠ k || p.2.remote.isSome || !st.contains p.2.stage || stands p.2

/-- HOST_REGION_RELEASE (12 R295, 02 R60): DC_CMD RELEASE on a FROZEN member's region named by DC_SEL ends the member, once what
it has begun has acted on memory (05 R111). -/
def execHostRegionRelease (crew : Nat) (s : State) : Result State :=
  if !(getCrew s crew).en then .next s
  else
    match dcRegion s crew with
    | none => .next s
    | some r =>
      match getRegion s r with
      | none => .next s
      | some x =>
        match getMember s x.scene x.member with
        | some m =>
          .next (if m.state ≠ .frozen then s
            else if memberQuiet s x.scene m standsStill then endMember (cancelHold s x.scene) x.scene x.member
            else modMember (cancelHold s x.scene) x.scene x.member fun m => { m with release := true })
        | none => .next s

end Sys2Proof.Machine
end

