-- ==== Sys2Proof/Machine/Take.lean ====
section
/-! DEFINITION. Configuration loads, takes and wraps, and the director's take steps (07 R167-R176; 14 R344-R352;
18 R464-R469; 05 R100, R101). -/
namespace Sys2Proof.Machine

/-! ## Writing contexts (14 R344, R345) -/

/-- Whether a context is named in a mask. -/
def inMask (m c : Nat) : Bool := bits m c 1 == 1

/-- Empty the named contexts of a stage. -/
def emptyStage (m : Nat) (g : Stage) : Stage :=
  { g with cfg := g.cfg.filter fun p => !inMask m (p.1 / 16), rcfg := g.rcfg.filter fun p => !inMask m (p.1 / 16)
           routes := g.routes.filter fun r => !inMask m r.ctx }

/-- Empty the named contexts of a region. -/
def emptyContexts (s : State) (r : Nat) (x : Region) (m : Nat) : State :=
  let s := (regionStages r x).foldl (fun s i => modStage s i (emptyStage m)) s
  modRegion s r fun y => { y with loaded := y.loaded.filter fun p => !inMask m p.1 }

/-- The stage a word targets. -/
def wordStage (r : Nat) (w : RWord) : Nat := stageAt (r % 32 + w.dx) (r / 32 + w.dy)

/-- Apply one word to its target's context store. -/
def applyWord (s : State) (r : Nat) (ws : List RWord) (w : RWord) : State :=
  let st := wordStage r w
  match w.typ with
  | 1 => modStage s st fun g => { g with cfg := Sparse.insert g.cfg (16 * w.ctx + w.slot) (constsOf ws w) }
  | 3 => modStage s st fun g => { g with rcfg := Sparse.insert g.rcfg (16 * w.ctx + 4 * w.tile + w.oslot) w.w }
  | 4 => modStage s st fun g =>
      { g with routes := g.routes ++ [{ ctx := w.ctx, tile := w.tile, frm := realEnd ws w true, circ := w.circ,
                                        out := realEnd ws w false }] }
  | _ => s

/-- The port bindings of a context. -/
def bindingsOf (r : Nat) (ws : List RWord) (c : Nat) : List Binding :=
  (ws.filter fun w => w.typ == 5 && w.ctx == c).map fun w =>
    { port := w.port, dir := BitVec.ofNat 2 w.dir, endrank := w.endrank, alloc := w.alloc, circ := w.pcirc,
      stage := wordStage r w, tile := w.tile }

/-- What a region records of a written context. -/
def regCtxOf (r : Nat) (image hdr : Word) (ws : List RWord) (c : Nat) : RegCtx :=
  let wf := ws.find? fun w => w.typ == 6 && wbits w.w 58 2 == c
  { mapping := BitVec.ofNat 2 (wbits hdr 58 2), spine := BitVec.ofNat 3 (wbits hdr 55 3), iest := wbits hdr 40 12
    scenefrz := match wf with | some w => wbit w.w 57 | none => false
    frzerr := match wf with | some w => wbit w.w 56 | none => false
    bindings := bindingsOf r ws c, image }

/-- Apply a checked mapping's words to the contexts that the load writes, and mark those that it holds loaded. -/
def applyMapping (s : State) (r : Nat) (words : List Word) (m : Nat) : State :=
  let ws := indexWords 0 none words
  let s := (ws.filter fun w => w.targeted && inMask m w.ctx).foldl (fun s w => applyWord s r ws w) s
  let cs := (mapContexts ws).filter (inMask m)
  modRegion s r fun y => { y with
    loaded := cs.foldl (fun l c => Sparse.insert l c (regCtxOf r y.reel (words.getD 0 0) ws c)) y.loaded }

/-! ## Activation (07 R174, 14 R347) -/

/-- CLRQ of an element: state registers, flag word and internal stores clear; an ORD counter or expected tag starts at
k0[31:0] (15 R379, R396, R397). -/
def clearUnit (c : UnitCfg) (u : UnitState) : UnitState :=
  if !cfgClrq c || 12 ≤ cfgKind c then u
  else { u with q0 := {}, q1 := {}, q2 := {}, q3 := {}, flags := 0, toks := [], toks2 := [], entries := [], err := none,
                n0 := if cfgKind c = 9 then wbits c.k0 0 32 else 0, n1 := 0, n2 := 0, n3 := 0 }

/-- The state of a stage's units as context `c` becomes active. -/
def activateStage (c : Nat) (g : Stage) : Stage :=
  (List.range 13).foldl (fun g slot =>
    match Sparse.find? g.cfg (16 * c + slot) with
    | none => g
    | some k =>
      if cfgKind k = 12 then (if cfgClrq k then { g with acc := [] } else g)
      else if cfgClrq k then { g with units := Sparse.insert g.units slot (clearUnit k (Sparse.get {} g.units slot)) }
      else g) g

/-- Make a context active: its units that ask for it are cleared. -/
def activate (s : State) (r : Nat) (x : Region) (c : BitVec 2) : State :=
  let s := (regionStages r x).foldl (fun s i => modStage s i (activateStage c.toNat)) s
  modRegion s r fun y => { y with active := c }

/-! ## Loads (07 R167) -/

/-- A cluster. -/
def getCluster (s : State) (c : Nat) : Cluster := s.power.clusters.getD c {}

/-- The clusters that hold stages of a region. -/
def regionClusters (r : Nat) (x : Region) : List Nat := ((regionStages r x).map clusterOf).eraseDups

/-- Whether a region's clusters run at one level: a configuration load waits for it (R85). -/
def levelsAgree (s : State) (r : Nat) (x : Region) : Bool :=
  match regionClusters r x with
  | [] => true
  | c :: cs => cs.all fun k => (getCluster s k).level == (getCluster s c).level

/-- Answer a failed load: a take step returns the status, a bare take is rejected, an opening reel refuses its slate. A resumed region
whose reel no longer loads keeps the words it was held with. [DEDUCED, log 27] -/
def failLoad (s : State) (r : Nat) (l : LoadReq) (f : LoadFail) : State :=
  match getRegion s r with
  | none => s
  | some x =>
    match l.ctx with
    | some c =>
      let s := modRegion s r fun y => { y with load := none, phase := if l.act.isSome then .idle else y.phase }
      endTakeStep s c (BitVec.ofNat 64 (f.code + f.index % 2 ^ 24 * 2 ^ 16)) l.act.isSome
    | none => if l.resume then modRegion s r fun y => { y with load := none } else failPlacement s x.scene 0x06

/-- The algebra tables a take uses: those its scene holds as its load begins, slot 0 the reals (10 R252, R253). -/
def takeAlgs (s : State) (x : Region) : List (Nat × BitVec 128) :=
  match getScene s x.scene with
  | some k => Sparse.insert k.algs 0 algReals
  | none => [(0, algReals)]

/-- CONFIGURATION_LOAD (07 R167, 13 R323, R343, 14 R344): the image is read, each 64-byte block as one event, and checked with its
last block; on success the written contexts are emptied and their words begin to be written. The algebra tables and the mapping ceiling are those of this moment; a
region whose clusters move to one base level waits (04 R85). [DEDUCED, log 22] -/
def execConfigurationLoad (region : Nat) (s : State) : Result State :=
  match getRegion s region with
  | none => .next s
  | some x =>
    match x.load with
    | none => .next s
    | some l =>
      if l.words.isSome || x.frozen.isSome || !levelsAgree s region x then .next s
      else
        match nextBlock s (stageOfRaster region) x.crew l.image l.got with
        | .error none => .next s
        | .error (some f) => .next (failLoad s region l f)
        | .ok (.more bs) =>
          .next (modRegion (countBlock s (stageOfRaster region) x.crew l.image l.got) region fun y => { y with load := some { l with got := bs } })
        | .ok (.whole im) =>
          if im.w ≠ x.w || im.h ≠ x.h then .next (failLoad s region l { code := 0x0A })
          else
            match pickMapping im l.map.toNat (if l.resume then 3 else (s.power.crews.getD x.crew {}).ceiling) with
            | none => .next (failLoad s region l { code := 0x08 })
            | some (_, words) =>
              match checkWords words l.wmask.toNat x.w x.h with
              | some f => .next (failLoad s region l f)
              | none =>
                let s := emptyContexts (countBlock s (stageOfRaster region) x.crew l.image l.got) region x l.wmask.toNat
                .next (modRegion s region fun y => { y with load := some { l with words := some words, algs := takeAlgs s x }, reel := l.image })

/-- A port of the context to be started has a binding of the matching kind (18 R465, R467). -/
def portBound (m : Member) (b : Binding) : Bool :=
  match b.dir.toNat with
  | 0 => match Sparse.find? m.ports b.port with | some p => p.kind = 1 || p.kind = 2 | none => false
  | 1 => match Sparse.find? m.ports b.port with | some p => p.kind = 3 | none => false
  | _ => true

/-- Whether every DIR 0 and DIR 1 port of a context is bound; an opening reel's ports have no bindings yet. [DEDUCED, log 22] -/
def portsBound (s : State) (x : Region) (c : BitVec 2) : Bool :=
  match getMember s x.scene x.member, Sparse.find? x.loaded c.toNat with
  | some m, some a => a.bindings.all (portBound m)
  | _, _ => false

/-- A rise joins those that wait for the rail budget (04 R92). -/
def waitRise (s : State) (k : Rise) : State :=
  if s.power.waits.any fun w => w.rise == k then s
  else { s with power := { s.power with waits := s.power.waits ++ [{ rise := k }] } }

/-- A region's start is paced from 15 on, behind the starts that finished their waves earlier (04 R92). -/
def startPacing (s : State) (r : Nat) : State :=
  waitRise { s with power := { s.power with waits := s.power.waits.filter fun w => w.rise ≠ Rise.pace r } } (.pace r)

/-- The context to be started is made active and the wave runs: pacing begins at 15 (04 R92). -/
def waveTake (s : State) (r : Nat) (x : Region) (l : LoadReq) (c : BitVec 2) : State :=
  let s := if c ≠ x.active || inMask l.wmask.toNat c.toNat then activate s r x c else s
  startPacing (modRegion s r fun y => { y with phase := .waved, sheet := l.sheet, descs := [], pacing := 15 }) r

/-- The mapping a context records, of the words just written. -/
def recordMapping (s : State) (c : Nat) (words : List Word) : State :=
  match words with
  | [] => s
  | w :: _ => modCtx s c fun y => { y with mapLast := BitVec.ofNat 2 (wbits w 58 2) }

/-- CONFIGURATION_COMPLETE_WAVE (07 R167, R174): every word of the load is written. A load without a start ends there; one
that starts a context fails with NOCTX or BADBIND, or makes it active and reports the wave. -/
def execConfigurationCompleteWave (region : Nat) (s : State) : Result State :=
  match getRegion s region with
  | none => .next s
  | some x =>
    match x.load, x.phase with
    | some l, ph =>
      match l.words with
      | none => .next s
      | some words =>
        if ph == .waved || x.frozen.isSome then .next s
        else
          let s := applyMapping s region words l.wmask.toNat
          let s := match l.ctx with | some c => recordMapping s c words | none => s
          match getRegion s region with
          | none => .next s
          | some x =>
            match l.act with
            | none =>
              let s := if !l.resume && inMask l.wmask.toNat x.active.toNat && (Sparse.find? x.loaded x.active.toNat).isSome then
                  activate s region x x.active else s
              let s := modRegion s region fun y => { y with load := none }
              .next (match l.ctx with | some c => endTakeStep s c 0 false | none => s)
            | some c =>
              if (Sparse.find? x.loaded c.toNat).isNone then .next (failLoad s region l { code := 0x30 })
              else if l.ctx.isSome && !portsBound s x c then .next (failLoad s region l { code := 0x33 })
              else .next (waveTake (modRegion s region fun y => { y with algs := l.algs }) region x l c)
    | none, _ => .next s

/-! ## Start (07 R168) -/

/-- A marked source receives its start token; one that forwards it sends it ahead of every other token, an element with the
continuity token that goes with each token on output 0 (15 R376). -/
def startUnit (c : UnitCfg) (u : UnitState) : UnitState :=
  if !cfgSrc c then u
  else { u with started := true, exhausted := false, slot := 0, marked := false, n0 := 0
                out := if !cfgFwdst c then u.out
                       else u.out ++ [if cfgKind c < 12 then finishGroup c [(0, startTok)] else [(0, startTok)]] }

/-- Start the marked sources of a stage, with every operator slot in its initial state (14 R357). An ELB counts from the start on
(15 R398). -/
def startStage (x : Region) (g : Stage) : Stage :=
  let g := { g with rslots := []
                    units := g.units.map fun (p : Nat × UnitState) => if unitKind g x p.1 = 10 then (p.1, { p.2 with n3 := x.fc }) else p }
  (List.range 13).foldl (fun g slot =>
    match unitCfg g x slot with
    | none => g
    | some c =>
      if cfgSrc c then { g with units := Sparse.insert g.units slot (startUnit c (Sparse.get {} g.units slot)) } else g) g

/-- A port's outside end at the start of a take: memory bindings are armed again (18 R467). -/
def armPort (p : PortEnd) : PortEnd := { p with moved := 0, ended := false, slot := 0, marked := false, ovf := false }

/-- Token buffers a port has given to circuits that arrive through it (01 R31). -/
def givenBuffers (s : State) (p : Nat) : Nat := ((getChipPort s p).circuits.map (·.alloc)).sum

/-- The receiver of a circuit that arrives through a chip port grants what its allocation adds to the credit it has given, as
far as the port's 8,192 buffers reach (01 R31). [DEDUCED, log 15] -/
def grantCredit (s : State) (scene n : Nat) (q : SceneCircuit) : State :=
  match q.via with
  | none => s
  | some (p, circ) =>
    let given := match (getChipPort s p).circuits.find? (·.circ == circ) with | some c => c.alloc | none => 0
    let more := min (q.alloc - given) (8192 - givenBuffers s p)
    if q.outward || more = 0 then s
    else
      modPortCircuit (sendControl s p (creditEntries (bufferType s scene n) circ more) false) p circ fun c =>
        { c with alloc := given + more }

/-- The credits of every circuit that arrives at a member. -/
def grantCredits (s : State) (scene member : Nat) : State :=
  match getScene s scene with
  | some k => (k.circuits.zipIdx.filter fun (q : SceneCircuit × Nat) => q.1.dmem == member).foldl
      (fun s (q : SceneCircuit × Nat) => grantCredit s scene q.2 q.1) s
  | none => s

/-- Start a region's sources and ports. -/
def startSources (s : State) (r : Nat) (x : Region) : State :=
  let s := (regionStages r x).foldl (fun s i => modStage s i (startStage x)) s
  let used := match activeCtx x with | some a => a.bindings | none => []
  modScene s x.scene fun k => { k with
    members := modAt k.members x.member fun m => { m with
      ports := m.ports.map fun (p : Nat × PortEnd) => (p.1, if used.any fun b => b.port = p.1 then armPort p.2 else { p.2 with moved := 0, ovf := false }) }
    circuits := k.circuits.map fun q =>
      match used.find? fun b => b.dir == 2 && b.port == q.dport with
      | some b => if q.dmem = x.member then { q with exhausted := false, marked := false, slot := 0, alloc := b.alloc } else q
      | none => q }

/-- The answer to a start: a take step returns OK, a bare take is RUNNING with LAUNCH_READY. -/
def answerStart (s : State) (x : Region) (l : LoadReq) : State :=
  match l.ctx with
  | some c => endTakeStep s c 0 false
  | none =>
    match regionLaunch s x with
    | some (crew, slot) =>
      writeEvent (modLaunch s crew slot fun q => { q with state := lRUNNING, began := s.timecode }) crew 0x01 slot 0 0 0
    | none => s

/-- The start of a take whose wave has reached the root: every source starts. -/
def startTake (s : State) (r : Nat) (x : Region) (l : LoadReq) : State :=
  let s := grantCredits (startSources s r x) x.scene x.member
  let f := fun (p : Nat × Adder) =>
    if p.2.scene = x.scene && (match getCircuit s x.scene p.2.locl with | some q => q.smem == x.member | none => false) then
      (p.1, { p.2 with paired := false }) else p
  let s := { s with eng := { s.eng with adders := s.eng.adders.map f } }
  let s := modRegion s r fun y =>
    { y with phase := .started, load := none, takeCtx := l.ctx, pendOps := 0, sample := none, began := now s
             early := match getScene s x.scene with | some k => k.wanted | none => false }
  answerStart s x l

/-- START_INJECTION (07 R168): D fc after the wave every source receives its start token. The start of an opening reel or a
launch waits for the scene's start tick (05 R102, R108). -/
def execStartInjection (region : Nat) (s : State) : Result State :=
  match getRegion s region with
  | none => .next s
  | some x =>
    match x.load, x.phase with
    | some l, .waved =>
      if x.frozen.isSome || l.ctx.isNone then .next s
      else .next (startTake s region x l)
    | _, _ => .next s

/-! ## Wrap (07 R170, R171) -/

/-- Whether a stage's units are idle, with no access or buffered write of a memory node left. -/
def stageIdle (g : Stage) : Bool :=
  g.comb.isEmpty && g.port.isEmpty && g.reqs.all (6 ≤ ·.rank) &&
  g.units.all fun (p : Nat × UnitState) => p.2.out.isEmpty && (nodeOps p.2).isEmpty && p.2.conts == 0

/-- The four conditions of wrap. [DEDUCED, log 23] -/
def canWrap (s : State) (r : Nat) (x : Region) : Bool :=
  regionLive x && !x.holding && x.faults.isEmpty && (regionStages r x).all (fun i => stageIdle (getStage s i)) &&
  tokenCount s r x == 0 && allExhausted s r x && x.pendOps == 0

/-- Slack control at a wrap (04 R96). While SLACK_LO is not below SLACK_HI a sample has no sign and ends the run.
[DESIGN CHOICE, log 37] -/
def slackStep (s : State) (x : Region) : Region :=
  if s.power.mode = 2 then { x with slack := 0, slackRun := 0, slackHold := 0, sample := none }
  else
    let lo := s.power.slackLo.toNat
    let hi := s.power.slackHi.toNat
    let hold := x.slackHold - 1
    match x.sample with
    | none => { x with slackHold := hold }
    | some v =>
      let run : Int :=
        if (hi : Int) < v then (if 0 < x.slackRun then x.slackRun + 1 else 1)
        else if v < (lo : Int) then (if x.slackRun < 0 then x.slackRun - 1 else -1)
        else 0
      if hi ≤ lo then { x with slackRun := 0, slackHold := hold, sample := none }
      else if hold = 0 && 2 ≤ run then
        { x with slack := min 15 (x.slack + 1), slackRun := 0, slackHold := if x.slack < 15 then 4 else 0, sample := none }
      else if hold = 0 && run ≤ -2 then
        { x with slack := x.slack - 1, slackRun := 0, slackHold := if 0 < x.slack then 4 else 0, sample := none }
      else { x with slackRun := run, slackHold := hold, sample := none }

/-- The stage with the bubbles that are left in its channels discarded. [DEDUCED, log 23] -/
def dropBubbles (g : Stage) : Stage :=
  let keep := fun (l : List Token) => l.filter fun t => !isBubble t
  { g with
    bufs := []
    units := g.units.map fun (p : Nat × UnitState) =>
      (p.1, { p.2 with a := keep p.2.a, b := keep p.2.b, c := keep p.2.c, cont := keep p.2.cont }) }

/-- The wrap of a region's take. [DEDUCED, log 23] -/
def wrapTake (s : State) (r : Nat) (x : Region) : State :=
  let s := (regionStages r x).foldl (fun s i => modStage s i dropBubbles) s
  let ovf := takeOverflow s x
  let s := closePorts (uncountTake s x) x
  let s := modRegion s r fun y =>
    { (slackStep s y) with phase := .idle, takeCtx := none, last := 0, lastOvf := ovf, pacing := 0 }
  let s := startBallast s r x
  match regionLaunch s x with
  | some (crew, slot) => finishLaunch s x.scene crew slot
  | none => s

/-- WRAP_SAMPLE (07 R170): a sample that meets the four conditions ends the take. -/
def execWrapSample (region : Nat) (s : State) : Result State :=
  match getRegion s region with
  | none => .next s
  | some x => .next (if canWrap s region x then wrapTake s region x else s)

/-! ## Take steps (18 R464-R469) -/

/-- The member's region. -/
def curRegion (s : State) : Option (Nat × Region) :=
  match ctxRegion s s.cur with
  | some r => (getRegion s r).map fun x => (r, x)
  | none => none

/-- BADADDR (18 R464). -/
def badAddr (a : Word) : Bool := wbits a 0 6 ≠ 0 || wbits a 48 16 ≠ 0

/-- Whether a take is in progress on the region (05 R100). -/
def takeInProgress (x : Region) : Bool := x.phase != .idle

/-- Ask for a load; the take step waits for its answer. -/
def requestLoad (s : State) (r : Nat) (l : LoadReq) (d : BitVec 5) : State :=
  let s := modRegion s r fun y => { y with load := some { l with algs := takeAlgs s y }, phase := if l.act.isSome then .loading else y.phase }
  modCur s fun x =>
    if l.act.isSome then { x with wait := .take d, tiles := x.tiles + 1 } else { x with wait := .ctxLoad d }

/-- Run a take step: none issues before an acquire-marked cue of its context has retired (09 R224). -/
def takeStep (s : State) (rs : List (BitVec 5)) (k : Ctx → State) : Result State :=
  withRegs s rs fun x => if x.acq.isSome then stallCur s else k x

/-- TAKE (18 R465). The tile-operation counter holds at most 63 (R481): a take that would pass it waits. -/
def execTake (d a : BitVec 5) (act : BitVec 2) (wmask : BitVec 4) (map : BitVec 2) (s : State) : Result State :=
  takeStep s [a, d] fun x =>
    if wmask ≠ 0 && badAddr (readG x a) then retire s d 0x31
    else
      match curRegion s with
      | none => stallCur s
      | some (r, y) =>
        if y.frozen.isSome then retire s d 0x34
        else
          let s := leaveBuffer s s.cur
          if takeInProgress y || y.load.isSome || !x.stores.isEmpty || 63 ≤ x.tiles then stallStep s d
          else
            requestLoad s r { image := readG x a, map, wmask, act := some act, ctx := some s.cur, sheet := x.sheet,
                              words := if wmask = 0 then some [] else none } d

/-- CTX (18 R466): loads contexts without a start; WMASK 0 is ILLEGAL. -/
def execCtx (d a : BitVec 5) (wmask : BitVec 4) (map : BitVec 2) (s : State) : Result State :=
  takeStep s [a, d] fun x =>
    if wmask = 0 then illegal s (.ctx d a wmask map)
    else if badAddr (readG x a) then retire s d 0x31
    else
      match curRegion s with
      | none => stallCur s
      | some (r, y) =>
        if y.frozen.isSome then retire s d 0x34
        else
          let s := leaveBuffer s s.cur
          if (takeInProgress y && wmask.getLsbD y.active.toNat) || y.load.isSome || !x.stores.isEmpty then stallStep s d
          else requestLoad s r { image := readG x a, map, wmask, act := none, ctx := some s.cur, sheet := x.sheet } d

/-- Whether the take in progress uses a reel port. -/
def portInUse (x : Region) (port : Nat) : Bool :=
  takeInProgress x && match activeCtx x with | some a => a.bindings.any fun b => b.port = port && b.dir.toNat < 2 | none => false

/-- BIND of KIND 0 to 2: FROZEN, BADADDR, BADBIND, in this order; the wait for the wrap, and then the binding.
[DESIGN CHOICE, log 37] -/
def opBind (d : BitVec 5) (port : Nat) (bad : Bool) (p : PortEnd) (s : State) : State :=
  match curRegion s with
  | none => stallCur s
  | some (_, y) =>
    if y.frozen.isSome then retire s d 0x34
    else if wbits p.addr 0 6 ≠ 0 || wbits p.addr 48 16 ≠ 0 then retire s d 0x31
    else if bad then retire s d 0x33
    else if portInUse y port then stallStep s d
    else retire (modPort s (curCtx s).scene (curCtx s).member port fun _ => p) d 0

/-- BIND of a memory source (18 R467, KIND 0). -/
def execBindSource (d a b : BitVec 5) (port : BitVec 8) (s : State) : Result State :=
  takeStep s [a, b, d] fun x =>
    let v := readG x b
    opBind d port.toNat (wbits v 36 28 ≠ 0 || 4 < wbits v 32 4)
      { kind := 2, addr := readG x a, count := wbits v 0 32, endcut := wbits v 32 4 } s

/-- BIND of a memory sink (KIND 1). -/
def execBindSink (d a b : BitVec 5) (port : BitVec 8) (s : State) : Result State :=
  takeStep s [a, b, d] fun x =>
    let v := readG x b
    opBind d port.toNat (wbits v 32 32 ≠ 0) { kind := 3, addr := readG x a, count := wbits v 0 32 } s

/-- BIND of a seed port (KIND 2): an empty FIFO that is not exhausted. -/
def execBindSeed (d : BitVec 5) (port : BitVec 8) (s : State) : Result State :=
  takeStep s [d] fun _ => opBind d port.toNat false { kind := 1 } s

/-- BIND as a query (KIND 3): tokens moved and SINKOVF of the port's binding in the last take that ended; FROZEN on a frozen
region, as every BIND (R464). -/
def execBindQuery (d : BitVec 5) (port : BitVec 8) (s : State) : Result State :=
  takeStep s [d] fun x =>
    match curRegion s with
    | none => stallCur s
    | some (_, y) =>
      if y.frozen.isSome then retire s d 0x34
      else
        match getPort s x.scene x.member port.toNat with
        | some p => retire s d (BitVec.ofNat 64 (p.lastMoved % 2 ^ 32 * 2 ^ 16 + (if p.lastOvf then 256 else 0)))
        | none => retire s d 0

/-- Whether a committed token's TAG is refused: BADTAG (02 R57, 18 R468). -/
def badSeedTag (t : Nat) : Bool := t = 5 || t = 6 || 8 ≤ t

/-- The token of a commit word, every masked-off lane zeroed (02 R56, 07 R158). -/
def seedToken (w : Word) (b : Block) : Token :=
  cleanTok { tag := BitVec.ofNat 4 (wbits w 16 4), mask := BitVec.ofNat 16 (wbits w 0 16), data := b }

/-- A commit's effect on a seed FIFO. -/
def commitSeed (p : PortEnd) (w : Word) (b : Block) : PortEnd :=
  { p with fifo := if wbit w 62 then p.fifo else p.fifo ++ [seedToken w b], exhausted := p.exhausted || wbit w 63 }

/-- SEED (18 R468): the checks in the order NOSEED, LATE, BADTAG, then the wait for a place. -/
def execSeed (d a b : BitVec 5) (port : BitVec 8) (s : State) : Result State :=
  takeStep s [a, b, d] fun x =>
    let va := readG x a
    match privTrap s va 64 with
    | some t => t
    | none =>
      match curRegion s with
      | none => stallCur s
      | some (_, y) =>
        if y.frozen.isSome then retire s d 0x34
        else
          match getPort s x.scene x.member port.toNat with
          | none => retire s d 0x3A
          | some p =>
            if p.kind ≠ 1 then retire s d 0x3A
            else if p.exhausted then retire s d 0x38
            else if badSeedTag (wbits (readG x b) 16 4) then retire s d 0x39
            else if (List.range 8).any fun k => x.privBad.contains (va.toNat / 8 + k) then preciseTrap s tUECC 0 va
            else if 64 ≤ p.fifo.length then stallStep s d
            else
              retire (modPort s x.scene x.member port.toNat fun p =>
                commitSeed p (readG x b) (blockOf (privBytes x va.toNat 64))) d 0

/-- WRAPW (18 R469): waits until no take is in progress, and writes the last take's outcome. -/
def execWrapw (d : BitVec 5) (s : State) : Result State :=
  takeStep s [d] fun _ =>
    match curRegion s with
    | none => stallCur s
    | some (_, y) =>
      let s := leaveBuffer s s.cur
      if takeInProgress y then stallCur s
      else
        retire (modCur s freeRushes) d (BitVec.ofNat 64 (y.last.toNat + (if y.lastOvf then 256 else 0)))

end Sys2Proof.Machine
end

