-- ==== Sys2Proof/Machine/RouterOps.lean ====
section
/-! DEFINITION. The eight router operators (14 R355-R371). -/
namespace Sys2Proof.Machine

/-! ## Pairing (07 R165) -/

/-- The error token with cause CUTSKEW that a unit emits. -/
def skewTok (u : UnitRef) : Token := errorToken fCUTSKEW (unitOrigin u) 0

/-- Two paired heads: what is consumed, and the token emitted; none where both are data and the operation's result goes
out. -/
structure Paired where
  ca  : Bool
  cb  : Bool
  tok : Option Token
  deriving DecidableEq, Repr

/-- R165 for two inputs. -/
def pair2 (u : UnitRef) (a b : Token) : Paired :=
  if isErr a then ⟨true, true, some a⟩
  else if isErr b then ⟨true, true, some b⟩
  else if isCut a && isCut b then
    ⟨cutRank a ≤ cutRank b, cutRank b ≤ cutRank a, some (cutTok (min (cutRank a) (cutRank b)))⟩
  else if isCut a then ⟨false, true, some (skewTok u)⟩
  else if isCut b then ⟨true, false, some (skewTok u)⟩
  else ⟨true, true, none⟩

/-- R165 for three inputs: a with b, and their outcome with c. -/
def pair3 (u : UnitRef) (a b c : Token) : Bool × Bool × Bool × Option Token :=
  let p := pair2 u a b
  let o := p.tok.getD (fullTok 0)
  let q := pair2 u o c
  (p.ca && q.ca, p.cb && q.ca, q.cb, if p.tok.isNone && q.tok.isNone then none else q.tok)

/-! ## Firing (14 R355, R356) -/

/-- What a firing consumes, sends, and leaves. -/
structure SlotFire where
  eat   : List Nat
  sends : List (Nat × Token)
  st    : SlotState
  deriving DecidableEq, Repr

/-- Heads of an operator slot's inputs; a hold marker and a bubble are no heads for the rule. -/
structure SlotHeads where
  i0 : Option Arrived := none
  i1 : Option Arrived := none
  i2 : Option Arrived := none
  i3 : Option Arrived := none
  deriving DecidableEq, Repr

/-- The head at a port. -/
def SlotHeads.get (h : SlotHeads) (p : Nat) : Option Arrived :=
  match p with | 0 => h.i0 | 1 => h.i1 | 2 => h.i2 | _ => h.i3

/-- The head token at a port. -/
def SlotHeads.tok (h : SlotHeads) (p : Nat) : Option Token := (h.get p).map (·.tok)

/-- The buffer head of an operator slot's input. -/
def slotHead (g : Stage) (x : Region) (tile oslot p : Nat) : Option Arrived :=
  match inKey g x tile (slotEnd oslot p) with
  | some k => headBuf g k
  | none => none

/-- A head that the rule may see: neither a hold marker nor a bubble. -/
def ruleHead (a : Option Arrived) : Option Arrived := a.filter fun h => !isHold h.tok && !isBubble h.tok

/-- The heads of all four inputs as the rule sees them. -/
def slotHeads (g : Stage) (x : Region) (tile oslot : Nat) : SlotHeads :=
  { i0 := ruleHead (slotHead g x tile oslot 0), i1 := ruleHead (slotHead g x tile oslot 1)
    i2 := ruleHead (slotHead g x tile oslot 2), i3 := ruleHead (slotHead g x tile oslot 3) }

/-- A head that an operator does not accept (07 R162, 14 R356). -/
def slotTagFault (rop : Nat) (t : Token) : Bool :=
  isReserved t || (isStart t && rop ≠ 0 && rop ≠ 5) || (isCont t && rop ≠ 0 && rop ≠ 5 && rop ≠ 6)

/-- Discard the bubbles that have reached an operator slot's inputs. -/
def dropSlotBubbles (s : State) (x : Region) (stage tile oslot : Nat) : State :=
  (List.range 4).foldl (fun s p =>
    match inKey (getStage s stage) x tile (slotEnd oslot p) with
    | some k => match headBuf (getStage s stage) k with
      | some h => if isBubble h.tok then popBuf s stage k else s
      | none => s
    | none => s) s

/-- Whether every output a firing writes has credit. -/
def sendsRoom (g : Stage) (x : Region) (tile oslot : Nat) (l : List (Nat × Token)) : Bool :=
  l.all fun q => match outKey g x tile (slotEnd oslot q.1) with
    | some k => hasRoom g k q.2
    | none => true

/-- Perform a firing. -/
def applyFire (s : State) (x : Region) (stage tile oslot : Nat) (f : SlotFire) : State :=
  let s := f.eat.foldl (fun s p =>
    match inKey (getStage s stage) x tile (slotEnd oslot p) with
    | some k => popBuf s stage k
    | none => s) s
  let s := f.sends.foldl (fun s q =>
    match outKey (getStage s stage) x tile (slotEnd oslot q.1) with
    | some k => pushBuf s stage k q.2 x.fc
    | none => s) s
  modSlot s stage tile oslot fun _ => f.st

/-- The reference of an operator slot. -/
def slotRef (stage tile oslot : Nat) : UnitRef := { stage, slot := 16 + 4 * tile + oslot }

/-- One fc of an operator slot: it is live, holds this operator, and is not held; bubbles are discarded, a tag it does not
accept is a fault, and its rule fires where every output has credit. -/
def runSlot (rop : Nat) (rule : Nat → SlotHeads → SlotState → Option SlotFire) (stage tile oslot : Nat) (s : State) : State :=
  match regionOf s stage with
  | none => s
  | some (r, x) =>
    let g := getStage s stage
    let st := getSlot s stage tile oslot
    if !regionLive x || slotRop g x tile oslot ≠ rop || st.held || 4 ≤ tile || 4 ≤ oslot then s
    else
      let s := dropSlotBubbles s x stage tile oslot
      let g := getStage s stage
      let h := slotHeads g x tile oslot
      if (List.range 4).any fun p => match h.tok p with | some t => slotTagFault rop t | none => false then
        markFault s r (slotRef stage tile oslot) fTOKTAG 0 false
      else
        match rule ((slotWord g x tile oslot).getD 0).toNat h st with
        | some f => if sendsRoom g x tile oslot f.sends then applyFire s x stage tile oslot f else s
        | none => s

/-- MOD of a router slot word. -/
def ropMod (w : Nat) : Nat := bits w 49 5
/-- PARAM of a router slot word. -/
def ropParam (w : Nat) : Nat := bits w 17 32

/-- The control value of a token (R358). -/
def controlValue (w : Nat) (t : Token) : Nat :=
  let l := ropMod w / 2
  (if t.mask.getLsbD l then lane t.data l % 2 else 0) ^^^ (ropMod w % 2)

/-- Data or error. -/
def isVal (t : Token) : Bool := isData t || isErr t

/-! ## pass, steer, merge (R361-R363) -/

/-- PASS. -/
def rulePass (_ : Nat) (h : SlotHeads) (st : SlotState) : Option SlotFire :=
  (h.tok 0).map fun t => { eat := [0], sends := [(0, t)], st }

/-- STEER. -/
def ruleSteer (u : UnitRef) (w : Nat) (h : SlotHeads) (st : SlotState) : Option SlotFire :=
  match h.tok 0, h.tok 2 with
  | some d, some c =>
    if isVal d && isData c then some { eat := [0, 2], sends := [(controlValue w c, d)], st }
    else if isErr c then
      let e := if isErr d then d else c
      some { eat := if isCut d then [2] else [0, 2], sends := [(0, e), (1, e)], st }
    else if isCut d && isCut c then
      let rk := min (cutRank d) (cutRank c)
      some { eat := (if cutRank d = rk then [0] else []) ++ (if cutRank c = rk then [2] else []),
             sends := [(0, cutTok rk), (1, cutTok rk)], st }
    else
      let e := skewTok u
      some { eat := if isCut d then [2] else [0], sends := [(0, e), (1, e)], st }
  | _, _ => none

/-- MERGE. -/
def ruleMerge (u : UnitRef) (w : Nat) (h : SlotHeads) (st : SlotState) : Option SlotFire :=
  match h.tok 2 with
  | none => none
  | some c =>
    if isData c then
      let k := controlValue w c
      match h.tok k with
      | none => none
      | some d =>
        if isVal d then some { eat := [k, 2], sends := [(0, d)], st }
        else some { eat := [2], sends := [(0, skewTok u)], st }
    else
      match h.tok 0, h.tok 1 with
      | some a, some b =>
        if isErr c then some { eat := [0, 1, 2], sends := [(0, c)], st }
        else if isCut a && isCut b then
          let rk := min (min (cutRank a) (cutRank b)) (cutRank c)
          some { eat := (if cutRank a = rk then [0] else []) ++ (if cutRank b = rk then [1] else []) ++
                   (if cutRank c = rk then [2] else []), sends := [(0, cutTok rk)], st }
        else
          let e := if isErr a then a else if isErr b then b else skewTok u
          if isErr a || isErr b then some { eat := [0, 1, 2], sends := [(0, e)], st }
          else some { eat := (if isCut a then [] else [0]) ++ (if isCut b then [] else [1]), sends := [(0, e)], st }
      | _, _ => none

/-! ## carry, invar (R365-R367) -/

/-- CARRY: residue of a hold stands ahead of the feedback input (12 R303). While the slot collects residue (`started`), each
feedback token joins it (12 R300). -/
def ruleCarry (w : Nat) (h : SlotHeads) (st : SlotState) : Option SlotFire :=
  let endRank := ropMod w % 8
  if st.started then (h.tok 1).map fun t => { eat := [1], sends := [], st := { st with residue := st.residue ++ [t] } }
  else if !st.phase then
    match h.tok 0 with
    | some i =>
      if isCut i then some { eat := [0], sends := [(0, i)], st }
      else some { eat := [0], sends := [(0, i)], st := { st with phase := true } }
    | none => none
  else
    let fb := fun (f : Token) (eat : List Nat) (st : SlotState) =>
      if isVal f || cutRank f < endRank then some { eat, sends := [(0, f)], st : SlotFire }
      else some { eat, sends := [], st := { st with phase := false } }
    match st.residue with
    | f :: rest => fb f [] { st with residue := rest }
    | [] => match h.tok 1 with
      | some f => fb f [1] st
      | none => none

/-- INVAR: the held value is the one stored token. -/
def ruleInvar (w : Nat) (h : SlotHeads) (st : SlotState) : Option SlotFire :=
  let endRank := ropMod w % 8
  match st.toks with
  | [] =>
    match h.tok 0 with
    | some v =>
      if isCut v then some { eat := [0], sends := [(0, v)], st }
      else some { eat := [0], sends := [], st := { st with phase := true, toks := [v] } }
    | none => none
  | v :: _ =>
    match h.tok 1 with
    | some t =>
      if isErr t then some { eat := [1], sends := [(0, t)], st }
      else if isCut t then
        some { eat := [1], sends := [(0, t)], st := if endRank ≤ cutRank t then { st with phase := false, toks := [] } else st }
      else some { eat := [1], sends := [(0, v)], st }
    | none => none

/-! ## fork, join, permit (R368-R371) -/

/-- The greatest of a list. -/
def maxOf (l : List Nat) : Nat := l.foldl max 0

/-- FORK: take a token where the store and every window allow it, then send each output its oldest owed copy where it has
credit, and free what every output has been sent. `credit b t` says that output `b` can take `t`. -/
def ruleFork (outs : List Nat) (credit : Nat → Token → Bool) (w : Nat) (h : SlotHeads) (st : SlotState) : Option SlotFire :=
  let windows := outs.all fun b => st.lags.getD b 0 ≤ bits (ropParam w) (4 * b) 4
  let taken := match h.tok 0 with
    | some t => if st.toks.length < 16 && windows then some t else none
    | none => none
  let toks := st.toks ++ taken.toList
  let lags := (List.range 4).map fun b =>
    if outs.contains b then st.lags.getD b 0 + taken.toList.length else 0
  let sends := outs.filterMap fun b =>
    let l := lags.getD b 0
    if l = 0 then none
    else match toks[toks.length - l]? with
      | some t => if credit b t then some (b, t) else none
      | none => none
  let lags' := (List.range 4).map fun b => lags.getD b 0 - (if sends.any (·.1 == b) then 1 else 0)
  if taken.isNone && sends.isEmpty then none
  else some { eat := if taken.isSome then [0] else [], sends,
              st := { st with toks := toks.drop (toks.length - maxOf lags'), lags := lags' } }

/-- JOIN: every routed input holds a head; the first error in port order stands in place of input 0's token. -/
def ruleJoin (ins : List Nat) (_ : Nat) (h : SlotHeads) (st : SlotState) : Option SlotFire :=
  let ts := ins.filterMap h.tok
  if ts.length ≠ ins.length then none
  else
    match ts with
    | [] => none
    | t :: _ => some { eat := ins, sends := [(0, (ts.find? isErr).getD t)], st }

/-- The routed request whose head arrived earliest, ties to the lower port. -/
def earliestRequest (h : SlotHeads) : List Nat → Option Nat
  | [] => none
  | k :: ks =>
    match h.get k, earliestRequest h ks with
    | some a, some j => match h.get j with
      | some b => if a.at_ ≤ b.at_ then some k else some j
      | none => some k
    | some _, none => some k
    | none, r => r

/-- PERMIT: a data or error token at input 3 is the permit. -/
def rulePermit (_ : Nat) (h : SlotHeads) (st : SlotState) : Option SlotFire :=
  match earliestRequest h [0, 1, 2] with
  | none => none
  | some k =>
    match h.tok k with
    | none => none
    | some q =>
      if isCut q then some { eat := [k], sends := [(k, q)], st }
      else
        match h.tok 3 with
        | some p => if isVal p then some { eat := [k, 3], sends := [(k, if isErr p then p else q)], st } else none
        | none => none

/-- Permit misuse (R371): a cut at input 3's head, the bubbles before it discarded, or a token that has entered its buffer behind
MAXP data or error tokens. Hold markers, which have a place of their own (12 R298), and bubbles are no such tokens.
[DEDUCED, log 28] -/
def permitMisuse (g : Stage) (x : Region) (tile oslot : Nat) : Bool :=
  match inKey g x tile (slotEnd oslot 3), slotWord g x tile oslot with
  | some k, some w =>
    let l := ((getBuf g k).map (·.tok)).filter fun t => !isBubble t
    let ts := l.filter fun t => !isHold t
    (match l with | t :: _ => isCut t | [] => false) || (ts ≠ [] && wbits w 17 4 ≤ (ts.dropLast.filter isVal).length)
  | _, _ => false

/-! ## The operators of the table -/

def execPass (stage tile oslot : Nat) (s : State) : Result State := .next (runSlot 0 rulePass stage tile oslot s)
def execSteer (stage tile oslot : Nat) (s : State) : Result State :=
  .next (runSlot 1 (ruleSteer (slotRef stage tile oslot)) stage tile oslot s)
def execMerge (stage tile oslot : Nat) (s : State) : Result State :=
  .next (runSlot 2 (ruleMerge (slotRef stage tile oslot)) stage tile oslot s)

/-- The Y bytes of a residue entry (12 R301). -/
def spillBytes (t : Token) : List Byte :=
  blockBytes t.data ++ leBytes 2 t.mask.toNat ++ leBytes 1 t.tag.toNat ++ List.replicate 61 0

/-- Keep the oldest 64 residue tokens in the slot, and the later ones in the spill area in Y, oldest first (12 R301): one that was
collected beyond 64 is written there; one that leaves the slot makes room for the oldest of them. -/
def settleResidue (base : Nat) (g : Stage) (k : Nat) : Stage :=
  let v : SlotState := Sparse.get {} g.rslots k
  let put := fun (g : Stage) (v : SlotState) => { g with rslots := Sparse.insert g.rslots k v }
  if 64 < v.residue.length then
    let t := v.residue.getD 64 { tag := 0 }
    put { g with yarr := putBytes g.yarr (128 * (base + v.spilled)) (spillBytes t) }
      { v with residue := v.residue.take 64, spilled := v.spilled + 1 }
  else if v.residue.length < 64 && 0 < v.spilled then
    let rest := rawBytes g.yarr (128 * (base + 1)) (128 * (v.spilled - 1))
    put { g with yarr := putBytes g.yarr (128 * base) rest }
      { v with residue := v.residue ++ [spilledTok g base], spilled := v.spilled - 1 }
  else g

/-- Whether a carry that collects residue meets a token with its 64 places and the spill area full (12 R301, 14 R366). -/
def residueFull (g : Stage) (x : Region) (tile oslot : Nat) (v : SlotState) : Bool :=
  v.started && 64 ≤ v.residue.length && bits (ropParam ((slotWord g x tile oslot).getD 0).toNat) 10 11 ≤ v.spilled &&
  (ruleHead (slotHead g x tile oslot 1)).isSome

/-- CARRY (14 R365, 12 R300, R301). A token that finds no place is a fault of the slot, which takes nothing. -/
def execCarry (stage tile oslot : Nat) (s : State) : Result State :=
  match regionOf s stage with
  | none => .next s
  | some (r, x) =>
    let g := getStage s stage
    if regionLive x && slotRop g x tile oslot = 3 && residueFull g x tile oslot (getSlot s stage tile oslot) then
      .next (markFault s r (slotRef stage tile oslot) fRESIDUE 0 false)
    else
      let t := runSlot 3 ruleCarry stage tile oslot s
      if (getSlot t stage tile oslot).residue = (getSlot s stage tile oslot).residue then .next t
      else
        let base := bits (ropParam ((slotWord g x tile oslot).getD 0).toNat) 0 10
        .next (modStage t stage fun g => settleResidue base g (4 * tile + oslot))

def execInvar (stage tile oslot : Nat) (s : State) : Result State := .next (runSlot 4 ruleInvar stage tile oslot s)

/-- FORK (14 R368). -/
def execFork (stage tile oslot : Nat) (s : State) : Result State :=
  match regionOf s stage with
  | none => .next s
  | some (_, x) =>
    let g := getStage s stage
    let credit := fun (b : Nat) (t : Token) => sendsRoom g x tile oslot [(b, t)]
    .next (runSlot 5 (ruleFork (forkOutputs g x tile oslot) credit) stage tile oslot s)

/-- JOIN (14 R369). -/
def execJoinOperator (stage tile oslot : Nat) (s : State) : Result State :=
  match regionOf s stage with
  | none => .next s
  | some (_, x) =>
    let g := getStage s stage
    let ins := (List.range 4).filter fun p => (inKey g x tile (slotEnd oslot p)).isSome
    .next (runSlot 6 (ruleJoin ins) stage tile oslot s)

/-- PERMIT (14 R370, R371). -/
def execPermit (stage tile oslot : Nat) (s : State) : Result State :=
  match regionOf s stage with
  | none => .next s
  | some (r, x) =>
    let g := getStage s stage
    if regionLive x && slotRop g x tile oslot = 7 && permitMisuse g x tile oslot then
      .next (markFault s r (slotRef stage tile oslot) fPERMIT 0 false)
    else .next (runSlot 7 rulePermit stage tile oslot s)

end Sys2Proof.Machine
end

