-- ==== Sys2Proof/Machine/Elements.lean ====
section
/-! DEFINITION. Stream elements (07 R156, R157; 15 R374-R379): the firing of an element, and the kinds ALU, ALG, CVT and
WCV. An element's event is one fc of it: it sends the group of tokens that waits, or its rule fires. -/
namespace Sys2Proof.Machine

/-! ## Firing -/

/-- Heads of an element's enabled inputs; a hold marker is no head for a rule. -/
structure Heads where
  a : Option Token := none
  b : Option Token := none
  c : Option Token := none
  deriving DecidableEq, Repr

/-- What a firing consumes, the tokens it sends fc by fc, and the state it leaves. -/
structure Fired where
  ca     : Bool := false
  cb     : Bool := false
  cc     : Bool := false
  groups : List (List (Nat × Token)) := []
  st     : UnitState
  deriving DecidableEq, Repr

/-- The rule of an operation. -/
abbrev Rule := UnitRef → UnitCfg → UnitState → Heads → Option Fired

/-- The head of an enabled input. -/
def elemHead (c : UnitCfg) (u : UnitState) (p : Nat) : Option Token :=
  if cfgIn c p then ((latchOf u p).head?).filter fun t => !isHold t else none

/-- The heads a rule sees. -/
def elemHeads (c : UnitCfg) (u : UnitState) : Heads := { a := elemHead c u 0, b := elemHead c u 1, c := elemHead c u 2 }

/-- A start token at the head of an input that does not accept one (R375). -/
def elemTagFault (c : UnitCfg) (u : UnitState) : Bool :=
  let at' := fun (p : Nat) => match elemHead c u p with | some t => isStart t | none => false
  (at' 0 && !takesStart c) || at' 1 || at' 2

/-- Kinds with a flag word (R377). -/
def hasFlags (kind : Nat) : Bool := [0, 1, 2, 4, 7].contains kind

/-- The flag report token. -/
def reportTok (flags : BitVec 8) (rank : Nat) : Token :=
  { tag := 0, mask := 3, data := BitVec.ofNat 512 (flags.toNat + rank * 2 ^ 32) }

/-- Whether a group sends a cut that makes a report (R377). -/
def reportRank (c : UnitCfg) (l : List (Nat × Token)) : Option Nat :=
  let flr := wbits c.k3 60 3
  if hasFlags (cfgKind c) && flr ≠ 0 && cfgOut c 1 then
    (l.find? fun q => q.1 == 0 && isCut q.2 && flr ≤ cutRank q.2).map fun q => cutRank q.2
  else none

/-- Add the flag reports of the groups; each clears the flag word. -/
def addReports (c : UnitCfg) : UnitState → List (List (Nat × Token)) → UnitState × List (List (Nat × Token))
  | u, [] => (u, [])
  | u, l :: rest =>
    match reportRank c l with
    | some k =>
      let (v, ls) := addReports c { u with flags := 0 } rest
      (v, (l ++ [(1, reportTok u.flags k)]) :: ls)
    | none =>
      let (v, ls) := addReports c u rest
      (v, l :: ls)

/-- Whether every output of a group has credit. -/
def groupRoom (g : Stage) (x : Region) (slot : Nat) (l : List (Nat × Token)) : Bool :=
  l.all fun q => match outKey g x (slotTile slot) (unitEnd slot q.1) with
    | some k => hasRoom g k q.2
    | none => true

/-- Send a group. -/
def sendGroup (s : State) (x : Region) (stage slot : Nat) (l : List (Nat × Token)) : State :=
  l.foldl (fun s q =>
    match outKey (getStage s stage) x (slotTile slot) (unitEnd slot q.1) with
    | some k => pushBuf s stage k q.2 x.fc
    | none => s) s

/-- The bubbles in place of a group: continuity tokens wait with it. -/
def bubbleGroup (l : List (Nat × Token)) : List (Nat × Token) :=
  (l.filter fun q => q.1 ≠ 2).map fun q => (q.1, { tag := 6 })

/-- Send the oldest waiting group where it has credit; a source numbers the slot and may send bubbles instead (04 R87). -/
def emitOut (s : State) (r : Nat) (x : Region) (c : UnitCfg) (stage slot : Nat) : State :=
  let u := getUnit s stage slot
  match u.out with
  | [] => s
  | l :: rest =>
    if !groupRoom (getStage s stage) x slot l then s
    else if cfgSrc c && slotBubble u.slot (bubbleLevel s r x) then
      modUnit (sendGroup s x stage slot (bubbleGroup l)) stage slot fun u => { u with slot := u.slot + 1 }
    else
      modUnit (sendGroup s x stage slot l) stage slot fun u =>
        { u with out := rest, slot := if cfgSrc c then u.slot + 1 else u.slot }

/-- Consume what a firing took. -/
def consume (c : UnitCfg) (f : Fired) : UnitState :=
  let u := f.st
  { u with a := if f.ca then u.a.drop 1 else u.a, b := if f.cb then u.b.drop 1 else u.b, c := if f.cc then u.c.drop 1 else u.c
           cont := if f.ca && cfgIn c 3 then u.cont.drop 1 else u.cont }

/-- Whether the continuity token that a firing needs is there (R376). -/
def contReady (c : UnitCfg) (u : UnitState) (f : Fired) : Bool :=
  !(f.ca && cfgIn c 3) || (match u.cont with | t :: _ => isCont t | [] => false)

/-- Fire the rule: its first tokens need credit, and are sent at once. -/
def fireElement (rule : Rule) (s : State) (r : Nat) (x : Region) (c : UnitCfg) (stage slot : Nat) : State :=
  let u := getUnit s stage slot
  match rule { stage, slot } c u (elemHeads c u) with
  | none => s
  | some f =>
    let (st, gs) := addReports c f.st f.groups
    let gs := (gs.map (finishGroup c)).filter fun l => !l.isEmpty
    let first := (u.out ++ gs).headD []
    if !contReady c u f || (u.out.isEmpty && !groupRoom (getStage s stage) x slot first) then s
    else
      let s := modUnit s stage slot fun _ => { consume c { f with st } with out := u.out ++ gs }
      if u.out.isEmpty then emitOut s r x c stage slot else s

/-- The region and configuration of an element that may act: live, of this kind and operation, and not held. -/
def liveElement (s : State) (kind op stage slot : Nat) : Option (Nat × Region × UnitCfg) :=
  match regionOf s stage with
  | none => none
  | some (r, x) =>
    match unitCfg (getStage s stage) x slot with
    | none => none
    | some c =>
      let held := x.heldUnits.contains { stage, slot } || (cfgSrc c && (getUnit s stage slot).marked) ||
        x.faults.any (·.unit == { stage, slot })
      if regionLive x && cfgKind c == kind && cfgOp c == op && slot < 8 && !held then some (r, x, c) else none

/-- One fc of an element. `overlap` lets the rule fire while earlier results wait (CRT's second buffer). -/
def runElement (kind op : Nat) (overlap : Bool) (rule : Rule) (stage slot : Nat) (s : State) : State :=
  match liveElement s kind op stage slot with
  | none => s
  | some (r, x, c) =>
    let u := getUnit s stage slot
    if elemTagFault c u then markFault s r { stage, slot } fTOKTAG 0 false
    else if u.out.isEmpty then fireElement rule s r x c stage slot
    else
      let s := emitOut s r x c stage slot
      if overlap then fireElement rule s r x c stage slot else s

/-! ## Pairing of an element's inputs (R375) -/

/-- A pairing's outcome: consumed inputs, and the token that goes out unless the operation computes. -/
structure Pick where
  ca  : Bool
  cb  : Bool
  cc  : Bool
  tok : Option Token
  deriving DecidableEq, Repr

/-- Pair the inputs an operation reads. -/
def pairHeads (u : UnitRef) (useB useC : Bool) (h : Heads) : Option Pick :=
  match h.a, useB, h.b, useC, h.c with
  | some a, true, some b, true, some c =>
    let (x, y, z, t) := pair3 u a b c
    some ⟨x, y, z, t⟩
  | some a, true, some b, false, _ => let p := pair2 u a b; some ⟨p.ca, p.cb, false, p.tok⟩
  | some a, false, _, true, some c => let p := pair2 u a c; some ⟨p.ca, false, p.cb, p.tok⟩
  | some a, false, _, false, _ => some ⟨true, false, false, if isData a then none else some a⟩
  | _, _, _, _, _ => none

/-- OPFAULT in place of a token (R378). -/
def opFault (u : UnitRef) (sub detail : Nat) : Token :=
  errorToken fOPFAULT (unitOrigin u) (BitVec.ofNat 64 (sub + detail % 2 ^ 32 * 2 ^ 16))

/-- Raise flags. -/
def raise (u : UnitState) (f : FlagBits) : UnitState := { u with flags := u.flags ||| BitVec.ofNat 8 f }

/-- The flags of a list of results. -/
def allFlags {α : Type} (l : List (α × FlagBits)) : FlagBits := l.foldl (fun f p => orFlags f p.2) 0

/-! ## ALU (R380-R382) -/

/-- All ones or zero. -/
def ones (w : Nat) (b : Bool) : Nat := if b then 2 ^ w - 1 else 0

/-- Leading zeros of the low `w` bits. -/
def clz (w v : Nat) : Nat := w - bitLength (v % 2 ^ w)

/-- Ones among the low `w` bits. -/
def popc (w v : Nat) : Nat := ((List.range w).filter fun i => bits v i 1 = 1).length

/-- A value of a type is nonzero: by value for float types, by bits for integer types (R381, R395). -/
def nonzero (ty : Nat) (ftz : Bool) (v : Nat) : Bool :=
  match tyFloat ty with
  | some f => !isZeroV (decodeF f ftz v)
  | none => v % 2 ^ tyWidth ty ≠ 0

/-- A compare of values: 0 ceq, 1 cne, 2 clt, 3 cle. -/
def cmpFloat (k : Nat) (x y : FVal) : Bool × FlagBits :=
  if isNanV x || isNanV y then (k = 1, 1)
  else
    (match k with
     | 0 => feq x y
     | 1 => !feq x y
     | 2 => flt x y
     | _ => flt x y || feq x y, 0)

/-- A compare of integers. -/
def cmpInt (k : Nat) (x y : Int) : Bool :=
  match k with | 0 => x = y | 1 => x ≠ y | 2 => x < y | _ => x ≤ y

/-- |a|. -/
def fabs : FVal → FVal | .nan => .nan | .inf _ => .inf false | .fin _ m e => .fin false m e

/-- A float operation on one slot; the operations that move bits are not here. -/
def aluFloat (f : Fmt) (ftz : Bool) (op a b c : Nat) : Nat × FlagBits :=
  let x := decodeF f ftz a
  let y := decodeF f ftz b
  let rnd := encodeF f 0 0 ftz
  match op with
  | 0 => rnd (fadd x y)
  | 1 => rnd (fadd x (fneg y))
  | 2 => rnd (fmul x y)
  | 3 => rnd (fadd (fmul x y) (decodeF f ftz c))
  | 4 => rnd (fmin x y)
  | 5 => rnd (fmax x y)
  | 6 => rnd (fabs x)
  | 7 => rnd (fneg x)
  | 8 => rcpF f ftz x
  | 9 => rsqrtF f ftz x
  | _ => let (t, fl) := cmpFloat (op - 0xC) x y; (ones f.width t, fl)

/-- An integer operation on one slot. -/
def aluInt (w op a b c : Nat) : Nat × FlagBits :=
  let x := sextInt w a
  let y := sextInt w b
  let sh := b % 2 ^ w
  match op with
  | 0 => (intCode w (x + y), 0)
  | 1 => (intCode w (x - y), 0)
  | 2 => (intCode w (x * y), 0)
  | 3 => (intCode w (x * y + sextInt w c), 0)
  | 4 => (intCode w (min x y), 0)
  | 5 => (intCode w (max x y), 0)
  | 6 => (intCode w x.natAbs, 0)
  | 7 => (intCode w (-x), 0)
  | 0xA => saturate w (x + y)
  | 0xB => saturate w (x - y)
  | 0x15 => (if w ≤ sh then 0 else a * 2 ^ sh % 2 ^ w, 0)
  | 0x16 => (if w ≤ sh then 0 else a % 2 ^ w / 2 ^ sh, 0)
  | 0x17 => (intCode w (x / 2 ^ min sh w), 0)
  | 0x18 => (clz w a, 0)
  | 0x19 => (popc w a, 0)
  | _ => (ones w (cmpInt (op - 0xC) x y), 0)

/-- An operation on one slot. -/
def aluSlot (ty : Nat) (ftz : Bool) (op a b c : Nat) : Nat × FlagBits :=
  let w := tyWidth ty
  match op with
  | 0x10 => passSlot (tyFloat ty) ftz (if nonzero ty ftz c then a else b)
  | 0x11 => (a &&& b, 0)
  | 0x12 => (a ||| b, 0)
  | 0x13 => (a ^^^ b, 0)
  | 0x14 => (2 ^ w - 1 - a % 2 ^ w, 0)
  | 0x1A => passSlot (tyFloat ty) ftz a
  | _ => match tyFloat ty with
    | some f => aluFloat f ftz op a b c
    | none => aluInt w op a b c

/-- The operands of a slot: a stream operand where it is present, a constant or the running value always. -/
def aluOpnd (stream : Bool) (t : Option Token) (k : Nat) (w i : Nat) : Option Nat :=
  if stream then
    match t with
    | some t => if slotHere w t.mask i then some (slotBits w t.data i) else none
    | none => none
  else some k

/-- The slots of a result, with flags. -/
def aluSlots (op : Nat) (c : UnitCfg) (u : UnitState) (h : Heads) : List (Option (Nat × FlagBits)) :=
  let m := cfgMod c
  let ty := m / 32
  let w := tyWidth ty
  let bsrc := bits m 2 2
  (List.range (slotCount w)).map fun i =>
    let a := aluOpnd true h.a 0 w i
    let kb := if bsrc = 1 then wbits c.k0 0 w else slotBits w u.q0.data i
    let b := if aluReadsB op then aluOpnd (bsrc = 0) h.b kb w i else some 0
    let d := if aluReadsC op then aluOpnd (bits m 0 2 = 0) h.c (wbits c.k1 0 w) w i else some 0
    match a, b, d with
    | some a, some b, some d => some (aluSlot ty (bits m 4 1 = 1) op a b d)
    | _, _, _ => none

/-- The running value after a result: absent slots keep theirs. -/
def aluRun (w : Nat) (q : QReg) (vs : List (Option Nat)) : QReg :=
  let merged := vs.zipIdx.map fun (p : Option Nat × Nat) => some (p.1.getD (slotBits w q.data p.2))
  { data := BitVec.ofNat 512 (packSlots w merged), mask := q.mask ||| slotMask w vs }

/-- `bcast`, with flags. -/
def aluBcast (u : UnitRef) (c : UnitCfg) (a : Token) : Token × FlagBits :=
  let ty := cfgMod c / 32
  let w := tyWidth ty
  let k := wbits c.k2 0 6
  if slotCount w ≤ k then (opFault u 2 k, 0)
  else if slotHere w a.mask k then
    let (v, fl) := passSlot (tyFloat ty) (bits (cfgMod c) 4 1 = 1) (slotBits w a.data k)
    (slotTok w (List.replicate (slotCount w) (some v)), fl)
  else (slotTok w (List.replicate (slotCount w) none), 0)

/-- ALU's rule. -/
def ruleAlu (op : Nat) : Rule := fun ref c u h =>
  let m := cfgMod c
  let run := aluReadsB op && bits m 2 2 = 2
  match pairHeads ref (aluReadsB op && bits m 2 2 = 0) (aluReadsC op && bits m 0 2 = 0) h with
  | none => none
  | some p =>
    let done := fun (t : Token) (st : UnitState) => some { ca := p.ca, cb := p.cb, cc := p.cc, groups := [[(0, t)]], st : Fired }
    match p.tok with
    | some t => done t (if run && isCut t then { u with q0 := {} } else u)
    | none =>
      if op = 0x1B then
        let (t, fl) := aluBcast ref c (h.a.getD {tag := 0})
        done t (raise u fl)
      else
        let rs := aluSlots op c u h
        let vs := rs.map fun q => q.map (·.1)
        let w := tyWidth (m / 32)
        let u := raise u (allFlags (rs.filterMap id))
        done (slotTok w vs) (if run then { u with q0 := aluRun w u.q0 vs } else u)

def execAluAdd (stage slot : Nat) (s : State) : Result State := .next (runElement 0 0x00 false (ruleAlu 0x00) stage slot s)
def execAluSub (stage slot : Nat) (s : State) : Result State := .next (runElement 0 0x01 false (ruleAlu 0x01) stage slot s)
def execAluMul (stage slot : Nat) (s : State) : Result State := .next (runElement 0 0x02 false (ruleAlu 0x02) stage slot s)
def execAluFma (stage slot : Nat) (s : State) : Result State := .next (runElement 0 0x03 false (ruleAlu 0x03) stage slot s)
def execAluMin (stage slot : Nat) (s : State) : Result State := .next (runElement 0 0x04 false (ruleAlu 0x04) stage slot s)
def execAluMax (stage slot : Nat) (s : State) : Result State := .next (runElement 0 0x05 false (ruleAlu 0x05) stage slot s)
def execAluAbs (stage slot : Nat) (s : State) : Result State := .next (runElement 0 0x06 false (ruleAlu 0x06) stage slot s)
def execAluNeg (stage slot : Nat) (s : State) : Result State := .next (runElement 0 0x07 false (ruleAlu 0x07) stage slot s)
def execAluRcp (stage slot : Nat) (s : State) : Result State := .next (runElement 0 0x08 false (ruleAlu 0x08) stage slot s)
def execAluRsqrt (stage slot : Nat) (s : State) : Result State := .next (runElement 0 0x09 false (ruleAlu 0x09) stage slot s)
def execAluAdds (stage slot : Nat) (s : State) : Result State := .next (runElement 0 0x0A false (ruleAlu 0x0A) stage slot s)
def execAluSubs (stage slot : Nat) (s : State) : Result State := .next (runElement 0 0x0B false (ruleAlu 0x0B) stage slot s)
def execAluCeq (stage slot : Nat) (s : State) : Result State := .next (runElement 0 0x0C false (ruleAlu 0x0C) stage slot s)
def execAluCne (stage slot : Nat) (s : State) : Result State := .next (runElement 0 0x0D false (ruleAlu 0x0D) stage slot s)
def execAluClt (stage slot : Nat) (s : State) : Result State := .next (runElement 0 0x0E false (ruleAlu 0x0E) stage slot s)
def execAluCle (stage slot : Nat) (s : State) : Result State := .next (runElement 0 0x0F false (ruleAlu 0x0F) stage slot s)
def execAluSel (stage slot : Nat) (s : State) : Result State := .next (runElement 0 0x10 false (ruleAlu 0x10) stage slot s)
def execAluAnd (stage slot : Nat) (s : State) : Result State := .next (runElement 0 0x11 false (ruleAlu 0x11) stage slot s)
def execAluOr (stage slot : Nat) (s : State) : Result State := .next (runElement 0 0x12 false (ruleAlu 0x12) stage slot s)
def execAluXor (stage slot : Nat) (s : State) : Result State := .next (runElement 0 0x13 false (ruleAlu 0x13) stage slot s)
def execAluNot (stage slot : Nat) (s : State) : Result State := .next (runElement 0 0x14 false (ruleAlu 0x14) stage slot s)
def execAluShl (stage slot : Nat) (s : State) : Result State := .next (runElement 0 0x15 false (ruleAlu 0x15) stage slot s)
def execAluShr (stage slot : Nat) (s : State) : Result State := .next (runElement 0 0x16 false (ruleAlu 0x16) stage slot s)
def execAluSra (stage slot : Nat) (s : State) : Result State := .next (runElement 0 0x17 false (ruleAlu 0x17) stage slot s)
def execAluClz (stage slot : Nat) (s : State) : Result State := .next (runElement 0 0x18 false (ruleAlu 0x18) stage slot s)
def execAluPopc (stage slot : Nat) (s : State) : Result State := .next (runElement 0 0x19 false (ruleAlu 0x19) stage slot s)
def execAluMov (stage slot : Nat) (s : State) : Result State := .next (runElement 0 0x1A false (ruleAlu 0x1A) stage slot s)
def execAluBcast (stage slot : Nat) (s : State) : Result State := .next (runElement 0 0x1B false (ruleAlu 0x1B) stage slot s)

/-! ## ALG (R383) -/

/-- The d components of element `e`, when all are present. -/
def algElem (f : Fmt) (ftz : Bool) (d : Nat) (t : Token) (e : Nat) : Option (List FVal) :=
  let w := f.width
  let idx := (List.range d).map fun i => d * e + i
  if idx.all (slotHere w t.mask) then some (idx.map fun i => decodeF f ftz (slotBits w t.data i)) else none

/-- The components an ALG operation gives for one element. -/
def algOp (op : Nat) (tab : BitVec 128) (m : Nat) (a b : List FVal) : List FVal :=
  match op with
  | 0 => algMul tab (bits m 3 1 = 1) (bits m 2 1 = 1) (bits m 1 1 = 1) a b
  | 1 => algConjugate tab a
  | 2 => algNorm tab a :: (a.drop 1).map fun _ => fzero false
  | 3 => a.map fun v => fmul v (b.getD 0 (fzero false))
  | 4 => (a.zip b).map fun (p : FVal × FVal) => fadd p.1 p.2
  | _ => (a.zip b).map fun (p : FVal × FVal) => fadd p.1 (fneg p.2)

/-- The element's results, rounded, with flags; absent elements have none. -/
def algSlots (op : Nat) (f : Fmt) (c : UnitCfg) (tab : BitVec 128) (a b : Token) : List (Option (Nat × FlagBits)) :=
  let m := cfgMod c
  let ftz := bits m 4 1 = 1
  let d := algDim tab
  (List.range (slotCount f.width / d)).flatMap fun e =>
    match algElem f ftz d a e, algElem f ftz d b e with
    | some x, some y => (algOp op tab m x y).map fun v => some (encodeF f 0 0 ftz v)
    | _, _ => List.replicate d none

/-- ALG's rule over the tables of the take. -/
def ruleAlg (op : Nat) (algs : List (Nat × BitVec 128)) : Rule := fun ref c u h =>
  let two := !(op = 1 || op = 2)
  match pairHeads ref two false h with
  | none => none
  | some p =>
    let done := fun (t : Token) (st : UnitState) => some { ca := p.ca, cb := p.cb, groups := [[(0, t)]], st : Fired }
    match p.tok, h.a, tyFloat (cfgMod c / 32) with
    | some t, _, _ => done t u
    | none, some a, some f =>
      let k := wbits c.k0 0 3
      match Sparse.find? algs k with
      | none => done (opFault ref 1 k) u
      | some tab =>
        let rs := algSlots op f c tab a (if two then h.b.getD a else a)
        done (slotTok f.width (rs.map fun q => q.map (·.1))) (raise u (allFlags (rs.filterMap id)))
    | _, _, _ => none

/-- The algebra tables of the take at a stage. -/
def stageAlgs (s : State) (stage : Nat) : List (Nat × BitVec 128) :=
  match regionOf s stage with
  | some (_, x) => x.algs
  | none => []

def execAlgAmul (stage slot : Nat) (s : State) : Result State :=
  .next (runElement 1 0 false (ruleAlg 0 (stageAlgs s stage)) stage slot s)
def execAlgAconj (stage slot : Nat) (s : State) : Result State :=
  .next (runElement 1 1 false (ruleAlg 1 (stageAlgs s stage)) stage slot s)
def execAlgAnorm (stage slot : Nat) (s : State) : Result State :=
  .next (runElement 1 2 false (ruleAlg 2 (stageAlgs s stage)) stage slot s)
def execAlgAscale (stage slot : Nat) (s : State) : Result State :=
  .next (runElement 1 3 false (ruleAlg 3 (stageAlgs s stage)) stage slot s)
def execAlgAadd (stage slot : Nat) (s : State) : Result State :=
  .next (runElement 1 4 false (ruleAlg 4 (stageAlgs s stage)) stage slot s)
def execAlgAsub (stage slot : Nat) (s : State) : Result State :=
  .next (runElement 1 5 false (ruleAlg 5 (stageAlgs s stage)) stage slot s)

/-! ## CVT (R384-R386) -/

/-- FMT codes a CVT operation converts from and to. -/
def cvtPair (op sf df : Nat) : Bool :=
  let fl := fun (k : Nat) => 1 ≤ k && k ≤ 7
  let fl8 := fun (k : Nat) => 1 ≤ k && k ≤ 6
  let it := fun (k : Nat) => 8 ≤ k && k ≤ 11
  match op with
  | 0 => fl sf && fl df
  | 1 => fl8 sf && it df
  | 2 => it sf && fl df
  | _ => (sf = 12 || sf = 13) && (fl df || it df)

/-- Values in a source token (R385). -/
def cvtCount (sf : Nat) : Nat := match sf with | 12 => 7 | 13 => 3 | _ => 512 / max 1 (fmtBits sf)

/-- The source value of slot `i`, if present. -/
def cvtValue (sf : Nat) (ftz : Bool) (t : Token) (i : Nat) : Option FVal :=
  let w := fmtBits sf
  if !slotHere w t.mask i then none
  else
    let v := slotBits w t.data i
    match sf with
    | 12 => some (if v = accInvalid then .nan else finOfInt (sextInt 64 v) (sextInt 16 (bits t.data.toNat 448 16)) false)
    | 13 => some (finOfInt (sextInt 96 v) (sextInt 16 (bits t.data.toNat 384 16)) false)
    | _ => match floatFmt sf with
      | some f => some (decodeF f ftz v)
      | none => some (intToF w v)

/-- Convert one value. -/
def cvtOne (df rm r : Nat) (ftz : Bool) (v : FVal) : Nat × FlagBits :=
  match floatFmt df with
  | some f => encodeF f rm r ftz v
  | none => floatToInt (fmtBits df) rm r v

/-- The results of a token, slot by slot; `n0` is the ordinal of its first slot. -/
def cvtSlots (c : UnitCfg) (n0 : Nat) (t : Token) : List (Option (Nat × FlagBits)) :=
  let sf := wbits c.k0 0 5
  let rm := cfgMod c / 32
  let ftz := bits (cfgMod c) 4 1 = 1
  (List.range (cvtCount sf)).map fun i =>
    (cvtValue sf ftz t i).map fun v =>
      let r := if rm = 5 then srBits (wbits c.k0 48 10) (wbits c.k3 0 48 + n0 + i) c.k2.toNat c.k1.toNat else 0
      cvtOne (wbits c.k0 8 5) rm r ftz v

/-- Tokens sent for one input token. -/
def cvtOut (sf df : Nat) : Nat :=
  if fmtBits df ≤ fmtBits sf then 1 else (cvtCount sf * fmtBits df + 511) / 512

/-- CVT's rule. -/
def ruleCvt (op : Nat) : Rule := fun ref c u h =>
  let sf := wbits c.k0 0 5
  let df := wbits c.k0 8 5
  match h.a with
  | none => none
  | some t =>
    if isCut t then some { ca := true, groups := [[(0, t)]], st := u }
    else if !cvtPair op sf df then
      some { ca := true, groups := [[(0, if isErr t then t else opFault ref 7 (wbits c.k0 0 16))]], st := u }
    else
      let next := { u with n0 := u.n0 + cvtCount sf }
      if isErr t then some { ca := true, groups := List.replicate (cvtOut sf df) [(0, t)], st := next }
      else
        let rs := cvtSlots c u.n0 t
        let w := fmtBits df
        let toks := (chunks (512 / max 1 w) 16 (rs.map fun q => q.map (·.1))).map fun vs => [(0, slotTok w vs)]
        some { ca := true, groups := toks, st := raise next (allFlags (rs.filterMap id)) }

def execCvtCvt (stage slot : Nat) (s : State) : Result State := .next (runElement 2 0 false (ruleCvt 0) stage slot s)
def execCvtCvti (stage slot : Nat) (s : State) : Result State := .next (runElement 2 1 false (ruleCvt 1) stage slot s)
def execCvtCvtf (stage slot : Nat) (s : State) : Result State := .next (runElement 2 2 false (ruleCvt 2) stage slot s)
def execCvtCvta (stage slot : Nat) (s : State) : Result State := .next (runElement 2 3 false (ruleCvt 3) stage slot s)

/-! ## WCV (R387) -/

/-- Lanes `[lo, lo + n)` of a token, moved to lane `dst`, every other lane masked off. -/
def lanesTo (t : Token) (lo n dst : Nat) : Token :=
  cleanTok { tag := 0, mask := BitVec.ofNat 16 (bits t.mask.toNat lo n * 2 ^ dst),
             data := BitVec.ofNat 512 (bits t.data.toNat (32 * lo) (32 * n) * 2 ^ (32 * dst)) }

/-- Either of two tokens' lanes. -/
def joinLanes (a b : Token) : Token := { tag := 0, mask := a.mask ||| b.mask, data := a.data ||| b.data }

/-- LG of a split or pack. -/
def wcvLg (c : UnitCfg) : Nat := bits (cfgMod c) 0 3
/-- Lanes per piece. -/
def wcvLanes (c : UnitCfg) : Nat := 16 / 2 ^ wcvLg c
/-- SHIFT. -/
def wcvShift (c : UnitCfg) : Bool := bits (cfgMod c) 3 1 = 1

/-- `split`. -/
def ruleSplit : Rule := fun _ c u h =>
  match h.a with
  | none => none
  | some t =>
    let n := 2 ^ wcvLg c
    let l := wcvLanes c
    let ts := if isData t then (List.range n).map fun j => lanesTo t (j * l) l (if wcvShift c then 0 else j * l)
              else if isErr t then List.replicate n t else [t]
    some { ca := true, groups := ts.map fun t => [(0, t)], st := u }

/-- The token a gathered group gives. -/
def packToks (c : UnitCfg) (ts : List Token) : Token :=
  match ts.find? isErr with
  | some e => e
  | none =>
    let l := wcvLanes c
    (ts.zipIdx.map fun (p : Token × Nat) => lanesTo p.1 (if wcvShift c then 0 else p.2 * l) l (p.2 * l)).foldl joinLanes { tag := 0 }

/-- `pack`. -/
def rulePack : Rule := fun _ c u h =>
  match h.a with
  | none => none
  | some t =>
    if isCut t then
      let part := if u.toks.isEmpty then [] else [[(0, packToks c u.toks)]]
      some { ca := true, groups := part ++ [[(0, t)]], st := { u with toks := [] } }
    else
      let ts := u.toks ++ [t]
      if 2 ^ wcvLg c ≤ ts.length then some { ca := true, groups := [[(0, packToks c ts)]], st := { u with toks := [] } }
      else some { ca := true, st := { u with toks := ts } }

/-- Every other element of a list, from the first. -/
def evens {α : Type} : List α → List α
  | [] => []
  | [x] => [x]
  | x :: _ :: rest => x :: evens rest

/-- `unzip`. -/
def ruleUnzip : Rule := fun _ c u h =>
  match h.a with
  | none => none
  | some t =>
    let w := tyWidth (cfgMod c / 32)
    let vs := slotsOf w t
    let g := if isData t then [(0, slotTok w (evens vs)), (1, slotTok w (evens (vs.drop 1)))] else [(0, t), (1, t)]
    some { ca := true, groups := [g], st := u }

def execWcvSplit (stage slot : Nat) (s : State) : Result State := .next (runElement 3 0 false ruleSplit stage slot s)
def execWcvPack (stage slot : Nat) (s : State) : Result State := .next (runElement 3 1 false rulePack stage slot s)
def execWcvUnzip (stage slot : Nat) (s : State) : Result State := .next (runElement 3 2 false ruleUnzip stage slot s)

end Sys2Proof.Machine
end

