-- ==== Sys2Proof/Machine/Reduce.lean ====
section
/-! DEFINITION. The element kinds RDC and SPA, which fold a fibre's values (15 R388, R389, R394; 10 R243-R248, R256). -/
namespace Sys2Proof.Machine

/-! ## RDC -/

/-- RANK of an RDC element. -/
def rdcRank (c : UnitCfg) : Nat := bits (cfgMod c) 2 2 + 1
/-- LANE. -/
def rdcLane (c : UnitCfg) : Bool := bits (cfgMod c) 1 1 = 1
/-- TY. -/
def rdcTy (c : UnitCfg) : Nat := cfgMod c / 32
/-- FTZ. -/
def rdcFtz (c : UnitCfg) : Bool := bits (cfgMod c) 4 1 = 1

/-- A running entry of a group: the group in `key / 128`. -/
def groupEntries (es : List Entry) (grp : Nat) : List Entry := es.filter fun e => e.key / 128 == grp
/-- The entries of a group replaced. -/
def setGroup (es : List Entry) (grp : Nat) (new : List Entry) : List Entry :=
  (es.filter fun e => e.key / 128 != grp) ++ new.map fun e => { e with key := 128 * grp + e.key % 128 }

/-- Join two subtrees of the canonical sum: an empty one gives the other, two values one rounded sum (10 R256). -/
def joinTree (f : Fmt) (ftz : Bool) (l h : Entry) : Entry × FlagBits :=
  if !l.has then ({ h with key := l.key }, 0)
  else if !h.has then (l, 0)
  else
    let (v, fl) := encodeF f 0 0 ftz (fadd (decodeF f ftz l.bits.toNat) (decodeF f ftz h.bits.toNat))
    ({ l with bits := BitVec.ofNat 64 v }, fl)

/-- Push a subtree of size 2^key on a stack, top first; equal sizes join. -/
def pushTree (f : Fmt) (ftz : Bool) : List Entry → Entry → List Entry × FlagBits
  | [], e => ([e], 0)
  | t :: rest, e =>
    if t.key = e.key then
      let (j, f1) := joinTree f ftz t e
      let (st, f2) := pushTree f ftz rest { j with key := e.key + 1 }
      (st, orFlags f1 f2)
    else (e :: t :: rest, 0)

/-- The stack of the empty positions below an offset, top first. -/
def offsetStack (off : Nat) : List Entry :=
  ((List.range 64).filter fun i => bits off i 1 = 1).map fun i => { key := i, has := false, bits := 0, sum := 0 }

/-- The root over a stack: what lies above each subtree stands on its right. -/
def rootTree (f : Fmt) (ftz : Bool) : List Entry → Option Entry × FlagBits
  | [] => (none, 0)
  | e :: rest => rest.foldl (fun acc t =>
      match acc.1 with
      | some h => let (j, fl) := joinTree f ftz t h; (some j, orFlags acc.2 fl)
      | none => (some t, acc.2)) (some e, 0)

/-- A leaf. -/
def leafEntry (v : Option Nat) : Entry := { key := 0, has := v.isSome, bits := BitVec.ofNat 64 (v.getD 0), sum := 0 }

/-- One value enters a group: operation, type, position. [DEDUCED, log 25] -/
def rdcAdd (op ty : Nat) (ftz : Bool) (off pos : Nat) (es : List Entry) (grp : Nat) (v : Option Nat) : List Entry × FlagBits :=
  let cur := (groupEntries es grp).map fun e => { e with key := e.key % 128 }
  match op, tyFloat ty, v with
  | 0, some f, v =>
    let st := if cur.isEmpty then offsetStack off else cur
    let p := v.map (passF f ftz)
    let (st, fl) := pushTree f ftz st (leafEntry (p.map (·.1)))
    (setGroup es grp st, orFlags fl (match p with | some q => q.2 | none => 0))
  | _, _, none => (es, 0)
  | op, fm, some v =>
    let w := tyWidth ty
    match cur, op, fm with
    | [], _, _ =>
      let (v', fl) := if op = 2 || op = 3 then passSlot fm ftz v else (v, 0)
      (setGroup es grp [{ key := 0, has := true, bits := BitVec.ofNat 64 v', sum := if op = 4 then 1 else pos }], fl)
    | e :: _, 0, _ => (setGroup es grp [{ e with bits := BitVec.ofNat 64 ((e.bits.toNat + v) % 2 ^ w) }], 0)
    | e :: _, 4, _ => (setGroup es grp [{ e with sum := e.sum + 1 }], 0)
    | e :: _, 5, some f =>
      let x := decodeF f ftz e.bits.toNat
      let y := decodeF f ftz v
      let better := !isNanV x && (isNanV y || flt x y)
      (if better then setGroup es grp [{ e with bits := BitVec.ofNat 64 v, sum := pos }] else es, 0)
    | e :: _, 5, none =>
      (if sextInt w e.bits.toNat < sextInt w v then setGroup es grp [{ e with bits := BitVec.ofNat 64 v, sum := pos }] else es, 0)
    | e :: _, _, some f =>
      let x := decodeF f ftz e.bits.toNat
      let y := decodeF f ftz v
      let z := if op = 2 then fmax x y else fmin x y
      (setGroup es grp [{ e with bits := BitVec.ofNat 64 (encodeF f 0 0 ftz z).1 }], if isNanV y then 1 else 0)
    | e :: _, _, none =>
      let x := sextInt w e.bits.toNat
      let y := sextInt w v
      (setGroup es grp [{ e with bits := BitVec.ofNat 64 (intCode w (if op = 2 then max x y else min x y)) }], 0)

/-- A data token enters the fibre. -/
def rdcToken (op : Nat) (c : UnitCfg) (u : UnitState) (t : Token) : UnitState :=
  let ty := rdcTy c
  let vs := slotsOf (tyWidth ty) t
  let off := c.k1.toNat
  let lane := rdcLane c
  let (es, fl) := vs.zipIdx.foldl (fun (acc : List Entry × FlagBits) (p : Option Nat × Nat) =>
    let pos := off + (if lane then u.n0 else u.n0 + p.2)
    let (es, fl) := rdcAdd op ty (rdcFtz c) off pos acc.1 (if lane then p.2 else 0) p.1
    (es, orFlags acc.2 fl)) (u.entries, 0)
  raise { u with entries := es, n0 := u.n0 + (if lane then 1 else vs.length) } fl

/-- The result of one group: its value, if any. [DEDUCED, log 25] -/
def rdcResult (op : Nat) (c : UnitCfg) (es : List Entry) (grp : Nat) : Option Nat × FlagBits :=
  let cur := (groupEntries es grp).map fun e => { e with key := e.key % 128 }
  match op, tyFloat (rdcTy c) with
  | 0, some f =>
    let (e, fl) := rootTree f (rdcFtz c) cur
    (some (match e with | some e => if e.has then e.bits.toNat else 0 | none => 0), fl)
  | 0, none => (some (match cur with | e :: _ => e.bits.toNat | [] => 0), 0)
  | 4, _ => (some (match cur with | e :: _ => e.sum.toNat | [] => 0), 0)
  | 5, _ => (match cur with | e :: _ => some (e.sum.toNat % 2 ^ 32) | [] => none, 0)
  | _, _ => (match cur with | e :: _ => some e.bits.toNat | [] => none, 0)

/-- The result tokens of a fibre, with flags. -/
def rdcResults (op : Nat) (c : UnitCfg) (u : UnitState) : List Token × FlagBits :=
  let w := if op = 4 || op = 5 then 32 else tyWidth (rdcTy c)
  let groups := if rdcLane c then slotCount (tyWidth (rdcTy c)) else 1
  let rs := (List.range groups).map (rdcResult op c u.entries)
  ((chunks (512 / w) 8 (rs.map (·.1))).map (slotTok w), allFlags rs)

/-! ### suma (R389, 10 R243-R247) -/

/-- STATUS bits. -/
def stSAT : Nat := 2 ^ 31
def stCLAMP : Nat := 2 ^ 30
def stINV : Nat := 2 ^ 29
def stMETA : Nat := 2 ^ 28

/-- The header fields of a PART token: E, STATUS, TERMS. -/
def partHeader (t : Token) : Int × Nat × Nat :=
  (sextInt 16 (bits t.data.toNat 384 16), bits t.data.toNat 416 32, bits t.data.toNat 448 33)

/-- A term joins the running sum: `entries` holds it, `n1` TERMS, `n2` the STATUS flags, `n3` HEAD. -/
def sumaAdd (u : UnitState) (i : Int) (terms st head : Nat) : UnitState :=
  let old : Int := match u.entries with | e :: _ => e.sum | [] => 0
  { u with entries := [{ key := 0, has := true, bits := 0, sum := old + i }], n1 := u.n1 + terms, n2 := u.n2 ||| st, n3 := max u.n3 head }

/-- A value enters: its term and the flags it raises. -/
def sumaValue (E : Int) (u : UnitState) (x : FVal) : UnitState :=
  let t := termOf x E
  raise (sumaAdd u t.t 1 ((if t.clamp then stCLAMP else 0) + (if t.inv then stINV else 0)) t.head) (termFlags x E)

/-- A data token enters. -/
def sumaToken (ref : UnitRef) (c : UnitCfg) (u : UnitState) (t : Token) : UnitState :=
  let E := sextInt 16 (wbits c.k0 0 16)
  let u :=
    if wbit c.k0 16 then
      let (e, st, terms) := partHeader t
      if e ≠ E then { u with err := some (u.err.getD (errorToken fADDEXP (unitOrigin ref) 0)) }
      else
        let u := sumaAdd u 0 0 (st &&& (stCLAMP + stINV + stMETA)) (bits st 20 7)
        ((slotsOf 128 t).take 3).foldl (fun u v =>
          match v with
          | some v => sumaAdd u (sextInt 96 v) terms 0 0
          | none => u) u
    else
      (slotsOf (tyWidth (rdcTy c)) t).foldl (fun u v =>
        match v with
        | some v => sumaValue E u (match tyFloat (rdcTy c) with | some f => decodeF f false v | none => intToF (tyWidth (rdcTy c)) v)
        | none => u) u
  if u.err.isNone && 2 ^ 32 < u.n1 then { u with err := some (errorToken fADDTERMS (unitOrigin ref) 0) } else u

/-- The result token of `suma`. -/
def sumaResult (c : UnitCfg) (u : UnitState) : Token × FlagBits :=
  let sum : Int := match u.entries with | e :: _ => e.sum | [] => 0
  let st := u.n2 + u.n3 % 128 * 2 ^ 20
  let e := wbits c.k0 0 16
  if bits (cfgMod c) 0 1 = 1 then
    ({ tag := 0, mask := 0xF00F,
       data := BitVec.ofNat 512 ((sum % (2 ^ 128 : Nat)).toNat + e * 2 ^ 384 + st * 2 ^ 416 + u.n1 % 2 ^ 33 * 2 ^ 448) }, 0)
  else
    let (n, sat) := finalOf sum
    let n := if u.n2 &&& stINV ≠ 0 then accInvalid else n
    let st := if sat then st + stSAT else st
    ({ tag := 0, mask := 0xC003, data := BitVec.ofNat 512 (n + e * 2 ^ 448 + st * 2 ^ 464) }, if sat then 2 + 8 else 0)

/-- The state between fibres. -/
def closeFibre (u : UnitState) : UnitState := { u with entries := [], err := none, n0 := 0, n1 := 0, n2 := 0, n3 := 0 }

/-- RDC's rule: cuts of lower rank are consumed, a cut of rank RANK or more closes the fibre (R388). -/
def ruleRdc (op : Nat) : Rule := fun ref c u h =>
  match h.a with
  | none => none
  | some t =>
    let k := rdcRank c
    if isErr t then some { ca := true, st := { u with err := some (u.err.getD t) } }
    else if !isCut t then
      some { ca := true, st := if u.err.isSome then u else if op = 1 then sumaToken ref c u t else rdcToken op c u t }
    else if cutRank t < k then some { ca := true, st := u }
    else
      let (ts, fl) := match u.err with
        | some e => ([e], 0)
        | none => if op = 1 then let (t, f) := sumaResult c u; ([t], f) else rdcResults op c u
      let cut := if k < cutRank t then [[(0, cutTok (cutRank t - k))]] else []
      some { ca := true, groups := (ts.map fun t => [(0, t)]) ++ cut, st := closeFibre (raise u fl) }

def execRdcSumc (stage slot : Nat) (s : State) : Result State := .next (runElement 4 0 false (ruleRdc 0) stage slot s)
def execRdcSuma (stage slot : Nat) (s : State) : Result State := .next (runElement 4 1 false (ruleRdc 1) stage slot s)
def execRdcMaxr (stage slot : Nat) (s : State) : Result State := .next (runElement 4 2 false (ruleRdc 2) stage slot s)
def execRdcMinr (stage slot : Nat) (s : State) : Result State := .next (runElement 4 3 false (ruleRdc 3) stage slot s)
def execRdcCnt (stage slot : Nat) (s : State) : Result State := .next (runElement 4 4 false (ruleRdc 4) stage slot s)
def execRdcArgmax (stage slot : Nat) (s : State) : Result State := .next (runElement 4 5 false (ruleRdc 5) stage slot s)

/-! ## Coordinate streams (R392) -/

/-- The entries of a token: coordinate and value. -/
def coordEntries (t : Token) : List (Nat × Option Nat) :=
  (List.range 8).filterMap fun i =>
    if t.mask.getLsbD (2 * i) then some (lane t.data (2 * i), if t.mask.getLsbD (2 * i + 1) then some (lane t.data (2 * i + 1)) else none)
    else none

/-- A token of at most 8 entries. -/
def coordTok (l : List (Nat × Option Nat)) : Token :=
  slotTok 32 (l.flatMap fun (p : Nat × Option Nat) => [some p.1, p.2])

/-! ## SPA (R394) -/

/-- TY of SPA's values. -/
def spaTy (c : UnitCfg) : Nat := cfgMod c / 32
/-- EXACT. -/
def spaExact (c : UnitCfg) : Bool := bits (cfgMod c) 4 1 = 1
/-- FR. -/
def spaFr (c : UnitCfg) : Nat := bits (cfgMod c) 2 2 + 1

/-- A value joins an entry. -/
def spaSum (c : UnitCfg) (e : Entry) (v : Nat) : Entry × FlagBits :=
  let w := tyWidth (spaTy c)
  let v := v % 2 ^ w
  match spaExact c, tyFloat (spaTy c) with
  | true, fm =>
    let x := match fm with | some f => decodeF f false v | none => intToF w v
    let E := sextInt 16 (wbits c.k0 0 16)
    ({ e with has := true, sum := e.sum + (termOf x E).t }, termFlags x E)
  | false, some f =>
    if !e.has then
      let (b, fl) := encodeF f 0 0 false (decodeF f false v)
      ({ e with has := true, bits := BitVec.ofNat 64 b }, fl)
    else
      let (b, fl) := encodeF f 0 0 false (fadd (decodeF f false e.bits.toNat) (decodeF f false v))
      ({ e with bits := BitVec.ofNat 64 b }, fl)
  | false, none => ({ e with has := true, bits := BitVec.ofNat 64 ((e.bits.toNat + v) % 2 ^ w) }, 0)

/-- One pair enters the scratch; a 257th coordinate is discarded and counted. -/
def spaPair (c : UnitCfg) (u : UnitState) (p : Nat × Option Nat) : UnitState :=
  match u.entries.find? (·.key == p.1) with
  | some e =>
    match p.2 with
    | none => u
    | some v =>
      let (e', fl) := spaSum c e v
      raise { u with entries := u.entries.map fun x => if x.key == p.1 then e' else x } fl
  | none =>
    if 256 ≤ u.entries.length then { u with n0 := u.n0 + 1 }
    else
      let e : Entry := { key := p.1, has := false, bits := 0, sum := 0 }
      match p.2 with
      | none => { u with entries := u.entries ++ [e] }
      | some v =>
        let (e', fl) := spaSum c e v
        raise { u with entries := u.entries ++ [e'] } fl

/-- Insert an entry by coordinate, signed. -/
def insertEntry (e : Entry) : List Entry → List Entry
  | [] => [e]
  | x :: xs => if sextInt 32 e.key ≤ sextInt 32 x.key then e :: x :: xs else x :: insertEntry e xs

/-- The value of an entry at flush, with flags: exact sums are rounded once (10 R248). [DEDUCED, log 25] -/
def spaValue (c : UnitCfg) (e : Entry) : Option Nat × FlagBits :=
  if !e.has then (none, 0)
  else if !spaExact c then (some e.bits.toNat, 0)
  else
    let x := finOfInt e.sum (sextInt 16 (wbits c.k0 0 16)) false
    let (v, fl) := match tyFloat (spaTy c) with
      | some f => encodeF f 0 0 false x
      | none => floatToInt (tyWidth (spaTy c)) 0 0 x
    (some v, fl)

/-- Whether an entry's sum is zero, or it has none. -/
def spaZero (c : UnitCfg) (e : Entry) : Bool :=
  !e.has || (if spaExact c then e.sum == 0 else !nonzero (spaTy c) false e.bits.toNat)

/-- The entries a flush sends, in its order. -/
def spaOrder (op : Nat) (c : UnitCfg) (es : List Entry) : List Entry :=
  match op with
  | 1 => es
  | 2 => (es.foldr insertEntry []).filter fun e => !spaZero c e
  | _ => es.foldr insertEntry []

/-- The tokens of a flush, with flags. -/
def spaFlush (op : Nat) (c : UnitCfg) (u : UnitState) : List Token × FlagBits :=
  match u.err with
  | some e => ([e], 0)
  | none =>
    if op = 3 then ([slotTok 32 [some u.entries.length]], 0)
    else
      let vs := (spaOrder op c u.entries).map fun e => (e.key, spaValue c e)
      ((chunks 8 33 (vs.map fun (p : Nat × (Option Nat × FlagBits)) => (p.1, p.2.1))).map coordTok, allFlags (vs.map (·.2)))

/-- SPA's rule. -/
def ruleSpa (op : Nat) : Rule := fun ref c u h =>
  match h.a with
  | none => none
  | some t =>
    if isErr t then some { ca := true, st := { u with err := some (u.err.getD t) } }
    else if !isCut t then some { ca := true, st := (coordEntries t).foldl (spaPair c) u }
    else if cutRank t < spaFr c then some { ca := true, st := u }
    else
      let (ts, fl) := spaFlush op c u
      let full := if u.n0 = 0 then [] else [opFault ref 4 u.n0]
      let ts := ts ++ full ++ [cutTok (cutRank t - spaFr c + 1)]
      some { ca := true, groups := ts.map fun t => [(0, t)], st := raise { u with entries := [], err := none, n0 := 0 } fl }

def execSpaAccum (stage slot : Nat) (s : State) : Result State := .next (runElement 7 0 false (ruleSpa 0) stage slot s)
def execSpaFlush (stage slot : Nat) (s : State) : Result State := .next (runElement 7 1 false (ruleSpa 1) stage slot s)
def execSpaFlushs (stage slot : Nat) (s : State) : Result State := .next (runElement 7 2 false (ruleSpa 2) stage slot s)
def execSpaClr (stage slot : Nat) (s : State) : Result State := .next (runElement 7 3 false (ruleSpa 3) stage slot s)

end Sys2Proof.Machine
end

