-- ==== Sys2Proof/Machine/Streams.lean ====
section
/-! DEFINITION. The element kinds SEQ, ISX, FLT, ORD, ELB and CRT (15 R390-R393, R395-R399). -/
namespace Sys2Proof.Machine

/-! ## SEQ (R390, R391) -/

/-- The rank that closes an instance: ENDR + 1, or L. -/
def seqRank (c : UnitCfg) : Nat := bits (cfgMod c) 4 2 + 1

/-- A source: SRC with input a disabled. -/
def seqSource (c : UnitCfg) : Bool := cfgSrc c && !cfgIn c 0

/-- An INT32 run of values `v 0`, `v 1`, …: token `k` of a run of `n`. -/
def runTok (n k : Nat) (v : Nat → Int) : Token :=
  slotTok 32 ((List.range (min 16 (n - 16 * k))).map fun j => some (intCode 32 (v (16 * k + j))))

/-- A control word in lanes 0 and 1. -/
def wordTok (w : Nat) : Token := { tag := 0, mask := 3, data := BitVec.ofNat 512 (w % 2 ^ 64) }

/-- Token `k` of an instance, and whether it is the last. -/
def seqTok (op : Nat) (c : UnitCfg) (trig k : Nat) : Token × Bool :=
  let rk := seqRank c
  match op with
  | 0 =>
    let n := wbits c.k1 0 32
    let T := (n + 15) / 16
    if k < T then
      (runTok n k fun i => (wbits c.k0 0 32 + trig : Nat) + (i : Int) * sextInt 32 (wbits c.k0 32 32), false)
    else (cutTok rk, true)
  | 1 =>
    let n0 := wbits c.k0 0 16
    let n1 := wbits c.k0 16 16
    let n2 := wbits c.k0 32 16
    let U := (n0 + 15) / 16 + 1
    let per := if rk = 1 then U else if n1 = 0 then 1 else n1 * U
    let total := if rk < 3 then per else if n2 = 0 then 1 else n2 * per
    let rem := k % per
    let i2 := k / per
    let last := total ≤ k + 1
    if (2 ≤ rk && n1 = 0) || (rk = 3 && n2 = 0) then (cutTok (if last then rk else 2), last)
    else
      let p := rem % U
      if p + 1 < U then
        (runTok n0 p fun i => (wbits c.k2 0 32 + trig + i + n0 * (rem / U + n1 * i2) : Nat), false)
      else (cutTok (if last then rk else if rem + 1 = per then 2 else 1), last)
  | _ =>
    let n := wbits c.k2 0 32
    if k < n then (wordTok (c.k0.toNat + trig + k * c.k1.toNat), false)
    else if k = n && c.k3 ≠ 0 then (wordTok c.k3.toNat, false)
    else (cutTok rk, true)

/-- The next token of the instance in progress: `n0` counts its tokens, `n2` holds its trigger, and `conts` marks it. -/
def seqNext (op : Nat) (c : UnitCfg) (u : UnitState) : Fired :=
  let (t, last) := seqTok op c u.n2 u.n0
  { groups := [[(0, t)]]
    st := if last then { u with n0 := 0, n2 := 0, conts := 0, exhausted := u.exhausted || seqSource c }
          else { u with n0 := u.n0 + 1, conts := if seqSource c then 0 else 1 } }

/-- The trigger value of a data token: a lane whose mask bit is clear reads 0. -/
def seqTrigger (op : Nat) (t : Token) : Nat :=
  let l := fun (j : Nat) => if t.mask.getLsbD j then lane t.data j else 0
  if op = 2 then l 0 + l 1 * 2 ^ 32 else l 0

/-- `range`, `nest` and `mtok`. -/
def ruleSeq (op : Nat) : Rule := fun _ c u h =>
  if seqSource c then
    if u.started && !u.exhausted then some (seqNext op c u) else none
  else if u.conts ≠ 0 then some (seqNext op c u)
  else
    match h.a with
    | none => none
    | some t =>
      if isCut t then some { ca := true, groups := [[(0, cutTok (min 4 (cutRank t + seqRank c)))]], st := u }
      else if isErr t then some { ca := true, groups := [[(0, t)]], st := u }
      else some { seqNext op c { u with n0 := 0, n2 := seqTrigger op t } with ca := true }

/-- The tokens of `btab` for one data token: `n1` is the previous index of the fibre, biased, 0 for none. -/
def btabToks (ref : UnitRef) (c : UnitCfg) : Nat → List (Option Nat) → Nat × List Token
  | prev, [] => (prev, [])
  | prev, none :: rest => btabToks ref c prev rest
  | prev, some j :: rest =>
    let i := sextInt 32 j
    let p := (i + 2 ^ 31 + 1).toNat
    if p ≤ prev then
      let (q, ts) := btabToks ref c prev rest
      (q, opFault ref 6 j :: ts)
    else
      let (q, ts) := btabToks ref c p rest
      (q, wordTok (intCode 64 ((c.k0.toNat : Int) + i * c.k1.toNat)) :: ts)

/-- `btab`. -/
def ruleBtab : Rule := fun ref c u h =>
  match h.a with
  | none => none
  | some t =>
    if isCut t then
      let drain := if c.k3 ≠ 0 then [[(0, wordTok c.k3.toNat)]] else []
      some { ca := true, groups := drain ++ [[(0, t)]], st := { u with n1 := 0 } }
    else if isErr t then some { ca := true, groups := [[(0, t)]], st := u }
    else
      let (p, ts) := btabToks ref c u.n1 (slotsOf 32 t)
      some { ca := true, groups := ts.map fun t => [(0, t)], st := { u with n1 := p } }

/-- Number the present slots from `n`. -/
def numberSlots (base : Nat) : Nat → List (Option Nat) → Nat × List (Option Nat)
  | n, [] => (n, [])
  | n, none :: rest => let (m, l) := numberSlots base n rest; (m, none :: l)
  | n, some _ :: rest => let (m, l) := numberSlots base (n + 1) rest; (m, some ((base + n) % 2 ^ 32) :: l)

/-- `tags`: `n3` counts the present slots. -/
def ruleTags : Rule := fun _ c u h =>
  match h.a with
  | none => none
  | some t =>
    if isCut t then some { ca := true, groups := [[(0, t)]], st := if seqRank c ≤ cutRank t then { u with n3 := 0 } else u }
    else if isErr t then some { ca := true, groups := [[(0, t)]], st := u }
    else
      let (n, vs) := numberSlots (wbits c.k0 0 32) u.n3 (slotsOf 32 t)
      some { ca := true, groups := [[(0, slotTok 32 vs)]], st := { u with n3 := n } }

def execSeqRange (stage slot : Nat) (s : State) : Result State := .next (runElement 5 0 false (ruleSeq 0) stage slot s)
def execSeqNest (stage slot : Nat) (s : State) : Result State := .next (runElement 5 1 false (ruleSeq 1) stage slot s)
def execSeqMtok (stage slot : Nat) (s : State) : Result State := .next (runElement 5 2 false (ruleSeq 2) stage slot s)
def execSeqBtab (stage slot : Nat) (s : State) : Result State := .next (runElement 5 3 false ruleBtab stage slot s)
def execSeqTags (stage slot : Nat) (s : State) : Result State := .next (runElement 5 4 false ruleTags stage slot s)

/-! ## ISX (R392, R393) -/

/-- The partial output tokens as a group, ahead of what follows. -/
def isxPartial (u : UnitState) : List (List (Nat × Token)) :=
  match u.toks, u.toks2 with
  | x :: _, y :: _ => [[(0, x), (1, y)]]
  | _, _ => []

/-- A token on both outputs. -/
def bothOut (t : Token) : List (Nat × Token) := [(0, t), (1, t)]

/-- Send a cut or error token on both outputs after the partial tokens. -/
def isxSend (u : UnitState) (t : Token) (f : Fired) : Fired :=
  { f with groups := isxPartial u ++ [bothOut t], st := { f.st with toks := [], toks2 := [], n2 := 0 } }

/-- Entry `n` of a partial token. -/
def putEntry (t : Token) (n : Nat) (p : Nat × Option Nat) : Token :=
  joinLanes t { tag := 0, mask := (coordTok [p]).mask <<< (2 * n), data := (coordTok [p]).data <<< (64 * n) }

/-- Send one pair: it joins the partial tokens, which go when they hold 8. -/
def isxPair (u : UnitState) (crd : Nat) (x y : Option Nat) : UnitState × List (List (Nat × Token)) :=
  let p := putEntry (u.toks.headD { tag := 0 }) u.n2 (crd, x)
  let q := putEntry (u.toks2.headD { tag := 0 }) u.n2 (crd, y)
  if 7 ≤ u.n2 then ({ u with toks := [], toks2 := [], n2 := 0 }, [[(0, p), (1, q)]])
  else ({ u with toks := [p], toks2 := [q], n2 := u.n2 + 1 }, [])

/-- The previous coordinate on a side within its fibre. -/
def isxPrev (u : UnitState) (side : Nat) : Option Nat := (u.entries.find? (·.key == side)).map fun e => e.bits.toNat

/-- Record or forget the previous coordinate of a side. -/
def setPrev (u : UnitState) (side : Nat) (v : Option Nat) : UnitState :=
  let rest := u.entries.filter (·.key != side)
  { u with entries := match v with
      | some v => { key := side, has := true, bits := BitVec.ofNat 64 v, sum := 0 } :: rest
      | none => rest }

/-- Pass one entry of a side: `n0` and `n1` count the entries of a's and b's head tokens that are used. -/
def isxUse (u : UnitState) (side : Nat) (crd : Nat) : UnitState :=
  setPrev (if side = 0 then { u with n0 := u.n0 + 1 } else { u with n1 := u.n1 + 1 }) side (some crd)

/-- The entry at a head: none at a cut. -/
def isxEntry (t : Token) (n : Nat) : Option (Nat × Option Nat) := if isData t then (coordEntries t)[n]? else none

/-- A coordinate not above the previous one of its side. -/
def isxLate (u : UnitState) (side : Nat) (e : Option (Nat × Option Nat)) : Option Nat :=
  match e, isxPrev u side with
  | some e, some p => if sextInt 32 e.1 ≤ sextInt 32 p then some e.1 else none
  | _, _ => none

/-- The table of R393 for entries: 0 isect, 1 union, 2 diff. -/
def isxStep (op : Nat) (u : UnitState) (x y : Option (Nat × Option Nat)) : Fired :=
  let sendX := fun (u : UnitState) (p : Nat × Option Nat) =>
    let (u, gs) := isxPair u p.1 p.2 none
    ({ groups := gs, st := isxUse u 0 p.1 } : Fired)
  let sendY := fun (u : UnitState) (p : Nat × Option Nat) =>
    let (u, gs) := isxPair u p.1 none p.2
    ({ groups := gs, st := isxUse u 1 p.1 } : Fired)
  let alone := fun (side : Nat) (p : Nat × Option Nat) =>
    if side = 0 then (if op = 0 then ({ st := isxUse u 0 p.1 } : Fired) else sendX u p)
    else (if op = 1 then sendY u p else ({ st := isxUse u 1 p.1 } : Fired))
  match x, y with
  | some p, some q =>
    if p.1 = q.1 then
      let (v, gs) := if op = 2 then (u, []) else isxPair u p.1 p.2 q.2
      { groups := gs, st := isxUse (isxUse v 0 p.1) 1 q.1 }
    else if sextInt 32 p.1 < sextInt 32 q.1 then alone 0 p else alone 1 q
  | some p, none => alone 0 p
  | none, some q => alone 1 q
  | none, none => { st := u }

/-- ISX's rule: the passing of a token whose entries are all used, or of an error, at either input by itself; one comparison or a
cut once both inputs hold a head. -/
def ruleIsx (op : Nat) : Rule := fun ref _ u h =>
  let used := fun (t : Option Token) (n : Nat) => match t with | some t => isData t && (coordEntries t).length ≤ n | none => false
  if used h.a u.n0 then some { ca := true, st := { u with n0 := 0 } }
  else if used h.b u.n1 then some { cb := true, st := { u with n1 := 0 } }
  else
    match h.a.filter isErr, h.b.filter isErr with
    | some e, _ => some (isxSend u e { ca := true, st := u })
    | none, some e => some (isxSend u e { cb := true, st := u })
    | none, none =>
      match h.a, h.b with
      | some a, some b =>
        if isCut a && isCut b then
          let p := pair2 ref a b
          let u' := if p.ca then setPrev u 0 none else u
          let u' := if p.cb then setPrev u' 1 none else u'
          some (isxSend u (p.tok.getD a) { ca := p.ca, cb := p.cb, st := u' })
        else
          let x := isxEntry a u.n0
          let y := isxEntry b u.n1
          match isxLate u 0 x, isxLate u 1 y with
          | some k, _ => some (isxSend u (opFault ref 3 k) { st := { u with n0 := u.n0 + 1 } })
          | none, some k => some (isxSend u (opFault ref 3 k) { st := { u with n1 := u.n1 + 1 } })
          | none, none => some (isxStep op u x y)
      | _, _ => none

def execIsxIsect (stage slot : Nat) (s : State) : Result State := .next (runElement 6 0 false (ruleIsx 0) stage slot s)
def execIsxUnion (stage slot : Nat) (s : State) : Result State := .next (runElement 6 1 false (ruleIsx 1) stage slot s)
def execIsxDiff (stage slot : Nat) (s : State) : Result State := .next (runElement 6 2 false (ruleIsx 2) stage slot s)

/-! ## FLT (R395) -/

/-- The slots of a whose predicate is true. -/
def fltKept (c : UnitCfg) (inv : Bool) (a : Token) (b : Option Token) : List (Option Nat) :=
  let ty := cfgMod c / 32
  let w := tyWidth ty
  let av := slotsOf w a
  let pv := match b with | some b => slotsOf w b | none => av
  (av.zip pv).map fun (p : Option Nat × Option Nat) =>
    let yes := match p.2 with | some v => nonzero ty false v | none => false
    if yes != inv then p.1 else none

/-- `keep` and `drop`. -/
def ruleKeep (inv : Bool) : Rule := fun ref c u h =>
  match pairHeads ref (cfgIn c 1) false h, h.a with
  | some p, some a =>
    match p.tok with
    | some t => some { ca := p.ca, cb := p.cb, groups := [[(0, t)]], st := u }
    | none =>
      let t := slotTok (tyWidth (cfgMod c / 32)) (fltKept c inv a (if cfgIn c 1 then h.b else none))
      some { ca := p.ca, cb := p.cb, groups := if bits (cfgMod c) 4 1 = 1 && t.mask = 0 then [] else [[(0, t)]], st := u }
  | _, _ => none

/-- `compact`: `toks` is the partial token and `n0` its slots. -/
def ruleCompact : Rule := fun ref c u h =>
  let w := tyWidth (cfgMod c / 32)
  let held := match u.toks with | t :: _ => (slotsOf w t).take u.n0 | [] => []
  match pairHeads ref (cfgIn c 1) false h, h.a with
  | some p, some a =>
    match p.tok with
    | some t =>
      let part := if u.n0 = 0 then [] else [[(0, slotTok w held)]]
      some { ca := p.ca, cb := p.cb, groups := part ++ [[(0, t)]], st := { u with toks := [], n0 := 0 } }
    | none =>
      let vs := held ++ ((fltKept c false a (if cfgIn c 1 then h.b else none)).filter Option.isSome)
      let n := slotCount w
      let rest := if n ≤ vs.length then vs.drop n else vs
      some { ca := p.ca, cb := p.cb, groups := if n ≤ vs.length then [[(0, slotTok w (vs.take n))]] else []
             st := { u with toks := if rest.isEmpty then [] else [slotTok w rest], n0 := rest.length } }
  | _, _ => none

def execFltKeep (stage slot : Nat) (s : State) : Result State := .next (runElement 8 0 false (ruleKeep false) stage slot s)
def execFltDrop (stage slot : Nat) (s : State) : Result State := .next (runElement 8 1 false (ruleKeep true) stage slot s)
def execFltCompact (stage slot : Nat) (s : State) : Result State := .next (runElement 8 2 false ruleCompact stage slot s)

/-! ## ORD (R396, R397) -/

/-- The tag in lane 15. -/
def tagOf (t : Token) : Nat := lane t.data 15
/-- Whether a token carries a tag. -/
def tagged (t : Token) : Bool := t.mask.getLsbD 15

/-- Write a tag. -/
def withTag (t : Token) (n : Nat) : Token :=
  { t with mask := t.mask ||| 0x8000, data := BitVec.ofNat 512 (t.data.toNat % 2 ^ 480 + n % 2 ^ 32 * 2 ^ 480) }

/-- Clear the tag. -/
def stripTag (t : Token) : Token := { t with mask := t.mask &&& 0x7FFF, data := BitVec.ofNat 512 (t.data.toNat % 2 ^ 480) }

/-- `tag`. -/
def ruleTag : Rule := fun _ _ u h =>
  match h.a with
  | none => none
  | some t =>
    if isCut t then some { ca := true, groups := [[(0, t)]], st := u }
    else some { ca := true, groups := [[(0, withTag t u.n0)]], st := { u with n0 := (u.n0 + 1) % 2 ^ 32 } }

/-- How far a tag is ahead of the expected one. -/
def ahead (t : Token) (X : Nat) : Nat := (tagOf t + 2 ^ 32 - X % 2 ^ 32) % 2 ^ 32

/-- The first action of a reord fc: what the window sends. -/
def reordSend (ref : UnitRef) (c : UnitCfg) (u : UnitState) : UnitState × List Token :=
  match u.toks.findIdx? fun t => 2 ^ 31 ≤ ahead t u.n0 with
  | some k => ({ u with toks := u.toks.eraseIdx k }, [opFault ref 5 (tagOf (u.toks.getD k { tag := 0 }))])
  | none =>
    match u.toks.findIdx? fun t => ahead t u.n0 = 0 with
    | some k =>
      let t := u.toks.getD k { tag := 0 }
      ({ u with toks := u.toks.eraseIdx k, n0 := (u.n0 + 1) % 2 ^ 32 },
       [if bits (cfgMod c) 0 1 = 1 then stripTag t else t])
    | none => (u, [])

/-- One input head: taken into the window, sent as late or untagged, or left. -/
def reordHead (ref : UnitRef) (room : Bool) (u : UnitState) (sent : List Token) (h : Option Token) : UnitState × List Token × Bool :=
  match h with
  | none => (u, sent, false)
  | some t =>
    if !isVal t then (u, sent, false)
    else if !tagged t then
      if room then (u, sent ++ [if isErr t then t else opFault ref 8 0], true) else (u, sent, false)
    else if ahead t u.n0 < 64 && u.toks.length < 64 then ({ u with toks := u.toks ++ [t] }, sent, true)
    else if 2 ^ 31 ≤ ahead t u.n0 && room then (u, sent ++ [opFault ref 5 (tagOf t)], true)
    else (u, sent, false)

/-- The cuts of the enabled inputs paired under R165, when every one holds a cut and the window is empty. -/
def reordCut (ref : UnitRef) (c : UnitCfg) (u : UnitState) (h : Heads) : Option Fired :=
  let ready := fun (p : Nat) (t : Option Token) => !cfgIn c p || (match t with | some t => isCut t | none => false)
  if u.toks.isEmpty && ready 0 h.a && ready 1 h.b && ready 2 h.c then
    match pairHeads ref (cfgIn c 1) (cfgIn c 2) h with
    | some p => match p.tok with
      | some t => some { ca := p.ca, cb := p.cb, cc := p.cc, groups := [[(0, t)]], st := u }
      | none => none
    | none => none
  else none

/-- `reord`; `room` says that output 0 has credit: without it the window still takes tokens. -/
def ruleReord (room : Bool) : Rule := fun ref c u h =>
  let (v, ts) := if room then reordSend ref c u else (u, [])
  let (v, ts, ca) := reordHead ref room v ts h.a
  let (v, ts, cb) := reordHead ref room v ts h.b
  let (v, ts, cc) := reordHead ref room v ts h.c
  if ts.isEmpty && !ca && !cb && !cc then (if room then reordCut ref c v h else none)
  else some { ca, cb, cc, groups := ts.map fun t => [(0, t)], st := v }

/-- Whether an element's output 0, and its continuity output beside it, have credit. -/
def outputRoom (s : State) (stage slot : Nat) : Bool :=
  match regionOf s stage with
  | some (_, x) => match unitCfg (getStage s stage) x slot with
    | some c => groupRoom (getStage s stage) x slot (finishGroup c [(0, { tag := 0 })])
    | none => false
  | none => false

def execOrdReord (stage slot : Nat) (s : State) : Result State :=
  .next (runElement 9 0 false (ruleReord (outputRoom s stage slot)) stage slot s)
def execOrdTag (stage slot : Nat) (s : State) : Result State := .next (runElement 9 1 false ruleTag stage slot s)

/-! ## ELB (R398) -/

/-- The fc since the last event count toward the report: `n0` highest occupancy, `n1` fc full, `n2` fc empty, `n3` the fc of
the last event. -/
def elbCount (fc : Nat) (u : UnitState) : UnitState :=
  let d := if u.n3 ≤ fc then fc - u.n3 else fc
  let sat := fun (n : Nat) => min n (2 ^ 32 - 1)
  { u with n1 := if u.toks.length = 64 then sat (u.n1 + d) else u.n1
           n2 := if u.toks.isEmpty then sat (u.n2 + d) else u.n2, n3 := fc }

/-- The report token of `watch`. -/
def watchTok (u : UnitState) : Token := slotTok 32 [some u.n0, some u.n1, some u.n2]

/-- What the FIFO head sends: a hold marker is sent by the hold protocol. -/
def elbHead (op : Nat) (c : UnitCfg) (u : UnitState) : Option (List (Nat × Token)) :=
  match u.toks with
  | [] => none
  | t :: _ =>
    if isHold t then none
    else if op = 1 && isCut t && bits (cfgMod c) 0 2 + 1 ≤ cutRank t then some (finishGroup c [(0, t), (1, watchTok u)])
    else some (finishGroup c [(0, t)])

/-- The head of input a joins the FIFO, hold markers too, with its continuity token where that input is enabled. -/
def elbTake (c : UnitCfg) (u : UnitState) : UnitState :=
  match u.a with
  | t :: rest =>
    let cont := cfgIn c 3 && !isHold t
    let ready := !cont || (match u.cont with | k :: _ => isCont k | [] => false)
    if cfgIn c 0 && u.toks.length < 64 && ready then
      { u with a := rest, toks := u.toks ++ [t], cont := if cont then u.cont.drop 1 else u.cont, n0 := max u.n0 (u.toks.length + 1) }
    else u
  | [] => u

/-- One fc of an ELB element. -/
def runElb (op stage slot : Nat) (s : State) : State :=
  match liveElement s 10 op stage slot with
  | none => s
  | some (_, x, c) =>
    let u := elbCount x.fc (getUnit s stage slot)
    let s := modUnit s stage slot fun _ => u
    let s := match elbHead op c u with
      | some l =>
        if groupRoom (getStage s stage) x slot l then
          let rep := l.any fun q => q.1 == 1
          modUnit (sendGroup s x stage slot l) stage slot fun u =>
            let u := { u with toks := u.toks.drop 1 }
            if rep then { u with n0 := u.toks.length, n1 := 0, n2 := 0 } else u
        else s
      | none => s
    modUnit s stage slot (elbTake c)

def execElbSlack (stage slot : Nat) (s : State) : Result State := .next (runElb 0 stage slot s)
def execElbWatch (stage slot : Nat) (s : State) : Result State := .next (runElb 1 stage slot s)

/-! ## CRT (R399) -/

/-- The N tokens of a block of at most N tokens. -/
def turnBlock (w : Nat) (ts : List Token) : List Token :=
  let n := slotCount w
  match ts.find? isErr with
  | some e => List.replicate n e
  | none => (List.range n).map fun j => slotTok w (ts.map fun t => (slotsOf w t).getD j none)

/-- CRT's rule for slots of `w` bits: `toks` fills while an earlier block waits in `out`. -/
def ruleTurn (w : Nat) : Rule := fun _ _ u h =>
  let send := fun (l : List Token) => l.map fun t => [((0 : Nat), t)]
  if slotCount w ≤ u.toks.length then
    (if u.out.isEmpty then some { groups := send (turnBlock w u.toks), st := { u with toks := [] } } else none)
  else
    match h.a with
    | none => none
    | some t =>
      if isCut t then
        if !u.out.isEmpty then none
        else
          let block := if u.toks.isEmpty then [] else turnBlock w u.toks
          some { ca := true, groups := send (block ++ [t]), st := { u with toks := [] } }
      else some { ca := true, st := { u with toks := u.toks ++ [t] } }

def execCrtTurn (stage slot : Nat) (s : State) : Result State := .next (runElement 11 0 true (ruleTurn 32) stage slot s)
def execCrtTurnw (stage slot : Nat) (s : State) : Result State := .next (runElement 11 1 true (ruleTurn 64) stage slot s)

end Sys2Proof.Machine
end

