-- ==== Sys2Proof/Machine/Sheet.lean ====
section
/-! DEFINITION. Call-sheet descriptors (08 R194-R198), the place of a tensor element (R187, R188), and vector accesses to the
arrays of a stage (R177-R193). -/
namespace Sys2Proof.Machine

/-- A descriptor: eight words. -/
abbrev Desc := List Word

/-- Bits of a descriptor's word. -/
def dfield (d : Desc) (i lo len : Nat) : Nat := wbits (d.getD i 0) lo len

def dFmt (d : Desc) : Nat := dfield d 0 59 5
def dAlg (d : Desc) : Nat := dfield d 0 56 3
/-- Component-planar. -/
def dPlanar (d : Desc) : Bool := dfield d 0 55 1 = 1
/-- 0 W, 1 X, 2 Y, 3 global. -/
def dLoc (d : Desc) : Nat := dfield d 0 53 2
def dPax (d : Desc) : Nat := dfield d 0 52 1
def dSqax (d : Desc) : Nat := dfield d 0 51 1
def dSqil (d : Desc) : Nat := dfield d 0 48 3
def dBase (d : Desc) : Nat := dfield d 0 0 48
/-- Extent of dimension k. -/
def dDim (d : Desc) (k : Nat) : Nat := dfield d 1 (16 * k) 16 + 1
def dOri (d : Desc) : Nat := dfield d 2 63 1
def dPsq (d : Desc) : Nat := dfield d 2 40 9
/-- Byte stride of dimension k = 1, 2, 3. -/
def dStride (d : Desc) (k : Nat) : Nat := dfield d (k + 1) 0 40
def dAccexp (d : Desc) : Int := sextInt 16 (dfield d 4 48 16)
def dBsloc (d : Desc) : Nat := dfield d 5 62 2
def dBsbase (d : Desc) : Nat := dfield d 5 0 48
def dBnloc (d : Desc) : Nat := dfield d 6 62 2
def dBnbase (d : Desc) : Nat := dfield d 6 0 48
def dSpf (d : Desc) : Nat := dfield d 7 61 3
/-- 0 FREEZE, 1 POISON. -/
def dFpol (d : Desc) : Nat := dfield d 7 59 2
def dSploc (d : Desc) : Nat := dfield d 7 57 2
def dSpbase (d : Desc) : Nat := dfield d 7 0 48

/-- Elements per cell of a format (R197). -/
def perCell (fmt : Nat) : Nat := match fmt with | 5 => 2 | 6 => 2 | 8 => 2 | 7 => 4 | 9 => 4 | _ => 1
/-- Cells per element. -/
def cellsPer (fmt : Nat) : Nat := match fmt with | 1 => 4 | 2 => 2 | 10 => 2 | 11 => 4 | 12 => 4 | 13 => 8 | _ => 1

/-- Rounded-up quotient. -/
def ceilDiv (a b : Nat) : Nat := (a + b - 1) / b

/-! ## Geometry -/

/-- What places a tensor's cells: `n0`, `n1` are the extents in elements (components side by side where interleaved), `p`
elements share a cell or `w` cells hold one. -/
structure Geo where
  base   : Nat
  psq    : Nat
  sqil   : Nat
  sqax   : Nat
  pax    : Nat
  planar : Bool
  dd     : Nat
  d0     : Nat
  d1     : Nat
  np     : Nat
  p      : Nat
  w      : Nat
  deriving DecidableEq, Repr

/-- The geometry of a descriptor whose algebra has dimension `dd`. -/
def geoOf (d : Desc) (dd : Nat) : Geo :=
  { base := dBase d, psq := dPsq d, sqil := dSqil d, sqax := dSqax d, pax := if 2 ≤ dLoc d then 0 else dPax d, planar := dPlanar d,
    dd, d0 := dDim d 0, d1 := dDim d 1, np := dDim d 2 * dDim d 3, p := perCell (dFmt d), w := cellsPer (dFmt d) }

/-- Extent along a0 in component elements. -/
def Geo.n0 (q : Geo) : Nat := if q.planar then q.d0 else q.dd * q.d0
/-- Extent along a0 in cells. -/
def Geo.c0 (q : Geo) : Nat := q.w * (if q.pax = 0 then ceilDiv q.n0 q.p else q.n0)
/-- Extent along a1 in cells. -/
def Geo.c1 (q : Geo) : Nat := if q.pax = 1 then ceilDiv q.d1 q.p else q.d1
/-- Planes. -/
def Geo.planes (q : Geo) : Nat := if q.planar then q.dd * q.np else q.np

/-- Square, row and column of the cell with cell coordinates x, y in a plane (R187). -/
def Geo.place (q : Geo) (x y pl : Nat) : Nat × Nat × Nat :=
  let ilv := 2 ^ q.sqil
  let (g, u, v, nv) := if q.sqax = 0 then (y % ilv, y / ilv, x, q.c0) else (x % ilv, y, x / ilv, ceilDiv q.c0 ilv)
  let rr := q.base % 2048 / 64 + u
  let blk := rr / 32 * ceilDiv nv 32 + v / 32
  (q.base / 2048 + pl * q.psq + g + ilv * blk, rr % 32, v % 32)

/-- Byte address of a cell in W or X (R181). -/
def Geo.cellAddr (q : Geo) (x y pl : Nat) : Nat :=
  let (sq, r, c) := q.place x y pl
  sq * 2048 + 64 * r + 2 * c

/-- Cell coordinates and sub-element of component k of element (a0, a1) in plane `pl0` of the element (R187). -/
def Geo.coord (q : Geo) (a0 a1 pl0 k : Nat) : Nat × Nat × Nat × Nat :=
  let e0 := if q.planar then a0 else q.dd * a0 + k
  let pl := if q.planar then k * q.np + pl0 else pl0
  if q.pax = 0 then (q.w * (e0 / q.p), a1, pl, e0 % q.p) else (q.w * e0, a1 / q.p, pl, a1 % q.p)

/-- The highest square a tensor uses (R198). -/
def Geo.topSquare (q : Geo) : Nat :=
  let ilv := 2 ^ q.sqil
  let last := fun (n : Nat) => if ilv ≤ n then [n - 1, n / ilv * ilv - 1] else [n - 1]
  let cells := if q.sqax = 0 then (last q.c1).map fun y => (q.c0 - 1, y) else (last q.c0).map fun x => (x, q.c1 - 1)
  (cells.map fun (c : Nat × Nat) => (q.place c.1 c.2 (q.planes - 1)).1).foldl max 0

/-- Byte length of a Y row, rounded up to 64 (R188). -/
def Geo.rowBytes (q : Geo) : Nat := ceilDiv (2 * q.c0) 64 * 64

/-- Byte address of a row of a Y tensor. -/
def Geo.yRow (q : Geo) (a1 pl : Nat) : Nat := q.base + (pl * q.d1 + a1) * q.rowBytes

/-- Size of an array in bytes (R177). -/
def arraySize (loc : Nat) : Nat := match loc with | 0 => 0x80000 | 1 => 0x60000 | _ => 0x20000
/-- Squares of an array. -/
def squareCount (loc : Nat) : Nat := match loc with | 0 => 256 | 1 => 192 | _ => 0

/-! ## Reading descriptors (R195, R198) -/

/-- The algebra dimension of a slot among tables; 0 where the slot holds none. -/
def slotDim (algs : List (Nat × BitVec 128)) (k : Nat) : Nat :=
  match Sparse.find? algs k with
  | some t => algDim t
  | none => 0

/-- A reserved bit set, or a reserved value (R196). -/
def descReserved (d : Desc) : Bool :=
  ([dFmt d = 0, 14 ≤ dFmt d, 5 ≤ dSqil d, 4 ≤ dSpf d, 2 ≤ dFpol d, dfield d 2 49 14 ≠ 0, dfield d 3 40 24 ≠ 0, dfield d 4 40 8 ≠ 0,
   dfield d 5 48 14 ≠ 0, dfield d 6 48 14 ≠ 0, dfield d 7 48 9 ≠ 0] : List Bool).any id

/-- Element size in bytes of a format that is not packed. -/
def elemBytes (fmt : Nat) : Nat := 2 * cellsPer fmt

/-- The descriptor fails (R198). -/
def descBad (algs : List (Nat × BitVec 128)) (d : Desc) : Bool :=
  let dd := slotDim algs (dAlg d)
  let q := geoOf d dd
  let l := dLoc d
  let align := if l = 3 then elemBytes (dFmt d) else 64
  ([descReserved d, dd = 0, dBase d % align ≠ 0, l < 3 && arraySize l ≤ dBase d,
   dPax d = 1 && (perCell (dFmt d) = 1 || 2 ≤ l),
   1 < cellsPer (dFmt d) && dSqax d = 1 && 0 < dSqil d,
   dFmt d = 7 && (dBsloc d = 2 || dBnloc d = 2),
   l < 2 && squareCount l ≤ q.topSquare,
   l = 2 && 0x20000 < q.yRow (q.d1 * q.planes) 0] : List Bool).any id

/-- A descriptor of a call sheet, read through a translation cache and checked. -/
def readDesc (s : State) (cache crew : Nat) (sheet : Word) (algs : List (Nat × BitVec 128)) (t : Nat) : Except DescErr Desc :=
  match vread s cache crew (sheet + BitVec.ofNat 64 (64 * (t % 1024))) 64 with
  | .error e => .error (accFault e)
  | .ok bs =>
    let d := (List.range 8).map fun i => wordOf (bs.drop (8 * i))
    if descBad algs d then .error (.bad fBADDESC 0) else .ok d

/-- A take's copy of a descriptor, read at its first use (R195). -/
def takeDesc (s : State) (r : Nat) (x : Region) (stage t : Nat) : Except DescErr (Desc × State) :=
  match Sparse.find? x.descs t with
  | some d => .ok (d, s)
  | none =>
    match readDesc s stage x.crew x.sheet x.algs t with
    | .error e => .error e
    | .ok d =>
      let s := countRead s stage x.crew (x.sheet + BitVec.ofNat 64 (64 * (t % 1024))) 64
      .ok (d, modRegion s r fun y => { y with descs := Sparse.insert y.descs t d })

/-- The geometry of a descriptor under a take's tables. -/
def takeGeo (x : Region) (d : Desc) : Geo := geoOf d (slotDim x.algs (dAlg d))

/-! ## Arrays -/

/-- An array's bytes. -/
def getArray (g : Stage) (loc : Nat) : Memory := match loc with | 0 => g.warr | 1 => g.xarr | _ => g.yarr
/-- Write an array. -/
def setArray (g : Stage) (loc : Nat) (m : Memory) : Stage :=
  match loc with | 0 => { g with warr := m } | 1 => { g with xarr := m } | _ => { g with yarr := m }

/-- The byte addresses of the 32 cells of an access: a row or unit from its address, a column from its cell in row 0 (R181). -/
def accessCells (addr : Nat) (col : Bool) : List Nat :=
  (List.range 32).map fun c => if col then addr + 64 * c else addr + 2 * c

/-- The key of an uncorrectable cell: a Y entry counts whole. -/
def badKey (loc a : Nat) : Nat × Nat := (loc, if loc = 2 then a / 16 * 16 else a / 2 * 2)

/-- Whether an access meets an uncorrectable cell (R180). -/
def accessBad (g : Stage) (loc addr : Nat) (col : Bool) : Bool :=
  (accessCells addr col).any fun a => g.bad.contains (badKey loc a)

/-- The 16-bit cells of an access. -/
def readCells (g : Stage) (loc addr : Nat) (col : Bool) : Block :=
  let m := getArray g loc
  BitVec.ofNat 512 (packSlots 16 ((accessCells addr col).map fun a => some (leNat (rawBytes m a 2))))

/-- The lanes a read sets: those with a cell within the extent (R191). -/
def extentMask (ext : Nat) : BitVec 16 := BitVec.ofNat 16 (2 ^ min 16 (ceilDiv ext 2) - 1)

/-- The cells that a write changes, with the bits changed in each and their new contents. -/
def cellWrites (addr : Nat) (col : Bool) (wm data : Block) : List (Nat × Nat × Nat) :=
  (((accessCells addr col).zipIdx).map fun (p : Nat × Nat) =>
    (p.1, bits wm.toNat (16 * p.2) 16, bits data.toNat (16 * p.2) 16)).filter fun c => c.2.1 ≠ 0

/-- Write the bits of an access that a mask selects; a cell or entry written whole is correct again (R180, R182). -/
def putCells (g : Stage) (loc addr : Nat) (col : Bool) (wm data : Block) : Stage :=
  let cells := cellWrites addr col wm data
  let put := fun (m : Memory) (c : Nat × Nat × Nat) =>
    let v := if c.2.1 = 0xFFFF then c.2.2 else leNat (rawBytes m c.1 2) &&& (0xFFFF - c.2.1) ||| c.2.2 &&& c.2.1
    putBytes m c.1 (leBytes 2 v)
  let full := (cells.filter fun c => c.2.1 = 0xFFFF).map (·.1)
  let whole := fun (k : Nat × Nat) =>
    k.1 == loc && (if loc = 2 then (List.range 8).all fun i => full.contains (k.2 + 2 * i) else full.contains k.2)
  { setArray g loc (cells.foldl put (getArray g loc)) with
    bad := g.bad.filter fun k => !whole k, soft := g.soft.filter fun k => !whole k, mend := g.mend.filter fun k => !whole k }

/-- The bits that a vector write may change: the cells of masked lanes within the extent, without the padding sub-elements
of packed cells (R187, R191). `full` and `last` are the bits of a cell, and of the last cell of the extent, that hold
elements. -/
def writeMask (mask : BitVec 16) (ext full last : Nat) : Block :=
  BitVec.ofNat 512 (((List.range (min 32 ext)).map fun i =>
    if mask.getLsbD (i / 2) then (if i + 1 = ext then last else full) * 2 ^ (16 * i) else 0).sum)

/-- Write a vector. -/
def writeCells (g : Stage) (loc addr : Nat) (col : Bool) (mask : BitVec 16) (data : Block) (ext : Nat) (full last : Nat := 0xFFFF) :
    Stage :=
  putCells g loc addr col (writeMask mask ext full last) data

/-! ## Vector accesses (R189) -/

/-- The access of a vector: array, address, orientation, cells within the extent, and the bits of its cells, and of the last
cell of the extent, that hold elements. -/
structure Vec where
  loc  : Nat
  addr : Nat
  col  : Bool
  ext  : Nat
  full : Nat := 0xFFFF
  last : Nat := 0xFFFF
  deriving DecidableEq, Repr

/-- The bits that hold elements in the last cell along the pack axis. -/
def Geo.endBits (q : Geo) : Nat :=
  let n := if q.pax = 0 then q.n0 else q.d1
  if q.p ≤ 1 || n % q.p = 0 then 0xFFFF else 2 ^ (16 / q.p * (n % q.p)) - 1

/-- The bits that hold elements in each cell of a line's vector, and in its last cell (R187). -/
def Geo.vecBits (q : Geo) (col : Bool) (line : Nat) : Nat × Nat :=
  if (q.pax = 1) == col then (0xFFFF, q.endBits)
  else if line + 1 = (if col then q.c0 else q.c1) then (q.endBits, q.endBits)
  else (0xFFFF, 0xFFFF)

/-- The access of a line's chunk in a plane, or its cause. Coordinates are cell coordinates. -/
def vecOf (d : Desc) (q : Geo) (col : Bool) (line chunk plane : Int) : Except (BitVec 16) Vec :=
  if dLoc d = 3 then .error fBADARRAY
  else if col && (dLoc d = 2 || !(dSqax d = 1 || dSqil d = 0) || dBase d % 2048 / 64 ≠ 0 || 1 < q.w) then .error fBADORIENT
  else if !col && dLoc d < 2 && !(dSqax d = 0 || dSqil d = 0) then .error fBADORIENT
  else
    let lines := if col then q.c0 else q.c1
    let along := if col then q.c1 else q.c0
    if line < 0 || chunk < 0 || plane < 0 || lines ≤ line.toNat || q.planes ≤ plane.toNat || along ≤ 32 * chunk.toNat then
      .error fBADINDEX
    else
      let c := chunk.toNat
      let pl := plane.toNat
      let ext := along - 32 * c
      let (full, last) := q.vecBits col line.toNat
      if dLoc d = 2 then .ok { loc := 2, addr := q.yRow line.toNat pl + 64 * c, col := false, ext, full, last }
      else if col then
        let (sq, _, v) := q.place line.toNat (32 * c) pl
        .ok { loc := dLoc d, addr := sq * 2048 + 2 * v, col := true, ext, full, last }
      else
        let (sq, r, _) := q.place (32 * c) line.toNat pl
        .ok { loc := dLoc d, addr := sq * 2048 + 64 * r, col := false, ext, full, last }

/-! ## Squares and banks (R183-R186) -/

/-- The square or bank an array access needs: W 0-255, X 256-447, Y banks 512-527. -/
def squareKey (array square : Nat) : Nat := match array with | 0 => square | 1 => 256 + square | _ => 512 + square
/-- The square or bank of an address. -/
def squareOf (array addr : Nat) : Nat := if array = 2 then addr / 64 % 16 else addr / 2048

/-- A read of a square or a bank corrects the cells it meets, if it must: the error is counted, and the corrected values are
due to be written back (R180). -/
def correctCells (s : State) (stage array addr : Nat) (col : Bool) : State :=
  let g := getStage s stage
  let met := ((accessCells addr col).map (badKey array)).eraseDups.filter g.soft.contains
  if met.isEmpty then s
  else
    modStage (countSoft s (dieOf stage) met.length) stage fun g => { g with mend := (g.mend ++ met).eraseDups }

/-- The request of the row, or the column, that holds a cell. -/
def reqAt (array cell : Nat) (col : Bool) (part : Nat) : SqReq :=
  { array, addr := if col then cell / 2048 * 2048 + cell % 64 / 2 * 2 else cell / 64 * 64, col, part }

/-- The requests that an agent has outstanding. -/
def agentReqs (g : Stage) (rank op : Nat) : List SqReq := g.reqs.filter fun q => q.rank == rank && q.op == op

/-- What an agent's accesses have come to. -/
inductive Asked where
  /-- some have not been granted -/
  | wait (s : State)
  | granted (qs : List SqReq)

/-- Ask for the accesses of an operation, or see whether all of them have been granted. -/
def askSquares (s : State) (fc stage rank op : Nat) (want : List SqReq) : Asked :=
  match agentReqs (getStage s stage) rank op with
  | [] =>
    if want.isEmpty then .granted []
    else .wait (modStage s stage fun g => { g with reqs := g.reqs ++ want.map fun q => { q with rank, op, age := fc } })
  | qs => if qs.all (·.done) then .granted qs else .wait s

/-- The agent has what it asked for. -/
def dropReqs (s : State) (stage rank op : Nat) : State :=
  modStage s stage fun g => { g with reqs := g.reqs.filter fun q => !(q.rank == rank && q.op == op) }

/-- The arrays as an agent has read them. -/
def readView (g : Stage) (qs : List SqReq) : Stage :=
  qs.foldl (fun g q => if q.write then g else putCells g q.array q.addr q.col (BitVec.allOnes 512) q.data) g

/-- An access is granted (R186): it reads or writes its cells. -/
def grantReq (s : State) (stage : Nat) (q : SqReq) : State :=
  let g := getStage s stage
  let set := fun (s : State) (v : SqReq) => modStage s stage fun g => { g with reqs := g.reqs.replace q v }
  if q.write then set (setStage s stage (putCells g q.array q.addr q.col q.wm q.data)) { q with done := true }
  else
    set (correctCells s stage q.array q.addr q.col)
      { q with done := true, data := readCells g q.array q.addr q.col
               bad := (accessCells q.addr q.col).filter fun a => g.bad.contains (badKey q.array a) }

end Sys2Proof.Machine
end

