-- ==== Sys2Proof/Machine/Operand.lean ====
section
/-! DEFINITION. The matrix node's control words, operands and terms (16 R402-R408; 10 R242-R251). -/
namespace Sys2Proof.Machine

/-! ## The control word (R402) -/

def cwSlot (w : Word) : Nat := wbits w 58 2
/-- ACC, or DEST of a drain. -/
def cwAcc (w : Word) : Bool := wbit w 57
def cwTrap (w : Word) : Bool := wbit w 56
/-- Rows m. -/
def cwM (w : Word) : Nat := wbits w 52 4 + 1
/-- Columns n. -/
def cwN (w : Word) : Nat := wbits w 48 4 + 1
/-- Chunks. -/
def cwK (w : Word) : Nat := wbits w 40 8 + 1
def cwFp (w : Word) : Nat := wbits w 36 4
def cwAlg (w : Word) : Nat := wbits w 33 3
def cwAsrc (w : Word) : Nat := wbits w 28 2
def cwBsrc (w : Word) : Nat := wbits w 27 1
def cwOra (w : Word) : Bool := wbit w 26
def cwOrb (w : Word) : Bool := wbit w 25
def cwTi (w : Word) : Nat := wbits w 16 8
def cwTj (w : Word) : Nat := wbits w 8 8
def cwTk (w : Word) : Nat := wbits w 0 8

/-- The fields (low bit, width) that a form may set. -/
def cwFields (opc : Nat) : List (Nat × Nat) :=
  let acc := [(58, 2), (57, 1), (40, 16), (36, 4), (25, 5), (0, 24)]
  match opc with
  | 0 => acc
  | 1 => (30, 6) :: acc
  | 2 => (56, 1) :: acc
  | 3 => acc
  | 4 => [(58, 2), (57, 1)]
  | 5 => [(58, 2), (57, 1), (48, 8), (8, 16)]
  | 6 => [(58, 2), (57, 1), (48, 8), (8, 16)]
  | 7 => [(58, 2)]
  | _ => []

/-- Format pair: A's and B's FMT codes and positions per chunk (R403). -/
def cwPair (fp : Nat) : Option (Nat × Nat × Nat) :=
  [(4, 4, 32), (3, 3, 32), (5, 5, 64), (5, 6, 64), (6, 5, 64), (6, 6, 64), (8, 8, 64), (7, 7, 128), (9, 9, 128)][fp]?

/-- Forms a pair is allowed in. -/
def pairAllowed (opc fp : Nat) : Bool :=
  match opc with
  | 1 => fp < 6
  | 3 => fp = 7
  | _ => fp < 9 && fp ≠ 7

/-- The constants k0 and k1 of the node (R401). -/
def mtxAten (c : UnitCfg) : Nat := wbits c.k0 0 10
def mtxBten (c : UnitCfg) : Nat := wbits c.k0 16 10
def mtxCten (c : UnitCfg) : Nat := wbits c.k0 32 10
def mtxRow (c : UnitCfg) : Nat := wbits c.k1 0 6
def mtxCol (c : UnitCfg) : Nat := wbits c.k1 8 6
def mtxAg (c : UnitCfg) : Nat := wbits c.k1 16 6 + 1
def mtxBg (c : UnitCfg) : Nat := wbits c.k1 24 6 + 1
def mtxAplane (c : UnitCfg) : Nat := wbits c.k1 32 16
def mtxBplane (c : UnitCfg) : Nat := wbits c.k1 48 16

/-- The algebra dimension of a token: d of its slot for `mmaa`, else 1. -/
def cwDim (algs : List (Nat × BitVec 128)) (opc : Nat) (w : Word) : Nat := if opc = 1 then slotDim algs (cwAlg w) else 1

/-- Checks 1 to 6 of R413; the mask is 3, or 7 with E on an accumulating form. -/
def cwBad (c : UnitCfg) (algs : List (Nat × BitVec 128)) (t : Token) (w : Word) : Bool :=
  let opc := wbits w 60 4
  let d := cwDim algs opc w
  ([8 < opc, strayBits w ((60, 4) :: cwFields opc), t.mask ≠ 3 && !(t.mask = 7 && opc ≤ 3), t.mask = 7 && lane t.data 2 / 2 ^ 16 ≠ 0,
    opc ≤ 3 && !pairAllowed opc (cwFp w), opc = 1 && (cwAlg w = 0 || d = 0 || cwSlot w % max 1 d ≠ 0),
    opc ≤ 3 && cwAsrc w = 3,
    opc ≤ 3 && cwAsrc w = 2 && mtxAg c < mtxRow c + cwM w,
    opc ≤ 3 && cwBsrc w = 1 && mtxBg c < mtxCol c + cwN w] : List Bool).any id

/-! ## Operand values -/

/-- The value of a code of an operand format. -/
def operandVal (fmt v : Nat) : FVal :=
  match floatFmt fmt with
  | some f => decodeF f false v
  | none => intToF (fmtBits fmt) v

/-- The d components of element `e` of a token's payload; none where a lane is absent. -/
def tokenVal (fmt d : Nat) (t : Token) (e : Nat) : Option (List FVal) :=
  let w := fmtBits fmt
  let idx := (List.range d).map fun k => d * e + k
  if isData t && idx.all (slotHere w t.mask) then some (idx.map fun i => operandVal fmt (slotBits w t.data i)) else none

/-- An operand fetched from an array. -/
structure Fetch where
  d     : Desc
  q     : Geo
  col   : Bool
  base  : Nat
  plane : Nat
  deriving DecidableEq, Repr

/-- Cell coordinates, plane and sub-element of component k of the element at a line and a contraction position; none beyond
the contraction extent (R405, R193). -/
def Fetch.coord (f : Fetch) (dim line pos k : Nat) : Option (Nat × Nat × Nat × Nat) :=
  let q := f.q
  let pl := if q.planar then k * q.np + f.plane else f.plane
  if f.col then
    if q.d1 ≤ pos then none else some (if q.planar then line else dim * line + k, pos / q.p, pl, pos % q.p)
  else
    let e0 := if q.planar then pos else dim * pos + k
    if q.n0 ≤ e0 then none else some (e0 / q.p, line, pl, e0 % q.p)

/-- The components of an element. -/
def Fetch.val (f : Fetch) (g : Stage) (dim line pos : Nat) : Option (List FVal) :=
  let fmt := dFmt f.d
  (List.range dim).mapM fun k =>
    (f.coord dim line pos k).map fun (x, y, pl, sub) =>
      let cell := leNat (rawBytes (getArray g (dLoc f.d)) (f.q.cellAddr x y pl) 2)
      operandVal fmt (bits cell (sub * fmtBits fmt) (fmtBits fmt))

/-- The vector accesses of a fetch of `lines` lines over the positions `[lo, lo + n)` (R193, R405): the rows or columns of 32
cells that hold them. -/
def Fetch.reqs (f : Fetch) (part dim lines lo n : Nat) : List SqReq :=
  let q := f.q
  let apart := f.col || q.planar
  let a := (if apart then lo else dim * lo) / q.p
  let b := if apart then min (lo + n) (if f.col then q.d1 else q.d0) else min (dim * (lo + n)) q.n0
  if b ≤ a * q.p then []
  else
    ((List.range lines).flatMap fun i => (List.range (if apart then dim else 1)).flatMap fun k =>
      (List.range ((b - 1) / q.p / 32 + 1 - a / 32)).map fun c =>
        let v := 32 * (a / 32 + c)
        let pl := if q.planar then k * q.np + f.plane else f.plane
        let line := f.base + i
        reqAt (dLoc f.d) (if f.col then q.cellAddr (if q.planar then line else dim * line + k) v pl else q.cellAddr v line pl)
          f.col part).eraseDups

/-- The cause that refuses a fetch: BADPACK, BADORIENT, BADINDEX (R405). -/
def Fetch.refused (f : Fetch) (dim lines : Nat) : Option (BitVec 16) :=
  let q := f.q
  let last := f.base + lines - 1
  if 1 < q.p && (q.pax = 1) != f.col then some fBADPACK
  else if f.col && (!(dSqax f.d = 1 || dSqil f.d = 0) || dBase f.d % 2048 / 64 ≠ 0) then some fBADORIENT
  else if !f.col && !(dSqax f.d = 0 || dSqil f.d = 0) then some fBADORIENT
  else if (if f.col then (if q.planar then q.d0 ≤ last else q.n0 ≤ dim * last + dim - 1) else q.d1 ≤ last) ||
      q.planes ≤ (if q.planar then (dim - 1) * q.np + f.plane else f.plane) then some fBADINDEX
  else none

/-- An operand: fetched, or the tokens of its groups (`size` tokens a chunk, the node's own from `first`). -/
inductive Operand where
  | fetch (f : Fetch)
  | toks (fmt size first : Nat) (ts : List Token)
  deriving DecidableEq, Repr

/-- The components of line `i`, element `t` of chunk `s`; `chunk0` is the first chunk and `npos` its elements. -/
def Operand.val (o : Operand) (g : Stage) (dim npos chunk0 i s t : Nat) : Option (List FVal) :=
  match o with
  | .fetch f => f.val g dim (f.base + i) ((chunk0 + s) * npos + t)
  | .toks fmt size first ts =>
    match ts[s * size + first + i]? with
    | some k => tokenVal fmt dim k t
    | none => none

/-! ## Terms -/

/-- What the terms of one cell come to. -/
structure CellSum where
  sum   : Int := 0
  clamp : Bool := false
  inv   : Bool := false
  head  : Nat := 0
  deriving DecidableEq, Repr

/-- Add a term. -/
def CellSum.add (c : CellSum) (t : Term) : CellSum :=
  { sum := c.sum + t.t, clamp := c.clamp || t.clamp, inv := c.inv || t.inv, head := max c.head t.head }

/-- The products of two elements: one, or the components of the algebra product (R406). -/
def products (tab : Option (BitVec 128)) (w : Word) (a b : List FVal) : List FVal :=
  match tab with
  | none => [fmul (a.headD .nan) (b.headD .nan)]
  | some t => algMul t (wbit w 32) (wbit w 31) (wbit w 30) a b

/-- Add the products of one position to the cell's sums, one per slot. -/
def addProducts (E : Int) (tab : Option (BitVec 128)) (w : Word) (cs : List CellSum) (a b : Option (List FVal)) : List CellSum :=
  match a, b with
  | some a, some b => (cs.zip (products tab w a b)).map fun (p : CellSum × FVal) => p.1.add (termOf p.2 E)
  | _, _ => cs

/-- What a control token's operands are. -/
structure MacIn where
  w     : Word
  opc   : Nat
  E     : Int
  dim   : Nat
  tab   : Option (BitVec 128)
  P     : Nat
  a     : Operand
  b     : Operand
  /-- descriptors of A and B where the form needs them: metadata, scales -/
  da    : Option Desc := none
  db    : Option Desc := none
  ga    : Option Geo := none
  gb    : Option Geo := none
  aplane : Nat := 0
  bplane : Nat := 0
  deriving DecidableEq, Repr

/-- The accesses of an operand. -/
def Operand.reqs (o : Operand) (part dim lines lo n : Nat) : List SqReq :=
  match o with
  | .fetch f => f.reqs part dim lines lo n
  | .toks _ _ _ _ => []

/-- Dense terms of cell (i, j): `mma` and `mmaa`. -/
def denseCell (g : Stage) (m : MacIn) (i j : Nat) : List CellSum :=
  let npos := m.P / m.dim
  ((List.range (cwK m.w)).flatMap fun s => (List.range npos).map fun t => (s, t)).foldl (fun cs (p : Nat × Nat) =>
    addProducts m.E m.tab m.w cs (m.a.val g m.dim npos (cwTk m.w) i p.1 p.2) (m.b.val g m.dim npos (cwTk m.w) j p.1 p.2))
    (List.replicate m.dim {})

/-! ### 4-of-8 sparse (R407, R251) -/

/-- Byte address of the metadata word of a row and group. -/
def metaAddr (d : Desc) (q : Geo) (col : Bool) (plane row grp : Nat) : Nat :=
  let rows := if col then q.d0 else q.d1
  let G := ceilDiv (if col then q.d1 else q.d0) 4
  dSpbase d + 2 * (plane * rows * G + row * G + grp)

/-- The metadata word of A's row `i`, group `grp`. -/
def metaWord (g : Stage) (m : MacIn) (i grp : Nat) : Nat :=
  match m.da, m.ga with
  | some d, some q =>
    leNat (rawBytes (getArray g (dSploc d)) (metaAddr d q (cwOra m.w) m.aplane (16 * cwTi m.w + i) grp) 2)
  | _, _ => 0

/-- The four positions of a metadata word. -/
def metaPos (v g' : Nat) : Nat := bits v (3 * g') 3

/-- The positions strictly ascend. -/
def metaOk (v : Nat) : Bool := metaPos v 0 < metaPos v 1 && metaPos v 1 < metaPos v 2 && metaPos v 2 < metaPos v 3

/-- Groups of the token's chunks that hold a stored value of A within its extent. [DEDUCED, log 26] -/
def metaGroups (m : MacIn) : List Nat :=
  let lo := cwTk m.w * (m.P / 4)
  let n := cwK m.w * (m.P / 4)
  let ext := match m.ga with | some q => ceilDiv (if cwOra m.w then q.d1 else q.d0) 4 | none => lo + n
  ((List.range n).map fun k => lo + k).filter (· < ext)

/-- Whether any group of the token's rows is illegal. -/
def metaBad (g : Stage) (m : MacIn) : Bool :=
  (List.range (cwM m.w)).any fun i => (metaGroups m).any fun k => !metaOk (metaWord g m i k)

/-- Whether a metadata word lies beyond its array. -/
def metaBeyond (m : MacIn) : Bool :=
  match m.da, m.ga with
  | some d, some q =>
    2 ≤ dSploc d || (List.range (cwM m.w)).any fun i => (metaGroups m).any fun k =>
      arraySize (dSploc d) < metaAddr d q (cwOra m.w) m.aplane (16 * cwTi m.w + i) k + 2
  | _, _ => true

/-- Sparse terms of cell (i, j). -/
def sparseCell (g : Stage) (m : MacIn) (i j : Nat) : List CellSum :=
  ((List.range (cwK m.w)).flatMap fun s => (List.range m.P).map fun t => (s, t)).foldl (fun cs (p : Nat × Nat) =>
    let grp := ((cwTk m.w + p.1) * m.P + p.2) / 4
    let v := metaWord g m i grp
    if !metaOk v then cs
    else
      let off := 8 * (p.2 / 4) + metaPos v (p.2 % 4)
      addProducts m.E none m.w cs (m.a.val g 1 m.P (cwTk m.w) i p.1 p.2)
        (m.b.val g 1 m.P (2 * cwTk m.w) j (2 * p.1 + off / m.P) (off % m.P))) [{}]

/-! ### Block-scaled FP4 (R408, R234, R235) -/

/-- An E3M5 block scale. -/
def e3m5 (v : Nat) : FVal :=
  let e := bits v 5 3
  let k := bits v 0 5
  if e = 0 then .fin false k (-7) else .fin false (32 + k) ((e : Int) - 8)

/-- The geometry of the block scales. -/
def scaleGeo (d : Desc) (q : Geo) : Geo :=
  { q with base := dBsbase d, p := 2, w := 1, d0 := if q.pax = 0 then ceilDiv q.d0 8 else q.d0
           d1 := if q.pax = 1 then ceilDiv q.d1 8 else q.d1 }

/-- Byte address of the block scale of a line's block. -/
def blockScaleAddr (d : Desc) (q : Geo) (plane line blk : Nat) : Nat :=
  let k := scaleGeo d q
  if q.pax = 0 then k.cellAddr (blk / 2) line plane + blk % 2 else k.cellAddr line (blk / 2) plane + blk % 2

/-- Byte address of a line's band scale. -/
def bandScaleAddr (d : Desc) (q : Geo) (plane line : Nat) : Nat :=
  let n := if q.pax = 0 then q.d1 else q.d0
  dBnbase d + 2 * (plane * ceilDiv n 64 + line / 64)

/-- The block and band scales of a line's block. [DEDUCED, log 26] -/
def scalesOf (g : Stage) (d : Option Desc) (q : Option Geo) (plane line blk : Nat) : FVal × FVal :=
  match d, q with
  | some d, some q =>
    (e3m5 (leNat (rawBytes (getArray g (dBsloc d)) (blockScaleAddr d q plane line blk) 1)),
     decodeF fmtB16 false (leNat (rawBytes (getArray g (dBnloc d)) (bandScaleAddr d q plane line) 2)))
  | _, _ => (.nan, .nan)

/-- The scales of a tensor cannot be read by the node: not in W or X, or beyond the array. -/
def scalesBeyond (d : Desc) (q : Geo) (plane base lines blk : Nat) : Bool :=
  2 ≤ dBsloc d || 2 ≤ dBnloc d || (List.range lines).any fun i =>
    arraySize (dBnloc d) < bandScaleAddr d q plane (base + i) + 2 ||
    arraySize (dBsloc d) ≤ blockScaleAddr d q plane (base + i) blk

/-- The scales' base addresses break R181: a band scale is a whole cell, and the block scales begin a row. [DEDUCED, log 26] -/
def scalesMisaligned (d : Desc) : Bool := dBnbase d % 2 ≠ 0 || dBsbase d % 64 ≠ 0

/-- The rows that hold the scales of `lines` lines from `base`, for `n` blocks from `lo`. -/
def scaleReqs (part : Nat) (d : Option Desc) (q : Option Geo) (plane base lines lo n : Nat) : List SqReq :=
  match d, q with
  | some d, some q =>
    let blocks := ceilDiv (if q.pax = 0 then q.d0 else q.d1) 8
    ((List.range lines).flatMap fun i =>
      reqAt (dBnloc d) (bandScaleAddr d q plane (base + i)) false part ::
      (((List.range n).map (lo + ·)).filter (· < blocks)).map fun b =>
        reqAt (dBsloc d) (blockScaleAddr d q plane (base + i) b) false part).eraseDups
  | _, _ => []

/-- The rows that hold a token's metadata words. -/
def metaReqs (m : MacIn) : List SqReq :=
  match m.da, m.ga with
  | some d, some q =>
    ((List.range (cwM m.w)).flatMap fun i => (metaGroups m).map fun k =>
      reqAt (dSploc d) (metaAddr d q (cwOra m.w) m.aplane (16 * cwTi m.w + i) k) false 2).eraseDups
  | _, _ => []

/-- Every access of an accumulating token (R404, R405, R407, R408): part 0 is A, 1 is B, 2 the metadata and 3 the scales of A,
4 the scales of B. -/
def macReqs (m : MacIn) : List SqReq :=
  let npos := m.P / m.dim
  let n := cwK m.w * npos
  let tk := cwTk m.w * npos
  let two := if m.opc = 2 then 2 else 1
  m.a.reqs 0 m.dim (cwM m.w) tk n ++ m.b.reqs 1 m.dim (cwN m.w) (two * tk) (two * n) ++
  (if m.opc = 2 then metaReqs m else []) ++
  (if m.opc = 3 then
    scaleReqs 3 m.da m.ga m.aplane (16 * cwTi m.w) (cwM m.w) (16 * cwTk m.w) (16 * cwK m.w) ++
    scaleReqs 4 m.db m.gb m.bplane (16 * cwTj m.w) (cwN m.w) (16 * cwTk m.w) (16 * cwK m.w)
   else [])

/-- One block's product: none where every position is skipped. -/
def blockProduct (g : Stage) (m : MacIn) (i j s blk : Nat) : Option FVal :=
  let ps := (List.range 8).map fun k =>
    (m.a.val g 1 m.P (cwTk m.w) i s (8 * blk + k), m.b.val g 1 m.P (cwTk m.w) j s (8 * blk + k))
  if ps.all fun (p : Option (List FVal) × Option (List FVal)) => p.1.isNone || p.2.isNone then none
  else
    let z : List FVal := [fzero false]
    let sum := ps.foldl (fun acc (p : Option (List FVal) × Option (List FVal)) =>
      fadd acc (fmul ((p.1.getD z).headD .nan) ((p.2.getD z).headD .nan))) (fzero false)
    let gb := 16 * (cwTk m.w + s) + blk
    let (sa, ba) := scalesOf g m.da m.ga m.aplane (16 * cwTi m.w + i) gb
    let (sb, bb) := scalesOf g m.db m.gb m.bplane (16 * cwTj m.w + j) gb
    some (fmul (fmul (fmul (fmul sum sa) sb) ba) bb)

/-- Block-scaled terms of cell (i, j). -/
def blockCell (g : Stage) (m : MacIn) (i j : Nat) : List CellSum :=
  ((List.range (cwK m.w)).flatMap fun s => (List.range 16).map fun b => (s, b)).foldl (fun cs (p : Nat × Nat) =>
    match blockProduct g m i j p.1 p.2 with
    | some v => cs.map fun c => c.add (termOf v m.E)
    | none => cs) [{}]

/-! ## Adding to the slots (R406) -/

/-- The sums of cell (i, j), one per slot. -/
def macCell (g : Stage) (m : MacIn) (i j : Nat) : List CellSum :=
  match m.opc with
  | 2 => sparseCell g m i j
  | 3 => blockCell g m i j
  | _ => denseCell g m i j

/-- Terms per slot. -/
def macTerms (m : MacIn) : Nat := cwK m.w * m.P * (if m.opc = 2 then 2 else 1) / (if m.opc = 3 then 8 else 1) / m.dim

/-- The slots a token names. -/
def macSlots (m : MacIn) : List Nat := (List.range m.dim).map (cwSlot m.w + ·)

/-- A slot before the terms: cleared when ACC is 0. -/
def macAcc (g : Stage) (m : MacIn) (k : Nat) : Acc := if cwAcc m.w then Sparse.get {} g.acc k else {}

/-- ACCEXP or ACCTERMS. -/
def macFault (g : Stage) (m : MacIn) : Option (BitVec 16) :=
  (macSlots m).findSome? fun k =>
    let a := macAcc g m k
    if a.terms ≠ 0 && a.exp ≠ m.E then some fACCEXP
    else if 2 ^ 32 < a.terms + macTerms m then some fACCTERMS
    else none

/-- One cell's sum joins a slot. -/
def accAdd (a : Acc) (cell : Nat) (c : CellSum) : Acc :=
  { a with sums := Sparse.set 0 a.sums cell (Sparse.get 0 a.sums cell + c.sum)
           clamp := a.clamp || c.clamp, inv := a.inv || c.inv, head := max a.head c.head }

/-- The slots after the token. -/
def macApply (g : Stage) (m : MacIn) : Stage :=
  let cells := (List.range (cwM m.w)).flatMap fun i => (List.range (cwN m.w)).map fun j => (16 * i + j, macCell g m i j)
  let bad := m.opc = 2 && metaBad g m
  { g with acc := (macSlots m).zipIdx.foldl (fun l (p : Nat × Nat) =>
      let a := macAcc g m p.1
      let a := { a with exp := if a.terms = 0 then m.E else a.exp, terms := a.terms + macTerms m, meta' := a.meta' || bad }
      Sparse.insert l p.1 (cells.foldl (fun a (c : Nat × List CellSum) => accAdd a c.1 (c.2.getD p.2 {})) a)) g.acc }

end Sys2Proof.Machine
end

