-- ==== Sys2Proof/Machine/Matrix.lean ====
section
/-! DEFINITION. The matrix node's control tokens (16 R401-R415). A control token collects its token-fed operands, asks the
squares for those it fetches and for its drained units, and takes effect when it has them. -/
namespace Sys2Proof.Machine

/-! ## Nodes -/

/-- The region and configuration of a node that may act: live, of this kind and operation, not held, not faulted. -/
def liveNode (s : State) (kind op stage slot : Nat) : Option (Nat × Region × UnitCfg) :=
  match regionOf s stage with
  | none => none
  | some (r, x) =>
    match unitCfg (getStage s stage) x slot with
    | none => none
    | some c =>
      let held := x.heldUnits.contains { stage, slot } || (cfgSrc c && (getUnit s stage slot).marked) ||
        x.faults.any (·.unit == { stage, slot })
      if regionLive x && cfgKind c == kind && cfgOp c == op && !held then some (r, x, c) else none

/-- Cause in an error token. -/
def errCause (t : Token) : BitVec 16 := BitVec.ofNat 16 (lane t.data 0)
/-- Value in an error token. -/
def errValue (t : Token) : Word := BitVec.ofNat 64 (bits t.data.toNat 64 64)

/-- The groups a node sends, on its enabled outputs. -/
def nodeGroups (c : UnitCfg) (gs : List (List (Nat × Token))) : List (List (Nat × Token)) :=
  (gs.map fun l => l.filter fun q => cfgOut c q.1).filter fun l => !l.isEmpty

/-- Queue a node's results and send the first where it has credit. -/
def nodeSend (s : State) (r : Nat) (x : Region) (c : UnitCfg) (stage slot : Nat) (gs : List (List (Nat × Token))) : State :=
  emitOut (modUnit s stage slot fun u => { u with out := u.out ++ nodeGroups c gs }) r x c stage slot

/-- The continuity input (R423, R412, R230): whether an access may begin, and the error token that stands there. -/
def contState (c : UnitCfg) (u : UnitState) : Bool × Option Token :=
  if !cfgIn c 3 then (true, none)
  else
    match u.cont with
    | t :: _ => if isErr t then (true, some t) else (isCont t, none)
    | [] => (false, none)

/-- Consume the continuity token. -/
def takeCont (c : UnitCfg) (u : UnitState) : UnitState := if cfgIn c 3 then { u with cont := u.cont.drop 1 } else u

/-! ## The matrix node's errors (R413, R414) -/

/-- The control token leaves, with its collected operands. -/
def endControl (u : UnitState) : UnitState := { u with c := u.c.drop 1, toks := [], toks2 := [], conts := 0 }

/-- An error token in place of the control token's effect, which takes a continuity token where the control token must; with
output 0 disabled the region freezes with its cause. -/
def mtxError (s : State) (r : Nat) (x : Region) (c : UnitCfg) (stage : Nat) (t : Token) (take cont : Bool) : State :=
  if cfgOut c 0 then
    let s := modUnit s stage 8 fun u => if take then takeCont c (endControl u) else endControl u
    nodeSend s r x c stage 8 [if cont then [(0, t), (2, t)] else [(0, t)]]
  else markFault s r { stage, slot := 8 } (errCause t) (errValue t) false

/-- A failure under a descriptor's policy: POISON sends an error token, FREEZE marks the node. -/
def mtxFail (s : State) (r : Nat) (x : Region) (c : UnitCfg) (stage fpol : Nat) (cause : BitVec 16) (take cont : Bool) : State :=
  if fpol = 1 then mtxError s r x c stage (errorToken cause (unitOrigin { stage, slot := 8 }) 0) take cont
  else markFault s r { stage, slot := 8 } cause 0 (cause == fUECC)

/-! ## Collecting token-fed operands (R404) -/

/-- Tokens a control token takes from inputs a and b, or from latches, over all its chunks. -/
def mtxNeeds (c : UnitCfg) (opc : Nat) (w : Word) : Nat × Nat :=
  if 3 < opc then (0, 0)
  else
    (match cwAsrc w with | 1 => cwK w * 16 | 2 => cwK w * mtxAg c | _ => 0,
     if cwBsrc w = 1 then cwK w * mtxBg c * (if opc = 2 then 2 else 1) else 0)

/-- The rows of a delivered latch as operand tokens: an absent row has no lane. -/
def latchRows (l : GLatch) : List Token :=
  ((l.rows ++ List.replicate 16 none).take 16).map fun (o : Option Token) => o.getD { tag := 0 }

/-- Take the next delivered latch; one that carries an error sends it on output 0 (R426), unless the node refuses it under FREEZE
(08 R192). -/
def takeLatch (s : State) (r : Nat) (x : Region) (c : UnitCfg) (stage : Nat) : State :=
  match (getStage s stage).latches with
  | [] => s
  | l :: rest =>
    match l.err with
    | some e =>
      if cfgOut c 0 && !l.freeze then
        let s := modStage s stage fun g => { g with latches := rest }
        let s := modUnit s stage 8 fun u => { u with toks := u.toks ++ latchRows l, conts := 1 }
        nodeSend s r x c stage 8 [[(0, e)]]
      else markFault s r { stage, slot := 8 } (errCause e) (errValue e) false
    | none =>
      let s := modStage s stage fun g => { g with latches := rest }
      modUnit s stage 8 fun u => { u with toks := u.toks ++ latchRows l, conts := 1 }

/-- Move a head token of input a or b to the collected operands. -/
def takeOperand (u : UnitState) (fromB : Bool) : UnitState :=
  match (if fromB then u.b else u.a) with
  | t :: rest =>
    if isHold t then u
    else if fromB then { u with b := rest, toks2 := u.toks2 ++ [t], conts := 1 }
    else { u with a := rest, toks := u.toks ++ [t], conts := 1 }
  | [] => u

/-- One fc of collecting: a token from each input that is short, or a latch. -/
def collectOperands (s : State) (r : Nat) (x : Region) (c : UnitCfg) (stage : Nat) (w : Word) (need : Nat × Nat) : State :=
  let u := getUnit s stage 8
  let s := if u.toks2.length < need.2 then modUnit s stage 8 (takeOperand · true) else s
  if u.toks.length < need.1 then
    if cwAsrc w = 1 then takeLatch s r x c stage else modUnit s stage 8 (takeOperand · false)
  else s

/-- A start token stands at the head of an input that has yet to give operands (07 R162). -/
def operandTagFault (u : UnitState) (w : Word) (need : Nat × Nat) : Bool :=
  let stray := fun (l : List Token) => match l with | t :: _ => isStart t | [] => false
  (u.toks2.length < need.2 && stray u.b) || (u.toks.length < need.1 && cwAsrc w ≠ 1 && stray u.a)

/-- The first cut or error among the collected operands, as the error token sent (R414). -/
def badOperand (stage : Nat) (u : UnitState) : Option Token :=
  match (u.toks ++ u.toks2).find? fun t => !isData t with
  | some t => some (if isErr t then t else skewTok { stage, slot := 8 })
  | none => none

/-! ## Accumulating forms (R406) -/

/-- The fetch of an operand. -/
def fetchOf (x : Region) (d : Desc) (col : Bool) (base plane : Nat) : Fetch := { d, q := takeGeo x d, col, base, plane }

/-- Take descriptors in order; the state records their first use. -/
def takeDescs (s : State) (r : Nat) (x : Region) (stage : Nat) : List Nat → Except DescErr (List Desc × State)
  | [] => .ok ([], s)
  | t :: ts =>
    match takeDesc s r x stage t with
    | .error e => .error e
    | .ok (d, s) =>
      match takeDescs s r ((getRegion s r).getD x) stage ts with
      | .error e => .error e
      | .ok (ds, s) => .ok (d :: ds, s)

/-- The tensors an accumulating token names: A's and B's where it fetches or needs their structures, CTEN where E comes from
ACCEXP. -/
def macTensors (c : UnitCfg) (opc : Nat) (w : Word) (t : Token) : List Nat :=
  let useA := cwAsrc w = 0 || opc = 2 || opc = 3
  let useB := cwBsrc w = 0 || opc = 3
  (if useA then [mtxAten c] else []) ++ (if useB then [mtxBten c] else []) ++ (if t.mask = 7 then [] else [mtxCten c])

/-- Check 7 of R413: a fetched descriptor's FMT or LOC, or a sparse form without SPF 1. -/
def macDescBad (opc : Nat) (w : Word) (fa fb : Nat) (da db : Option Desc) : Bool :=
  let bad := fun (d : Option Desc) (f : Nat) => match d with | some d => dFmt d ≠ f || 2 ≤ dLoc d | none => false
  (cwAsrc w = 0 && bad da fa) || (cwBsrc w = 0 && bad db fb) ||
  (opc = 2 && (match da with | some d => dSpf d ≠ 1 | none => true)) ||
  (opc = 3 && ((match da with | some d => dFmt d ≠ 7 | none => true) || (match db with | some d => dFmt d ≠ 7 | none => true)))

/-- The inputs of an accumulating token. -/
def macIn (x : Region) (c : UnitCfg) (u : UnitState) (opc : Nat) (w : Word) (t : Token) (fa fb P : Nat) (da db dc : Option Desc) : MacIn :=
  let opA := match cwAsrc w, da with
    | 0, some d => Operand.fetch (fetchOf x d (cwOra w) (16 * cwTi w) (mtxAplane c))
    | 1, _ => .toks fa 16 0 u.toks
    | _, _ => .toks fa (mtxAg c) (mtxRow c) u.toks
  let opB := match cwBsrc w, db with
    | 0, some d => Operand.fetch (fetchOf x d (cwOrb w) (16 * cwTj w) (mtxBplane c))
    | _, _ => .toks fb (mtxBg c) (mtxCol c) u.toks2
  let dim := cwDim x.algs opc w
  { w, opc, dim, P, a := opA, b := opB, da, db, ga := da.map (takeGeo x), gb := db.map (takeGeo x)
    E := if t.mask = 7 then sextInt 16 (lane t.data 2) else match dc with | some d => dAccexp d | none => 0
    tab := if opc = 1 then Sparse.find? x.algs (cwAlg w) else none
    aplane := mtxAplane c, bplane := mtxBplane c }

/-- The refusal of a fetch, with its policy. -/
def fetchFail (o : Operand) (dim lines : Nat) : Option (Nat × BitVec 16) :=
  match o with
  | .toks _ _ _ _ => none
  | .fetch f => (f.refused dim lines).map fun k => (dFpol f.d, k)

/-- A descriptor's policy. -/
def optFpol (d : Option Desc) : Nat := match d with | some d => dFpol d | none => 0

/-- The refusal of a token's operands, metadata or scales before any access: policy and cause. A metadata word is one cell,
so its base must be even (08 R181). [DEDUCED, log 26] -/
def macFail (m : MacIn) : Option (Nat × BitVec 16) :=
  match fetchFail m.a m.dim (cwM m.w), fetchFail m.b m.dim (cwN m.w) with
  | some f, _ => some f
  | none, some f => some f
  | none, none =>
    if m.opc = 2 then
      if m.da.any (fun (d : Desc) => dSpbase d % 2 ≠ 0) then some (optFpol m.da, fBADALIGN)
      else if metaBeyond m then some (optFpol m.da, fBADARRAY) else none
    else if m.opc = 3 then
      match m.da, m.ga, m.db, m.gb with
      | some da, some ga, some db, some gb =>
        let blk := (if ga.pax = 0 then ceilDiv ga.d0 8 else ceilDiv ga.d1 8) - 1
        let blk2 := (if gb.pax = 0 then ceilDiv gb.d0 8 else ceilDiv gb.d1 8) - 1
        if scalesMisaligned da then some (dFpol da, fBADALIGN)
        else if scalesMisaligned db then some (dFpol db, fBADALIGN)
        else if scalesBeyond da ga m.aplane (16 * cwTi m.w) (cwM m.w) blk then some (dFpol da, fBADARRAY)
        else if scalesBeyond db gb m.bplane (16 * cwTj m.w) (cwN m.w) blk2 then some (dFpol db, fBADARRAY)
        else none
      | _, _, _, _ => some (0, fBADFMT)
    else none

/-- An uncorrectable cell among the accesses of a token, under the policy of the operand that met it. -/
def macUecc (m : MacIn) (qs : List SqReq) : Option (Nat × BitVec 16) :=
  (qs.find? fun q => !q.bad.isEmpty).map fun q => (optFpol (if q.part = 1 || q.part = 4 then m.db else m.da), fUECC)

/-- Apply an accumulating token to the operands it has read: the faults of R406 and R251, which consume its operands, or the
sums. -/
def macEffect (s : State) (r : Nat) (x : Region) (c : UnitCfg) (stage : Nat) (m : MacIn) (fetches : Bool) (qs : List SqReq) : State :=
  let s := dropReqs s stage 1 0
  let g := readView (getStage s stage) qs
  let ref : UnitRef := { stage, slot := 8 }
  match macUecc m qs, macFault g m with
  | some (pol, cause), _ => mtxFail s r x c stage pol cause fetches false
  | none, bad =>
    let s := modUnit s stage 8 fun u => if fetches then takeCont c (endControl u) else endControl u
    match bad with
    | some cause => markFault s r ref cause 0 false
    | none =>
      if m.opc = 2 && cwTrap m.w && metaBad g m then markFault s r ref fMETA 0 false
      else modStage s stage fun h => { h with acc := (macApply g m).acc }

/-- An accumulating token whose token-fed operands are there: its continuity token, its refusals, its accesses. The
continuity token stays in its latch until the accesses have been granted (08 R203). -/
def macRun (s : State) (r : Nat) (x : Region) (c : UnitCfg) (stage : Nat) (m : MacIn) : State :=
  let u := getUnit s stage 8
  let ref : UnitRef := { stage, slot := 8 }
  let fetches := cwAsrc m.w = 0 || cwBsrc m.w = 0
  let (ready, cerr) := contState c u
  let fpol := match m.da, m.db with | some d, _ => dFpol d | none, some d => dFpol d | _, _ => 0
  if fetches && !ready then s
  else
    match (if fetches then cerr else none), macFail m with
    | some e, _ =>
      if fpol = 1 then mtxError s r x c stage e true false
      else markFault s r ref (errCause e) (errValue e) false
    | none, some (pol, cause) => mtxFail s r x c stage pol cause fetches false
    | none, none =>
      match askSquares s x.fc stage 1 0 (macReqs m) with
      | .wait s => s
      | .granted qs => macEffect s r x c stage m fetches qs

/-- An accumulating token at the head of the FIFO. -/
def macToken (s : State) (r : Nat) (x : Region) (c : UnitCfg) (stage opc : Nat) (w : Word) (t : Token) : State :=
  let u := getUnit s stage 8
  let ref : UnitRef := { stage, slot := 8 }
  match cwPair (cwFp w), takeDescs s r x stage (macTensors c opc w t) with
  | none, _ => markFault s r ref fBADFMT 0 false
  | _, .error .wait => s
  | _, .error (.bad cause v) => markFault s r ref cause v (cause == fXLATE || cause == fUECC)
  | some (fa, fb, P), .ok (ds, s) =>
    let useA := cwAsrc w = 0 || opc = 2 || opc = 3
    let useB := cwBsrc w = 0 || opc = 3
    let da := if useA then ds[0]? else none
    let db := if useB then ds[if useA then 1 else 0]? else none
    let dc := if t.mask = 7 then none else ds.getLast?
    if macDescBad opc w fa fb da db then markFault s r ref fBADFMT 0 false
    else
      let need := mtxNeeds c opc w
      if operandTagFault u w need then markFault s r ref fTOKTAG 0 false
      else if u.toks.length < need.1 || u.toks2.length < need.2 then collectOperands s r x c stage w need
      else
        match badOperand stage u with
        | some e =>
          let fetches := cwAsrc w = 0 || cwBsrc w = 0
          if fetches && !(contState c u).1 then s else mtxError s r x c stage e fetches false
        | none => macRun s r x c stage (macIn x c u opc w t fa fb P da db dc)

/-! ## Drains and status (R409-R411) -/

/-- A FINAL token of at most seven values (10 R246). -/
def finalTok (vs : List Nat) (st : Nat) (e : Int) : Token :=
  { tag := 0, mask := BitVec.ofNat 16 (0xC000 + (2 ^ (2 * vs.length) - 1))
    data := BitVec.ofNat 512 (packSlots 64 (vs.map some) + (e % 2 ^ 16).toNat * 2 ^ 448 + st * 2 ^ 464) }

/-- A PART token of at most three sums. -/
def partTok (vs : List Int) (st terms : Nat) (e : Int) : Token :=
  { tag := 0, mask := BitVec.ofNat 16 (0xF000 + (2 ^ (4 * vs.length) - 1))
    data := BitVec.ofNat 512 (packSlots 128 (vs.map fun (v : Int) => some (v % ((2 ^ 128 : Nat) : Int)).toNat) + (e % 2 ^ 16).toNat * 2 ^ 384 +
      st * 2 ^ 416 + terms % 2 ^ 33 * 2 ^ 448) }

/-- The sums of a row. -/
def accRow (a : Acc) (i n : Nat) : List Int := (List.range n).map fun j => Sparse.get 0 a.sums (16 * i + j)

/-- The slot after a FINAL drain of its m by n corner: SAT where a value is clamped (10 R247). -/
def drainSat (a : Acc) (m n : Nat) : Acc :=
  { a with sat := a.sat || (List.range m).any fun i => (accRow a i n).any fun v => (finalOf v).2 }

/-- The tokens of a drained row. -/
def drainRow (final : Bool) (a : Acc) (i n : Nat) : List Token :=
  if final then
    (chunks 7 3 ((accRow a i n).map fun v => if a.inv then accInvalid else (finalOf v).1)).map fun vs => finalTok vs (accStatus a) a.exp
  else (chunks 3 6 (accRow a i n)).map fun vs => partTok vs (accStatus a) a.terms a.exp

/-- The groups of a drain to output 0: a cut of rank 1 after each row, rank 2 after the last. -/
def drainGroups (final : Bool) (a : Acc) (m n : Nat) : List (List (Nat × Token)) :=
  (List.range m).flatMap fun i =>
    (drainRow final a i n).map (fun t => [(0, t)]) ++ [[(0, cutTok (if i + 1 = m then 2 else 1))]]

/-- The Y units a drain writes, with their tokens; or the cause that refuses one (R410). -/
def drainUnits (final : Bool) (w : Word) (d : Desc) (q : Geo) (a : Acc) : Except (BitVec 16) (List (Vec × Token)) :=
  ((List.range (cwM w)).flatMap fun i =>
    ((drainRow final a i (cwN w)).zipIdx).map fun (p : Token × Nat) => (i, p.2, p.1)).mapM fun (i, k, t) =>
      match vecOf d q false (16 * cwTi w + i : Nat) ((if final then 3 else 6) * cwTj w + k : Nat) 0 with
      | .ok v => .ok (v, t)
      | .error e => .error e

/-- The write of a drained unit. -/
def drainReq (p : Vec × Token) : SqReq :=
  { array := p.1.loc, addr := p.1.addr, write := true, wm := writeMask p.2.mask p.1.ext p.1.full p.1.last, data := p.2.data }

/-- A drain to output 0 holds its control token until its last token has gone, so that a replay can begin it again (R428): `n0`
marks it. -/
def drainEnd (s : State) (stage : Nat) : State :=
  modUnit s stage 8 fun u => if u.n0 = 1 && u.out.isEmpty then { endControl u with n0 := 0 } else u

/-- A drain (R410). -/
def drainToken (s : State) (r : Nat) (x : Region) (c : UnitCfg) (stage : Nat) (final : Bool) (w : Word) : State :=
  let ref : UnitRef := { stage, slot := 8 }
  let g := getStage s stage
  let a0 := Sparse.get {} g.acc (cwSlot w)
  let a := if final then drainSat a0 (cwM w) (cwN w) else a0
  let keep := fun (g : Stage) => { g with acc := Sparse.insert g.acc (cwSlot w) a }
  if !cwAcc w then
    drainEnd (nodeSend (modUnit (modStage s stage keep) stage 8 fun u => { u with n0 := 1 }) r x c stage 8
      (drainGroups final a (cwM w) (cwN w))) stage
  else
    match takeDesc s r x stage (mtxCten c) with
    | .error .wait => s
    | .error (.bad cause v) => markFault s r ref cause v (cause == fXLATE || cause == fUECC)
    | .ok (d, s) =>
      if dFmt d ≠ (if final then 12 else 13) || dLoc d ≠ 2 then markFault s r ref fBADFMT 0 false
      else
        let (ready, cerr) := contState c (getUnit s stage 8)
        if !ready then s
        else
          match cerr, drainUnits final w d (takeGeo x d) a with
          | some e, _ =>
            if dFpol d = 1 then mtxError s r x c stage e true true
            else markFault s r ref (errCause e) (errValue e) false
          | none, .error cause => mtxFail s r x c stage (dFpol d) cause true true
          | none, .ok us =>
            match askSquares s x.fc stage 2 0 (us.map drainReq) with
            | .wait s => s
            | .granted _ =>
              let s := modStage (dropReqs s stage 2 0) stage keep
              let s := modUnit s stage 8 fun u => takeCont c (endControl u)
              nodeSend s r x c stage 8 [[(2, contTok)]]

/-- The status token (R411). -/
def statTok (a : Acc) : Token :=
  slotTok 32 [some (accStatus a), some (intCode 32 a.exp), some (a.terms % 2 ^ 32), some (a.terms / 2 ^ 32 % 2)]

/-- A checked control token runs. -/
def controlToken (s : State) (r : Nat) (x : Region) (c : UnitCfg) (stage opc : Nat) (w : Word) (t : Token) : State :=
  if cwBad c x.algs t w then markFault s r { stage, slot := 8 } fBADFMT 0 false
  else
    match opc with
    | 4 =>
      let which := if cwAcc w then [0, 1, 2, 3] else [cwSlot w]
      modUnit (modStage s stage fun g => { g with acc := which.foldl (fun l k => Sparse.erase l k) g.acc }) stage 8 endControl
    | 5 => drainToken s r x c stage false w
    | 6 => drainToken s r x c stage true w
    | 7 =>
      nodeSend (modUnit s stage 8 endControl) r x c stage 8 [[(0, statTok (Sparse.get {} (getStage s stage).acc (cwSlot w)))]]
    | 8 => modUnit s stage 8 endControl
    | _ => if opc < 4 then macToken s r x c stage opc w t else s

/-- A cut or error at the control input (R414). -/
def passControl (s : State) (r : Nat) (x : Region) (c : UnitCfg) (stage : Nat) (t : Token) : State :=
  if isErr t then mtxError s r x c stage t false false
  else if isCut t then nodeSend (modUnit s stage 8 endControl) r x c stage 8 [[(0, t)]]
  else markFault s r { stage, slot := 8 } fTOKTAG 0 false

/-- One event of the matrix node: a waiting result is sent, or the control token at the head of the FIFO runs if its code is
this one. `nop`'s event also takes cuts, errors and tokens with a reserved code. [DEDUCED, log 26] -/
def runMatrix (opc stage : Nat) (s : State) : State :=
  match liveNode s 12 0 stage 8 with
  | none => s
  | some (r, x, c) =>
    let u := getUnit s stage 8
    if !u.out.isEmpty then drainEnd (emitOut s r x c stage 8) stage
    else
      match u.c with
      | [] => s
      | t :: _ =>
        if isHold t then s
        else if !isData t then (if opc = 8 then passControl s r x c stage t else s)
        else
          let w : Word := BitVec.ofNat 64 (t.data.toNat % 2 ^ 64)
          let k := wbits w 60 4
          if k = opc || (opc = 8 && 8 < k) then controlToken s r x c stage k w t else s

def execMma (stage : Nat) (s : State) : Result State := .next (runMatrix 0 stage s)
def execMmaa (stage : Nat) (s : State) : Result State := .next (runMatrix 1 stage s)
def execMmas (stage : Nat) (s : State) : Result State := .next (runMatrix 2 stage s)
def execMmab (stage : Nat) (s : State) : Result State := .next (runMatrix 3 stage s)
def execAccClear (stage : Nat) (s : State) : Result State := .next (runMatrix 4 stage s)
def execDrainp (stage : Nat) (s : State) : Result State := .next (runMatrix 5 stage s)
def execDrainf (stage : Nat) (s : State) : Result State := .next (runMatrix 6 stage s)
def execStat (stage : Nat) (s : State) : Result State := .next (runMatrix 7 stage s)
def execMtxNop (stage : Nat) (s : State) : Result State := .next (runMatrix 8 stage s)

end Sys2Proof.Machine
end

