-- ==== Sys2Proof/Machine/MemNode.lean ====
section
/-! DEFINITION. Memory nodes (16 R416-R424): token operations, their array and global events, the arbitration of squares and
banks (08 R183-R186), and the stream port's combining buffer (09 R218). A node issues its token operations one at a time; those
whose global accesses the stream port has all accepted wait behind it for their results. -/
namespace Sys2Proof.Machine

/-! ## Configuration (R416, R417) -/

def memOri (c : UnitCfg) : Bool := bits (cfgMod c) 7 1 = 1
def memPol (c : UnitCfg) : Nat := bits (cfgMod c) 1 2
def memScope (c : UnitCfg) : Nat := bits (cfgMod c) 5 2
def memRel (c : UnitCfg) : Bool := bits (cfgMod c) 4 1 = 1
def memAcq (c : UnitCfg) : Bool := bits (cfgMod c) 3 1 = 1
def memTen (c : UnitCfg) : Nat := wbits c.k0 0 10
def memTy (c : UnitCfg) : Nat := wbits c.k2 0 3

/-- Whether faults are poisoned: POL, or the tensor's FPOL where POL is 0. -/
def memPoison (c : UnitCfg) (d : Option Desc) : Bool :=
  match memPol c with
  | 1 => false
  | 2 => true
  | _ => match d with | some d => dFpol d = 1 | none => false

/-- Operations that name a tensor. -/
def memNamesTensor (op : Nat) : Bool := op < 4 || (9 ≤ op && op ≤ 14)
/-- Operations that pair input b token by token; an RMW does where b is enabled. -/
def memPairsB (c : UnitCfg) : Bool := [1, 5, 7].contains (cfgOp c) || (memRmwOp (cfgOp c) && cfgIn c 1)
/-- `ld` or `gld` as a source. -/
def memSource (c : UnitCfg) : Bool := cfgSrc c && !cfgIn c 0

/-! ## Failing and finishing -/

/-- Consume the operands of a token operation. -/
def memConsume (c : UnitCfg) (useB cont : Bool) (u : UnitState) : UnitState :=
  let u := if cont then takeCont c u else u
  if memSource c then { u with n0 := u.n0 + 1 } else { u with a := u.a.drop 1, b := if useB then u.b.drop 1 else u.b }

/-- A failed token operation (R424): under POISON its operands go and an error token leaves in place of its result and of its
continuity token, once the earlier ones have sent theirs; under FREEZE the node is marked and nothing is consumed. -/
def memFail (s : State) (r : Nat) (x : Region) (c : UnitCfg) (stage slot : Nat) (poison useB : Bool) (t : Token) (own : Bool) : State :=
  if poison then
    if !(getUnit s stage slot).past.isEmpty then s
    else nodeSend (modUnit s stage slot (memConsume c useB true)) r x c stage slot [[(0, t), (2, t)]]
  else markFault s r { stage, slot } (errCause t) (errValue t) (own && (errCause t == fXLATE || errCause t == fUECC))

/-- An operation's operand and continuity tokens leave the latches, once (09 R223). The continuity token of an operation that
began early on a relaxed edge is discarded when it comes (09 R216). -/
def memPop (c : UnitCfg) (m : MemOp) (u : UnitState) : UnitState :=
  if m.popped then u
  else if m.early then { memConsume c m.useB false u with owed := u.owed + 1 }
  else memConsume c m.useB true u

/-- An operation's result and its continuity token leave. -/
def memDeliver (s : State) (r : Nat) (x : Region) (c : UnitCfg) (stage slot : Nat) (m : MemOp) : State :=
  let cont := fun (t : Token) => if m.contSent then [] else [(2, t)]
  match m.err with
  | some e => nodeSend s r x c stage slot [(0, e) :: cont e]
  | none =>
    let res := if m.sends then [(0, { tag := 0, mask := m.outMask, data := m.outData })] else []
    nodeSend s r x c stage slot [res ++ cont contTok]

/-- The last event of the operation in progress has performed: its results leave, after those of the operations before it. -/
def memFinish (s : State) (r : Nat) (x : Region) (c : UnitCfg) (stage slot : Nat) (m : MemOp) : State :=
  let late := !(getUnit s stage slot).past.isEmpty
  let s := modUnit s stage slot fun u => { memPop c m u with op := none }
  if late then modUnit s stage slot fun u => { u with past := u.past ++ [{ m with popped := true, events := [] }] }
  else memDeliver s r x c stage slot m

/-! ## Planning (R418-R421, R424) -/

/-- What a plan gives: an operation, or the error that refuses it. -/
abbrev Plan := Except DescErr MemOp

/-- INT32 lane of a token, 0 where it is absent. -/
def laneInt (t : Token) (j : Nat) : Int := if t.mask.getLsbD j then sextInt 32 (lane t.data j) else 0

/-- The event of a vector access. -/
def vecEvent (fc : Nat) (v : Vec) : MemEvent :=
  { array := v.loc, addr := v.addr, col := v.col, ext := v.ext, full := v.full, last := v.last, age := fc }

/-- The vectors of lines at a chunk and plane. -/
def planVecs (d : Desc) (q : Geo) (col : Bool) (pts : List (Int × Int × Int)) : Except DescErr (List Vec) :=
  pts.mapM fun (l, k, p) =>
    match vecOf d q col l k p with
    | .ok v => .ok v
    | .error e => .error (.bad e 0)

/-- `ld` and `st`. -/
def planLine (c : UnitCfg) (fc : Nat) (d : Desc) (q : Geo) (a : Token) (b : Option Token) : Plan :=
  let pts := if a.mask.getLsbD 0 then [(laneInt a 0, laneInt a 1, laneInt a 2)] else []
  match planVecs d q (memOri c) pts with
  | .error e => .error e
  | .ok vs =>
    .ok { sends := b.isNone
          events := vs.map fun v => match b with
            | some t => { vecEvent fc v with write := true, mask := t.mask, data := t.data }
            | none => vecEvent fc v }

/-- `ldx` and `stx`: one vector per present lane; `stx` takes its data token by token. -/
def planLines (c : UnitCfg) (fc : Nat) (d : Desc) (q : Geo) (a : Token) (store : Bool) : Plan :=
  let pts := ((List.range 16).filter fun j => a.mask.getLsbD j).map fun j =>
    (laneInt a j, ((wbits c.k2 0 16 : Nat) : Int), ((wbits c.k2 16 16 : Nat) : Int))
  match planVecs d q (memOri c) pts with
  | .error e => .error e
  | .ok vs =>
    .ok { sends := false
          events := vs.map fun v => if store then { vecEvent fc v with write := true, rmw := 8 } else { vecEvent fc v with emits := true } }

/-- One piece of a global access: `off` is its byte of the token, `be` the bytes written. -/
def pieceEvent (p : Piece) (fc off : Nat) (write : Bool) (data : Nat) (be : Nat) : MemEvent :=
  { array := 3, addr := p.pa, len := p.len, key := p.key, kind := p.kind, va := p.va, slot := off, write, age := fc
    data := BitVec.ofNat 512 data, ext := be }

/-- The bytes of a token's masked lanes. -/
def byteMask (m : BitVec 16) : Nat := ((List.range 16).filter fun j => m.getLsbD j).foldl (fun a j => a + 15 * 2 ^ (4 * j)) 0

/-- The two runs of a 64-byte access by aligned block. -/
def blockRuns (va : Word) : List (Nat × Nat) :=
  let k := 64 - va.toNat % 64
  if k = 64 then [(0, 64)] else [(0, k), (k, 64 - k)]

/-- `gld` and `gst`: one event per aligned block with a byte to move (R419). -/
def planBlock (s : State) (stage crew fc : Nat) (a : Token) (b : Option Token) : Plan :=
  if a.mask.toNat % 4 ≠ 3 then .error (.bad fBADINDEX 0)
  else
    let va : Word := BitVec.ofNat 64 (a.data.toNat % 2 ^ 64)
    let be := match b with | some t => byteMask t.mask | none => 2 ^ 64 - 1
    let runs := (blockRuns va).filter fun (o, n) => bits be o n ≠ 0
    let evs : Except DescErr (List MemEvent) := runs.mapM fun (o, n) =>
      match pieceOf s stage crew (va + BitVec.ofNat 64 o) n (if b.isSome then .write else .read) false with
      | .error e => .error (accFault e)
      | .ok p => .ok (pieceEvent p fc o b.isSome (match b with | some t => bits t.data.toNat (8 * o) (8 * n) | none => 0) (bits be o n))
    match evs with
    | .error e => .error e
    | .ok l => .ok { events := l, sends := b.isNone, outMask := 0xFFFF }

/-- The events of one element of `n` bytes at byte `off` of the token. -/
def elemEvents (s : State) (stage crew fc : Nat) (va : Word) (n off : Nat) (w : Option Nat) : Except DescErr (List MemEvent) :=
  match pieces s stage crew (if w.isSome then .write else .read) false 3 va n with
  | .error e => .error (accFault e)
  | .ok ps => .ok ((ps.foldl (fun (acc : Nat × List MemEvent) p =>
      (acc.1 + p.len,
       acc.2 ++ [pieceEvent p fc (off + acc.1) w.isSome (bits (w.getD 0) (8 * acc.1) (8 * p.len)) (2 ^ p.len - 1)])) (0, [])).2)

/-- `gldx` and `gstx` (R419). -/
def planGather (s : State) (c : UnitCfg) (stage crew fc : Nat) (a : Token) (b : Option Token) : Plan :=
  let w := tyWidth (memTy c)
  let base := wbits c.k1 0 48
  let idx := (List.range (min 16 (slotCount w))).filter fun j =>
    a.mask.getLsbD j && (match b with | some t => slotHere w t.mask j | none => true)
  let evs : Except DescErr (List (List MemEvent)) := idx.mapM fun j =>
    elemEvents s stage crew fc (wordOfInt ((base : Int) + sextInt 32 (lane a.data j) * (w / 8 : Nat))) (w / 8) (j * w / 8)
      (b.map fun t => slotBits w t.data j)
  match evs with
  | .error e => .error e
  | .ok l =>
    .ok { events := l.flatten, sends := b.isNone
          outMask := slotMask w ((List.range (slotCount w)).map fun j => if idx.contains j then some 0 else none) }

/-- The present INT32 slots of a token as the result's mask. -/
def presentMask (a : Token) : BitVec 16 := a.mask

/-- `tas` (R420). -/
def planTas (c : UnitCfg) (fc : Nat) (a : Token) : Plan :=
  let base := wbits c.k1 0 20
  let arr := wbits c.k1 20 1
  let js := (List.range 16).filter fun j => a.mask.getLsbD j
  let evs : Except DescErr (List MemEvent) := js.mapM fun j =>
    let n := sextInt 32 (lane a.data j)
    if n < 0 then .error (.bad fBADINDEX 0)
    else
      let addr := base + 2 * (n.toNat / 16)
      if base % 2 = 1 || arraySize arr < addr + 2 then .error (DescErr.bad fBADARRAY 0)
      else .ok { array := arr, addr, write := true, rmw := 1, sub := n.toNat % 16, slot := 4 * j, len := 2, age := fc : MemEvent }
  match evs with
  | .error e => .error e
  | .ok l => .ok { events := l, outMask := presentMask a }

/-- Element width of a read-modify-write's TY matches TEN's FMT (R421). -/
def rmwFmtOk (ty fmt : Nat) : Bool := (ty = 4 && fmt = 10) || (ty = 6 && (fmt = 3 || fmt = 4)) || (ty = 7 && fmt = 8)

/-- The read-modify-write operations (R421). -/
def planRmw (c : UnitCfg) (fc : Nat) (d : Desc) (q : Geo) (a : Token) (b : Option Token) : Plan :=
  if 2 ≤ dLoc d then .error (.bad fBADARRAY 0)
  else if !rmwFmtOk (memTy c) (dFmt d) then .error (.bad fBADDESC 0)
  else
    let w := tyWidth (memTy c)
    let js := (List.range 16).filter fun j => a.mask.getLsbD j
    let evs : Except DescErr (List MemEvent) := js.mapM fun j =>
      let n := sextInt 32 (lane a.data j)
      if n < 0 || (q.d0 * q.d1 : Nat) ≤ n then .error (DescErr.bad fBADINDEX 0)
      else
        let (x, y, pl, sub) := q.coord (n.toNat % q.d0) (n.toNat / q.d0) 0 0
        let opnd := match b with | some t => lane t.data j | none => wbits c.k2 32 32
        .ok { array := dLoc d, addr := q.cellAddr x y pl + (if w = 8 then sub else 0), write := true, rmw := cfgOp c - 7
              slot := 4 * j, len := w / 8, data := BitVec.ofNat 512 (opnd % 2 ^ w), age := fc : MemEvent }
    match evs with
    | .error e => .error e
    | .ok l => .ok { events := l, outMask := presentMask a }

/-- Every translation and range check of a token operation, before its first event (R424). -/
def planOp (s : State) (x : Region) (c : UnitCfg) (stage : Nat) (d : Option Desc) (a : Token) (b : Option Token) : Plan :=
  match cfgOp c, d with
  | 0, some d => planLine c x.fc d (takeGeo x d) a none
  | 1, some d => planLine c x.fc d (takeGeo x d) a b
  | 2, some d => planLines c x.fc d (takeGeo x d) a false
  | 3, some d => planLines c x.fc d (takeGeo x d) a true
  | 4, _ => planBlock s stage x.crew x.fc a none
  | 5, _ => planBlock s stage x.crew x.fc a b
  | 6, _ => planGather s c stage x.crew x.fc a none
  | 7, _ => planGather s c stage x.crew x.fc a b
  | 8, _ => planTas c x.fc a
  | _, some d => planRmw c x.fc d (takeGeo x d) a b
  | _, none => .error (.bad fBADDESC 0)

/-! ## The stream port (09 R210, R218) -/

/-- The port accepts a memory node's write; it performs later. -/
def acceptWrite (s : State) (stage slot : Nat) (e : MemEvent) : State :=
  let (n, s) := acceptNext s stage
  modStage s stage fun g => { g with port := g.port ++ [(slot, { e with stamp := n })] }

/-- The buffered writes of the memory nodes that are selected leave the combining buffer, and the port accepts them. -/
def releaseCombined (s : State) (stage : Nat) (sel : Combined → Bool) : State :=
  ((getStage s stage).comb.filter sel).foldl (fun s w =>
    acceptWrite (modStage s stage fun g => { g with comb := g.comb.erase w }) stage w.agent (combinedEvent w)) s

/-- Whether the port holds a write of the node that has yet to perform. -/
def portHolds (g : Stage) (slot : Nat) : Bool := g.port.any fun p => p.1 == slot

/-- A stage without the buffered writes of the nodes that have no operation in progress (09 R218). -/
def settleBuffer (s : State) (stage : Nat) : State := releaseCombined s stage fun w => (nodeOps (getUnit s stage w.agent)).isEmpty

/-- COMBINING_BUFFER_RELEASE (09 R218): the buffered write with this index leaves the stream port's buffer of its own
accord: first the memory nodes' writes, then the contexts' stores in context order. -/
def execCombiningBufferRelease (stage index : Nat) (s : State) : Result State :=
  let g := getStage s stage
  match g.comb[index]? with
  | some w => .next (releaseCombined s stage (· == w))
  | none =>
    let k := index - g.comb.length
    let bufd := (List.range 4).flatMap fun c =>
      ((getCtx s (4 * stage + c)).stores.filter (·.buffered)).map fun t => (4 * stage + c, t.seq)
    match bufd[k]? with
    | none => .next s
    | some (c, q) =>
      .next (stampLeft (modCtx s c fun x =>
        { x with stores := x.stores.map fun t => if t.seq = q then { t with buffered := false } else t }) stage)

/-! ## Starting an operation -/

/-- The tokens of a source (R417). -/
def sourceToken (c : UnitCfg) (i : Nat) : Token :=
  if cfgOp c = 0 then
    let n := wbits c.k2 0 8 + 1
    slotTok 32 [some (i / n), some (i % n), some 0]
  else wordTok (wbits c.k1 0 48 + 64 * i)

/-! ### The address-compare queue (09 R216) -/

/-- The issued, ungranted array writes of a stage's two memory nodes, with their nodes. -/
def compareQueue (s : State) (stage : Nat) : List (Nat × MemEvent) :=
  [9, 10].filterMap fun slot => match (getUnit s stage slot).op with
    | some m => (m.events.head?.filter fun e => e.array < 3 && e.write && e.rmw ≠ 8).map fun e => (slot, e)
    | none => none

/-- Whether an operation may begin before its continuity token: it is a plain load of arrays; its edge comes straight from the
stage's other memory node, has stage scope, and carries no token; that node's last access, a plain store, is in the queue; and
the load meets no write held there. The early release is always taken. [DEDUCED, log 26] -/
def relaxed (s : State) (x : Region) (c : UnitCfg) (stage slot : Nat) (m : MemOp) : Bool :=
  let g := getStage s stage
  let u := getUnit s stage slot
  let other := 19 - slot
  let p := getUnit s stage other
  let edge := (activeRoutes g x 1).any fun w => w.frm == unitEnd other 2 && w.out == unitEnd slot 3 &&
    (getBuf g (bufKey 1 w.frm w.circ)).isEmpty
  let store := match unitCfg g x other with
    | some k => memScope k = 0 && !memRel k && (cfgOp k = 1 || cfgOp k = 3) && cfgOut k 2
    | none => false
  let held := match p.op with | some n => n.events.length = 1 | none => false
  let q := compareQueue s stage
  let meets := fun (e f : MemEvent) => e.array = f.array &&
    (accessCells e.addr e.col).any (((cellWrites f.addr f.col (writeMask f.mask f.ext f.full f.last) f.data).map (·.1)).contains)
  (cfgOp c = 0 || cfgOp c = 2) && !memAcq c && cfgIn c 3 && u.cont.isEmpty && u.owed = 0 && edge && store && held &&
    p.out.isEmpty && q.any (fun e => e.1 == other) && !m.events.isEmpty && m.events.all fun e => !q.any fun f => meets e f.2

/-- Whether an operation must wait before its first event: a write while the address-compare queue is full; a release-marked
access behind the node's writes that have not performed at its scope (R423); an access of an SO page behind any of them. -/
def memWaits (s : State) (c : UnitCfg) (stage slot : Nat) (m : MemOp) : Bool :=
  let g := getStage s stage
  let uo := m.events.all fun e => e.array = 3 && e.kind = 2
  (16 ≤ (compareQueue s stage).length && m.events.any fun e => e.array < 3 && e.write) ||
  (memRel c && !uo && memScope c ≠ 0 && (portHolds g slot || !(getUnit s stage slot).past.isEmpty))

/-- What the translations of a planned operation leave in the stage's cache (12 R309). -/
def usePlan (s : State) (crew stage : Nat) (m : MemOp) : State :=
  (m.events.filter (·.array == 3)).foldl (fun s e => usePage s stage crew e.va (if e.write then .write else .read)) s

/-- Begin a planned operation. -/
def memCommence (s : State) (r : Nat) (x : Region) (c : UnitCfg) (stage slot : Nat) (m : MemOp) : State :=
  let uo := m.events.all fun e => e.array = 3 && e.kind = 2
  let s := if memRel c && !uo then releaseCombined s stage (·.agent == slot) else s
  if memWaits s c stage slot m then s
  else
    let s := modUnit (usePlan s x.crew stage m) stage slot fun u => { u with op := some m }
    if m.events.isEmpty then memFinish s r x c stage slot m else s

/-- `stx` fails before its first event under POISON: its group's data tokens are still consumed, as a successful one's would be
(R424). -/
def stxFail (s : State) (stage slot : Nat) (a e : Token) : State :=
  let n := ((List.range 16).filter fun j => a.mask.getLsbD j).length
  let m : MemOp := { events := List.replicate n { array := 4, addr := 0, rmw := 8 }, sends := false, poison := true, err := some e }
  modUnit s stage slot fun u => { u with op := some m }

/-- Begin an operation on its operand tokens: the continuity token, then the plan. The tokens stay in their latches until the
last access has been granted or accepted (08 R203, 09 R223). [DEDUCED, log 26] -/
def memBegin (s : State) (r : Nat) (x : Region) (c : UnitCfg) (stage slot : Nat) (d : Option Desc) (a : Token) (b : Option Token) : State :=
  let u := getUnit s stage slot
  let poison := memPoison c d
  let useB := b.isSome
  let fail := fun (e : Token) (own : Bool) =>
    if poison && cfgOp c = 3 then stxFail s stage slot a e else memFail s r x c stage slot poison useB e own
  let (ready, cerr) := contState c u
  if !ready then
    match planOp s x c stage d a b with
    | .ok m => if relaxed s x c stage slot m then memCommence s r x c stage slot { m with poison, useB, early := true } else s
    | .error _ => s
  else
    match cerr, planOp s x c stage d a b with
    | some e, _ => fail e false
    | none, .error .wait => s
    | none, .error (.bad cause v) =>
      if cause = fBADDESC then markFault s r { stage, slot } cause v false
      else fail (errorToken cause (unitOrigin { stage, slot }) v) true
    | none, .ok m => memCommence s r x c stage slot { m with poison, useB }

/-- An operation on data tokens: its tensor's descriptor first. [DEDUCED, log 26] -/
def memStart (s : State) (r : Nat) (x : Region) (c : UnitCfg) (stage slot : Nat) (a : Token) (b : Option Token) : State :=
  if memNamesTensor (cfgOp c) then
    match takeDesc s r x stage (memTen c) with
    | .error .wait => s
    | .error (.bad cause v) => markFault s r { stage, slot } cause v (cause == fXLATE || cause == fUECC)
    | .ok (d, s) => memBegin s r x c stage slot (some d) a b
  else memBegin s r x c stage slot none a b

/-- Whether a node's policy is POISON: where POL is 0, by the descriptor of the tensor that its operations name, which is read now
if this take has not read it yet (R416, 08 R195). -/
def memPolicy (s : State) (r : Nat) (x : Region) (c : UnitCfg) (stage : Nat) : Except DescErr (Bool × State) :=
  if memPol c = 0 && memNamesTensor (cfgOp c) then
    match takeDesc s r x stage (memTen c) with
    | .error e => .error e
    | .ok (d, s) => .ok (dFpol d = 1, s)
  else .ok (memPoison c none, s)

/-- An error token on an operand, or a cut that meets data: the operation fails with it (R424, R165, R230). -/
def memBadOperand (s : State) (r : Nat) (x : Region) (c : UnitCfg) (stage slot : Nat) (useA useB : Bool) (t : Token) : State :=
  let u := getUnit s stage slot
  if (useA && !(contState c u).1) || !u.past.isEmpty then s
  else
    match memPolicy s r x c stage with
    | .error .wait => s
    | .error (.bad cause v) => markFault s r { stage, slot } cause v (cause == fXLATE || cause == fUECC)
    | .ok (false, s) => markFault s r { stage, slot } (errCause t) (errValue t) false
    | .ok (true, s) =>
      let s := modUnit s stage slot fun u =>
        let u := if useA then takeCont c u else u
        { u with a := if useA then u.a.drop 1 else u.a, b := if useB then u.b.drop 1 else u.b }
      nodeSend s r x c stage slot [if useA then [(0, t), (2, t)] else [(0, t)]]

/-- A cut goes to output 0, behind the results of the operations before it. [DEDUCED, log 26] -/
def memCut (s : State) (r : Nat) (x : Region) (c : UnitCfg) (stage slot : Nat) (p : Paired) : State :=
  if !(getUnit s stage slot).past.isEmpty then s
  else
    let s := modUnit s stage slot fun u => { u with a := if p.ca then u.a.drop 1 else u.a, b := if p.cb then u.b.drop 1 else u.b }
    match p.tok with
    | some t => nodeSend s r x c stage slot [[(0, t)]]
    | none => s

/-- The heads of a node that pairs a with b (R165). -/
def memPair (s : State) (r : Nat) (x : Region) (c : UnitCfg) (stage slot : Nat) (a b : Token) : State :=
  let p := pair2 { stage, slot } a b
  match p.tok with
  | none => memStart s r x c stage slot a (some b)
  | some t =>
    if isErr t then memBadOperand s r x c stage slot p.ca p.cb t else memCut s r x c stage slot p

/-- The next token operation of a source: an index token, the end cut, exhaustion (R417, R168). -/
def memSourceStep (s : State) (r : Nat) (x : Region) (c : UnitCfg) (stage slot : Nat) : State :=
  let u := getUnit s stage slot
  if !u.started || u.exhausted || (wbits c.k3 0 32 ≤ u.n0 && !u.past.isEmpty) then s
  else if u.n0 < wbits c.k3 0 32 then memStart s r x c stage slot (sourceToken c u.n0) none
  else
    let s := modUnit s stage slot fun u => { u with exhausted := true }
    if wbits c.k3 32 3 = 0 then s else nodeSend s r x c stage slot [[(0, cutTok (wbits c.k3 32 3))]]

/-- The operand heads of a node with no operation in progress. -/
def memHeads (s : State) (r : Nat) (x : Region) (c : UnitCfg) (stage slot : Nat) : State :=
  let u := getUnit s stage slot
  let hb := elemHead c u 1
  match elemHead c u 0 with
  | none => s
  | some a =>
    if isStart a || (match hb with | some b => isStart b | none => false) then markFault s r { stage, slot } fTOKTAG 0 false
    else if memPairsB c || (cfgOp c = 3 && isCut a) then
      match hb with
      | none => s
      | some b => memPair s r x c stage slot a b
    else if isCut a then memCut s r x c stage slot ⟨true, false, some a⟩
    else if isErr a then memBadOperand s r x c stage slot true false a
    else memStart s r x c stage slot a none

/-- `stx`'s next data token (R418). -/
def stxData (s : State) (r : Nat) (x : Region) (c : UnitCfg) (stage slot : Nat) (m : MemOp) (e : MemEvent) (rest : List MemEvent) : State :=
  let u := getUnit s stage slot
  let put := fun (s : State) (m : MemOp) =>
    let s := modUnit s stage slot fun u => { u with op := some m }
    if m.events.isEmpty then memFinish s r x c stage slot m else s
  match elemHead c u 1 with
  | none => s
  | some b =>
    if e.array = 4 && isData b then put (modUnit s stage slot fun u => { u with b := u.b.drop 1 }) { m with events := rest }
    else if isCut b then
      let t := skewTok { stage, slot }
      if m.poison then put s { m with events := [], err := some (m.err.getD t) }
      else markFault s r { stage, slot } fCUTSKEW 0 false
    else if isErr b then
      if m.poison then
        put (modUnit s stage slot fun u => { u with b := u.b.drop 1 }) { m with events := rest, err := some (m.err.getD b) }
      else markFault s r { stage, slot } (errCause b) (errValue b) false
    else if isStart b then markFault s r { stage, slot } fTOKTAG 0 false
    else put s { m with events := { e with rmw := 0, mask := b.mask, data := b.data, age := x.fc, popB := true } :: rest }

/-- Whether a write waits in the combining buffer: a UO page, no continuity output, NOCOMB clear, room, one run of bytes. -/
def combines (s : State) (c : UnitCfg) (stage : Nat) (e : MemEvent) : Bool :=
  e.write && e.kind = 2 && !cfgOut c 2 && !noComb s stage && combCount s stage < 64 && e.ext = 2 ^ e.len - 1

/-- Change one of a node's operations. -/
def memKeep (s : State) (stage slot : Nat) (m m' : MemOp) : State :=
  modUnit s stage slot fun u => if u.op = some m then { u with op := some m' } else { u with past := u.past.replace m m' }

/-- After an event of operation `m`: what is left of it, and its token where the event sends one. -/
def memAfter (s : State) (r : Nat) (x : Region) (c : UnitCfg) (stage slot : Nat) (m m' : MemOp) (sent : List (List (Nat × Token))) : State :=
  let mine := (getUnit s stage slot).op == some m
  let s := modUnit (memKeep s stage slot m m') stage slot fun u => { u with out := u.out ++ nodeGroups c sent }
  if mine && m'.events.isEmpty && regionLive x then memFinish s r x c stage slot m' else s

/-- The next global access of the operation in progress goes to the stream port, after the node's own buffered writes that it must
follow. An SO access waits until the node's accesses have performed. Once the last access is accepted, the next operation may
begin, unless the accesses are acquire-marked or SO (R423, 09 R218); at stage scope the continuity token leaves (09 R209, R210,
R213). [DEDUCED, log 26] -/
def memIssue (s : State) (r : Nat) (x : Region) (c : UnitCfg) (stage slot : Nat) (m : MemOp) (e : MemEvent) (rest : List MemEvent) : State :=
  let s := releaseCombined s stage fun w => w.agent == slot && (e.kind = 1 || overlaps w.pa w.bytes.length e.addr e.len)
  let near := memScope c = 0 && e.kind ≠ 1
  if e.kind = 1 && (portHolds (getStage s stage) slot || !(getUnit s stage slot).past.isEmpty) then s
  else if combines s c stage e then
    memAfter (modStage s stage fun g => { g with comb := g.comb ++
      [{ agent := slot, va := e.va, pa := e.addr, key := e.key, bytes := leBytes e.len e.data.toNat }] }) r x c stage slot m { m with events := rest } []
  else
    let (n, s) := acceptNext s stage
    let m := { m with events := { e with stamp := n } :: rest }
    if !rest.isEmpty then modUnit s stage slot fun u => { u with op := some m }
    else
      let m' := { m with popped := true, contSent := m.contSent || near }
      let s := modUnit s stage slot fun u =>
        if memAcq c || e.kind = 1 then { memPop c m u with op := some m' } else { memPop c m u with op := none, past := u.past ++ [m'] }
      if near && !m.contSent then nodeSend s r x c stage slot [[(2, contTok)]] else s

/-- One event of a memory node outside its accesses: the token of a relaxed edge is discarded, a waiting result is sent, `stx`
takes data, a global access is issued, or an operation begins. [DEDUCED, log 26] -/
def runMemNode (op stage slot : Nat) (s : State) : State :=
  if slot ≠ 9 && slot ≠ 10 then s
  else
    match liveNode s 13 op stage slot with
    | none => s
    | some (r, x, c) =>
      let u := getUnit s stage slot
      if 0 < u.owed && !u.cont.isEmpty && !u.cont.head?.any isHold then
        modUnit s stage slot fun u => { u with cont := u.cont.drop 1, owed := u.owed - 1 }
      else if !u.out.isEmpty then emitOut s r x c stage slot
      else
        match u.past.head?.filter (·.events.isEmpty), u.op with
        | some m, _ => memDeliver (modUnit s stage slot fun u => { u with past := u.past.drop 1 }) r x c stage slot m
        | none, some m =>
          (match m.events with
           | e :: rest =>
             if e.rmw = 8 then stxData s r x c stage slot m e rest
             else if e.array = 3 && e.stamp = 0 then memIssue s r x c stage slot m e rest
             else s
           | [] => memFinish s r x c stage slot m)
        | none, none => if memSource c then memSourceStep s r x c stage slot else memHeads s r x c stage slot

def execMemLd (stage slot : Nat) (s : State) : Result State := .next (runMemNode 0x00 stage slot s)
def execMemSt (stage slot : Nat) (s : State) : Result State := .next (runMemNode 0x01 stage slot s)
def execMemLdx (stage slot : Nat) (s : State) : Result State := .next (runMemNode 0x02 stage slot s)
def execMemStx (stage slot : Nat) (s : State) : Result State := .next (runMemNode 0x03 stage slot s)
def execMemGld (stage slot : Nat) (s : State) : Result State := .next (runMemNode 0x04 stage slot s)
def execMemGst (stage slot : Nat) (s : State) : Result State := .next (runMemNode 0x05 stage slot s)
def execMemGldx (stage slot : Nat) (s : State) : Result State := .next (runMemNode 0x06 stage slot s)
def execMemGstx (stage slot : Nat) (s : State) : Result State := .next (runMemNode 0x07 stage slot s)
def execMemTas (stage slot : Nat) (s : State) : Result State := .next (runMemNode 0x08 stage slot s)
def execMemRadd (stage slot : Nat) (s : State) : Result State := .next (runMemNode 0x09 stage slot s)
def execMemRmin (stage slot : Nat) (s : State) : Result State := .next (runMemNode 0x0A stage slot s)
def execMemRmax (stage slot : Nat) (s : State) : Result State := .next (runMemNode 0x0B stage slot s)
def execMemRor (stage slot : Nat) (s : State) : Result State := .next (runMemNode 0x0C stage slot s)
def execMemRand (stage slot : Nat) (s : State) : Result State := .next (runMemNode 0x0D stage slot s)
def execMemRxor (stage slot : Nat) (s : State) : Result State := .next (runMemNode 0x0E stage slot s)

/-! ## Performing events -/

/-- An event that meets an uncorrectable cell or block (R424). -/
def memUecc (s : State) (r : Nat) (x : Region) (c : UnitCfg) (stage slot : Nat) (m : MemOp) (v : Word) : State :=
  if m.poison then
    memAfter s r x c stage slot m { m with err := some (m.err.getD (errorToken fUECC (unitOrigin { stage, slot }) v)), events := [] } []
  else markFault s r { stage, slot } fUECC v true

/-- The new value of a read-modify-write: 2 radd, 3 rmin, 4 rmax, 5 ror, 6 rand, 7 rxor (R421). -/
def rmwValue (fn w old v : Nat) : Nat :=
  match fn with
  | 2 => (old + v) % 2 ^ w
  | 3 => intCode w (min (sextInt w old) (sextInt w v))
  | 4 => intCode w (max (sextInt w old) (sextInt w v))
  | 5 => old ||| v
  | 6 => old &&& v
  | _ => old ^^^ v

/-- Place `n` bytes of a value at a byte of a block. -/
def placeBytes (b : Block) (off n v : Nat) : Block := b ||| BitVec.ofNat 512 (v % 2 ^ (8 * n) * 2 ^ (8 * off))

/-- Whether an array event's cells are uncorrectable. -/
def eventBad (g : Stage) (e : MemEvent) : Bool :=
  if e.rmw = 0 then !e.write && accessBad g e.array e.addr e.col
  else (List.range e.len).any fun i => g.bad.contains (badKey e.array (e.addr + i))

/-- Cells are written back with new bytes in them: each is correct again (R180). -/
def rewriteCells (g : Stage) (loc addr : Nat) (bs : List Byte) : Stage :=
  let here := (List.range bs.length).map fun i => badKey loc (addr + i)
  { setArray g loc (putBytes (getArray g loc) addr bs) with
    soft := g.soft.filter fun k => !here.contains k, mend := g.mend.filter fun k => !here.contains k }

/-- An array event is granted. [DEDUCED, log 26] -/
def performArray (s : State) (r : Nat) (x : Region) (c : UnitCfg) (stage slot : Nat) (m : MemOp) (e : MemEvent) (rest : List MemEvent) : State :=
  let g := getStage s stage
  if eventBad g e then memUecc s r x c stage slot m 0
  else if e.rmw = 0 then
    if e.write then
      let s := if e.popB then modUnit s stage slot fun u => { u with b := u.b.drop 1 } else s
      memAfter (modStage s stage fun g => writeCells g e.array e.addr e.col e.mask e.data e.ext e.full e.last) r x c stage slot m
        { m with events := rest } []
    else
      let s := correctCells s stage e.array e.addr e.col
      let t := cleanTok { tag := 0, mask := extentMask e.ext, data := readCells g e.array e.addr e.col }
      if e.emits then memAfter s r x c stage slot m { m with events := rest } [[(0, t)]]
      else memAfter s r x c stage slot m { m with events := rest, outMask := t.mask, outData := t.data } []
  else
    let s := correctCells s stage e.array (e.addr / 64 * 64) false
    let g := getStage s stage
    let old := leNat (rawBytes (getArray g e.array) e.addr e.len)
    let new := if e.rmw = 1 then old ||| 2 ^ e.sub else rmwValue e.rmw (8 * e.len) old e.data.toNat
    let res := if e.rmw = 1 then bits old e.sub 1 else intCode 32 (sextInt (8 * e.len) old)
    memAfter (setStage s stage (rewriteCells g e.array e.addr (leBytes e.len new))) r x c stage slot m
      { m with events := rest, outData := placeBytes m.outData e.slot 4 res } []

/-- A request of a square or a bank: a memory node's next event, or an access of another agent. -/
inductive Want where
  | node (slot : Nat) (m : MemOp) (e : MemEvent) (rest : List MemEvent)
  | agent (q : SqReq)
  deriving DecidableEq, Repr

/-- The age and the rank of a request (R183). -/
def Want.order : Want → Nat × Nat
  | .node slot _ e _ => (e.age, slot - 5)
  | .agent q => (q.age, q.rank)

/-- Its orientation. -/
def Want.col : Want → Bool
  | .node _ _ e _ => e.col
  | .agent q => q.col

/-- The requests of the memory nodes. -/
def nodeWants (s : State) (x : Region) (stage array square : Nat) : List Want :=
  [9, 10].filterMap fun slot =>
    match (getUnit s stage slot).op with
    | some m => match m.events with
      | e :: rest =>
        if e.array = array && array < 3 && squareOf array e.addr = square && e.rmw ≠ 8 && (getUnit s stage slot).out.length < 16 &&
            !x.faults.any (fun k => k.unit == { stage, slot }) then some (.node slot m e rest) else none
      | [] => none
    | none => none

/-- Every request that may be granted: the units' while the region is live, the engines' for as long as their operations run
(11 R267), but for the writes of a walk into a frozen region's X (17 R454). -/
def squareWants (s : State) (x : Region) (stage array square : Nat) : List Want :=
  (if regionLive x then nodeWants s x stage array square else []) ++
  ((getStage s stage).reqs.filter fun q => !q.done && q.array = array && squareOf array q.addr = square &&
    (if q.rank < 6 then regionLive x else (getOp s q.op).isSome && (q.rank ≠ 6 || x.frozen.isNone))).map Want.agent

/-- The requests of operations whose region is gone (11 R267). -/
def leftWants (s : State) (stage array square : Nat) : List Want :=
  ((engineReqs s (getStage s stage)).filter fun q => !q.done && q.array = array && squareOf array q.addr = square).map Want.agent

/-- The request that is granted: the oldest, and of these the one of least rank. -/
def firstWant : List Want → Option Want
  | [] => none
  | p :: rest => match firstWant rest with
    | some q => if p.order.1 < q.order.1 || (p.order.1 == q.order.1 && p.order.2 ≤ q.order.2) then some p else some q
    | none => some p

/-- A write that covers only part of some Y entry (R185). -/
def partialWrite (wm : Block) : Bool := (List.range 4).any fun k =>
  bits wm.toNat (128 * k) 128 ≠ 0 && bits wm.toNat (128 * k) 128 ≠ 2 ^ 128 - 1

/-- Whether a request holds its bank for 2 fc. -/
def Want.partialEntry : Want → Bool
  | .node _ _ e _ => e.array = 2 && e.write && partialWrite (writeMask e.mask e.ext e.full e.last)
  | .agent q => q.array = 2 && q.write && partialWrite q.wm

/-- Whether a square or bank can grant an access in this fc: one a fc, and a change of orientation after an idle fc (R184). -/
def squareFree (q : Square) (fc array : Nat) (col : Bool) : Bool :=
  match q.last with
  | none => true
  | some l => l < fc && (array = 2 || q.col = col || l + 1 < fc)

/-- A request is granted (R186). -/
def grantWant (s : State) (r : Nat) (x : Region) (stage : Nat) : Want → State
  | .node slot m e rest => match unitCfg (getStage s stage) x slot with
    | some c => performArray s r x c stage slot m e rest
    | none => s
  | .agent q => grantReq s stage q

/-- The corrected values of a square's cells that have been read are written back (R180). -/
def mendSquare (g : Stage) (array square : Nat) : Stage :=
  let here := fun (k : Nat × Nat) => k.1 == array && squareOf array k.2 == square && g.mend.contains k
  { g with soft := g.soft.filter fun k => !here k, mend := g.mend.filter fun k => !here k }

/-- SQUARE_GRANT (08 R183-R186): the oldest pending request of a square or bank is granted; in an fc that grants nothing, corrected
values are written back (R180, R203). Where no region lies, only accesses of operations that have outlived theirs come. -/
def execSquareGrant (stage array square : Nat) (s : State) : Result State :=
  match regionOf s stage with
  | none =>
    .next (match firstWant (leftWants s stage array square) with
      | some (.agent q) => grantReq s stage q
      | _ => s)
  | some (r, x) =>
    let q := Sparse.get {} (getStage s stage).squares (squareKey array square)
    match firstWant (squareWants s x stage array square) with
    | none => .next (if squareFree q x.fc array q.col then modStage s stage (mendSquare · array square) else s)
    | some w =>
      if !squareFree q x.fc array w.col then .next (if q.last.all (· < x.fc) then modStage s stage (mendSquare · array square) else s)
      else
        let q' : Square := { col := w.col, last := some (if w.partialEntry then x.fc + 1 else x.fc) }
        let s := modStage s stage fun g => { g with squares := Sparse.insert g.squares (squareKey array square) q' }
        .next (grantWant s r x stage w)

/-- A memory node's global access that the port has accepted performs; a read that cannot is a fault once the region is live.
[DEDUCED, log 26] -/
def performGlobal (s : State) (r : Nat) (x : Region) (c : UnitCfg) (stage slot : Nat) (m : MemOp) (e : MemEvent) (rest : List MemEvent) : State :=
  let m' := { m with events := rest }
  let p := eventPiece e
  let bad := fun (s : State) => if regionLive x then memUecc s r x c stage slot m (BitVec.ofNat 64 (e.va.toNat % 2 ^ 48)) else s
  if e.write then
    match eventWrite s e with
    | none => bad s
    | some s => memAfter s r x c stage slot m m' []
  else if pieceBad s p false then bad s
  else
    let s := countPiece s p
    let v := leNat (plainBytes s stage x.crew e.va.toNat (readPiece s p))
    memAfter s r x c stage slot m { m' with outData := placeBytes m'.outData e.slot e.len v } []

/-- The next write of a node that has left the combining buffer performs. One that cannot be merged is dropped under POISON, where
no output is left for its error token; otherwise it stays, and marks its node (R424). [DEDUCED, log 26] -/
def performPort (s : State) (r : Nat) (x : Region) (stage : Nat) (p : Nat × MemEvent) : State :=
  if portWaits s stage p.2.stamp p.2.addr then s
  else
    match eventWrite s p.2 with
    | some t => modStage t stage fun g => { g with port := g.port.erase p }
    | none =>
      if (match unitCfg (getStage s stage) x p.1 with | some c => memPoison c none | none => false) then
        modStage s stage fun g => { g with port := g.port.erase p }
      else if regionLive x && !x.faults.any (·.unit == { stage, slot := p.1 }) then markFault s r { stage, slot := p.1 } fUECC (BitVec.ofNat 64 (p.2.va.toNat % 2 ^ 48)) true else s

/-! ## Memory sources and sinks (02 R55, 18 R467) -/

/-- A port binding that fails is a fault of the stage's stream port (12 R520). -/
def portFault (s : State) (r stage : Nat) (cause : BitVec 16) (v : Word) (replay : Bool) : State :=
  markFault s r { stage, slot := 12 } cause v replay

/-- A memory source reads its next block, or sends its end cut. -/
def performSource (s : State) (r : Nat) (x : Region) (b : Binding) (p : PortEnd) : State :=
  let key := ingressKey b
  let put := fun (s : State) (t : Token) (last : Bool) =>
    let (s, sent) := emitPort s r x b p.slot t
    modPort s x.scene x.member b.port fun p =>
      { p with slot := p.slot + 1, moved := if sent then p.moved + 1 else p.moved, ended := sent && last }
  if p.ended || p.marked || markerFirst s x || !hasRoom (getStage s b.stage) key { tag := 0 } then s
  else if p.count ≤ p.moved then
    if p.endcut = 0 then modPort s x.scene x.member b.port fun p => { p with ended := true } else put s (cutTok p.endcut) true
  else
    match vread s b.stage x.crew (p.addr + BitVec.ofNat 64 (64 * p.moved)) 64 with
    | .error e => match accFault e with
      | .wait => s
      | .bad cause v => portFault s r b.stage cause v true
    | .ok bs => put (countRead s b.stage x.crew (p.addr + BitVec.ofNat 64 (64 * p.moved)) 64) (fullTok (blockOf bs)) false

/-- A sink overflows: SINKOVF, in LSTAT.code of a bare take. -/
def sinkOverflow (s : State) (x : Region) (b : Binding) : State :=
  let s := modPort s x.scene x.member b.port fun p => { p with ovf := true }
  match regionLaunch s x with
  | some (crew, slot) => modLaunch s crew slot fun q => { q with code := 0x10 }
  | none => s

/-- The bytes of a token's masked lanes merged into a block in memory. -/
def sinkWrite (s : State) (stage crew : Nat) (va : Word) (t : Token) : State × Option AccErr :=
  let be := byteMask t.mask
  if be = 2 ^ 64 - 1 then vwrite s stage crew va (blockBytes t.data)
  else if be = 0 then (s, none)
  else
    match pieceOf s stage crew va 64 .write false with
    | .error e => (s, some e)
    | .ok p =>
      if pieceBad s p false then (s, some (.uecc va))
      else
        (writePiece (countPiece (usePage s stage crew va .write) p) { p with len := 64 }
          (mergePiece (readPiece s p) { array := 3, addr := p.pa, len := 64, ext := be, data := t.data }), none)

/-- A memory sink takes its next token. -/
def performSink (s : State) (r : Nat) (x : Region) (b : Binding) (p : PortEnd) : State :=
  match egressKey (getStage s b.stage) x b with
  | none => s
  | some key =>
    match headBuf (getStage s b.stage) key with
    | none => s
    | some h =>
      let t := h.tok
      let took := fun (s : State) (k : Nat) =>
        modPort (popBuf s b.stage key) x.scene x.member b.port fun p => { p with moved := p.moved + 1, slot := p.slot + k }
      if isBubble t || isHold t then popBuf s b.stage key
      else if isErr t then portFault s r b.stage (errCause t) (errValue t) false
      else if isCut t then took s 0
      else if !isData t then markFault s r { stage := b.stage, slot := 12 } fTOKTAG 0 false
      else if p.count ≤ p.slot then took (sinkOverflow s x b) 0
      else
        match sinkWrite s b.stage x.crew (p.addr + BitVec.ofNat 64 (64 * p.slot)) t with
        | (s, none) => took s 1
        | (s, some e) => match accFault e with
          | .wait => s
          | .bad cause v => portFault s r b.stage cause v true

/-- Whether an access that the port has accepted can act now: those that must perform before it have (09 R210), and it has not
failed. -/
def accessReady (s : State) (x : Region) (u : UnitRef) (e : MemEvent) : Bool :=
  e.array = 3 && e.stamp ≠ 0 && !portWaits s u.stage e.stamp e.addr && !(eventStuck s e && (unitFailed x u || !regionLive x))

/-- The next access of a memory node that the port has accepted performs, after those that must perform before it (09 R210). A
freeze does not stop it (09 R223). -/
def performNode (s : State) (r : Nat) (x : Region) (stage slot : Nat) : State :=
  let ready := accessReady s x { stage, slot }
  match (getStage s stage).port.find? fun p => p.1 == slot && ready p.2 with
  | some p => performPort s r x stage p
  | none =>
    let first := (nodeOps (getUnit s stage slot)).findSome? fun m => match m.events with
      | e :: rest => if ready e then some (m, e, rest) else none
      | [] => none
    match first, unitCfg (getStage s stage) x slot with
    | some (m, e, rest), some c => performGlobal s r x c stage slot m e rest
    | _, _ => s

/-- ACCESS_PERFORM (09 R208, R210): the next global access of a memory node of the stage (index 0 and 1), or of the memory
source or sink at the stage's `index - 2`-th port binding. -/
def execAccessPerform (stage index : Nat) (s : State) : Result State :=
  match regionOf s stage with
  | none => .next s
  | some (r, x) =>
    if index < 2 then .next (performNode s r x stage (9 + index))
    else if !regionLive x then .next s
    else
      let bs := match activeCtx x with | some a => a.bindings.filter (fun (b : Binding) => b.stage = stage) | none => []
      match bs[index - 2]? with
      | none => .next s
      | some b =>
        match getPort s x.scene x.member b.port with
        | none => .next s
        | some p =>
          if x.faults.any (·.unit == { stage, slot := 12 }) then .next s
          else if b.dir = 0 && p.kind = 2 then .next (performSource s r x b p)
          else if b.dir = 1 && p.kind = 3 then .next (performSink s r x b p)
          else .next s

end Sys2Proof.Machine
end

