-- ==== Sys2Proof/Machine/Gather.lean ====
section
/-! DEFINITION. The gather unit (08 R199; 16 R425, R426). It asks the squares for the rows of one latch, and fills the latch
when it has them; there are two latches. -/
namespace Sys2Proof.Machine

/-- Chunks per index token. -/
def gthChunks (c : UnitCfg) : Nat := wbits c.k1 16 16 + 1

/-- The sixteen entries an index token names: `gath` by lane, `gseq` from lane 0 for r rows; none where r is not 1 to 16. -/
def gthEntries (op : Nat) (t : Token) : Option (List (Option Int)) :=
  if op = 0 then some ((List.range 16).map fun j => if t.mask.getLsbD j then some (sextInt 32 (lane t.data j)) else none)
  else
    let x := laneInt t 0
    let r := if t.mask.getLsbD 1 then sextInt 32 (lane t.data 1) else 16
    if r < 1 || 16 < r then none
    else some ((List.range 16).map fun (j : Nat) => if (j : Int) < r then some (x + (j : Int)) else none)

/-- The cause of one entry's access, or its vector; the unit has no path to Y (R178). -/
def gthVec (c : UnitCfg) (d : Desc) (q : Geo) (chunk : Nat) (i : Int) : Except (BitVec 16) Vec :=
  if dLoc d = 2 && !memOri c then .error fBADARRAY
  else vecOf d q (memOri c) i ((wbits c.k1 0 16 + chunk : Nat) : Int) ((wbits c.k1 32 16 : Nat) : Int)

/-- The entries of a latch for a chunk: absent, a vector, or the cause that leaves it absent. -/
def gthVecs (c : UnitCfg) (d : Desc) (q : Geo) (chunk : Nat) (es : List (Option Int)) : List (Except (BitVec 16) (Option Vec)) :=
  es.map fun i => match i with
    | none => .ok none
    | some i => (gthVec c d q chunk i).map some

/-- The accesses of a latch, one for each entry with a vector. -/
def gthReqs (vs : List (Except (BitVec 16) (Option Vec))) : List SqReq :=
  vs.zipIdx.filterMap fun p => match p.1 with
    | .ok (some v) => some { array := v.loc, addr := v.addr, col := v.col, part := p.2 }
    | _ => none

/-- One entry of a latch: the row read, or the cause that leaves it absent. -/
def gthRow (qs : List SqReq) (p : Except (BitVec 16) (Option Vec) × Nat) : Except (BitVec 16) (Option Token) :=
  match p.1 with
  | .error e => .error e
  | .ok none => .ok none
  | .ok (some v) =>
    match qs.find? fun q => q.part == p.2 with
    | some q => if q.bad.isEmpty then .ok (some (cleanTok { tag := 0, mask := extentMask v.ext, data := q.data })) else .error fUECC
    | none => .ok none

/-- The rows of a latch, and the first cause met. -/
def gthLatch (vs : List (Except (BitVec 16) (Option Vec))) (qs : List SqReq) : List (Option Token) × Option (BitVec 16) :=
  let rs := vs.zipIdx.map (gthRow qs)
  (rs.map fun r => match r with | .ok o => o | .error _ => none,
   rs.findSome? fun r => match r with | .ok _ => none | .error e => some e)

/-- A latch of absent entries that carries an error. -/
def absentLatch (e : Token) : GLatch := { rows := List.replicate 16 none, err := some e }

/-- The latch of a tensor packed along the other axis than its vectors': the matrix node refuses it with BADPACK, under the policy
of the unit (08 R192). -/
def mispackedLatch (stage : Nat) (poison : Bool) : GLatch :=
  { absentLatch (errorToken fBADPACK (unitOrigin { stage, slot := 8 }) 0) with freeze := !poison }

/-- Deliver a latch; the last one of the index token consumes it and sends its continuity token. -/
def gthDeliver (s : State) (r : Nat) (x : Region) (c : UnitCfg) (stage : Nat) (l : GLatch) (cerr : Option Token) : State :=
  let s := modStage s stage fun g => { g with latches := g.latches ++ [l] }
  let n := (getUnit s stage 11).n0 + 1
  if n < gthChunks c then modUnit s stage 11 fun u => { u with n0 := n, conts := 1 }
  else
    let s := modUnit s stage 11 fun u => { (takeCont c u) with n0 := 0, conts := 0, a := u.a.drop 1 }
    nodeSend s r x c stage 11 [[(2, cerr.getD contTok)]]

/-- An index token at the head: the accesses of the next latch are asked for, and the latch is filled when they have been
granted. -/
def gthToken (s : State) (r : Nat) (x : Region) (c : UnitCfg) (stage op : Nat) (t : Token) : State :=
  let ref : UnitRef := { stage, slot := 11 }
  match takeDesc s r x stage (memTen c) with
  | .error .wait => s
  | .error (.bad cause v) => markFault s r ref cause v (cause == fXLATE || cause == fUECC)
  | .ok (d, s) =>
    let u := getUnit s stage 11
    let poison := memPoison c (some d)
    let (ready, cerr) := contState c u
    if !ready || 2 ≤ (getStage s stage).latches.length then s
    else
      let own := fun (cause : BitVec 16) => errorToken cause (unitOrigin ref) 0
      match cerr, isErr t, gthEntries op t with
      | some e, _, _ => if poison then gthDeliver s r x c stage (absentLatch (if isErr t then t else e)) (some e)
                        else markFault s r ref (errCause e) (errValue e) false
      | none, true, _ => gthDeliver s r x c stage (absentLatch t) none
      | none, false, none =>
        if poison then gthDeliver s r x c stage (absentLatch (own fBADINDEX)) none else markFault s r ref fBADINDEX 0 false
      | none, false, some es =>
        let vs := gthVecs c d (takeGeo x d) u.n0 es
        match (gthLatch vs []).2, poison with
        | some k, false => markFault s r ref k 0 false
        | _, _ =>
          match askSquares s x.fc stage 3 0 (gthReqs vs) with
          | .wait s => s
          | .granted qs =>
            let s := dropReqs s stage 3 0
            let (rows, cause) := gthLatch vs qs
            let q := takeGeo x d
            match cause with
            | none =>
              gthDeliver s r x c stage (if 1 < q.p && (q.pax = 1) != memOri c then mispackedLatch stage poison else { rows }) none
            | some k =>
              if poison then gthDeliver s r x c stage { rows, err := some (own k) } none
              else markFault s r ref k 0 (k == fUECC)

/-- One event of the gather unit. -/
def runGather (op stage : Nat) (s : State) : State :=
  match liveNode s 14 op stage 11 with
  | none => s
  | some (r, x, c) =>
    let u := getUnit s stage 11
    if !u.out.isEmpty then emitOut s r x c stage 11
    else
      match elemHead c u 0 with
      | none => s
      | some t =>
        if isStart t then markFault s r { stage, slot := 11 } fTOKTAG 0 false
        else if isCut t then modUnit s stage 11 fun u => { u with a := u.a.drop 1 }
        else gthToken s r x c stage op t

def execGath (stage : Nat) (s : State) : Result State := .next (runGather 0 stage s)
def execGseq (stage : Nat) (s : State) : Result State := .next (runGather 1 stage s)

end Sys2Proof.Machine
end

