-- ==== Sys2Proof/Machine/System.lean ====
section
/-! DEFINITION. System registers and algebra tables (18 R477, R479-R481; 10 R252, R253; 04 R83; 12 R294, R297). -/
namespace Sys2Proof.Machine

/-- Access class of a system register: read-only, handler-only, read-write, command (R480). -/
inductive SysAccess where
  | ro | hw | rw | cmd
  deriving DecidableEq, Repr

/-- The assigned system registers. -/
def sysAccess (r : Nat) : Option SysAccess :=
  if r = 0x000 then some .ro
  else if r = 0x001 || r = 0x002 || r = 0x003 then some .hw
  else if r = 0x004 || r = 0x005 then some .rw
  else if r = 0x008 || r = 0x009 || r = 0x00A then some .ro
  else if r = 0x010 || r = 0x011 || r = 0x012 || r = 0x018 then some .ro
  else if r = 0x019 then some .rw
  else if r = 0x020 then some .cmd
  else if r = 0x021 then some .rw
  else if r = 0x022 || r = 0x023 then some .ro
  else none

/-- `mapsel` (04 R83). -/
def mapselWord (s : State) (x : Ctx) : Word :=
  BitVec.ofNat 64 ((s.power.crews.getD x.crew {}).ceiling % 4 + x.mapLast.toNat * 4)

/-- The record that the context's `dcidx` names (12 R297). -/
def dcRecord (s : State) (c : Nat) : BitVec 80 :=
  match ctxRegion s c with
  | some r => drainAt s r (getCtx s c).dcidx.toNat
  | none => 0

/-- The value of a system register. -/
def sysRead (s : State) (c r : Nat) : Word :=
  let x := getCtx s c
  match r with
  | 0x000 => statusWord x
  | 0x001 => x.xcause
  | 0x002 => x.xpc
  | 0x003 => x.xval
  | 0x004 => x.xvec
  | 0x005 => x.lr
  | 0x008 => ctxidWord c
  | 0x009 => BitVec.ofNat 64 x.crew
  | 0x00A => BitVec.ofNat 64 (x.scene % 2 ^ 16)
  | 0x010 => s.timecode
  | 0x011 => x.cyc
  | 0x012 => cntWord x
  | 0x018 => mapselWord s x
  | 0x019 => x.sheet
  | 0x020 => match ctxRegion s c with | some q => frzWord s q | none => 0
  | 0x021 => x.dcidx
  | 0x022 => (dcRecord s c).setWidth 64
  | _ => BitVec.ofNat 64 ((dcRecord s c).toNat / 2 ^ 64)

/-- SYSR (R479); a read of `dchi` advances `dcidx` (02 R60). The index is as wide as its register: the spec gives it no bits.
[DESIGN CHOICE, log 39] -/
def execSysr (d : BitVec 5) (reg : BitVec 12) (s : State) : Result State :=
  withRegs s [d] fun _ =>
    match sysAccess reg.toNat with
    | none => illegal s (.sysr d reg)
    | some _ =>
      let t := retire s d (sysRead s s.cur reg.toNat)
      if reg = 0x023 then modCur t fun y => { y with dcidx := y.dcidx + 1 } else t

/-- The commands of `frz` on the member's own region (12 R295). -/
def frzCommand (s : State) (v : Word) : State :=
  match ctxRegion s s.cur with
  | none => s
  | some r =>
    match wbits v 0 2 with
    | 1 => replayRegion s r
    | 2 => releaseRegion s r
    | 3 => reportRegion s r
    | _ => s

/-- Write a register of the context that may be written. A handler's write of `xcause`, whose fields 12 R289 marks RO and which
18 R480 makes HW, changes its fields and leaves its reserved bits zero. [DESIGN CHOICE, log 37; DESIGN CHOICE, log 39] -/
def sysWrite (x : Ctx) (r : Nat) (v : Word) : Ctx :=
  match r with
  | 0x001 => { x with xcause := v &&& 0x800000000000FFFF }
  | 0x002 => { x with xpc := v }
  | 0x003 => { x with xval := v }
  | 0x004 => { x with xvec := setBits v 0 2 0 }
  | 0x005 => { x with lr := v }
  | 0x019 => { x with sheet := BitVec.ofNat 64 (wbits v 16 32 * 2 ^ 16) }
  | 0x021 => { x with dcidx := v }
  | _ => x

/-- SYSW (R479): PRIV outside a handler for a register marked RO or HW; a write to an RO register in a handler is ignored. -/
def execSysw (d : BitVec 5) (reg : BitVec 12) (s : State) : Result State :=
  withRegs s [d] fun x =>
    match sysAccess reg.toNat with
    | none => illegal s (.sysw d reg)
    | some .ro => if x.tm then advance s else preciseTrap s tPRIV 0 (BitVec.ofNat 64 reg.toNat)
    | some .hw =>
      if x.tm then advance (modCur s fun y => sysWrite y reg.toNat (readG x d))
      else preciseTrap s tPRIV 0 (BitVec.ofNat 64 reg.toNat)
    | some .rw => advance (modCur s fun y => sysWrite y reg.toNat (readG x d))
    | some .cmd => frzCommand (advance s) (readG x d)

/-- ALGLD (R477): the 16 bytes at `g[a]` become a table of the issuing scene; slots 1 to 7. The read goes through the stage's
stream port, behind what the port accepted earlier for the same home (09 R210). [DEDUCED, log 30] -/
def execAlgld (a : BitVec 5) (slot : BitVec 15) (s : State) : Result State :=
  withRegs s [a] fun x =>
    if slot = 0 || 8 ≤ slot.toNat then illegal s (.algld a slot)
    else if misaligned (readG x a) 16 then preciseTrap s tMISALIGN 0 (readG x a)
    else if accessGate x || !x.stores.isEmpty then stallCur (leaveBuffer s s.cur)
    else if readWaits s (ctxStage s.cur) x.crew (readG x a) then stallCur s
    else
      match vread s (ctxStage s.cur) x.crew (readG x a) 16 with
      | .error e => accTrap s e
      | .ok bs =>
        let tab : BitVec 128 := BitVec.ofNat 128 (leNat bs)
        if !algOk tab then preciseTrap s tTABLE 0 (zext15 slot)
        else advance (modScene (countRead s (ctxStage s.cur) x.crew (readG x a) 16) x.scene fun k => { k with algs := Sparse.insert k.algs slot.toNat tab })

end Sys2Proof.Machine
end

