-- ==== Sys2Proof/Machine/Engine.lean ====
section
/-! DEFINITION. Cues and the engines' shared ground: cue words and their checks, the cue dependency table, inboxes,
completion (05 R119-R122; 11 R261-R267; 13 R324-R326; 17 R429-R432, R443, R449; 18 R471, R476; 16 R422). -/
namespace Sys2Proof.Machine

/-! ## Cue words (13 R324) -/

/-- A field of cue word `n`. -/
def cuef (w : List (BitVec 32)) (n lo len : Nat) : Nat := bits (w.getD n 0).toNat lo len
def cueOpc (w : List (BitVec 32)) : Nat := cuef w 0 24 8
def cueClass (w : List (BitVec 32)) : Nat := cuef w 0 20 4
def cueRel (w : List (BitVec 32)) : Bool := cuef w 0 19 1 = 1
def cueAcq (w : List (BitVec 32)) : Bool := cuef w 0 18 1 = 1
def cuePush (w : List (BitVec 32)) : Bool := cuef w 0 17 1 = 1
def cuePop (w : List (BitVec 32)) : Bool := cuef w 0 16 1 = 1
def cueSlot (w : List (BitVec 32)) : Nat := cuef w 0 0 16
def cueRk (w : List (BitVec 32)) : Nat := cuef w 3 30 2
def cuePushN (w : List (BitVec 32)) : Nat := cuef w 3 27 3
def cuePopN (w : List (BitVec 32)) : Nat := cuef w 3 24 3
def cuePoison (w : List (BitVec 32)) : Bool := cuef w 3 23 1 = 1
def cueTarget (w : List (BitVec 32)) : Nat := cuef w 3 0 23

/-- The class of an assigned opcode (13 R325). -/
def opcClass (opc : Nat) : Option Nat :=
  if 1 ≤ opc && opc ≤ 4 then some 0
  else if 0x10 ≤ opc && opc ≤ 0x12 then some 1
  else if 0x20 ≤ opc && opc ≤ 0x2D then some 2
  else if opc = 0x30 || opc = 0x31 then some 3
  else if opc = 0x40 then some 4
  else if opc = 0x50 || opc = 0x51 then some 5
  else none

/-- The four cases that the cue dependency table decides (13 R326). -/
def cueMalformed (w : List (BitVec 32)) : Bool :=
  ([6 ≤ cueClass w, opcClass (cueOpc w) ≠ some (cueClass w), cueRk w = 3, cuePushN w ≠ 0 && !cuePush w,
    cuePopN w ≠ 0 && !cuePop w] : List Bool).any id

/-- Tiles that a cue declares as inputs and outputs (17 R449); 0x3FF is WHOLE. -/
def cueTiles (w : List (BitVec 32)) : List (Nat × Nat) × List (Nat × Nat) :=
  let whole := 0x3FF
  match cueOpc w with
  | 0x01 => ([(cuef w 1 0 10, cuef w 2 12 10)], [(cuef w 1 10 10, cuef w 2 22 10)])
  | 0x02 => if cuef w 1 30 1 = 0 then ([], [(cuef w 1 0 10, cuef w 1 20 10)]) else ([(cuef w 1 0 10, cuef w 1 20 10)], [])
  | 0x04 => ([], [(cuef w 1 10 10, cuef w 2 22 10)])
  | 0x03 => ([(cuef w 1 0 10, whole)], [(cuef w 1 10 10, whole)])
  | 0x10 => ([], if cuef w 1 4 1 = 1 then [(cuef w 1 6 10, whole)] else [])
  | 0x40 => ([(cuef w 1 0 10, whole)], [(cuef w 1 10 10, whole)])
  | _ => ([], [])

/-- Two declarations overlap (17 R430). -/
def tilesOverlap (a b : Nat × Nat) : Bool := a.1 == b.1 && (a.2 == b.2 || a.2 == 0x3FF || b.2 == 0x3FF)

/-- Some declaration of one list overlaps one of the other. -/
def anyOverlap (l m : List (Nat × Nat)) : Bool := l.any fun a => m.any (tilesOverlap a)

/-! ## Status codes (11 R266) -/

def eOK : BitVec 16 := 0x00
def eBADCUE : BitVec 16 := 0x01
def eBADDESC : BitVec 16 := 0x02
def eBADDEST : BitVec 16 := 0x03
def eBADORIENT : BitVec 16 := 0x04
def eBADSHAPE : BitVec 16 := 0x05
def eBADMATCH : BitVec 16 := 0x06
def eBADMODE : BitVec 16 := 0x07
def eXLATE : BitVec 16 := 0x08
def eUECC : BitVec 16 := 0x09
def eLINKFAIL : BitVec 16 := 0x0A
def eBADINDEX : BitVec 16 := 0x0B
def eBADPEER : BitVec 16 := 0x0C
def eSTEPLIMIT : BitVec 16 := 0x0D
def eWALKFAIL : BitVec 16 := 0x0E
def eNULLPTR : BitVec 16 := 0x0F
def eRULESET : BitVec 16 := 0x10
def eINUSE : BitVec 16 := 0x11
def eNOCHUNK : BitVec 16 := 0x12
def eSYNCRANGE : BitVec 16 := 0x13
def eADDEXP : BitVec 16 := 0x14
def eACCRANGE : BitVec 16 := 0x15
def eBARPHASE : BitVec 16 := 0x16
def eBARTIMEOUT : BitVec 16 := 0x17
def eBARSCENE : BitVec 16 := 0x18

/-- Why an operation cannot go on: it waits, or it completes with a status and its DETAIL. -/
inductive OpStop where
  | wait
  | status (code : BitVec 16) (detail : Word)
  deriving DecidableEq, Repr

/-- What a part of an operation answers. -/
abbrev Eng (α : Type) := Except OpStop α

/-- The stop of a failed access: XLATE and UECC with their DETAIL. -/
def accStop : AccErr → OpStop
  | .wait => .wait
  | .xlate c va => .status eXLATE (xlateValue c va)
  | .uecc va => .status eUECC (BitVec.ofNat 64 (wbits va 0 48))

/-- Lift an access. -/
def engAcc {α : Type} : Except AccErr α → Eng α
  | .ok v => .ok v
  | .error e => .error (accStop e)

/-! ## Engines and inboxes (11 R261) -/

/-- The engine a cue goes to, by class and number. An ALL rule-set cue begins at engine 0; a collective cue goes to the
unit of the issuing die. -/
def cueEngine (stage : Nat) (w : List (BitVec 32)) : Nat × Nat :=
  match cueClass w with
  | 0 => (0, stage)
  | 1 => (1, if cueOpc w = 0x10 then 8 + dieOf stage else if cuef w 1 3 1 = 1 then 0 else cuef w 1 4 4)
  | 2 => (2, cuef w 1 24 2)
  | 3 => (3, dieOf stage)
  | 4 => (4, dieOf stage)
  | _ => (5, cuef w 1 7 2)

/-- The engine that holds an operation: a cue with GLOB goes to the sync engine of the die that homes its target (17 R440). -/
def opEngine (o : Op) : Nat × Nat :=
  if cueClass o.words = 2 && cuef o.words 1 29 1 = 1 then (2, o.home) else cueEngine o.stage o.words

/-- The operations an engine has in flight at most, its inbox apart; the walks and the waiting arrivals have limits of their
own. -/
def flightLimit (cls : Nat) : Nat := match cls with | 0 => 512 | 3 => 1 | 4 => 4 | 5 => 8 | _ => 2 ^ 32

/-- Inbox places. -/
def inboxPlaces (cls : Nat) : Nat := match cls with | 0 => 64 | 1 => 64 | 2 => 256 | _ => 16

/-- The translation cache of an engine. -/
def engineCache (e : Nat × Nat) : Nat :=
  match e.1 with
  | 1 => 512 + e.2
  | 2 => 524 + e.2
  | 4 => 528 + e.2
  | 5 => 532 + e.2
  | 3 => 524 + e.2
  | _ => e.2

/-- Operations in an engine's inbox. -/
def inboxOf (s : State) (e : Nat × Nat) : List (Nat × Op) :=
  s.eng.ops.filter fun p => p.2.phase == .inbox && opEngine p.2 == e

/-- Whether an engine may take another operation from its inbox. -/
def flightRoom (s : State) (e : Nat × Nat) : Bool :=
  (s.eng.ops.filter fun p => p.2.phase != .asked && p.2.phase != .inbox && opEngine p.2 == e).length < flightLimit e.1

/-- Whether the inbox has a free place. -/
def inboxRoom (s : State) (e : Nat × Nat) : Bool := (inboxOf s e).length < inboxPlaces e.1

/-- The endpoint that issued a cue: a unit of its stage, or its director with the context (13 R328). -/
def opSource (o : Op) : Nat :=
  match o.unit, o.ctx with
  | some u, _ => stageEndpoint o.stage u 0
  | none, some c => stageEndpoint o.stage 14 c
  | none, none => stageEndpoint o.stage 14 0

/-- The ticket that a cue's packets carry: the CUE's own, modulo 4,096 (13 R328; 18 R471), and for what no CUE has issued the
operation's number. [DESIGN CHOICE, log 16] -/
def opTicket (id : Nat) (o : Op) : Nat := if o.ctx.isSome && o.barPc.isNone then o.ticket.toNat % 4096 else id % 4096

/-- Put an operation under the next number. [DESIGN CHOICE, log 10] -/
def newOp (s : State) (o : Op) : State :=
  { s with eng := { s.eng with ops := Sparse.insert s.eng.ops s.eng.nextOp o, nextOp := s.eng.nextOp + 1 } }

/-- An operation ends: its completion is due. -/
def finishOp (s : State) (id : Nat) (status : BitVec 16) (detail : Word) (result : List Block := []) : State :=
  modOp s id fun o => { o with phase := .finished, status, detail, result }

/-! ## Checks shared by all cues (13 R326; 17 R431, R432) -/

/-- Field limits of `copy` and `zero` (17 R433, R435). -/
def copyFieldsBad (w : List (BitVec 32)) (zero : Bool) : Bool :=
  cuef w 1 22 2 = 3 || 1022 < cuef w 2 22 10 ||
  (if zero then cuef w 1 20 2 ≠ 0 || cuef w 1 0 10 ≠ 0 || cuef w 2 12 10 ≠ 0 else cuef w 1 20 2 = 3 || 1022 < cuef w 2 12 10)

/-- Field limits of a sync cue (17 R440-R445). -/
def syncFieldsBad (w : List (BitVec 32)) : Bool :=
  let opc := cueOpc w
  let arg := cuef w 1 30 1 = 1
  let glob := cuef w 1 29 1 = 1
  let w64 := cuef w 1 28 1 = 1
  let off := cuef w 1 26 2
  let w2 := cuef w 2 0 32
  let plain := glob || w64 || off ≠ 0
  cuef w 1 31 1 = 1 || (w64 && off % 2 = 1) || (arg && w2 / 2 ^ 23 ≠ 0) || (glob && (!arg || cuef w 1 0 28 ≠ 0)) ||
  (if opc ≤ 0x27 then opc = 0x27 && !arg
   else if opc = 0x28 then plain || !arg
   else if opc = 0x2C then plain || (!arg && w2 ≠ 0)
   else if opc = 0x29 then plain || arg || w2 % 2 ^ 16 = 0
   else if opc = 0x2A then plain || arg || w2 / 2 ^ 5 ≠ 0
   else if opc = 0x2B then plain || arg || w2 = 0 || 16 < w2
   else plain || arg || w2 ≠ 0)

/-- Field limits of a rule-set cue (17 R438, R439). -/
def rsFieldsBad (w : List (BitVec 32)) (rel : Bool) : Bool :=
  cuef w 1 8 8 ≠ 0 || (if cuef w 1 3 1 = 1 then cuef w 1 4 4 ≠ 0 else 12 ≤ cuef w 1 4 4) || cuef w 2 23 9 ≠ 0 ||
  (rel && (cuef w 1 16 16 ≠ 0 || cuef w 2 0 32 ≠ 0))

/-- Ports of a collective cue: chip ports 0-11, die edges 16-19; the adders a port has (17 R446). -/
def collFieldsBad (w : List (BitVec 32)) (rel : Bool) : Bool :=
  let port := cuef w 1 0 5
  let edge := 16 ≤ port && port ≤ 19
  cuef w 1 24 8 ≠ 0 || cuef w 2 24 8 ≠ 0 || !(port < 12 || edge) || (!edge && (cuef w 1 5 1 ≠ 0 || 8 ≤ cuef w 1 6 4)) ||
  (rel && (cuef w 1 10 14 ≠ 0 || cuef w 2 0 32 ≠ 0))

/-- Whether a cue's operand words break their layout (17 R431 step 2). -/
def operandsBad (w : List (BitVec 32)) (xchip : Bool) : Bool :=
  match cueOpc w with
  | 0x01 => copyFieldsBad w false
  | 0x04 => copyFieldsBad w true
  | 0x02 => cuef w 1 31 1 ≠ 0 || 1022 < cuef w 1 20 10
  | 0x03 => cuef w 1 30 2 ≠ 0 || (!xchip && 12 ≤ cuef w 1 20 4)
  | 0x10 => cuef w 1 5 1 ≠ 0 || cuef w 2 23 9 ≠ 0 || (cuef w 1 4 1 = 0 && cuef w 1 6 10 ≠ 0)
  | 0x11 => rsFieldsBad w false
  | 0x12 => rsFieldsBad w true
  | 0x30 => collFieldsBad w false
  | 0x31 => collFieldsBad w true
  | 0x40 => cuef w 1 21 11 ≠ 0 || cuef w 2 23 9 ≠ 0
  | 0x50 => cuef w 1 12 20 ≠ 0
  | 0x51 => cuef w 1 12 20 ≠ 0
  | _ => syncFieldsBad w

/-- The number of members of a scene. -/
def memberCount (s : State) (k : Nat) : Nat := match getScene s k with | some x => x.members.length | none => 0

/-- Whether a scene spans chips. -/
def sceneXchip (s : State) (k : Nat) : Bool := match getScene s k with | some x => x.xchip | none => false

/-- BADCUE of R326 and R431: a reply target, a SAVE cue of a script or a unit, the ordering bits of a unit's cue, and the
operand words. -/
def cueBad (s : State) (o : Op) : Bool :=
  let w := o.words
  cueMalformed w || (cueRk w = 0 && cueTarget w ≠ 0) ||
  (cueRk w = 1 && o.remote.isNone && (cueTarget w % 512 ≠ 0 || memberCount s o.scene ≤ cueTarget w / 2 ^ 17)) ||
  (cueClass w = 5 && (o.ctx.isSome || o.unit.isSome)) || (o.unit.isSome && cuef w 0 16 4 ≠ 0) ||
  operandsBad w (sceneXchip s o.scene)

/-- DETAIL of BADCUE. -/
def word0 (o : Op) : Word := BitVec.ofNat 64 (o.words.getD 0 0).toNat

/-- What a part of an operation leaves: one that must wait leaves everything as it was. -/
def settleEng (s : State) (id : Nat) : Eng State → State
  | .ok t => t
  | .error .wait => s
  | .error (.status c d) => finishOp s id c d

/-- Run an operation that its engine takes from the head of its inbox: the checks, then its own meaning. -/
def startOp (opc id : Nat) (run : State → Nat → Op → Eng State) (s : State) : State :=
  match getOp s id with
  | none => s
  | some o =>
    if cueOpc o.words ≠ opc || o.phase ≠ .inbox || ((inboxOf s (opEngine o)).any fun p => p.1 < id) then s
    else if cueBad s o then finishOp s id eBADCUE (word0 o)
    else if !flightRoom s (opEngine o) then s
    else
      match o.pre with
      | some (c, d) => finishOp s id c d
      | none => settleEng s id (run s id o)

/-- An operation that its engine works on goes on with its next event. -/
def continueOp (opc id : Nat) (run : State → Nat → Op → Eng State) (s : State) : State :=
  match getOp s id with
  | none => s
  | some o => if cueOpc o.words ≠ opc || o.phase ≠ .running then s else settleEng s id (run s id o)

/-! ## What a cue reads when it issues (17 R429, R431; 08 R195; 10 R253) -/

/-- The algebra tables of a scene, slot 0 the reals (10 R252). [DEDUCED, log 32] -/
def sceneAlgs (s : State) (k : Nat) : List (Nat × BitVec 128) :=
  match getScene s k with
  | some x => Sparse.insert x.algs 0 algReals
  | none => [(0, algReals)]

/-- The argument blocks a cue names: the first, and how many. -/
def cueBlocks (w : List (BitVec 32)) : Option (Nat × Nat) :=
  let opc := cueOpc w
  if opc = 0x10 || opc = 0x40 then some (cuef w 2 0 23, 1)
  else if opc = 0x11 then some (cuef w 2 0 23, 3)
  else if 0x20 ≤ opc && opc ≤ 0x2D && cuef w 1 30 1 = 1 then some (cuef w 2 0 23, 1)
  else none

/-- The tensors a cue names. -/
def cueNames (w : List (BitVec 32)) : List Nat :=
  match cueOpc w with
  | 0x04 => [cuef w 1 10 10]
  | 0x10 => if cuef w 1 4 1 = 1 then [cuef w 1 6 10] else []
  | opc => if opc ≤ 0x03 || opc = 0x40 then [cuef w 1 0 10, cuef w 1 10 10] else []

/-- Read one descriptor for a cue: none while its key slot is changing. A failure is kept as the cue's status. -/
def captureDesc (s : State) (o : Op) (t : Nat) : Option Op :=
  if o.pre.isSome then some o
  else
    match readDesc s (engineCache (opEngine o)) o.crew o.sheet o.algs t with
    | .ok d => some { o with descs := Sparse.insert o.descs t d }
    | .error .wait => none
    | .error (.bad cause v) =>
      some { o with pre := some (if cause = fBADDESC then (eBADDESC, BitVec.ofNat 64 t)
                                 else (if cause = fUECC then eUECC else eXLATE, v)) }

/-- Read a cue's argument blocks. -/
def captureArgs (s : State) (o : Op) : Option Op :=
  match cueBlocks o.words with
  | none => some o
  | some (b, n) =>
    match vread s (engineCache (opEngine o)) o.crew (o.sheet + BitVec.ofNat 64 (0x10000 + 64 * b)) (64 * n) with
    | .ok bs => some { o with args := bs }
    | .error e => match accStop e with
      | .wait => none
      | .status c d => some { o with pre := some (c, d) }

/-- The die that homes the target of a GLOB cue; a target that does not translate goes to die 0, whose engine reports it. -/
def targetDie (s : State) (o : Op) : Nat :=
  match translate s (engineCache (opEngine o)) o.crew (BitVec.ofNat 64 (imgField o.args 16 8)) .write with
  | .ok x => if populated s x.pa then homeDie x.pa else 0
  | .error _ => 0

/-- RETLEN of the set that a `walk` names in the engine that receives it: none where the crew has no such set there. -/
def issueRetlen (s : State) (o : Op) : Option Nat :=
  ((Sparse.find? s.eng.sets (8 * (8 + dieOf o.stage) + cuef o.words 1 0 3)).filter (·.crew == o.crew)).map (·.retlen)

/-- What a cue reads when it issues: none while a key slot is changing. A cue that breaks its layout reads nothing (R431).
[DEDUCED, log 32] -/
def captureOp (s : State) (o : Op) : Option Op :=
  if cueBad s o then some o
  else
    match captureArgs s { o with algs := sceneAlgs s o.scene } with
    | none => none
    | some o =>
      let o := if cueClass o.words = 2 && cuef o.words 1 29 1 = 1 then { o with home := targetDie s o } else o
      let o := if cueOpc o.words = 0x10 then { o with retlen := issueRetlen s o } else o
      (cueNames o.words).foldlM (captureDesc s) o

/-- The corrected errors of what a cue read when it issued are counted (01 R18). -/
def countCapture (s : State) (o : Op) : State :=
  let cache := engineCache (opEngine o)
  let s := if cueClass o.words = 2 && cuef o.words 1 29 1 = 1 && !o.args.isEmpty then
      usePage s cache o.crew (BitVec.ofNat 64 (imgField o.args 16 8)) .write else s
  let s := match cueBlocks o.words with
    | some (b, n) => if o.args.isEmpty then s else countRead s cache o.crew (o.sheet + BitVec.ofNat 64 (0x10000 + 64 * b)) (64 * n)
    | none => s
  o.descs.foldl (fun s (p : Nat × Desc) => countRead s cache o.crew (o.sheet + BitVec.ofNat 64 (64 * (p.1 % 1024))) 64) s

/-- A descriptor that a cue read when it issued. -/
def cueDesc (o : Op) (t : Nat) : Eng Desc :=
  match Sparse.find? o.descs t with
  | some d => .ok d
  | none => .error .wait

/-! ## The cue dependency table (05 R119, R120) -/

/-- Readiness of an entry behind older ones (R119). -/
def entryReady (older : List CueEntry) (fifos : List (Nat × Nat)) (e : CueEntry) : Bool :=
  (older.all fun f => f.released || !(anyOverlap f.outs e.ins || anyOverlap f.outs e.outs || anyOverlap f.ins e.outs)) &&
  (!cuePop e.words || Sparse.get 0 fifos (cuePopN e.words) ≠ 0)

/-- The fork edge (09 R224): earlier stores of the issuing context have performed; a release waits for its loads too. -/
def forkReady (s : State) (e : CueEntry) : Bool :=
  let x := getCtx s e.ctx
  (x.stores.all fun t => e.seq ≤ t.seq) && (!cueRel e.words || x.loads.all fun l => e.seq ≤ l.seq)

/-- Waiting or travelling arrivals of a stage's agents (17 R443). -/
def stageArrivals (s : State) (stage : Nat) : Nat :=
  (s.eng.ops.filter fun p => p.2.stage == stage && cueOpc p.2.words == 0x2A && p.2.phase ≠ .finished && p.2.remote.isNone).length

/-- The operation of an entry; a malformed cue goes to its completion at once. -/
def opOfEntry (stage : Nat) (e : CueEntry) : Op :=
  let o : Op := { words := e.words, crew := e.crew, scene := e.scene, stage, ctx := some e.ctx, ticket := e.ticket, sheet := e.sheet }
  if cueMalformed e.words then { o with phase := .finished, status := eBADCUE, detail := word0 o } else o

/-- The operation that an entry issues now, if it may: its reads at issue are made, and its engine has room. -/
def mayIssue (s : State) (stage : Nat) (older : List CueEntry) (g : Stage) (e : CueEntry) : Option Op :=
  if e.issued || !entryReady older g.fifos e || !forkReady s e then none
  else
    (captureOp s (opOfEntry stage e)).filter fun o =>
      cueMalformed e.words || (inboxRoom s (opEngine o) && (cueOpc e.words ≠ 0x2A || stageArrivals s stage < 64))

/-- The first entry of a table that may issue, with its operation. -/
def firstIssue (s : State) (stage : Nat) (g : Stage) : List CueEntry → List CueEntry → Option (Nat × Op)
  | _, [] => none
  | older, e :: rest => match mayIssue s stage older g e with
    | some o => some (older.length, o)
    | none => firstIssue s stage g (older ++ [e]) rest

/-- Whether a stage's region is being held: unissued entries stay (05 R122). -/
def stageHolding (s : State) (stage : Nat) : Bool :=
  match regionOf s stage with
  | some (_, x) => x.holding
  | none => false

/-- CUE_ENTRY_ISSUE (05 R119, R120): the oldest ready entry goes to its engine's inbox and pops its FIFO. -/
def execCueEntryIssue (stage : Nat) (s : State) : Result State :=
  let g := getStage s stage
  if stageHolding s stage then .next s
  else
    match firstIssue s stage g [] g.table with
    | none => .next s
    | some (n, o) =>
      match g.table[n]? with
      | none => .next s
      | some e =>
        let g := { g with
          table := modAt g.table n fun e => { e with issued := true, op := some s.eng.nextOp }
          fifos := if cuePop e.words then Sparse.set 0 g.fifos (cuePopN e.words) (Sparse.get 0 g.fifos (cuePopN e.words) - 1)
                   else g.fifos }
        .next (newOp (countCapture (setStage s stage g) o) o)

/-- The acquire of a retired cue: its context goes on, or takes BADCUE in its next issue slot, which is that of the boundary
after the CUE (12 R290); a parked context's comes after its resume (13 R343). -/
def endAcquire (s : State) (e : CueEntry) : State :=
  let x := getCtx s e.ctx
  if x.acq ≠ some e.ticket then s
  else
    setCtx s e.ctx { x with
      acq := none, wait := if x.wait = .acquire then .none else x.wait
      acqBad := if e.status = eBADCUE then some (BitVec.ofNat 64 (e.words.getD 0 0).toNat) else x.acqBad }

/-- CUE_ENTRY_RETIRE (05 R120): an entry whose operation has completed releases its tiles; it is freed once its push fits. -/
def execCueEntryRetire (stage entry : Nat) (s : State) : Result State :=
  let g := getStage s stage
  match g.table[entry]? with
  | none => .next s
  | some e =>
    if !e.done then .next s
    else
      let s := if e.released then s else endAcquire s e
      let n := Sparse.get 0 g.fifos (cuePushN e.words)
      if cuePush e.words && 32 ≤ n then
        .next (modStage s stage fun g => { g with table := modAt g.table entry fun e => { e with released := true } })
      else
        .next (modStage s stage fun g => { g with
          table := g.table.eraseIdx entry
          fifos := if cuePush e.words then Sparse.set 0 g.fifos (cuePushN e.words) (n + 1) else g.fifos })

/-! ## Sync variables (11 R278, R279) -/

/-- The backing address of a variable; none beyond the crew's sync space. -/
def syncAddr (s : State) (crew die index : Nat) : Option Word :=
  let r := (getCrew s crew).sync
  let slog := min 24 (wbits r 0 5)
  if slog = 0 || 2 ^ slog ≤ index then none
  else some (BitVec.ofNat 64 (wbits r 16 32 * 2 ^ 16 + die * 2 ^ (slog + 4) + 16 * index))

/-- Whether a place is this variable's. -/
def isPlace (crew die index : Nat) (p : SyncPlace) : Bool := p.crew == crew && p.die == die && p.index == index

/-- Spill the place longest unused of a full die (R279). [DEDUCED, log 33] -/
def spillPlace (s : State) (die : Nat) : Eng State :=
  match s.eng.places.filter (·.die == die) with
  | [] => .ok s
  | v :: rest =>
    if rest.length + 1 < 32768 then .ok s
    else
      let s' := { s with eng := { s.eng with places := s.eng.places.erase v } }
      if !v.dirty then .ok s'
      else
        match syncAddr s v.crew v.die v.index with
        | none => .ok s'
        | some va =>
          match vwrite s' (524 + die) v.crew va (leBytes 16 v.val.toNat) with
          | (t, none) => .ok t
          | (_, some e) => .error (accStop e)

/-- A variable's value, held in a place that is now the one last used. [DEDUCED, log 33] -/
def syncGet (s : State) (crew die index : Nat) : Eng (BitVec 128 × State) :=
  match syncAddr s crew die index with
  | none => .error (.status eSYNCRANGE (BitVec.ofNat 64 (die * 2 ^ 24 + index)))
  | some va =>
    match s.eng.places.find? (isPlace crew die index) with
    | some p =>
      if p.bad then .error (.status eUECC (BitVec.ofNat 64 (wbits va 0 48)))
      else .ok (p.val, { s with eng := { s.eng with places := s.eng.places.erase p ++ [p] } })
    | none =>
      match vread s (524 + die) crew va 16 with
      | .error e => .error (accStop e)
      | .ok bs =>
        match spillPlace s die with
        | .error e => .error e
        | .ok s =>
          let s := countRead s (524 + die) crew va 16
          let p : SyncPlace := { crew, die, index, val := BitVec.ofNat 128 (leNat bs), dirty := false }
          .ok (p.val, { s with eng := { s.eng with places := s.eng.places ++ [p] } })

/-- Write a variable that a place holds. [DEDUCED, log 33] -/
def syncPut (s : State) (crew die index : Nat) (v : BitVec 128) : State :=
  let f := fun (p : SyncPlace) => if isPlace crew die index p then { p with val := v, dirty := true } else p
  { s with eng := { s.eng with places := s.eng.places.map f } }

/-! ## Completion (11 R262-R265) -/

/-- A completion update's new value (R263). -/
def completionValue (v : BitVec 128) (status : BitVec 16) (detail : Word) : BitVec 128 :=
  let done := (bits v.toNat 0 32 + 1) % 2 ^ 32
  let st := bits v.toNat 32 16
  let errs := bits v.toNat 48 8
  let top := bits v.toNat 56 8
  let first := status ≠ 0 && st = 0
  BitVec.ofNat 128 (done + (if first then status.toNat else st) * 2 ^ 32 +
    (if status ≠ 0 then min 255 (errs + 1) else errs) * 2 ^ 48 + top * 2 ^ 56 +
    (if first then detail.toNat else bits v.toNat 64 64) * 2 ^ 64)

/-- The completion update; one that cannot be made is left out (R262). None while a key slot is changing: the update waits. -/
def completionUpdate (s : State) (o : Op) (status : BitVec 16) (detail : Word) : Option State :=
  let slot := cueSlot o.words
  if slot = 0xFFFF then some s
  else
    match syncGet s o.crew (dieOf o.stage) slot with
    | .ok (v, t) => some (syncPut t o.crew (dieOf o.stage) slot (completionValue v status detail))
    | .error .wait => none
    | .error _ => some s

/-- A reply's header block (R264, 17 R449). -/
def replyHeader (o : Op) : Block :=
  BitVec.ofNat 512 (o.status.toNat + o.result.length % 2 ^ 16 * 2 ^ 16 +
    (cueOpc o.words + (match o.walk with | some w => w.steps | none => 0) % 2 ^ 16 * 2 ^ 16) * 2 ^ 32 + o.detail.toNat * 2 ^ 64)

/-- Mask of a result token: `alloc` returns two lanes, `sread` four, a record all. -/
def resultMask (o : Op) : BitVec 16 := if cueOpc o.words = 0x2B then 0x3 else if cueOpc o.words = 0x2D then 0xF else 0xFFFF

/-- The tokens of a PORT reply. -/
def replyTokens (o : Op) : List Token :=
  { tag := 0, mask := 0xF, data := replyHeader o } ::
  (o.result.map fun b => cleanTok { tag := 0, mask := resultMask o, data := b }) ++ [cutTok 1]

/-- Whether a member's port takes replies: its active context binds it as DIR 0 and its end is a seed FIFO that is not
exhausted (R265). A held member keeps the ends of its ports. -/
def replyPort (s : State) (k m port : Nat) : Option PortEnd :=
  match getMember s k m with
  | none => none
  | some x =>
    let bound := match getRegion s x.region with
      | some y => match activeCtx y with
        | some a => a.bindings.any fun b => b.port == port && b.dir == 0
        | none => false
      | none => x.state == .held
    (Sparse.find? x.ports port).filter fun p => bound && p.kind == 1 && !p.exhausted

/-- What sending a reply gives: the state and the status and DETAIL of the completion; none while there is no room. -/
def sendReply (s : State) (o : Op) : Option (State × BitVec 16 × Word) :=
  match cueRk o.words with
  | 1 =>
    let m := cueTarget o.words / 2 ^ 17
    let port := cueTarget o.words / 2 ^ 9 % 256
    let ts := replyTokens o
    match replyPort s o.scene m port with
    | none => some (s, o.status, o.detail)
    | some p =>
      if 64 < p.fifo.length + ts.length then none
      else some (modPort s o.scene m port fun p => { p with fifo := p.fifo ++ ts }, o.status, o.detail)
  | 2 =>
    let va := o.sheet + BitVec.ofNat 64 (0x10000 + 64 * cueTarget o.words)
    let blocks := replyHeader o :: o.result
    let (s, e, _) := blocks.foldl (fun (a : State × Option AccErr × Word) b =>
      match a with
      | (s, some e, va) => (s, some e, va)
      | (s, none, va) =>
        let (t, e) := vwrite s (engineCache (opEngine o)) o.crew va (blockBytes b)
        (t, e, va + 64)) (s, none, va)
    match e with
    | none => some (s, o.status, o.detail)
    | some .wait => none
    | some e =>
      if o.status ≠ 0 then some (s, o.status, o.detail)
      else match accStop e with
        | .status c d => some (s, c, d)
        | .wait => none
  | _ => some (s, o.status, o.detail)

/-- The sync address of an arrival: chip slot, die, index (11 R278). -/
def arrivalAddr (o : Op) : Nat := cuef o.words 2 1 4 * 2 ^ 26 + cuef o.words 1 24 2 * 2 ^ 24 + cuef o.words 1 0 24

/-- Whether a status is a barrier fault (R282). -/
def barrierStatus (c : BitVec 16) : Bool := c == eBARPHASE || c == eBARTIMEOUT || c == eBARSCENE

/-- The value of a BARRIER trap (12 R289). -/
def barrierValue (status : BitVec 16) (addr : Nat) : Word := BitVec.ofNat 64 (status.toNat + addr * 2 ^ 16)

/-- A barrier fault: a BARRIER trap to the arriving context (12 R289), a freeze for a unit (12 R293). [DEDUCED, log 29] -/
def barrierFault (s : State) (o : Op) : State :=
  if cueOpc o.words ≠ 0x2A || !barrierStatus o.status then s
  else
    match o.ctx, o.unit with
    | some c, _ => if o.barPc.isSome then s else queueTrap s c tBARRIER (barrierValue o.status (arrivalAddr o))
    | none, some u =>
      match regionOf s o.stage with
      | some (r, x) => if x.scene = o.scene then markFault s r { stage := o.stage, slot := u } (o.status - 0x10) 0 false else s
      | none => s
    | none, none => s

/-- BAR ends: its status is written, the pc moves past it, and a barrier fault is an asynchronous trap after it (18 R476). -/
def closeBar (s : State) (c : Nat) (d : BitVec 5) (b : BarArrival) (status : BitVec 16) : State :=
  let s := modCtx s c fun x =>
    { writeG (freeRushes x) d (status.setWidth 64) with pc := x.pc + 4, wait := .none, bars := x.bars.erase b }
  if barrierStatus status then queueTrap s c tBARRIER (barrierValue status b.addr) else s

/-- A BAR's arrival is over: a BAR that waits for it ends; one that a trap interrupted finds the status when it is executed
again (12 R290). -/
def endBar (s : State) (o : Op) (c : Nat) (pc : Word) : State :=
  let x := getCtx s c
  match x.bars.find? fun b => b.pc == pc && b.done.isNone with
  | none => s
  | some b =>
    match x.wait with
    | .bar d =>
      if x.pc = pc then closeBar s c d b o.status
      else modCtx s c fun y => { y with bars := y.bars.replace b { b with done := some o.status } }
    | _ => modCtx s c fun y => { y with bars := y.bars.replace b { b with done := some o.status } }

/-- The class counter of the issuing context falls; a unit's operation is no longer outstanding; the entry is complete. -/
def settleOp (s : State) (id : Nat) (o : Op) (status : BitVec 16) : State :=
  let s := match o.ctx, o.barPc with
    | some c, some pc => endBar s o c pc
    | some c, none => modCtx s c fun x =>
        if cueClass o.words = 0 then { x with copies := x.copies - 1 } else { x with tiles := x.tiles - 1 }
    | none, _ => s
  let s := match o.unit, regionOf s o.stage with
    | some _, some (r, x) => if x.scene = o.scene then setRegion s r { x with pendOps := x.pendOps - 1 } else s
    | _, _ => s
  let f := fun (e : CueEntry) => if e.op = some id then { e with done := true, status } else e
  modStage s o.stage fun g => { g with table := g.table.map f }

/-- The answer to another chip's packet: a REPLY with the status and DETAIL (13 R328; the payload is the model's own).
[DESIGN CHOICE, log 16] -/
def answerRemote (s : State) (o : Op) (to_ : ReplyTo) : State :=
  sendPacket s to_.port (packetHeader 1 o.crew to_.chip to_.dest (unitEndpoint (opEngine o).2 1 0) to_.ticket 0 0)
    (BitVec.ofNat 128 (o.status.toNat + o.detail.toNat * 2 ^ 16 + s.timecode.toNat % 2 ^ 48 * 2 ^ 80))

/-- Whether the scene of an operation is being saved or is held: its completion is delivered at resume (R264). -/
def sceneAway (s : State) (k : Nat) : Bool :=
  match getScene s k with
  | some x => x.saving || x.isHeld
  | none => false

/-- An operation whose context has ended has no counter to answer to. -/
def liveOp (s : State) (o : Op) : Op :=
  match o.ctx with
  | some c => if (getCtx s c).scene = o.scene && (getCtx s c).state != .free then o else { o with ctx := none, barPc := none }
  | none => o

/-- A gather that a unit sent has lost its link: its continuity edge receives an error token (09 R230, 11 R271).
[DEDUCED, log 32] -/
def gatherEdge (s : State) (o : Op) : State :=
  match o.unit, regionOf s o.stage with
  | some u, some (_, x) =>
    match unitCfg (getStage s o.stage) x u with
    | some c =>
      if cueOpc o.words = 0x03 && o.status = eLINKFAIL then
        modUnit s o.stage u fun v =>
          { v with out := v.out ++ nodeGroups c [[(2, errorToken fLINKFAIL (unitOrigin { stage := o.stage, slot := u }) o.detail)]] }
      else s
    | none => s
  | _, _ => s

/-- OPERATION_COMPLETE (11 R262): the reply, then the completion update, then the counter. -/
def execOperationComplete (op : Nat) (s : State) : Result State :=
  match (getOp s op).map (liveOp s) with
  | none => .next s
  | some o =>
    if o.phase ≠ .finished || (o.remote.isNone && cueClass o.words ≠ 5 && sceneAway s o.scene) then .next s
    else
      let drop := fun (s : State) => { s with eng := { s.eng with ops := Sparse.erase s.eng.ops op } }
      match o.remote with
      | some to_ => .next (drop (answerRemote s o to_))
      | none =>
        match sendReply s o with
        | none => .next s
        | some (t, status, detail) =>
          match completionUpdate t o status detail with
          | none => .next s
          | some t => .next (drop (gatherEdge (barrierFault (settleOp t op o status) o) o))

/-! ## Issuing cues -/

/-- Whether a cue may complete BADCUE: it breaks its layout, or its own operation looks for it (17 R434, R438, R440, R446). -/
def mayBadcue (s : State) (o : Op) : Bool :=
  let opc := cueOpc o.words
  cueBad s o || opc == 0x02 || opc == 0x11 || opc == 0x28 || opc == 0x30 || (cueClass o.words == 2 && cuef o.words 1 29 1 == 1)

/-- CUE (18 R471). The class counters hold at most 512 copies and 63 tile operations. Behind an acquire-marked cue the context's
accesses, cues and take steps wait; one that may complete BADCUE is waited for at the boundary after the CUE, where that trap
is taken (12 R290). [DEDUCED, log 29] -/
def execCue (d a : BitVec 5) (s : State) : Result State :=
  withRegs s [a, a + 1, a + 2, a + 3, d] fun x =>
    if 28 < a.toNat then illegal s (.cue d a)
    else
      let w := [a, a + 1, a + 2, a + 3].map fun r => (readG x r).setWidth 32
      let stage := ctxStage s.cur
      let copy := cueClass w = 0
      if x.acq.isSome || 64 ≤ (getStage s stage).table.length || (if copy then 512 ≤ x.copies else 63 ≤ x.tiles) then stallCur s
      else
        let s := leaveBuffer s s.cur
        let (ins, outs) := cueTiles w
        let e : CueEntry := { words := w, ctx := s.cur, crew := x.crew, scene := x.scene, sheet := x.sheet, ticket := x.tickets,
                              seq := x.nextSeq, ins, outs }
        let s := modStage s stage fun g => { g with table := g.table ++ [e] }
        let s := retire s d x.tickets
        modCur s fun y => { y with
          tickets := x.tickets + 1
          copies := if copy then y.copies + 1 else y.copies
          tiles := if copy then y.tiles else y.tiles + 1
          acq := if cueAcq w then some x.tickets else y.acq
          wait := if cueAcq w && mayBadcue s (opOfEntry stage e) then .acquire else y.wait }

/-- The words of BAR's arrival. -/
def barWords (addr : Word) (phase : BitVec 1) : List (BitVec 32) :=
  [BitVec.ofNat 32 (0x2A * 2 ^ 24 + 2 * 2 ^ 20 + 0xFFFF), BitVec.ofNat 32 (wbits addr 0 26),
   BitVec.ofNat 32 (phase.toNat + wbits addr 26 4 * 2), 0]

/-- BAR (18 R476): the arrival, once; then the wait for its status. [DEDUCED, log 30] -/
def execBar (d a : BitVec 5) (phase : BitVec 1) (s : State) : Result State :=
  withRegs s [a, d] fun x =>
    match x.bars.find? (·.pc == x.pc) with
    | some b =>
      match b.done with
      | some st => closeBar s s.cur d b st
      | none => modCur s fun y => { (freeRushes y) with wait := .bar d }
    | none =>
      if wbits (readG x a) 30 34 ≠ 0 then retire (modCur s freeRushes) d 1
      else
        let w := barWords (readG x a) phase
        let s := modCur (leaveBuffer s s.cur) freeRushes
        if x.acq.isSome || !inboxRoom s (cueEngine (ctxStage s.cur) w) || 64 ≤ stageArrivals s (ctxStage s.cur) || !x.stores.isEmpty then stallCur s
        else
          let s := newOp s { words := w, crew := x.crew, scene := x.scene, stage := ctxStage s.cur, ctx := some s.cur,
                             sheet := x.sheet, barPc := some x.pc, sent := s.timecode }
          modCur s fun y => { y with bars := y.bars ++ [{ pc := x.pc, addr := wbits (readG x a) 0 30 }], wait := .bar d }

/-- The cue words of a token: lanes 0 to 3, an absent lane zero (16 R422). -/
def tokenCue (t : Token) : List (BitVec 32) :=
  (List.range 4).map fun j => if t.mask.getLsbD j then BitVec.ofNat 32 (lane t.data j) else 0

/-- `ecue` on a data token: the cue goes to its engine, counted until it completes, and its continuity token leaves. -/
def ecueToken (s : State) (r : Nat) (x : Region) (c : UnitCfg) (stage slot : Nat) (a : Token) : State :=
  let w := tokenCue a
  let u := getUnit s stage slot
  let (ready, cerr) := contState c u
  if !ready then s
  else
    match cerr with
    | some e => memFail s r x c stage slot (memPoison c none) false e false
    | none =>
      let o : Op := { words := w, crew := x.crew, scene := x.scene, stage, ctx := none, sheet := x.sheet, unit := some slot,
                      sent := s.timecode }
      let o := if cueMalformed w then { o with phase := .finished, status := eBADCUE, detail := word0 o } else o
      match captureOp s o with
      | none => s
      | some o =>
        if !cueMalformed w && (!inboxRoom s (opEngine o) || (cueOpc w = 0x2A && 64 ≤ stageArrivals s stage)) then s
        else
          let s := newOp (modRegion s r fun y => { y with pendOps := y.pendOps + 1 }) o
          nodeSend (modUnit (countCapture s o) stage slot (memConsume c false true)) r x c stage slot [[(2, contTok)]]

/-- Whether a marked node's cue waits: an operation of the node's earlier cues has not performed (16 R423). [DEDUCED, log 26] -/
def ecueWaits (s : State) (c : UnitCfg) (stage slot : Nat) : Bool :=
  (memRel c || memAcq c) && s.eng.ops.any fun p => p.2.unit = some slot && p.2.stage = stage && p.2.phase ≠ .finished

/-- MEM_ECUE (16 R422). -/
def execMemEcue (stage slot : Nat) (s : State) : Result State :=
  if slot ≠ 9 && slot ≠ 10 then .next s
  else
    match liveNode s 13 0x0F stage slot with
    | none => .next s
    | some (r, x, c) =>
      let u := getUnit s stage slot
      if !u.out.isEmpty then .next (emitOut s r x c stage slot)
      else
        match elemHead c u 0 with
        | none => .next s
        | some a =>
          if isStart a then .next (markFault s r { stage, slot } fTOKTAG 0 false)
          else if isCut a then .next (memCut s r x c stage slot ⟨true, false, some a⟩)
          else if isErr a then .next (memBadOperand s r x c stage slot true false a)
          else if ecueWaits s c stage slot then .next s
          else .next (ecueToken s r x c stage slot a)

end Sys2Proof.Machine
end

