-- ==== Sys2Proof/Machine/Copy.lean ====
section
/-! DEFINITION. The copy engine, the remote gather and the regeneration engine (11 R267-R271, R285; 17 R433-R436, R447). An
operation is worked on one event at a time: the reads that supply a 64-byte destination block, the read of a block whose
packed cells are covered in part, the write of the block (09 R221; 11 R269); its array accesses are asked of the squares and
banks (08 R183, R186). -/
namespace Sys2Proof.Machine

/-! ## Elements of tensors as engines reach them -/

/-- Where one component of an element lies: array cells or a global address, and the sub-element of a packed cell. -/
structure Spot where
  glob  : Bool
  loc   : Nat
  cells : List Nat
  va    : Word
  bytes : Nat
  p     : Nat
  sub   : Nat
  deriving DecidableEq, Repr

/-- A tensor as an operation holds it: descriptor, geometry, the base that replaces BASE, and whether the host aperture may
be reached. -/
structure Tensor where
  id   : Nat
  d    : Desc
  q    : Geo
  base : Word
  host : Bool := false
  deriving DecidableEq, Repr

/-- A cue's tensor. -/
def cueTensor (o : Op) (t : Nat) : Eng Tensor :=
  match cueDesc o t with
  | .ok d => .ok { id := t, d, q := geoOf d (slotDim o.algs (dAlg d)), base := BitVec.ofNat 64 (dBase d) }
  | .error e => .error e

/-- Component element `e0` of row `a1` in a plane of components (08 R181, R187, R188). -/
def Tensor.elem (t : Tensor) (e0 a1 plane : Nat) : Spot :=
  let q := t.q
  let p := perCell (dFmt t.d)
  let w := q.w
  if dLoc t.d = 3 then
    let n2 := dDim t.d 2
    let pl := plane % q.np
    let off := (if p = 1 then e0 * (2 * w) else e0 / p * 2) + a1 * dStride t.d 1 + pl % n2 * dStride t.d 2 + pl / n2 * dStride t.d 3 +
      plane / q.np * q.np * (if 1 < dDim t.d 3 then dStride t.d 3 else dStride t.d 2)
    { glob := true, loc := 3, cells := [], va := t.base + BitVec.ofNat 64 off, bytes := if p = 1 then 2 * w else 2, p, sub := e0 % p }
  else
    let (x, y, sub) := if q.pax = 0 then (w * (e0 / p), a1, e0 % p) else (w * e0, a1 / p, a1 % p)
    let cells := (List.range w).map fun i => if dLoc t.d = 2 then q.yRow y plane + 2 * (x + i) else q.cellAddr (x + i) y plane
    { glob := false, loc := dLoc t.d, cells, va := 0, bytes := 2 * w, p, sub }

/-- Component `k` of element (a0, a1) in plane `pl`. -/
def Tensor.spot (t : Tensor) (a0 a1 pl k : Nat) : Spot :=
  if t.q.planar then t.elem a0 a1 (k * t.q.np + pl) else t.elem (t.q.dd * a0 + k) a1 pl

/-- A metadata word: linear 16-bit words from SPBASE (16 R407). -/
def Tensor.metaSpot (t : Tensor) (a1 pl grp : Nat) : Spot :=
  let n := (pl * t.q.d1 + a1) * ceilDiv t.q.d0 4 + grp
  { glob := dSploc t.d = 3, loc := dSploc t.d, cells := [dSpbase t.d + 2 * n], va := BitVec.ofNat 64 (dSpbase t.d + 2 * n), bytes := 2,
    p := 1, sub := 0 }

/-- The bits of a spot within the bytes that hold it. -/
def Spot.take (z : Spot) (v : Nat) : Nat := if z.p = 1 then v else bits v (16 / z.p * z.sub) (16 / z.p)

/-- The bits of its bytes that a spot owns, and a value put into them. -/
def Spot.mask (z : Spot) : Nat := if z.p = 1 then 2 ^ (8 * z.bytes) - 1 else (2 ^ (16 / z.p) - 1) * 2 ^ (16 / z.p * z.sub)
def Spot.place (z : Spot) (v : Nat) : Nat := if z.p = 1 then v else v % 2 ^ (16 / z.p) * 2 ^ (16 / z.p * z.sub)

/-- Where each byte of a spot lies: the number of the 64-byte block, or of the array row or column, and the byte in it. -/
def Spot.lanes (z : Spot) (col : Bool) : List (Nat × Nat) :=
  if z.glob then (List.range z.bytes).map fun i => ((z.va.toNat + i) / 64, (z.va.toNat + i) % 64)
  else z.cells.flatMap fun a =>
    let (u, b) := if col then (a / 2048 * 32 + a % 64 / 2, a % 2048 / 64 * 2) else (a / 64, a % 64)
    [(u, b), (u, b + 1)]

/-- The blocks, rows or columns that a spot touches. -/
def Spot.units (z : Spot) (col : Bool) : List Nat := ((z.lanes col).map (·.1)).eraseDups

/-- The array address of a row or a column. -/
def unitAddr (col : Bool) (u : Nat) : Nat := if col then u / 32 * 2048 + 2 * (u % 32) else 64 * u

/-- The bytes of a spot in a stage's arrays. -/
def arraySpot (g : Stage) (z : Spot) : Nat := leNat (z.cells.flatMap fun a => rawBytes (getArray g z.loc) a 2)

/-- A global element is read. -/
def readGlobal (s : State) (o : Op) (host : Bool) (z : Spot) : Eng Nat :=
  match vread s (engineCache (opEngine o)) o.crew z.va z.bytes host with
  | .ok bs => .ok (z.take (leNat bs))
  | .error e => .error (accStop e)

/-- Corrected errors of the reads of global elements are counted (01 R18). -/
def countGlobal (s : State) (o : Op) (host : Bool) (zs : List Spot) : State :=
  zs.foldl (fun s z => countRead s (engineCache (opEngine o)) o.crew z.va z.bytes host) s

/-- The cycle count of a stage's region. -/
def stageFc (s : State) (stage : Nat) : Nat :=
  match regionOf s stage with
  | some (_, x) => x.fc
  | none => 0

/-- Whether an engine still works on an operation. -/
def opLive (s : State) (id : Nat) : Bool := match getOp s id with | some o => o.phase == .running | none => false

/-- A fault met on a tensor: the first one is kept; FREEZE ends the operation, POISON goes on (11 R267). -/
def tensorFault (s : State) (id : Nat) (d : Desc) (c : BitVec 16) (v : Word) : State :=
  match getOp s id with
  | none => s
  | some o =>
    let (st, dt) := if o.status = 0 then (c, v) else (o.status, o.detail)
    if dFpol d = 1 then setOp s id { o with status := st, detail := dt } else finishOp s id st dt

/-- An operation on tensors ends: with the first fault met, and otherwise with OK. -/
def endTensors (s : State) (id : Nat) (o : Op) (detail : Word) : State :=
  if o.status = 0 then finishOp s id eOK detail else finishOp s id o.status o.detail

/-! ## Elements grouped by the block, row or column that holds them -/

/-- An element joins the group of a unit; a group is a unit and its elements, in the order in which they were met. -/
def joinUnit (e : Nat) : List (List Nat) → Nat → List (List Nat)
  | [], u => [[u, e]]
  | g :: rest, u => if g.head? = some u then (g ++ [e]) :: rest else g :: joinUnit e rest u

/-- Elements grouped by the units they touch. -/
def groupSpots (col : Bool) (zs : List (Nat × Spot)) : List (List Nat) :=
  zs.foldl (fun gs p => (p.2.units col).foldl (joinUnit p.1) gs) []

/-- What elements put into one unit: the data, the bits that they own, and the bytes of their cells. -/
def unitBits (col : Bool) (unit : Nat) (zs : List (Spot × Nat)) : Block × Block × Block :=
  zs.foldl (fun (a : Block × Block × Block) (q : Spot × Nat) =>
    ((q.1.lanes col).zipIdx).foldl (fun (a : Block × Block × Block) (l : (Nat × Nat) × Nat) =>
      if l.1.1 ≠ unit then a
      else
        let at8 := fun (v : Nat) => BitVec.ofNat 512 (bits v (8 * l.2) 8 * 2 ^ (8 * l.1.2))
        let m := at8 q.1.mask
        ((a.1 &&& ~~~m) ||| at8 (q.1.place q.2), a.2.1 ||| m, a.2.2 ||| BitVec.ofNat 512 (255 * 2 ^ (8 * l.1.2)))) a) (0, 0, 0)

/-- The bytes of a block that a mask selects, as runs of an offset and bytes. -/
def byteRuns (data touch : Block) : List (Nat × List Byte) :=
  let f := fun (i : Nat) (acc : List (Nat × List Byte)) =>
    if bits touch.toNat (8 * i) 8 = 0 then acc
    else
      let b := BitVec.ofNat 8 (bits data.toNat (8 * i) 8)
      match acc with
      | (o, bs) :: rest => if o = i + 1 then (i, b :: bs) :: rest else (i, [b]) :: acc
      | [] => [(i, [b])]
  (List.range 64).foldr f []

/-- The 64-byte blocks that the cells of elements touch. -/
def spotBlocks (zs : List (Spot × Nat)) : List Nat := (zs.flatMap fun q => q.1.units false).eraseDups

/-- A unit's write has been made: its blocks are counted (17 R449). -/
def noteBlocks (s : State) (id : Nat) (bs : List Nat) : State :=
  modOp s id fun o => { o with blocks := o.blocks ++ bs.filter fun b => !o.blocks.contains b }

/-- What a unit holds is read, because cells are covered in part; an element in an unreadable cell is left out (11 R267, R269).
-/
def keepUnit (s : State) (id : Nat) (o : Op) (y : Tensor) (col : Bool) (unit : Nat) (mask : Block) (es : List (Nat × Spot × Nat)) :
    Eng (State × Bool) :=
  if dLoc y.d = 3 then
    let va := BitVec.ofNat 64 (64 * unit)
    match vread s (engineCache (opEngine o)) o.crew va 64 y.host with
    | .ok bs => .ok (modOp (countRead s (engineCache (opEngine o)) o.crew va 64 y.host) id fun o => { o with kept := some (blockOf bs) }, false)
    | .error e => match accStop e with
      | .wait => .error .wait
      | .status c v => .ok (tensorFault s id y.d c v, true)
  else
    match askSquares s (stageFc s o.stage) o.stage 7 id [{ array := dLoc y.d, addr := unitAddr col unit, col }] with
    | .wait s => .ok (s, false)
    | .granted qs =>
      let part := fun (a : Nat) => (({ glob := false, loc := dLoc y.d, cells := [a], va := 0, bytes := 2, p := 1, sub := 0 } : Spot).lanes col).any
        fun l => bits mask.toNat (8 * l.2) 8 ≠ 255
      let lost := es.filter fun e => e.2.1.cells.any fun a => part a && qs.any fun q => q.bad.contains a
      let s := modOp (dropReqs s o.stage 7 id) id fun o =>
        { o with kept := some ((qs.map (·.data)).headD 0)
                 vals := o.vals.map fun vs => vs.filter fun v => !lost.any fun e => e.1 == v.1 }
      .ok (match lost with
        | e :: _ => tensorFault s id y.d eUECC (BitVec.ofNat 64 (e.2.1.cells.headD 0))
        | [] => s, false)

/-- Elements are put into one unit, whose other bits are kept: the state, and whether the unit is done. -/
def writeUnit (s : State) (id : Nat) (o : Op) (y : Tensor) (col : Bool) (unit : Nat) (es : List (Nat × Spot × Nat)) :
    Eng (State × Bool) :=
  let zs := es.map (·.2)
  let (data, mask, touch) := unitBits col unit zs
  if touch = 0 then .ok (s, true)
  else if touch &&& ~~~mask ≠ 0 && o.kept.isNone then keepUnit s id o y col unit mask es
  else
    let data := (data &&& mask) ||| (o.kept.getD 0 &&& ~~~mask)
    if dLoc y.d = 3 then
      let put := (byteRuns data touch).foldlM (fun (s : State) (q : Nat × List Byte) =>
        match vwrite s (engineCache (opEngine o)) o.crew (BitVec.ofNat 64 (64 * unit + q.1)) q.2 y.host with
        | (t, none) => Except.ok t
        | (_, some e) => Except.error (accStop e)) s
      match put with
      | .ok s => .ok (noteBlocks s id [unit], true)
      | .error .wait => .error .wait
      | .error (.status c v) => .ok (tensorFault s id y.d c v, true)
    else
      match askSquares s (stageFc s o.stage) o.stage 7 id
          [{ array := dLoc y.d, addr := unitAddr col unit, col, write := true, wm := touch, data }] with
      | .wait s => .ok (s, false)
      | .granted _ => .ok (noteBlocks (dropReqs s o.stage 7 id) id (spotBlocks (zs.filter fun q => (q.1.units col).contains unit)), true)

/-! ## Tiles (17 R430) -/

/-- A tile: its origin and its shape clipped to the tensor. -/
structure Tile where
  a0 : Nat
  a1 : Nat
  pl : Nat
  m0 : Nat
  m1 : Nat
  mp : Nat
  deriving DecidableEq, Repr

/-- The tile of an index, or none when its origin lies beyond an extent. -/
def tileOf (q : Geo) (t n0 n1 np : Nat) : Option Tile :=
  let t0 := ceilDiv q.d0 n0
  let t1 := ceilDiv q.d1 n1
  let pl := np * (t / (t0 * t1))
  if q.np ≤ pl then none
  else
    let a0 := n0 * (t % t0)
    let a1 := n1 * (t / t0 % t1)
    some { a0, a1, pl, m0 := min n0 (q.d0 - a0), m1 := min n1 (q.d1 - a1), mp := min np (q.np - pl) }

/-- The orientation of an array-side access is illegal (08 R185, R189). -/
def orientBad (d : Desc) (col : Bool) : Bool :=
  if dLoc d = 3 then false
  else if dLoc d = 2 then col
  else if col then !(dSqax d = 1 || dSqil d = 0) || dBase d % 2048 / 64 ≠ 0 || 1 < cellsPer (dFmt d)
  else !(dSqax d = 0 || dSqil d = 0)

/-- The orientation a field selects: row, column, the descriptor's. -/
def orientOf (d : Desc) (f : Nat) : Bool := dLoc d ≠ 3 && (if f = 2 then dOri d = 1 else f = 1)

/-! ## Copying -/

/-- What a copy copies: its source with the tile and the orientation, none for zeros; its destination likewise. -/
structure CopyJob where
  src  : Option (Tensor × Tile × Bool)
  dst  : Tensor
  tile : Tile
  col  : Bool
  deriving DecidableEq, Repr

/-- The spot of a tile's element. -/
def tileSpot (x : Tensor) (u : Tile) (e : Nat × Nat × Nat × Nat) : Spot := x.spot (u.a0 + e.1) (u.a1 + e.2.1) (u.pl + e.2.2.1) e.2.2.2

/-- The elements of a tile by their place in ascending element order, a0 fastest (11 R269). -/
def tileElem (u : Tile) (dd n : Nat) : Nat × Nat × Nat × Nat :=
  (n / dd % u.m0, n / dd / u.m0 % u.m1, n / dd / u.m0 / u.m1, n % dd)

/-- How many components a tile holds. -/
def tileCount (u : Tile) (dd : Nat) : Nat := u.m0 * u.m1 * u.mp * dd

/-- The destination of a copy's element, and its source. -/
def CopyJob.target (j : CopyJob) (n : Nat) : Spot := tileSpot j.dst j.tile (tileElem j.tile j.dst.q.dd n)
def CopyJob.source (j : CopyJob) (n : Nat) : Option Spot :=
  j.src.map fun p => tileSpot p.1 p.2.1 (tileElem j.tile j.dst.q.dd n)

/-- A copy's events: its elements grouped by destination block, row or column. -/
def CopyJob.plan (j : CopyJob) : List (List Nat) :=
  groupSpots j.col ((List.range (tileCount j.tile j.dst.q.dd)).map fun n => (n, j.target n))

/-- Whether two elements share bytes. -/
def spotsMeet (a b : Spot) : Bool :=
  if a.glob || b.glob then
    a.glob && b.glob && a.va.toNat < b.va.toNat + b.bytes && b.va.toNat < a.va.toNat + a.bytes
  else a.loc == b.loc && a.cells.any b.cells.contains

/-- The lowest and highest place of an element. -/
def spotSpan (z : Spot) : Nat × Nat :=
  if z.glob then (z.va.toNat, z.va.toNat + z.bytes - 1) else (z.cells.foldl min (z.cells.headD 0), z.cells.foldl max 0)

/-- Whether the spans of two lists of elements of one place meet. -/
def spansMeet (as bs : List Spot) : Bool :=
  let f := fun (l : List Spot) => (l.map spotSpan).foldl (fun (m : Nat × Nat) (p : Nat × Nat) => (min m.1 p.1, max m.2 p.2)) (2 ^ 64, 0)
  match as, bs with
  | a :: _, b :: _ => a.glob == b.glob && a.loc == b.loc && (f as).1 ≤ (f bs).2 && (f bs).1 ≤ (f as).2
  | _, _ => false

/-- Whether a copy's source and destination may share bytes. [DEDUCED, log 24] -/
def CopyJob.mixed (j : CopyJob) : Bool :=
  match j.src with
  | none => false
  | some (x, _, _) =>
    let ns := List.range (tileCount j.tile j.dst.q.dd)
    dLoc x.d = dLoc j.dst.d && spansMeet (ns.filterMap j.source) (ns.map j.target)

/-- The source elements that a destination element may share bytes with. -/
def CopyJob.overlap (j : CopyJob) (o : Op) : List Spot :=
  if o.mixed then (List.range (tileCount j.tile j.dst.q.dd)).filterMap j.source else []

/-- What was read for an element: a value, or a fault of the source tensor. -/
abbrev ElemRead := Except (BitVec 16 × Word) Nat

/-- The values of a group's elements are taken: a faulting element is left out, or ends the operation; a destination that
shares bytes with the source receives an open value (11 R267, R269). [DESIGN CHOICE, log 2; DEDUCED, log 24] -/
def takeValues (s : State) (id : Nat) (o : Op) (d : Desc) (j : CopyJob) (rs : List (Nat × ElemRead)) : State :=
  let shares := j.overlap o
  rs.foldl (fun s r =>
    if !opLive s id then s
    else
      match r.2 with
      | .error (c, v) => tensorFault s id d c v
      | .ok n =>
        let (n, s) := if shares.any (spotsMeet (j.target r.1)) then ((freshWord s).1.toNat, (freshWord s).2) else (n, s)
        modOp s id fun o => { o with vals := some (o.vals.getD [] ++ [(r.1, n)]) }) (modOp s id fun o => { o with vals := some [] })

/-- Read one global element for a copy: a failure is kept with it. -/
def readElem (s : State) (o : Op) (host : Bool) (z : Spot) : Eng ElemRead :=
  match readGlobal s o host z with
  | .ok v => .ok (.ok v)
  | .error .wait => .error .wait
  | .error (.status c v) => .ok (.error (c, v))

/-- An element of an array, as the accesses granted to the operation read it. -/
def grantedElem (g : Stage) (qs : List SqReq) (z : Spot) : ElemRead :=
  match z.cells.find? fun a => qs.any fun q => q.bad.contains a with
  | some a => .error (eUECC, BitVec.ofNat 64 a)
  | none => .ok (z.take (arraySpot g z))

/-- The accesses that read elements of an array. -/
def readReqs (x : Tensor) (col : Bool) (zs : List Spot) : List SqReq :=
  (zs.flatMap (·.units col)).eraseDups.map fun u => { array := dLoc x.d, addr := unitAddr col u, col }

/-- What reading a group of elements has come to. -/
inductive GroupRead where
  /-- some accesses have not been granted -/
  | later (s : State)
  | done (s : State) (rs : List (Nat × ElemRead))

/-- Read a group of elements of a tensor, each under its number. -/
def readGroup (s : State) (id : Nat) (o : Op) (x : Tensor) (col : Bool) (zs : List (Nat × Spot)) : Eng GroupRead :=
  if dLoc x.d = 3 then
    match zs.mapM fun p => (readElem s o x.host p.2).map fun r => (p.1, r) with
    | .error e => .error e
    | .ok rs => .ok (.done (countGlobal s o x.host (zs.map (·.2))) rs)
  else
    match askSquares s (stageFc s o.stage) o.stage 7 id (readReqs x col (zs.map (·.2))) with
    | .wait s => .ok (.later s)
    | .granted qs =>
      let g := readView (getStage s o.stage) qs
      .ok (.done (dropReqs s o.stage 7 id) (zs.map fun p => (p.1, grantedElem g qs p.2)))

/-- The reads that supply a group of a copy. -/
def copyRead (s : State) (id : Nat) (o : Op) (j : CopyJob) (es : List Nat) : Eng State :=
  match j.src with
  | none => .ok (takeValues s id o j.dst.d j (es.map fun n => (n, .ok 0)))
  | some (x, _, col) =>
    match readGroup s id o x col (es.filterMap fun n => (j.source n).map fun z => (n, z)) with
    | .error e => .error e
    | .ok (.later s) => .ok s
    | .ok (.done s rs) => .ok (takeValues s id o x.d j rs)

/-- A group is done: the next one, or the operation's end with the destination blocks written (17 R449). -/
def nextGroup (s : State) (id : Nat) : State :=
  match getOp s id with
  | none => s
  | some o =>
    if o.phase ≠ .running then s
    else
      let o := { o with plan := o.plan.drop 1, vals := none, kept := none }
      if o.plan.isEmpty then endTensors (setOp s id o) id o (BitVec.ofNat 64 o.blocks.length) else setOp s id o

/-- The next event of a copy: the reads that supply its first group, then the group's write. -/
def copyNext (job : Op → Eng CopyJob) (s : State) (id : Nat) (o : Op) : Eng State :=
  match job o with
  | .error e => .error e
  | .ok j =>
    match o.plan with
    | (unit :: es) :: _ =>
      match o.vals with
      | none => copyRead s id o j es
      | some vs =>
        match writeUnit s id o j.dst j.col unit (vs.map fun v => (v.1, j.target v.1, v.2)) with
        | .error e => .error e
        | .ok (s, done) => .ok (if done then nextGroup s id else s)
    | _ => .ok (nextGroup s id)

/-- A copy begins: the checks of its cue, then its plan. -/
def copyStart (job : Op → Eng CopyJob) (s : State) (id : Nat) (o : Op) : Eng State :=
  match job o with
  | .error e => .error e
  | .ok j => .ok (setOp s id { o with phase := .running, plan := j.plan, mixed := j.mixed, vals := none, kept := none, blocks := [] })

/-- One event of an operation that its engine works on step by step. -/
def runPhased (opc id : Nat) (start next : State → Nat → Op → Eng State) (s : State) : State :=
  match getOp s id with
  | some o => if o.phase = .running then continueOp opc id next s else startOp opc id start s
  | none => s

/-- A status that names a tensor. -/
def tensorStop {α : Type} (c : BitVec 16) (t : Nat) : Eng α := .error (.status c (BitVec.ofNat 64 t))

/-- Whether two tensors differ in FMT, ALG or ALAY. [DEDUCED, log 24] -/
def mismatch (a b : Desc) : Bool := dFmt a ≠ dFmt b || dAlg a ≠ dAlg b || dPlanar a ≠ dPlanar b

/-- `copy` (17 R433). [DEDUCED, log 24] -/
def copyJob (o : Op) : Eng CopyJob :=
  let w := o.words
  match cueTensor o (cuef w 1 0 10), cueTensor o (cuef w 1 10 10) with
  | .error e, _ => .error e
  | _, .error e => .error e
  | .ok x, .ok y =>
    let n0 := cuef w 1 24 8 + 1
    let n1 := cuef w 2 0 8 + 1
    let np := cuef w 2 8 4 + 1
    match tileOf x.q (cuef w 2 12 10) n0 n1 np, tileOf y.q (cuef w 2 22 10) n0 n1 np with
    | none, _ => tensorStop eBADSHAPE x.id
    | _, none => tensorStop eBADSHAPE y.id
    | some u, some t =>
      let sor := orientOf x.d (cuef w 1 20 2)
      let dor := orientOf y.d (cuef w 1 22 2)
      if u.m0 ≠ t.m0 || u.m1 ≠ t.m1 || u.mp ≠ t.mp then tensorStop eBADSHAPE x.id
      else if mismatch x.d y.d then .error (.status eBADMATCH 0)
      else if orientBad x.d sor then tensorStop eBADORIENT x.id
      else if orientBad y.d dor then tensorStop eBADORIENT y.id
      else .ok { src := some (x, u, sor), dst := y, tile := t, col := dor }

/-- `zero` (17 R435). -/
def zeroJob (o : Op) : Eng CopyJob :=
  let w := o.words
  match cueTensor o (cuef w 1 10 10) with
  | .error e => .error e
  | .ok y =>
    match tileOf y.q (cuef w 2 22 10) (cuef w 1 24 8 + 1) (cuef w 2 0 8 + 1) (cuef w 2 8 4 + 1) with
    | none => tensorStop eBADSHAPE y.id
    | some t =>
      let dor := orientOf y.d (cuef w 1 22 2)
      if orientBad y.d dor then tensorStop eBADORIENT y.id else .ok { src := none, dst := y, tile := t, col := dor }

/-- `copyad` (17 R434): GTEN's BASE is replaced by BASE + OFF. -/
def copyadJob (o : Op) : Eng CopyJob :=
  let w := o.words
  match cueTensor o (cuef w 1 0 10), cueTensor o (cuef w 1 10 10) with
  | .error e, _ => .error e
  | _, .error e => .error e
  | .ok x, .ok y =>
    let base := y.base + wordOfInt (sextInt 32 (cuef w 2 0 32))
    let y := { y with base, host := true }
    let align := if perCell (dFmt y.d) = 1 then elemBytes (dFmt y.d) else 2
    if dLoc y.d ≠ 3 then tensorStop eBADDEST y.id
    else if mismatch x.d y.d then .error (.status eBADMATCH 0)
    else if base.toNat % align ≠ 0 then .error (.status eBADCUE (word0 o))
    else if wbits base 48 16 ≠ 0 then .error (.status eXLATE (xlateValue xNONCANON base))
    else
      match tileOf x.q (cuef w 1 20 10) y.q.d0 y.q.d1 y.q.np with
      | none => tensorStop eBADSHAPE x.id
      | some t =>
        let whole : Tile := { a0 := 0, a1 := 0, pl := 0, m0 := t.m0, m1 := t.m1, mp := t.mp }
        let col := dOri x.d = 1 && dLoc x.d ≠ 3
        if t.m0 ≠ y.q.d0 || t.m1 ≠ y.q.d1 || t.mp ≠ y.q.np then tensorStop eBADSHAPE x.id
        else if orientBad x.d col then tensorStop eBADORIENT x.id
        else if cuef w 1 30 1 = 0 then .ok { src := some (y, whole, false), dst := x, tile := t, col }
        else .ok { src := some (x, t, col), dst := y, tile := whole, col := false }

def execCopy (op : Nat) (s : State) : Result State := .next (runPhased 0x01 op (copyStart copyJob) (copyNext copyJob) s)
def execCopyad (op : Nat) (s : State) : Result State := .next (runPhased 0x02 op (copyStart copyadJob) (copyNext copyadJob) s)
def execZero (op : Nat) (s : State) : Result State := .next (runPhased 0x04 op (copyStart zeroJob) (copyNext zeroJob) s)

/-! ## Remote gather (11 R270, R271; 17 R436) -/

/-- The chip port of a remote gather's peer. -/
def gatherPort (s : State) (o : Op) : Option Nat :=
  let slot := cuef o.words 1 20 4
  match getScene s o.scene with
  | some k =>
    if k.xchip then
      match chipOfSlot k slot with
      | some c => if c = s.chip.serial.toNat then none else portTowards s c
      | none => none
    else if slot < 12 && portUp s slot then some slot else none
  | none => if slot < 12 && portUp s slot then some slot else none

/-- Whether a gather's peer is known to be out of step (01 R38; 11 R271). -/
def gatherOut (s : State) (o : Op) : Bool :=
  match getScene s o.scene with
  | some k => k.xchip && (match chipOfSlot k (cuef o.words 1 20 4) with | some c => s.links.peersOut.contains c | none => false)
  | none => false

/-- Row length in bytes. -/
def gatherLen (o : Op) : Nat := 64 * (cuef o.words 1 24 6 + 1)

/-- Bytes of a row of a tensor (08 R181, R187). -/
def rowLength (t : Tensor) : Nat := 2 * t.q.w * ceilDiv t.q.n0 t.q.p

/-- DETAIL of a gather that stops after `k` rows. -/
def gatherDetail (o : Op) : Word := BitVec.ofNat 64 (o.rows * 2 ^ 32 + o.todo.getD o.rows 0 % 2 ^ 32)

/-- The mark of an index that could not be read under POISON: its row is left unchanged (11 R267). -/
def noIndex : Nat := 2 ^ 32

/-- The first row at or after `j` that is to be fetched. -/
def skipRows : List Nat → Nat → Nat
  | [], j => j
  | i :: rest, j => if i = noIndex then skipRows rest (j + 1) else j

/-- The body of a request for a row of a remote gather: its address, its length, the crew, whether it is the gather's first, and
where an answer in its place goes. [DESIGN CHOICE, log 16] -/
def gatherRequest (s : State) (o : Op) (i : Nat) : Block :=
  let slot := match getScene s o.scene with
    | some k => if k.xchip then 16 + k.chips.findIdx (· == s.chip.serial.toNat) else 0
    | none => 0
  BitVec.ofNat 512 ((cuef o.words 2 0 32 * 2 ^ 16 + i * gatherLen o) % 2 ^ 64 + gatherLen o * 2 ^ 64 + o.crew % 8 * 2 ^ 80 +
    (if o.rows = skipRows o.todo 0 then 2 ^ 83 else 0) + opSource o % 2 ^ 16 * 2 ^ 84 + slot % 32 * 2 ^ 100)

/-- Ask the peer for the next row, or stop at a negative index or a failed link, or complete. -/
def gatherNext (s : State) (id : Nat) : State :=
  match getOp s id with
  | none => s
  | some o =>
    let o := { o with phase := .waiting, rows := skipRows (o.todo.drop o.rows) o.rows, result := [], plan := [], vals := none, kept := none }
    let s := setOp s id o
    match o.todo[o.rows]? with
    | none => endTensors s id o (BitVec.ofNat 64 (o.todo.length * 2 ^ 32))
    | some i =>
      if o.linkDown then finishOp s id eLINKFAIL (gatherDetail o)
      else if 2 ^ 31 ≤ i then finishOp s id eBADINDEX (gatherDetail o)
      else
        match gatherPort s o with
        | none => finishOp s id eLINKFAIL (gatherDetail o)
        | some p => sendBeat s p 6 (id % 2048) 0 0 (gatherRequest s o i)

/-- The spots of an index tensor in element order. -/
def indexSpots (x : Tensor) : List (Nat × Spot) :=
  let u : Tile := { a0 := 0, a1 := 0, pl := 0, m0 := x.q.d0, m1 := x.q.d1, mp := x.q.np }
  (List.range (tileCount u x.q.dd)).map fun n => (n, tileSpot x u (tileElem u x.q.dd n))

/-- The orientation of a gather's array accesses: the descriptor's. [DEDUCED, log 24] -/
def ownOri (d : Desc) : Bool := dOri d = 1 && dLoc d ≠ 3

/-- The index tensor and the destination of a gather. -/
def gatherTensors (o : Op) : Eng (Tensor × Tensor) :=
  match cueTensor o (cuef o.words 1 0 10), cueTensor o (cuef o.words 1 10 10) with
  | .error e, _ => .error e
  | _, .error e => .error e
  | .ok x, .ok y => .ok (x, y)

/-- `rgather`: its checks; then the indices are read. -/
def gatherStart (s : State) (id : Nat) (o : Op) : Eng State :=
  match gatherTensors o with
  | .error e => .error e
  | .ok (x, y) =>
    let zs := indexSpots x
    if dFmt x.d ≠ 0x0A then .error (.status eBADMATCH 0)
    else if rowLength y ≠ gatherLen o || y.q.d1 * y.q.planes < zs.length then tensorStop eBADSHAPE y.id
    else if orientBad x.d (ownOri x.d) then tensorStop eBADORIENT x.id
    else if orientBad y.d (ownOri y.d) then tensorStop eBADORIENT y.id
    else if (gatherPort s o).isNone || gatherOut s o then .error (.status eBADPEER (BitVec.ofNat 64 (cuef o.words 1 20 4)))
    else
      let plan := zs.foldl (fun gs p => joinUnit p.1 gs ((p.2.units (ownOri x.d)).headD 0)) []
      .ok (setOp s id { o with phase := .running, todo := [], rows := 0, result := [], plan, vals := some [], kept := none })

/-- The next indices are read; after the last ones the first request goes. -/
def gatherIndices (s : State) (id : Nat) (o : Op) (x : Tensor) (es : List Nat) : Eng State :=
  match readGroup s id o x (ownOri x.d) ((indexSpots x).filter fun p => es.contains p.1) with
  | .error e => .error e
  | .ok (.later s) => .ok s
  | .ok (.done s rs) =>
    let s := rs.foldl (fun s r =>
      if !opLive s id then s
      else
        match r.2 with
        | .error (c, v) => tensorFault s id x.d c v
        | .ok n => modOp s id fun o => { o with vals := some (o.vals.getD [] ++ [(r.1, n)]) }) s
    match getOp s id with
    | none => .ok s
    | some p =>
      if p.phase ≠ .running then .ok s
      else if 1 < o.plan.length then .ok (setOp s id { p with plan := o.plan.drop 1 })
      else
        let vs := p.vals.getD []
        let todo := (indexSpots x).map fun q => ((vs.find? (·.1 == q.1)).map (·.2)).getD noIndex
        .ok (gatherNext (setOp s id { p with todo }) id)

/-- The spots of a destination row, in element order. -/
def rowSpots (y : Tensor) (j : Nat) : List (Nat × Spot) := (List.range y.q.n0).map fun e => (e, y.elem e (j % y.q.d1) (j / y.q.d1))

/-- One block, row or column of a delivered row is written. -/
def gatherWrite (s : State) (id : Nat) (o : Op) (y : Tensor) (unit : Nat) (es : List Nat) : Eng State :=
  let vs := o.vals.getD []
  let zs := (rowSpots y o.rows).filterMap fun p =>
    if es.contains p.1 then (vs.find? (·.1 == p.1)).map fun v => (p.1, p.2, v.2) else none
  match writeUnit s id o y (ownOri y.d) unit zs with
  | .error e => .error e
  | .ok (s, done) =>
    if !done || !opLive s id then .ok s
    else if 1 < o.plan.length then .ok (modOp s id fun o => { o with plan := o.plan.drop 1, kept := none })
    else .ok (gatherNext (modOp s id fun o => { o with rows := o.rows + 1 }) id)

/-- The next event of a gather: indices are read until all are known; then delivered rows are written. -/
def gatherStep (s : State) (id : Nat) (o : Op) : Eng State :=
  match gatherTensors o, o.plan with
  | .ok (x, y), (unit :: es) :: _ => if o.todo.isEmpty then gatherIndices s id o x es else gatherWrite s id o y unit es
  | .error e, _ => .error e
  | _, _ => .ok s

def execRgather (op : Nat) (s : State) : Result State := .next (runPhased 0x03 op gatherStart gatherStep s)

/-- A block of returned data reaches its gather; the row's last block begins its writes. -/
def gatherData (s : State) (id : Nat) (b : Block) : State :=
  match getOp s id with
  | none => s
  | some o =>
    let got := o.result ++ [b]
    if 64 * got.length < gatherLen o then setOp s id { o with result := got }
    else
      match gatherTensors o with
      | .error _ => s
      | .ok (_, y) =>
        let v := leNat (got.flatMap blockBytes)
        let n := if y.q.p = 1 then 16 * y.q.w else 16 / y.q.p
        let zs := rowSpots y o.rows
        setOp s id { o with phase := .running, result := [], plan := groupSpots (ownOri y.d) zs, kept := none
                            vals := some (zs.map fun p => (p.1, bits v (n * p.1) n)) }

/-- The peer's answer in place of a row: an unusable index, a peer that may not serve; otherwise a fault under the cue's own
policy (11 R267, R270, R271). -/
def gatherRefused (s : State) (id : Nat) (o : Op) (code : BitVec 16) (detail : Word) : State :=
  if code = eBADINDEX then finishOp s id code (gatherDetail o)
  else if code = eBADPEER then finishOp s id code (BitVec.ofNat 64 (cuef o.words 1 20 4))
  else if cuePoison o.words then
    gatherNext (modOp s id fun o =>
      { o with rows := o.rows + 1, status := if o.status = 0 then code else o.status, detail := if o.status = 0 then detail else o.detail }) id
  else finishOp s id (if o.status = 0 then code else o.status) (if o.status = 0 then detail else o.detail)

/-- Whether an address translates to memory that is not populated. -/
def unpopulated (s : State) (crew : Nat) (va : Word) : Bool :=
  match translate s 0 crew va .read with
  | .ok x => !inAperture x.pa && !populated s x.pa
  | .error _ => false

/-- A request of a peer chip is served: the row's blocks, or a status in a reply (11 R270, R271). A chip that is out of step, or
does not hold the crew enabled, answers BADPEER to a gather's first request, before any transfer. None while a key slot is
changing. [DESIGN CHOICE, log 16] -/
def serveGather (s : State) (p circ : Nat) (b : Block) : Option State :=
  let va := BitVec.ofNat 64 (bits b.toNat 0 64)
  let len := bits b.toNat 64 16
  let crew := bits b.toNat 80 3
  let refuse := fun (c : BitVec 16) (v : Word) =>
    let chip := if bits b.toNat 104 1 = 1 then bits b.toNat 100 4 else p
    some (sendPacket s p (packetHeader 1 crew chip (bits b.toNat 84 16) (stageEndpoint 0 13 0) circ 0 0)
      (BitVec.ofNat 128 (c.toNat + v.toNat * 2 ^ 16)))
  if bits b.toNat 83 1 = 1 && (!(getCrew s crew).en || s.links.outOfStep) then refuse eBADPEER 0
  else
    match vread s 0 crew va len with
    | .error .wait => none
    | .error (.uecc v) => refuse eUECC (BitVec.ofNat 64 (wbits v 0 48))
    | .error (.xlate c v) => if c = xBADPA && unpopulated s crew v then refuse eBADINDEX 0 else refuse eXLATE (xlateValue c v)
    | .ok bs => some ((blocksOf 64 bs).foldl (fun s b => sendBeat s p 6 (2048 + circ) 0 0 b) (countRead s 0 crew va len))

/-- A request is served now, or kept until it can be. -/
def serveRequest (s : State) (q : Nat × Nat × Block) : State :=
  match serveGather s q.1 q.2.1 q.2.2 with
  | some t => t
  | none => { s with links := { s.links with served := s.links.served ++ [q] } }

/-- The requests that wait are tried again, in their order. -/
def serveAgain (s : State) : State := s.links.served.foldl serveRequest { s with links := { s.links with served := [] } }

/-! ## Regeneration (11 R285; 17 R447) -/

/-- The rank of a magnitude: its code without the sign, every NaN above all numbers. -/
def magRank (f : Fmt) (v : Nat) : Nat := min (v % 2 ^ (f.ew + f.mw)) ((2 ^ f.ew - 1) * 2 ^ f.mw + 1)

/-- The four positions of largest magnitude, ascending; ties go to the lower position. -/
def keepFour (rs : List Nat) : List Nat :=
  (List.range 8).filter fun j =>
    ((List.range 8).filter fun i => rs.getD j 0 < rs.getD i 0 || (rs.getD i 0 == rs.getD j 0 && i < j)).length < 4

/-- The element index of R239. -/
def elementIndex (t : Tensor) (a0 a1 pl k : Nat) : Nat :=
  let n0 := if t.q.planar then t.q.d0 else t.q.dd * t.q.d0
  (pl * t.q.d1 + a1) * n0 + (if t.q.planar then a0 else t.q.dd * a0 + k)

/-- What a `regen` cue names: its tensors and their formats, and s, seed and period of its argument block. -/
structure RegenJob where
  x    : Tensor
  y    : Tensor
  fx   : Fmt
  fy   : Fmt
  sr   : Bool
  step : Nat
  seed : Nat
  per  : Nat

/-- `regen`: its checks (17 R447). The engine has no path to arrays (08 R178). [DEDUCED, log 24] -/
def regenJob (o : Op) : Eng RegenJob :=
  let w := o.words
  match gatherTensors o with
  | .error e => .error e
  | .ok (x, y) =>
    if dLoc x.d ≠ 3 then tensorStop eBADDEST x.id
    else if dLoc y.d ≠ 3 then tensorStop eBADDEST y.id
    else if !([2, 4].contains (dFmt x.d) && dSpf y.d = 1 && [3, 4, 5, 6].contains (dFmt y.d)) then .error (.status eBADMATCH 0)
    else if dSploc y.d ≠ 3 then tensorStop eBADDEST y.id
    else if y.q.d0 ≠ 4 * ceilDiv x.q.d0 8 || y.q.d1 ≠ x.q.d1 || dDim y.d 2 ≠ dDim x.d 2 || dDim y.d 3 ≠ dDim x.d 3 then
      tensorStop eBADSHAPE x.id
    else
      match floatFmt (dFmt x.d), floatFmt (dFmt y.d) with
      | some fx, some fy =>
        .ok { x, y, fx, fy, sr := cuef w 1 20 1 = 1, step := imgField o.args 0 8, seed := imgField o.args 8 8
              per := max 1 (imgField o.args 16 4) }
      | _, _ => .error (.status eBADMATCH 0)

/-- The groups of a tensor in ascending order: group, a1, plane, component. -/
def regenGroups (x : Tensor) : List (List Nat) :=
  (List.range x.q.np).flatMap fun pl => (List.range x.q.d1).flatMap fun a1 =>
    (List.range (ceilDiv x.q.d0 8)).flatMap fun g => (List.range x.q.dd).map fun k => [g, a1, pl, k]

/-- `regen` begins; a step that is no multiple of the period completes at once. -/
def regenStart (s : State) (id : Nat) (o : Op) : Eng State :=
  match regenJob o with
  | .error e => .error e
  | .ok j =>
    if j.step % j.per ≠ 0 then .ok (finishOp s id eOK 0)
    else .ok (setOp s id { o with phase := .running, plan := regenGroups j.x, todo := [], rows := 0, vals := none, kept := none })

/-- Where the five parts of a group go: the four values kept, and the metadata word. -/
def regenSpots (j : RegenJob) (g a1 pl k : Nat) : List (Nat × Spot) :=
  (List.range 4).map (fun i => (i, j.y.spot (4 * g + i) a1 pl k)) ++ [(4, j.y.metaSpot a1 pl g)]

/-- The values that regenerate a group from its eight elements. -/
def regenValues (j : RegenJob) (g a1 pl k : Nat) (vs : List Nat) : List (Nat × Nat) :=
  let keep := keepFour (vs.map (magRank j.fx))
  let value := fun (i p : Nat) =>
    let rnd := if j.sr then srBits j.y.id (elementIndex j.y (4 * g + i) a1 pl k) j.step j.seed else 0
    (encodeF j.fy (if j.sr then 5 else 0) rnd false (decodeF j.fx false (vs.getD p 0))).1
  (keep.zipIdx.map fun p => (p.2, value p.2 p.1)) ++ [(4, (keep.zipIdx.map fun p => p.1 * 2 ^ (3 * p.2)).sum)]

/-- A group is done: the next one, or the operation's end. -/
def regenNext (s : State) (id : Nat) (wrote : Nat) : State :=
  match getOp s id with
  | none => s
  | some o =>
    if o.phase ≠ .running then s
    else
      let o := { o with plan := o.plan.drop 1, todo := [], vals := none, kept := none, rows := o.rows + wrote }
      if o.plan.isEmpty then endTensors (setOp s id o) id o (BitVec.ofNat 64 o.rows) else setOp s id o

/-- A group's eight elements are read and its four values formed; positions beyond the extent are +0. -/
def regenRead (s : State) (id : Nat) (o : Op) (j : RegenJob) (g a1 pl k : Nat) : Eng State :=
  let zs := ((List.range 8).filter fun i => 8 * g + i < j.x.q.d0).map fun i => (i, j.x.spot (8 * g + i) a1 pl k)
  match readGroup s id o j.x false zs with
  | .error e => .error e
  | .ok (.later s) => .ok s
  | .ok (.done s rs) =>
    match rs.findSome? fun r => match r.2 with | .error e => some e | .ok _ => none with
    | some (c, v) => .ok (regenNext (tensorFault s id j.x.d c v) id 0)
    | none =>
      let vs := (List.range 8).map fun i => match rs.find? (·.1 == i) with | some (_, .ok v) => v | _ => 0
      .ok (modOp s id fun o => { o with vals := some (regenValues j g a1 pl k vs), kept := none
                                        todo := ((regenSpots j g a1 pl k).flatMap fun p => p.2.units false).eraseDups })

/-- One block of a group is written. -/
def regenWrite (s : State) (id : Nat) (o : Op) (j : RegenJob) (g a1 pl k unit : Nat) : Eng State :=
  let vs := o.vals.getD []
  let zs := (regenSpots j g a1 pl k).filterMap fun p => (vs.find? (·.1 == p.1)).map fun v => (p.1, p.2, v.2)
  match writeUnit s id o j.y false unit zs with
  | .error e => .error e
  | .ok (s, done) =>
    if !done || !opLive s id then .ok s
    else if 1 < o.todo.length then .ok (modOp s id fun o => { o with todo := o.todo.drop 1, kept := none })
    else .ok (regenNext s id 1)

/-- The next event of a `regen`: a group's reads, or one of the blocks it writes (09 R221). -/
def regenStep (s : State) (id : Nat) (o : Op) : Eng State :=
  match regenJob o, o.plan, o.todo with
  | .error e, _, _ => .error e
  | .ok j, [g, a1, pl, k] :: _, [] => regenRead s id o j g a1 pl k
  | .ok j, [g, a1, pl, k] :: _, u :: _ => regenWrite s id o j g a1 pl k u
  | .ok _, _, _ => .ok (regenNext s id 0)

def execRegen (op : Nat) (s : State) : Result State := .next (runPhased 0x40 op regenStart regenStep s)

end Sys2Proof.Machine
end

