-- ==== Sys2Proof/Machine/Sync.lean ====
section
/-! DEFINITION. The sync engine: atomics, exact accumulation, barriers, the allocator, plain sync accesses (11 R278-R283;
17 R440-R445; 09 R228, R229). -/
namespace Sys2Proof.Machine

/-- Die and index of a sync cue's variable. -/
def syncDie (o : Op) : Nat := cuef o.words 1 24 2
def syncIndex (o : Op) : Nat := cuef o.words 1 0 24

/-- Whether the operands come from an argument block. -/
def syncArg (o : Op) : Bool := cuef o.words 1 30 1 = 1

/-- The argument block of a sync cue, empty when it names none. -/
def syncArgs (o : Op) : List Byte := if syncArg o then o.args else []

/-! ## Atomics (11 R280, 17 R441) -/

/-- The new value of an atomic on `n` bits. -/
def atomicValue (opc n old x cmp : Nat) : Nat :=
  match opc with
  | 0x20 => (old + x) % 2 ^ n
  | 0x21 => if sextInt n x < sextInt n old then x else old
  | 0x22 => if sextInt n old < sextInt n x then x else old
  | 0x23 => Nat.land old x
  | 0x24 => Nat.lor old x
  | 0x25 => Nat.xor old x
  | 0x26 => x
  | _ => if old = cmp then x else old

/-- An atomic on a sync variable. -/
def atomicVar (s : State) (id : Nat) (o : Op) (n x cmp : Nat) : Eng State :=
  match syncGet s o.crew (syncDie o) (syncIndex o) with
  | .error e => .error e
  | .ok (v, s) =>
    let lo := 32 * cuef o.words 1 26 2
    let old := bits v.toNat lo n
    let new := atomicValue (cueOpc o.words) n old x cmp
    .ok (finishOp (syncPut s o.crew (syncDie o) (syncIndex o) (BitVec.ofNat 128 (v.toNat - old * 2 ^ lo + new * 2 ^ lo))) id eOK
      (BitVec.ofNat 64 old))

/-- An atomic in global memory: the block is read, and written back whole (09 R228). -/
def atomicGlobal (s : State) (id : Nat) (o : Op) (n x cmp : Nat) (va : Word) : Eng State :=
  if va.toNat % (n / 8) ≠ 0 then .error (.status eBADCUE (word0 o))
  else
    match pieceOf s (engineCache (opEngine o)) o.crew va (n / 8) .write false with
    | .error e => .error (accStop e)
    | .ok p =>
      if badBlock s p.pa then .error (.status eUECC (BitVec.ofNat 64 (wbits va 0 48)))
      else
        let old := leNat (readPiece s p)
        let s := usePage s (engineCache (opEngine o)) o.crew va .write
        .ok (finishOp (writePiece (countPiece s p) p (leBytes (n / 8) (atomicValue (cueOpc o.words) n old x cmp))) id eOK (BitVec.ofNat 64 old))

/-- The atomics: operand from bytes 0-7 or sext(word 2), compare value from bytes 8-15, a GLOB target from bytes 16-23. -/
def runAtomic (s : State) (id : Nat) (o : Op) : Eng State :=
  let bs := syncArgs o
  let n := if cuef o.words 1 28 1 = 1 then 64 else 32
  let x := if syncArg o then imgField bs 0 8 % 2 ^ n else (wordOfInt (sextInt 32 (cuef o.words 2 0 32))).toNat % 2 ^ n
  let cmp := imgField bs 8 8 % 2 ^ n
  if cuef o.words 1 29 1 = 1 then atomicGlobal s id o n x cmp (BitVec.ofNat 64 (imgField bs 16 8)) else atomicVar s id o n x cmp

def execAtadd (op : Nat) (s : State) : Result State := .next (startOp 0x20 op runAtomic s)
def execAtmin (op : Nat) (s : State) : Result State := .next (startOp 0x21 op runAtomic s)
def execAtmax (op : Nat) (s : State) : Result State := .next (startOp 0x22 op runAtomic s)
def execAtand (op : Nat) (s : State) : Result State := .next (startOp 0x23 op runAtomic s)
def execAtor (op : Nat) (s : State) : Result State := .next (startOp 0x24 op runAtomic s)
def execAtxor (op : Nat) (s : State) : Result State := .next (startOp 0x25 op runAtomic s)
def execAtswp (op : Nat) (s : State) : Result State := .next (startOp 0x26 op runAtomic s)
def execAtcas (op : Nat) (s : State) : Result State := .next (startOp 0x27 op runAtomic s)

/-! ## Exact accumulation (11 R281, 17 R442) -/

/-- The new value of an accumulating variable, or why it stays. -/
def accaddValue (v a : BitVec 128) : Eng (BitVec 128) :=
  let e := bits v.toNat 96 16
  let sum := sextInt 96 (bits v.toNat 0 96) + sextInt 96 (bits a.toNat 0 96)
  if bits a.toNat 96 16 ≠ e then .error (.status eADDEXP (BitVec.ofNat 64 e))
  else if sum < -(2 ^ 95 - 1 : Int) || (2 ^ 95 - 1 : Int) < sum then .error (.status eACCRANGE 0)
  else
    .ok (BitVec.ofNat 128 ((sum % (2 ^ 96 : Int)).toNat + e * 2 ^ 96 + max (bits v.toNat 117 7) (bits a.toNat 117 7) * 2 ^ 117 +
      Nat.lor (bits v.toNat 124 3) (bits a.toNat 124 3) * 2 ^ 124))

/-- `accadd`. -/
def runAccadd (s : State) (id : Nat) (o : Op) : Eng State :=
  let a : BitVec 128 := BitVec.ofNat 128 (imgField (syncArgs o) 0 16)
  if bits a.toNat 127 1 ≠ 0 || bits a.toNat 112 5 ≠ 0 then .error (.status eBADCUE (word0 o))
  else
    match syncGet s o.crew (syncDie o) (syncIndex o) with
    | .error e => .error e
    | .ok (v, s) =>
      match accaddValue v a with
      | .error e => .error e
      | .ok n => .ok (finishOp (syncPut s o.crew (syncDie o) (syncIndex o) n) id eOK 0)

def execAccadd (op : Nat) (s : State) : Result State := .next (startOp 0x28 op runAccadd s)

/-! ## Barriers (11 R282, R283; 17 R443) -/

/-- Whether an arrival waits at this barrier. -/
def waitsAt (crew die index : Nat) (b : BarWait) : Bool := b.crew == crew && b.die == die && b.index == index

/-- The waiting arrivals of a barrier complete with a status; `sel` picks them. -/
def endArrivals (s : State) (sel : BarWait → Bool) (status : BitVec 16) (detail : Word) : State :=
  let ws := s.eng.waits.filter sel
  let s := { s with eng := { s.eng with waits := s.eng.waits.filter fun b => !sel b } }
  ws.foldl (fun s b => finishOp s b.op status detail) s

/-- SCENE, COUNT, ARRIVED and PHASE of a barrier's word 0. -/
def barScene (v : BitVec 128) : Nat := bits v.toNat 48 16
def barCount (v : BitVec 128) : Nat := bits v.toNat 32 16
def barArrived (v : BitVec 128) : Nat := bits v.toNat 16 16
def barPhase (v : BitVec 128) : Nat := bits v.toNat 0 1
/-- TIMEOUT and ELAPSED of word 1. -/
def barTimeout (v : BitVec 128) : Nat := bits v.toNat 96 32
def barElapsed (v : BitVec 128) : Nat := bits v.toNat 64 32

/-- A barrier's value. -/
def barValue (scene count arrived phase timeout elapsed : Nat) : BitVec 128 :=
  BitVec.ofNat 128 (phase % 2 + arrived % 2 ^ 16 * 2 ^ 16 + count % 2 ^ 16 * 2 ^ 32 + scene % 2 ^ 16 * 2 ^ 48 +
    elapsed % 2 ^ 32 * 2 ^ 64 + timeout % 2 ^ 32 * 2 ^ 96)

/-- `barinit`: waiting arrivals complete with BARPHASE. -/
def runBarinit (s : State) (id : Nat) (o : Op) : Eng State :=
  match syncGet s o.crew (syncDie o) (syncIndex o) with
  | .error e => .error e
  | .ok (v, s) =>
    let s := endArrivals s (waitsAt o.crew (syncDie o) (syncIndex o)) eBARPHASE (BitVec.ofNat 64 (barArrived v))
    .ok (finishOp (syncPut s o.crew (syncDie o) (syncIndex o)
      (barValue (o.scene % 2 ^ 16) (cuef o.words 2 0 16) 0 0 (cuef o.words 2 16 16) 0)) id eOK 0)

def execBarinit (op : Nat) (s : State) : Result State := .next (startOp 0x29 op runBarinit s)

/-- Keep the smallest slack of a region's take (04 R95). -/
def addSample (x : Region) (v : Int) : Region :=
  { x with sample := some (match x.sample with | some w => min v w | none => v) }

/-- The slack of an arrival at a barrier that gathers several chips: the release timecode less the arrival's (04 R95). -/
def slackSample (s : State) (o : Op) (sent : Word) (rel : Nat) : State :=
  if o.remote.isSome then s
  else
    match regionOf s o.stage with
    | some (r, x) => if x.scene = o.scene then setRegion s r (addSample x ((rel : Int) - sent.toNat)) else s
    | none => s

/-- The chip that made a waiting arrival. -/
def waitChip (s : State) (b : BarWait) : Nat :=
  match getOp s b.op with
  | some o => if o.remote.isSome then o.peer else s.chip.serial.toNat
  | none => s.chip.serial.toNat

/-- Whether arrivals come from more than one chip. -/
def chipsDiffer (s : State) (ws : List BarWait) : Bool := 1 < ((ws.map (waitChip s)).eraseDups).length

/-- The slack of a waiting arrival that is released now. -/
def releaseSample (s : State) (b : BarWait) : State :=
  match getOp s b.op with
  | some o => slackSample s o b.sent (now s)
  | none => s

/-- A barrier's waiting arrivals are released (R282): OK, with slack samples where they come from several chips, which the
answer to another chip says in DETAIL [0]. [DESIGN CHOICE, log 16] -/
def releaseBarrier (s : State) (o : Op) (phase : Nat) : State :=
  let sel := fun (b : BarWait) => waitsAt o.crew (syncDie o) (syncIndex o) b && b.phase.toNat == phase
  let ws := s.eng.waits.filter sel
  let s := { s with eng := { s.eng with waits := s.eng.waits.filter fun b => !sel b } }
  let spread := chipsDiffer s ws
  let s := if spread then ws.foldl releaseSample s else s
  ws.foldl (fun s b => finishOp s b.op eOK (match getOp s b.op with
    | some p => if spread && p.remote.isSome then 1 else 0
    | none => 0)) s

/-- The waiting arrivals that a die's sync engine holds at most (11 R261). -/
def barWaitLimit : Nat := 8192

/-- `arrive` at a variable of this chip. -/
def arriveHere (s : State) (id : Nat) (o : Op) : Eng State :=
  let die := syncDie o
  let index := syncIndex o
  match syncGet s o.crew die index with
  | .error .wait => .error .wait
  | .error (.status c d) => .error (.status c (if c = eSYNCRANGE then BitVec.ofNat 64 (arrivalAddr o) else d))
  | .ok (v, s) =>
    let phase := cuef o.words 2 0 1
    if barScene v ≠ o.scene % 2 ^ 16 then .error (.status eBARSCENE (BitVec.ofNat 64 (barScene v)))
    else if phase ≠ barPhase v then .error (.status eBARPHASE (BitVec.ofNat 64 (barArrived v)))
    else
      let last : Bool := barArrived v + 1 = barCount v
      if !last && barWaitLimit ≤ (s.eng.waits.filter fun b => b.die == die).length then .error .wait
      else
        let s := modOp s id fun o => { o with phase := .waiting }
        let ran := match s.eng.waits.filter (waitsAt o.crew die index) with | b :: _ => b.ran | [] => 0
        let b : BarWait := { crew := o.crew, die, index, phase := BitVec.ofNat 1 phase, op := id,
                             sent := if o.sent = 0 then s.timecode else o.sent, ran }
        let s := { s with eng := { s.eng with waits := s.eng.waits ++ [b] } }
        if last then
          .ok (releaseBarrier (syncPut s o.crew die index (barValue (barScene v) (barCount v) 0 (1 - barPhase v) (barTimeout v) 0)) o phase)
        else
          .ok (syncPut s o.crew die index
            (barValue (barScene v) (barCount v) (barArrived v + 1) (barPhase v) (barTimeout v) (barElapsed v)))

/-- Where an arrival goes: this chip, another chip's port, or BADPEER (11 R283). -/
inductive ArrivalTo where
  | here
  | port (p : Nat)
  | refused
  deriving DecidableEq, Repr

/-- The chip an arrival's chip slot names. -/
def arrivalTo (s : State) (o : Op) : ArrivalTo :=
  let slot := cuef o.words 2 1 4
  if o.remote.isSome then (if s.links.outOfStep || !(getCrew s o.crew).en then .refused else .here)
  else
    match getScene s o.scene with
    | none => if slot = 0 then .here else .refused
    | some k =>
      if !k.xchip then (if slot = 0 then .here else .refused)
      else
        match chipOfSlot k slot with
        | none => .refused
        | some c =>
          if c = s.chip.serial.toNat then (if s.links.outOfStep then .refused else .here)
          else if s.links.peersOut.contains c then .refused
          else match portTowards s c with
            | some p => .port p
            | none => .refused

/-- The port towards the other chip that an arrival's chip slot names. -/
def arrivalPort (s : State) (o : Op) : Option Nat :=
  match (getScene s o.scene).bind fun k => if k.xchip then chipOfSlot k (cuef o.words 2 1 4) else none with
  | some c => if c = s.chip.serial.toNat then none else portTowards s c
  | none => none

/-- Send an arrival to another chip's sync engine: one CUE packet with REMOTE set, carrying its ticket (18 R471), the scene's
serial, the sender's own, and the sender's timecode (11 R283; the second packet's payload is the model's own).
[DESIGN CHOICE, log 16] -/
def sendArrival (s : State) (id : Nat) (o : Op) (p : Nat) : State :=
  let hdr := fun (i : Nat) => packetHeader 0 o.crew (cuef o.words 2 1 4) (unitEndpoint (syncDie o) 1 0) (opSource o) (opTicket id o) i 1
  let w := BitVec.ofNat 128 ((o.words.zipIdx.map fun (q : BitVec 32 × Nat) => q.1.toNat * 2 ^ (32 * q.2)).sum)
  let s := sendPacket (modOp s id fun o => { o with sent := s.timecode }) p (hdr 0) w
  sendPacket s p (hdr 1) (BitVec.ofNat 128 (o.scene % 2 ^ 16 + s.chip.serial.toNat % 2 ^ 32 * 2 ^ 16 + s.timecode.toNat * 2 ^ 64))

/-- `arrive`. -/
def runArrive (s : State) (id : Nat) (o : Op) : Eng State :=
  match arrivalTo s o with
  | .here => arriveHere s id o
  | .refused => .error (.status eBADPEER (BitVec.ofNat 64 (cuef o.words 2 1 4)))
  | .port p => .ok (sendArrival (modOp s id fun o => { o with phase := .waiting }) id o p)

def execArrive (op : Nat) (s : State) : Result State := .next (startOp 0x2A op runArrive s)

/-- Whether a scene is placed and not held, on every chip of a cross-chip scene (11 R282, R283): its chips start it at one tick and
hold it together (06 R141, 05 R109). While it is being placed again its members are still held (05 R107). -/
def sceneRuns (k : Scene) : Bool :=
  !k.holding && !k.isHeld && (!k.xchip || k.started) && (!k.started || k.members.all (·.state != .placed))

/-- Whether the scene of a barrier's waiting arrivals runs, so that a tick counts (05 R110). [DEDUCED, log 33] -/
def waitCounts (s : State) (b : BarWait) : Bool :=
  match getOp s b.op with
  | some o => s.scenes.any fun p => p.1 % 2 ^ 16 == o.scene % 2 ^ 16 && sceneRuns p.2
  | none => false

/-- Ticks pass at the barriers whose scene runs. [DEDUCED, log 33] -/
def passBarriers (s : State) (tc : Nat) : State :=
  { s with eng := { s.eng with waits := s.eng.waits.map fun b => if waitCounts s b then { b with ran := b.ran + tc } else b } }

/-- BARRIER_ELAPSED: a unit of 1,024 tc has ended, of those that passed while arrivals waited and the scene was placed and not
held. [DESIGN CHOICE, log 13; DEDUCED, log 33] -/
def execBarrierElapsed (crew die index : Nat) (s : State) : Result State :=
  match s.eng.waits.find? (waitsAt crew die index) with
  | none => .next s
  | some b =>
    if b.ran < 1024 then .next s
    else
      match syncGet s crew die index with
      | .error _ => .next s
      | .ok (v, s) =>
        let f := fun (b : BarWait) => if waitsAt crew die index b then { b with ran := b.ran - 1024 } else b
        let s := { s with eng := { s.eng with waits := s.eng.waits.map f } }
        if barArrived v = 0 || (barTimeout v ≠ 0 && barTimeout v ≤ barElapsed v) then .next s
        else
          .next (syncPut s crew die index
            (barValue (barScene v) (barCount v) (barArrived v) (barPhase v) (barTimeout v) (barElapsed v + 1)))

/-- BARRIER_TIMEOUT: ELAPSED has reached TIMEOUT; every waiting arrival completes with BARTIMEOUT, and the variable stays. -/
def execBarrierTimeout (crew die index : Nat) (s : State) : Result State :=
  if !s.eng.waits.any (waitsAt crew die index) then .next s
  else
    match syncGet s crew die index with
    | .error _ => .next s
    | .ok (v, s) =>
      if barTimeout v ≠ 0 && barTimeout v ≤ barElapsed v then
        .next (endArrivals s (waitsAt crew die index) eBARTIMEOUT (BitVec.ofNat 64 (barArrived v)))
      else .next s

/-! ## Allocator and plain accesses (17 R444, R445) -/

/-- `alloc`. -/
def runAlloc (s : State) (id : Nat) (o : Op) : Eng State :=
  match syncGet s o.crew (syncDie o) (syncIndex o) with
  | .error e => .error e
  | .ok (v, s) =>
    let n := cuef o.words 2 0 5
    let next := bits v.toNat 0 48
    let limit := bits v.toNat 64 48
    if limit < next + 256 * n then .ok (finishOp s id eNOCHUNK (BitVec.ofNat 64 next) [0])
    else
      let v' := v.toNat - next + (next + 256 * n) % 2 ^ 48
      .ok (finishOp (syncPut s o.crew (syncDie o) (syncIndex o) (BitVec.ofNat 128 v')) id eOK (BitVec.ofNat 64 next)
        [BitVec.ofNat 512 next])

def execAlloc (op : Nat) (s : State) : Result State := .next (startOp 0x2B op runAlloc s)

/-- `swrite`. -/
def runSwrite (s : State) (id : Nat) (o : Op) : Eng State :=
  match syncGet s o.crew (syncDie o) (syncIndex o) with
  | .error e => .error e
  | .ok (_, s) =>
    .ok (finishOp (syncPut s o.crew (syncDie o) (syncIndex o) (BitVec.ofNat 128 (imgField (syncArgs o) 0 16))) id eOK 0)

def execSwrite (op : Nat) (s : State) : Result State := .next (startOp 0x2C op runSwrite s)

/-- `sread`. -/
def runSread (s : State) (id : Nat) (o : Op) : Eng State :=
  match syncGet s o.crew (syncDie o) (syncIndex o) with
  | .error e => .error e
  | .ok (v, s) => .ok (finishOp s id eOK (BitVec.ofNat 64 (bits v.toNat 0 64)) [v.setWidth 512])

def execSread (op : Nat) (s : State) : Result State := .next (startOp 0x2D op runSread s)

end Sys2Proof.Machine
end

