-- ==== Sys2Proof/Machine/Walk.lean ====
section
/-! DEFINITION. Traversal engines: rule sets, walks and their steps (11 R272-R276; 17 R437-R439, R450-R453). -/
namespace Sys2Proof.Machine

/-! ## Rules (17 R450-R453) -/

/-- A field of a rule. -/
def rf (u : Word) (lo len : Nat) : Nat := wbits u lo len

/-- The value of an operand selector. -/
def ruleSel (w : WalkState) (u : Word) (sel : Nat) : Word :=
  match sel with
  | 0 => w.w0
  | 1 => w.w1
  | 2 => BitVec.ofNat 64 (bits w.key.toNat 0 64)
  | 3 => BitVec.ofNat 64 (bits w.key.toNat 64 64)
  | 4 => w.ptr.setWidth 64
  | 5 => BitVec.ofNat 64 w.steps
  | _ => wordOfInt (sextInt 32 (rf u 0 32))

/-- A condition code. -/
def ruleCond (cc : Nat) (a b : Word) : Bool :=
  match cc with
  | 0 => a == b
  | 1 => a != b
  | 2 => a.ult b
  | 3 => !a.ult b
  | 4 => a.slt b
  | _ => !a.slt b

/-- A field of the record: 2^code bytes at an offset. -/
def recField (rec : List Byte) (off code : Nat) : Word := BitVec.ofNat 64 (imgField rec off (2 ^ code))

/-- Set a scratch value. -/
def setScratch (w : WalkState) (d : Nat) (v : Word) : WalkState := if d = 0 then { w with w0 := v } else { w with w1 := v }
/-- Read a scratch value. -/
def getScratch (w : WalkState) (d : Nat) : Word := if d = 0 then w.w0 else w.w1

/-- What a rule gives. -/
inductive RuleOut where
  | next
  | jump (t : Nat)
  | follow (p : BitVec 48)
  | ret
  | fail
  deriving DecidableEq, Repr

/-- One rule (R452). -/
def executeRule (u : Word) (w : WalkState) (rec : List Byte) : RuleOut × WalkState :=
  let sel := fun (lo : Nat) => ruleSel w u (rf u lo 3)
  match rf u 60 4 with
  | 0 => (.next, setScratch w (rf u 59 1) (recField rec (rf u 48 8) (rf u 56 2)))
  | 1 => (if ruleCond (rf u 53 3) (sel 50) (sel 47) then .jump (rf u 56 4) else .next, w)
  | 2 => (.next, setScratch w (rf u 59 1) (((sel 56 ^^^ sel 53) * 0x9E3779B97F4A7C15) >>> (64 - rf u 47 6)))
  | 3 =>
    if rf u 59 1 = 0 then (.follow ((recField rec (rf u 48 8) 3).setWidth 48), w)
    else (.follow (((sel 56 <<< rf u 48 5) + sel 53).setWidth 48), w)
  | 4 =>
    if ruleCond (rf u 57 3) (sel 54) (recField rec (rf u 44 8) (rf u 52 2)) then
      (.follow ((recField rec (rf u 28 8) 3).setWidth 48), w)
    else (.follow ((recField rec (rf u 36 8) 3).setWidth 48), w)
  | 5 =>
    let v := getScratch w (rf u 59 1) + wordOfInt (sextInt 32 (rf u 0 32))
    (if rf u 58 1 = 1 && v == 0 then .jump (rf u 54 4) else .next, setScratch w (rf u 59 1) v)
  | 6 => (.ret, w)
  | 8 => (.jump (rf u 56 4), w)
  | 9 =>
    let a := sel 56
    let b := sel 53
    (.next, setScratch w (rf u 59 1) (match rf u 51 2 with | 0 => a + b | 1 => a &&& b | 2 => a ||| b | _ => a ^^^ b))
  | _ => (.fail, w)

/-- Run the rules from index `i`; rules jump only forward, so at most 16 run. -/
def runRules : Nat → List Word → Nat → WalkState → List Byte → RuleOut × WalkState
  | 0, _, _, w, _ => (.fail, w)
  | n + 1, rules, i, w, rec =>
    match rules[i]? with
    | none => (.fail, w)
    | some u =>
      match executeRule u w rec with
      | (.next, w) => runRules n rules (i + 1) w rec
      | (.jump t, w) => runRules n rules t w rec
      | r => r

/-- The bits that each operation's layout uses (R451). -/
def ruleFields (u : Word) : List (Nat × Nat) :=
  match rf u 60 4 with
  | 0 => [(59, 1), (56, 2), (48, 8)]
  | 1 => [(47, 13), (0, 32)]
  | 2 => [(47, 13), (0, 32)]
  | 3 => if rf u 59 1 = 0 then [(59, 1), (48, 8)] else [(48, 12), (0, 32)]
  | 4 => [(28, 32)]
  | 5 => [(54, 6), (0, 32)]
  | 8 => [(56, 4)]
  | 9 => [(51, 9), (0, 32)]
  | _ => []

/-- Rule `i` of `count` fails validation (R453). -/
def ruleBad (rlen count i : Nat) (u : Word) : Bool :=
  let op := rf u 60 4
  let badT := fun (t : Nat) => t ≤ i || count ≤ t
  let past := fun (off w : Nat) => rlen < off + w
  let badPtr := fun (off : Nat) => past off 8 || off % 8 ≠ 0
  10 ≤ op || u.toNat ≠ op * 2 ^ 60 + ((ruleFields u).map fun (p : Nat × Nat) => wbits u p.1 p.2 * 2 ^ p.1).sum ||
  (match op with
   | 0 => past (rf u 48 8) (2 ^ rf u 56 2)
   | 1 => badT (rf u 56 4) || 6 ≤ rf u 53 3 || rf u 50 3 = 7 || rf u 47 3 = 7
   | 2 => rf u 47 6 = 0 || rf u 56 3 = 7 || rf u 53 3 = 7
   | 3 => if rf u 59 1 = 0 then badPtr (rf u 48 8) else rf u 56 3 = 7 || rf u 53 3 = 7
   | 4 => 6 ≤ rf u 57 3 || 6 ≤ rf u 54 3 || past (rf u 44 8) (2 ^ rf u 52 2) || badPtr (rf u 36 8) || badPtr (rf u 28 8)
   | 5 => if rf u 58 1 = 1 then badT (rf u 54 4) else rf u 54 4 ≠ 0
   | 8 => badT (rf u 56 4)
   | 9 => rf u 56 3 = 7 || rf u 53 3 = 7
   | _ => false)

/-! ## Rule sets in engines (11 R276) -/

/-- The key of set `k` in engine `e`. -/
def setKey (e k : Nat) : Nat := 8 * e + k

/-- A set of an engine. -/
def getSet (s : State) (e k : Nat) : Option RuleSet := Sparse.find? s.eng.sets (setKey e k)

/-- The set that a cue's image gives (17 R438), or none if the image is bad. -/
def parseSet (crew : Nat) (version : BitVec 16) (bs : List Byte) : Option RuleSet :=
  let count := imgField bs 0 1
  let code := imgField bs 1 1
  let rlen := 64 * (code + 1)
  let retlen := imgField bs 2 2
  let rules := (List.range 16).map fun i => BitVec.ofNat 64 (imgField bs (64 + 8 * i) 8)
  let ok := [decide (1 ≤ count), decide (count ≤ 16), decide (code < 4), decide (64 ≤ retlen), decide (retlen ≤ rlen),
    imgField bs 4 60 == 0, (rules.drop count).all (· == 0),
    !((rules.take count).zipIdx.any fun (p : Word × Nat) => ruleBad rlen count p.2 p.1)]
  if ok.all id then some { crew, version, rlen, retlen, rules := rules.take count } else none

/-- The engines that a rule-set cue names. -/
def setEngines (o : Op) : List Nat := if cuef o.words 1 3 1 = 1 then List.range 12 else [cuef o.words 1 4 4]

/-- `rsload`: the image is checked; the engines then install it one by one. -/
def runRsload (s : State) (id : Nat) (o : Op) : Eng State :=
  match parseSet o.crew (BitVec.ofNat 16 (cuef o.words 1 16 16)) o.args with
  | none => .error (.status eBADCUE (word0 o))
  | some _ => .ok (modOp s id fun o => { o with phase := .running, todo := setEngines o })

def execRsload (op : Nat) (s : State) : Result State := .next (startOp 0x11 op runRsload s)

/-- `rsrel`. -/
def runRsrel (s : State) (id : Nat) (o : Op) : Eng State :=
  .ok (modOp s id fun _ => { o with phase := .running, todo := setEngines o })

def execRsrel (op : Nat) (s : State) : Result State := .next (startOp 0x12 op runRsrel s)

/-- Whether a walk on a set is present in an engine: it holds a walk slot there. -/
def walkPresent (s : State) (e k : Nat) : Bool :=
  s.eng.ops.any fun p => match p.2.walk with
    | some w => p.2.phase == .running && w.engine == e && w.rset == k && !w.handoff
    | none => false

/-- Whether a load or release of a set is due at an engine: new walks and hand-offs wait behind it. -/
def setChanging (s : State) (e k : Nat) : Bool :=
  s.eng.ops.any fun p => (cueOpc p.2.words == 0x11 || cueOpc p.2.words == 0x12) && p.2.phase == .running &&
    cuef p.2.words 1 0 3 == k && p.2.todo.contains e

/-- One engine's part of a load or a release. [DEDUCED, log 32] -/
def installSet (s : State) (id : Nat) (o : Op) (e : Nat) (rest : List Nat) : State :=
  let k := cuef o.words 1 0 3
  let other : Bool := match getSet s e k with | some q => q.crew ≠ o.crew | none => false
  if other then finishOp s id eINUSE (BitVec.ofNat 64 e)
  else
    let load := cueOpc o.words = 0x11
    let new := if load then parseSet o.crew (BitVec.ofNat 16 (cuef o.words 1 16 16)) o.args else none
    let sets := match new with
      | some q => Sparse.insert s.eng.sets (setKey e k) q
      | none => Sparse.erase s.eng.sets (setKey e k)
    let s := { s with eng := { s.eng with sets } }
    if rest.isEmpty then finishOp s id eOK (BitVec.ofNat 64 (if load then cuef o.words 1 16 16 else 0))
    else modOp s id fun o => { o with todo := rest }

/-- RULESET_INSTALL (11 R276, 17 R438): the next engine in order acts once no walk of the set is present there. -/
def execRulesetInstall (op engine : Nat) (s : State) : Result State :=
  match getOp s op with
  | none => .next s
  | some o =>
    if o.phase ≠ .running || !(cueOpc o.words = 0x11 || cueOpc o.words = 0x12) then .next s
    else
      match o.todo with
      | e :: rest => .next (if e = engine && !walkPresent s e (cuef o.words 1 0 3) then installSet s op o e rest else s)
      | [] => .next s

/-! ## Walks (11 R273-R275; 17 R437) -/

/-- The home engine of a pointer in a crew's space; none where it does not translate. -/
def pointerHome (s : State) (e crew : Nat) (p : BitVec 48) : Option Nat :=
  match translate s (512 + e) crew (p.setWidth 64) .read with
  | .ok x => if populated s x.pa then some (homeEngine x.pa) else none
  | .error _ => none

/-- The reply's result blocks: RETLEN bytes of the record. -/
def recordBlocks (w : WalkState) : List Block := blocksOf (ceilDiv w.retlen 64) (w.lastRec.take w.retlen)

/-- RULESET's DETAIL. -/
def rulesetDetail (w : WalkState) : Word := BitVec.ofNat 64 (w.rset * 2 ^ 16 + w.version.toNat)

/-- End a walk with a status other than OK (R273): under RETURN the last record read is returned. -/
def endWalk (s : State) (id : Nat) (w : WalkState) (status : BitVec 16) (detail : Word) : State :=
  finishOp (modOp s id fun o => { o with walk := some w }) id status detail
    (if !w.abort && w.hasRec then recordBlocks w else [])

/-- The writes of the returned record into X, through the traversal reply path (08 R178). -/
def walkReqs (w : WalkState) (q : Geo) : List SqReq :=
  ((recordBlocks w).zipIdx).filterMap fun p =>
    match vecOf w.xdesc q false (w.xrow % q.d1 : Nat) (p.2 : Nat) (w.xrow / q.d1 : Nat) with
    | .ok v => some { array := v.loc, addr := v.addr, write := true, wm := writeMask 0xFFFF v.ext v.full v.last, data := p.1, part := p.2 }
    | .error _ => none

/-- The geometry of the X tensor that receives a record. -/
def walkGeo (o : Op) (w : WalkState) : Geo := geoOf w.xdesc (slotDim o.algs (dAlg w.xdesc))

/-- A walk returns its record with OK, once it has written it to X when its cue asks; a row that does not hold it is not
written (17 R437). -/
def returnWalk (s : State) (id : Nat) (o : Op) (w : WalkState) : State :=
  let s := modOp s id fun o => { o with walk := some w }
  let done := fun (s : State) (st : BitVec 16) (d : Word) => finishOp s id st d (recordBlocks w)
  if cuef o.words 1 4 1 = 0 then done s eOK (w.ptr.setWidth 64)
  else if 2 * (walkGeo o w).c0 < w.retlen then done s eBADSHAPE (BitVec.ofNat 64 (cuef o.words 1 6 10))
  else modOp s id fun o => { o with walk := some { w with replying := true } }

/-- A record is being written into X: the writes are asked for, and the walk ends when they have been granted. -/
def replyWalk (s : State) (id : Nat) (o : Op) (w : WalkState) : State :=
  match askSquares s (stageFc s o.stage) o.stage 6 id (walkReqs w (walkGeo o w)) with
  | .wait s => s
  | .granted _ => finishOp (dropReqs s o.stage 6 id) id eOK (w.ptr.setWidth 64) (recordBlocks w)

/-- The X tensor's checks at issue: BADDEST, BADINDEX, and BADSHAPE against the set that the receiving engine held then. -/
def walkTensor (o : Op) (row : Nat) (retlen : Option Nat) : Eng Desc :=
  if cuef o.words 1 4 1 = 0 then .ok []
  else
    match cueTensor o (cuef o.words 1 6 10) with
    | .error e => .error e
    | .ok t =>
      if dLoc t.d ≠ 1 then tensorStop eBADDEST t.id
      else if t.q.d1 * t.q.planes ≤ row then .error (.status eBADINDEX (BitVec.ofNat 64 row))
      else if orientBad t.d false then tensorStop eBADORIENT t.id
      else match retlen with
        | some n => if 2 * t.q.c0 < n then tensorStop eBADSHAPE t.id else .ok t.d
        | none => .ok t.d

/-- The walks that hold a slot of an engine, and those handed off to it that wait for one (11 R275). -/
def walkSlots (s : State) (e : Nat) (handoff : Bool) : Nat :=
  (s.eng.ops.filter fun p => match p.2.walk with
    | some v => p.2.phase == .running && v.engine == e && v.handoff == handoff
    | none => false).length

/-- `walk`: delivered to engine 8 + d; a pointer homed elsewhere is handed off before the first step. A freed slot goes to a
hand-off before it goes to the inbox (R275). [DEDUCED, log 32] -/
def runWalk (s : State) (id : Nat) (o : Op) : Eng State :=
  let w := o.words
  let e := 8 + dieOf o.stage
  let k := cuef w 1 0 3
  let set := (getSet s e k).filter (·.crew == o.crew)
  let row := imgField o.args 24 2
  match walkTensor o row o.retlen with
  | .error x => .error x
  | .ok xdesc =>
    if setChanging s e k || 256 ≤ walkSlots s e false + walkSlots s e true then .error .wait
    else
      let ws : WalkState :=
        { ptr := BitVec.ofNat 48 (imgField o.args 0 6), key := BitVec.ofNat 128 (imgField o.args 8 16), rset := k
          version := match getSet s e k with | some q => q.version | none => 0
          limit := if cuef w 1 16 16 = 0 then 65535 else cuef w 1 16 16, abort := cuef w 1 3 1 = 1, engine := e
          retlen := match set with | some q => q.retlen | none => 64
          xdesc, xrow := row }
      match set with
      | none => .ok (endWalk s id ws eRULESET (rulesetDetail ws))
      | some _ =>
        let home := if ws.ptr = 0 then e else (pointerHome s e o.crew ws.ptr).getD e
        let s := if ws.ptr = 0 then s else usePage s (512 + e) o.crew (ws.ptr.setWidth 64) .read
        .ok (modOp s id fun o => { o with phase := .running, walk := some { ws with engine := home, handoff := home ≠ e } })

def execWalk (op : Nat) (s : State) : Result State := .next (startOp 0x10 op runWalk s)

/-- A step's end: the walk follows a pointer, which may be homed at another engine. -/
def followTo (s : State) (id : Nat) (o : Op) (w : WalkState) (p : BitVec 48) : State :=
  let w := { w with ptr := p }
  let home := if p = 0 then w.engine else (pointerHome s w.engine o.crew p).getD w.engine
  modOp (if p = 0 then s else usePage s (512 + w.engine) o.crew (p.setWidth 64) .read) id fun o => { o with walk := some { w with engine := home, handoff := home ≠ w.engine } }

/-- The next block of a record is read (09 R221): what has been read, or why it cannot be. A record is translated whole before
its first block is read. -/
def readRecord (s : State) (o : Op) (w : WalkState) (rlen : Nat) : Except AccErr (List Byte) :=
  let cache := 512 + w.engine
  let va := w.ptr.setWidth 64 + BitVec.ofNat 64 w.read.length
  let n := min (64 - va.toNat % 64) (rlen - w.read.length)
  match if w.read.isEmpty then pieces s cache o.crew .read false (rlen / 64 + 2) va rlen else .ok [] with
  | .error e => .error e
  | .ok _ =>
    match vread s cache o.crew va n with
    | .error e => .error e
    | .ok bs => .ok (w.read ++ bs)

/-- The rules run on a whole record. -/
def applyRules (s : State) (id : Nat) (o : Op) (w : WalkState) (q : RuleSet) (rec : List Byte) : State :=
  let w := { w with steps := w.steps + 1, hasRec := true, lastRec := rec, read := [] }
  match runRules 17 q.rules 0 w rec with
  | (.ret, w) => returnWalk s id o w
  | (.follow p, w) => followTo s id o w p
  | (_, w) => endWalk s id w eWALKFAIL (w.ptr.setWidth 64)

/-- One event of a walk: the limits of a step, a block of its record, or with the last block the rules (R273).
[DEDUCED, log 32] -/
def stepWalk (s : State) (id : Nat) (o : Op) (w : WalkState) (q : RuleSet) : State :=
  if w.steps = w.limit then endWalk s id w eSTEPLIMIT (w.ptr.setWidth 64)
  else if w.ptr = 0 then endWalk s id w eNULLPTR 0
  else
    match readRecord s o w q.rlen with
    | .error .wait => s
    | .error (.xlate c va) => endWalk s id w eXLATE (xlateValue c va)
    | .error (.uecc _) => endWalk s id w eUECC (w.ptr.setWidth 64)
    | .ok rec =>
      let s := countRead s (512 + w.engine) o.crew (w.ptr.setWidth 64 + BitVec.ofNat 64 w.read.length) (rec.length - w.read.length)
      if rec.length < q.rlen then modOp s id fun o => { o with walk := some { w with read := rec } }
      else applyRules s id o w q rec

/-- WALK_STEP. -/
def execWalkStep (op : Nat) (s : State) : Result State :=
  match getOp s op with
  | none => .next s
  | some o =>
    match o.walk with
    | none => .next s
    | some w =>
      if o.phase ≠ .running || w.handoff then .next s
      else if w.replying then .next (replyWalk s op o w)
      else
        match getSet s w.engine w.rset with
        | none => .next (endWalk s op w eRULESET (rulesetDetail w))
        | some q => .next (stepWalk s op o w q)

/-- WALK_HANDOFF (R275): the walk takes a slot of its new engine, behind a load of its set; another crew's or another
version's set ends it. -/
def execWalkHandoff (op : Nat) (s : State) : Result State :=
  match getOp s op with
  | none => .next s
  | some o =>
    match o.walk with
    | none => .next s
    | some w =>
      if o.phase ≠ .running || !w.handoff || setChanging s w.engine w.rset || 256 ≤ walkSlots s w.engine false then .next s
      else
        match (getSet s w.engine w.rset).filter fun q => q.crew == o.crew && q.version == w.version with
        | none => .next (endWalk s op { w with handoff := false } eRULESET (rulesetDetail w))
        | some q => .next (modOp s op fun o => { o with walk := some { w with handoff := false, retlen := q.retlen } })

end Sys2Proof.Machine
end

