-- ==== Sys2Proof/Machine/Coll.lean ====
section
/-! DEFINITION. Port adders: binding, release and pairing (01 R26, R27; 11 R284; 17 R446). -/
namespace Sys2Proof.Machine

/-! ## Binding (17 R446) -/

/-- The adder a collective cue names. -/
def collAdder (w : List (BitVec 32)) : Nat :=
  let port := cuef w 1 0 5
  if port < 12 then 128 + 8 * port + cuef w 1 6 4 else 32 * (port - 16) + 16 * cuef w 1 5 1 + cuef w 1 6 4

/-- The dies of a die edge, lower first (01 R24). -/
def edgeDies (edge : Nat) : Nat × Nat := match edge with | 0 => (0, 1) | 1 => (0, 2) | 2 => (1, 3) | _ => (2, 3)

/-- The number of an adder at its port, as its cue gives it: the DETAIL of its statuses (17 R446, R449). -/
def adderNumber (w : List (BitVec 32)) : Word := BitVec.ofNat 64 (cuef w 1 6 4)

/-- The receiving die of an adder. -/
def adderDie (n : Nat) : Nat :=
  if n < 128 then (let e := edgeDies (n / 32); if n / 16 % 2 = 0 then e.1 else e.2) else (n - 128) / 8 / 3

/-- The die on which a member's port stands: that of its binding, and otherwise of its region's origin. -/
def portDie (s : State) (scene member port : Nat) : Option Nat :=
  match getMember s scene member with
  | none => none
  | some m =>
    match getRegion s m.region with
    | none => none
    | some x =>
      let bs := (match activeCtx x with | some a => a.bindings | none => []) ++ x.loaded.flatMap fun p => p.2.bindings
      match bs.find? (·.port == port) with
      | some b => some (dieOf b.stage)
      | none => some (dieOf (stageOfRaster m.region))

/-- The die on which a circuit from one die to another turns: it goes X first, then Y (01 R13). -/
def turnDie (src dst : Nat) : Nat := 2 * (src / 2) + dst % 2

/-- Whether a circuit from one die to another crosses an edge toward the adder's die. -/
def crossesEdge (edge side src dst : Nat) : Bool :=
  let (lo, hi) := edgeDies edge
  let hop := if side = 0 then (hi, lo) else (lo, hi)
  let mid := turnDie src dst
  (src, mid) == hop || (mid, dst) == hop

/-- The dies on which a scene circuit starts and ends on this chip: at a chip port, or at a member's port. -/
def circuitDies (s : State) (scene : Nat) (q : SceneCircuit) : Option Nat × Option Nat :=
  match q.via with
  | some (p, _) =>
    if q.outward then (portDie s scene q.smem q.sport, some (p / 3)) else (some (p / 3), portDie s scene q.dmem q.dport)
  | none => (portDie s scene q.smem q.sport, portDie s scene q.dmem q.dport)

/-- Whether REMOTE crosses the named port toward the adder's die. -/
def remoteOk (s : State) (scene : Nat) (q : SceneCircuit) (adder : Nat) : Bool :=
  if adder < 128 then
    match circuitDies s scene q with
    | (some a, some b) => crossesEdge (adder / 32) (adder / 16 % 2) a b
    | _ => false
  else
    match q.via with
    | some (p, _) => p == (adder - 128) / 8 && !q.outward
    | none => false

/-- The three checks of a binding. -/
def collOk (s : State) (scene adder remote locl out : Nat) : Bool :=
  match getCircuit s scene remote, getCircuit s scene locl, getCircuit s scene out with
  | some r, some l, some o =>
    remoteOk s scene r adder && (circuitDies s scene l).2 == some (adderDie adder) &&
    (circuitDies s scene o).1 == some (adderDie adder)
  | _, _, _ => false

/-- Whether both inputs of an adder hold no unpaired token. -/
def adderDrained (s : State) (a : Adder) : Bool :=
  let empty := fun n => match getCircuit s a.scene n with | some q => q.q.isEmpty | none => true
  empty a.remote && empty a.locl

/-- Write an adder. -/
def setAdder (s : State) (n : Nat) (a : Adder) : State :=
  { s with eng := { s.eng with adders := Sparse.insert s.eng.adders n a } }

/-- The tokens of a circuit that wait as an adder is bound to it, by their time of arrival there: now. -/
def waitingSince (s : State) (scene n : Nat) : List Nat :=
  match getCircuit s scene n with
  | some q => List.replicate q.q.length (now s)
  | none => []

/-- `cbind`. Tokens that wait for the adder arrive with its binding. [DEDUCED, log 36] -/
def runCbind (s : State) (id : Nat) (o : Op) : Eng State :=
  let w := o.words
  let n := collAdder w
  let a : Adder := { scene := o.scene, mode := BitVec.ofNat 2 (cuef w 1 10 2), remote := cuef w 1 12 12, locl := cuef w 2 0 12,
                     out := cuef w 2 12 12, rAt := waitingSince s o.scene (cuef w 1 12 12), lAt := waitingSince s o.scene (cuef w 2 0 12) }
  if cuef w 1 10 2 = 3 then .error (.status eBADMODE (adderNumber w))
  else if !collOk s o.scene n a.remote a.locl a.out then .error (.status eBADCUE (word0 o))
  else
    match Sparse.find? s.eng.adders n with
    | none => .ok (finishOp (tellBuffers (setAdder s n a) o.scene a.remote) id eOK (adderNumber w))
    | some old =>
      if old.scene ≠ o.scene then .error (.status eINUSE (adderNumber w))
      else if old.draining || !adderDrained s old then .error .wait
      else .ok (finishOp (tellBuffers (tellBuffers (setAdder s n a) o.scene old.remote) o.scene a.remote) id eOK (adderNumber w))

def execCbind (op : Nat) (s : State) : Result State := .next (startOp 0x30 op runCbind s)

/-- `crel`: pairing goes on until neither input holds an unpaired token. [DEDUCED, log 36] -/
def runCrel (s : State) (id : Nat) (o : Op) : Eng State :=
  let n := collAdder o.words
  match Sparse.find? s.eng.adders n with
  | none => .ok (finishOp s id eOK (adderNumber o.words))
  | some a =>
    if a.scene ≠ o.scene then .error (.status eINUSE (adderNumber o.words))
    else if adderDrained s a then
      .ok (finishOp (tellBuffers { s with eng := { s.eng with adders := Sparse.erase s.eng.adders n } } o.scene a.remote) id eOK (adderNumber o.words))
    else .ok (setAdder s n { a with draining := true })

def execCrel (op : Nat) (s : State) : Result State := .next (startOp 0x31 op runCrel s)

/-! ## Pairing (01 R26, R27) -/

/-- The value of `w` bits that starts at bit `lo`, zero unless every lane it spans is set (07 R158). -/
def adderField (t : Token) (lo w : Nat) : Nat :=
  if (List.range (w / 32)).all fun j => t.mask.getLsbD (lo / 32 + j) then bits t.data.toNat lo w else 0

/-- Lanes of integers of `w` bits added modulo 2^w. -/
def addInts (w : Nat) (a b : Token) : Nat :=
  ((List.range (512 / w)).map fun i => (adderField a (w * i) w + adderField b (w * i) w) % 2 ^ w * 2 ^ (w * i)).sum

/-- A 96-bit sum, sign-extended to 128 bits; a sum of values outside their format has no stated value.
[DESIGN CHOICE, log 2; DEDUCED, log 36] -/
def partSum (f0 f1 : Word) (a b : Nat) : Nat × Bool :=
  let v := sextInt 96 (a % 2 ^ 96) + sextInt 96 (b % 2 ^ 96)
  if -(2 ^ 95 : Int) ≤ v && v < (2 ^ 95 : Int) then ((v % (2 ^ 128 : Int)).toNat, false)
  else (((sextInt 96 (f0.toNat + f1.toNat * 2 ^ 64)) % (2 ^ 128 : Int)).toNat, true)

/-- The status of a combination: the flags are ORed, the headroom report is the larger. -/
def partStatus (a b : Nat) : Nat :=
  Nat.lor (bits a 28 4) (bits b 28 4) * 2 ^ 28 + max (bits a 20 7) (bits b 20 7) * 2 ^ 20

/-- The combination of two data tokens: a token, or the cause of an error; and whether free values were used. A PART pair whose
exponents differ and whose term counters pass 2^32 too gives ADDEXP. [DEDUCED, log 36; DESIGN CHOICE, log 37] -/
def combine (ctr : Nat) (mode : Nat) (a b : Token) : Except (BitVec 16) (Token × Bool) :=
  let out := fun (v : Nat) => cleanTok { tag := 0, mask := a.mask ||| b.mask, data := BitVec.ofNat 512 v }
  match mode with
  | 1 => .ok (out (addInts 32 a b), false)
  | 2 => .ok (out (addInts 64 a b), false)
  | _ =>
    let ha := adderField a 384 128
    let hb := adderField b 384 128
    let terms := bits ha 64 33 + bits hb 64 33
    if bits ha 0 16 ≠ bits hb 0 16 then .error fADDEXP
    else if 2 ^ 32 < terms then .error fADDTERMS
    else
      let sums := (List.range 3).map fun j =>
        partSum (Config.freeValue (ctr + 2 * j)) (Config.freeValue (ctr + 2 * j + 1)) (adderField a (128 * j) 128) (adderField b (128 * j) 128)
      let v := ((sums.zipIdx.map fun (p : (Nat × Bool) × Nat) => p.1.1 * 2 ^ (128 * p.2)).sum) +
        (bits ha 0 16 + partStatus (bits ha 32 32) (bits hb 32 32) * 2 ^ 32 + terms * 2 ^ 64) * 2 ^ 384
      .ok (out v, sums.any (·.2))

/-- The origin an adder gives its error tokens: the die it stands on. [DEDUCED, log 28] -/
def adderOrigin (n : Nat) : Nat := adderDie n * 2 ^ 13

/-- What two tokens combine to. [DEDUCED, log 36] -/
def pairTokens (ctr n mode : Nat) (r l : Token) : Token × Bool :=
  if isErr r then (r, false)
  else if isErr l then (l, false)
  else if isData r && isData l then
    match combine ctr mode r l with
    | .ok p => p
    | .error cause => (errorToken cause (adderOrigin n) 0, false)
  else if (isCut r && cutRank r == cutRank l) || (isHold r && isHold l) then (r, false)
  else (errorToken fADDSKEW (adderOrigin n) 0, false)

/-- Take the head of a circuit that feeds an adder. -/
def popCircuit (s : State) (scene n : Nat) (q : SceneCircuit) : State :=
  let f := fun (p : Nat × Adder) =>
    if p.2.scene = scene && p.2.locl = n then (p.1, { p.2 with lAt := p.2.lAt.drop 1 })
    else if p.2.scene = scene && p.2.remote = n then (p.1, { p.2 with rAt := p.2.rAt.drop 1 })
    else p
  let s := { s with eng := { s.eng with adders := s.eng.adders.map f } }
  returnCredit (modCircuit s scene n fun q => { q with q := q.q.drop 1 }) scene n q

/-- The slack of one side of a pairing goes to the region that sent the side's tokens: a member of this chip, or one of another
chip, which is told. [DESIGN CHOICE, log 16] -/
def sideSample (s : State) (scene : Nat) (q : SceneCircuit) (arrived : Option Nat) : State :=
  match arrived, getScene s scene with
  | some t, some k =>
    match (if k.xchip then k.chips[k.slots.getD q.smem 0]? else none).filter (· ≠ s.chip.serial.toNat) with
    | some c => sendPlace s scene k.crew k.chips c pSLACK (q.smem % 2 ^ 16 + (now s - t) % 2 ^ 48 * 2 ^ 16)
    | none =>
      match getMember s scene q.smem with
      | some m => modRegion s m.region fun x => addSample x ((now s : Int) - t)
      | none => s
  | _, _ => s

/-- The first pairing of a take at a chip port's adder gives both sides' regions a slack sample: the tokens it pairs are the first
of the take on their sides (04 R95). [DEDUCED, log 36] -/
def adderSample (s : State) (n : Nat) (a : Adder) (r l : SceneCircuit) : State :=
  if n < 128 || a.paired then s else sideSample (sideSample s a.scene l a.lAt.head?) a.scene r a.rAt.head?

/-- ADDER_PAIR (01 R27). A bubble is consumed unpaired; a pair needs room on the outgoing circuit. [DEDUCED, log 36] -/
def execAdderPair (adder : Nat) (s : State) : Result State :=
  match Sparse.find? s.eng.adders adder with
  | none => .next s
  | some a =>
    match getCircuit s a.scene a.remote, getCircuit s a.scene a.locl, getCircuit s a.scene a.out with
    | some rq, some lq, some oq =>
      match rq.q, lq.q with
      | r :: _, ls =>
        if isBubble r then .next (popCircuit s a.scene a.remote rq)
        else
          match ls with
          | [] => .next s
          | l :: _ =>
            if isBubble l then .next (popCircuit s a.scene a.locl lq)
            else if !circuitRoom oq then .next s
            else
              let (t, free) := pairTokens s.freeCtr adder a.mode.toNat r l
              let s := if free then { s with freeCtr := s.freeCtr + 6 } else s
              let s := adderSample s adder a rq lq
              let s := setAdder s adder { a with paired := true }
              let s := popCircuit (popCircuit s a.scene a.remote rq) a.scene a.locl lq
              .next (pushCircuit s a.scene a.out t)
      | [], l :: _ => if isBubble l then .next (popCircuit s a.scene a.locl lq) else .next s
      | [], [] => .next s
    | _, _, _ => .next s

end Sys2Proof.Machine
end

