-- ==== Sys2Proof/Machine/Hold.lean ====
section
/-! DEFINITION. A hold: markers, held units, the end of the hold (12 R298-R302, R312; 05 R104, R105, R122; 18 R470). -/
namespace Sys2Proof.Machine

/-! ## Whether a unit can fire -/

/-- One fc of the unit that a stage slot configures, whatever its operation. -/
def fireUnit (s : State) (stage slot : Nat) (c : UnitCfg) : State :=
  let op := cfgOp c
  match cfgKind c with
  | 0 => runElement 0 op false (ruleAlu op) stage slot s
  | 1 => runElement 1 op false (ruleAlg op (stageAlgs s stage)) stage slot s
  | 2 => runElement 2 op false (ruleCvt op) stage slot s
  | 3 => runElement 3 op false (match op with | 0 => ruleSplit | 1 => rulePack | _ => ruleUnzip) stage slot s
  | 4 => runElement 4 op false (ruleRdc op) stage slot s
  | 5 => runElement 5 op false (match op with | 3 => ruleBtab | 4 => ruleTags | _ => ruleSeq op) stage slot s
  | 6 => runElement 6 op false (ruleIsx op) stage slot s
  | 7 => runElement 7 op false (ruleSpa op) stage slot s
  | 8 => runElement 8 op false (match op with | 0 => ruleKeep false | 1 => ruleKeep true | _ => ruleCompact) stage slot s
  | 9 => runElement 9 op false (if op = 0 then ruleReord (outputRoom s stage slot) else ruleTag) stage slot s
  | 10 => runElb op stage slot s
  | 11 => runElement 11 op true (ruleTurn (if op = 0 then 32 else 64)) stage slot s
  | 12 => (List.range 9).foldl (fun t k => if t = s then runMatrix k stage s else t) s
  | 13 => if op = 0x0F then (match execMemEcue stage slot s with | .next t => t | _ => s) else runMemNode op stage slot s
  | 14 => (List.range 2).foldl (fun t k => if t = s then runGather k stage s else t) s
  | _ => s

/-- One fc of an operator slot. -/
def fireSlot (s : State) (stage tile oslot rop : Nat) : State :=
  let r := match rop with
    | 0 => execPass stage tile oslot s
    | 1 => execSteer stage tile oslot s
    | 2 => execMerge stage tile oslot s
    | 3 => execCarry stage tile oslot s
    | 4 => execInvar stage tile oslot s
    | 5 => execFork stage tile oslot s
    | 6 => execJoinOperator stage tile oslot s
    | _ => execPermit stage tile oslot s
  match r with | .next t => t | _ => s

/-- A stage without the counters that a unit keeps of the fc in which nothing happens. -/
def quietStage (g : Stage) (x : Region) : Stage :=
  { g with units := g.units.map fun (p : Nat × UnitState) =>
      (p.1, if unitKind g x p.1 = 10 then { p.2 with n1 := 0, n2 := 0, n3 := 0 } else p.2) }

/-- Whether two states differ in what a unit of the stage does: its stage, or the faults of its region. -/
def acted (s t : State) (r : Nat) (x : Region) (stage : Nat) : Bool :=
  quietStage (getStage s stage) x != quietStage (getStage t stage) x ||
  (match getRegion t r with | some y => y.faults != x.faults || y.frozen != x.frozen | none => true) || s.eng.nextOp != t.eng.nextOp

/-! ## Channels -/

/-- The buffer one hop upstream of a router input, if that input is a link. -/
def upstream (s : State) (x : Region) (stage key : Nat) : Option (Nat × Nat) :=
  let tile := key / 2 ^ 20
  let frm := key / 2 ^ 12 % 2 ^ 8
  let circ := key % 2 ^ 12
  if 4 ≤ frm then none
  else
    let (st, t, out) := linkTo stage tile frm
    ((activeRoutes (getStage s st) x t).find? fun r => r.out == out && r.circ == circ).map fun r => (st, bufKey t r.frm r.circ)

/-- The buffer of a channel that holds its hold marker, seeking upstream. -/
def markerBuf (s : State) (x : Region) : Nat → Nat → Nat → Option (Nat × Nat)
  | 0, _, _ => none
  | fuel + 1, stage, key =>
    if (getBuf (getStage s stage) key).any fun a => isHold a.tok then some (stage, key)
    else match upstream s x stage key with
      | some (st, k) => markerBuf s x fuel st k
      | none => none

/-- Take the hold marker out of a buffer. -/
def dropHold (s : State) (stage key : Nat) : State :=
  modStage s stage fun g => setBuf g key ((getBuf g key).filter fun a => !isHold a.tok)

/-- Where the marker of a unit's input stands. -/
inductive MarkerAt where
  | none
  | latch
  | buf (stage key : Nat)
  deriving DecidableEq, Repr

/-- The tokens in front of a unit at one input: its latch, and for ELB's input a its FIFO. -/
def inputToks (c : UnitCfg) (u : UnitState) (p : Nat) : List Token := (if cfgKind c = 10 && p = 0 then u.toks else []) ++ latchOf u p

/-- The marker of a unit's input channel. A channel whose head has yet to arrive is not settled. -/
def inputMarker (s : State) (x : Region) (stage slot : Nat) (c : UnitCfg) (p : Nat) : MarkerAt :=
  let u := getUnit s stage slot
  if (inputToks c u p).any isHold then .latch
  else if (inputToks c u p).isEmpty then .none
  else match inKey (getStage s stage) x (slotTile slot) (unitEnd slot p) with
    | some k => match markerBuf s x 2048 stage k with
      | some (st, k) => .buf st k
      | none => .none
    | none => .none

/-- The enabled inputs of a unit. -/
def unitInputs (c : UnitCfg) : List Nat := (List.range 4).filter (cfgIn c)

/-- Consume the marker of a unit's input. -/
def eatMarker (s : State) (x : Region) (stage slot : Nat) (c : UnitCfg) (p : Nat) : State :=
  match inputMarker s x stage slot c p with
  | .latch => modUnit s stage slot fun u =>
      if u.toks.any isHold && p = 0 && cfgKind c = 10 then { u with toks := u.toks.filter fun t => !isHold t }
      else setLatch u p ((latchOf u p).filter fun t => !isHold t)
  | .buf st k => dropHold s st k
  | .none => s

/-- Put a marker on an output's circuit: the place beyond its 4 is kept for it (12 R298). -/
def emitMarker (s : State) (x : Region) (stage tile endp : Nat) : State :=
  match outKey (getStage s stage) x tile endp with
  | some k => pushBuf s stage k holdTok x.fc
  | none => s

/-- A marker on every enabled output of a unit. -/
def emitMarkers (s : State) (x : Region) (stage slot : Nat) (c : UnitCfg) : State :=
  ((List.range 3).filter (cfgOut c)).foldl (fun s p => emitMarker s x stage (slotTile slot) (unitEnd slot p)) s

/-! ## Beginning (12 R298) -/

/-- The units of a region that the active context configures. -/
def regionUnits (s : State) (r : Nat) (x : Region) : List (Nat × Nat × UnitCfg) :=
  (regionStages r x).flatMap fun st => (List.range 13).filterMap fun slot =>
    (unitCfg (getStage s st) x slot).map fun c => (st, slot, c)

/-- The sources of a region emit their markers. -/
def markSources (s : State) (r : Nat) (x : Region) : State :=
  let s := (regionUnits s r x).foldl (fun s (p : Nat × Nat × UnitCfg) =>
    if cfgSrc p.2.2 then modUnit (emitMarkers s x p.1 p.2.1 p.2.2) p.1 p.2.1 fun u => { u with marked := true } else s) s
  match activeCtx x with
  | none => s
  | some a =>
    (a.bindings.filter fun b => b.dir = 0 || b.dir = 2).foldl (fun s b =>
      let s := pushBuf s b.stage (ingressKey b) holdTok x.fc
      if b.dir = 0 then modPort s x.scene x.member b.port fun p => { p with marked := true }
      else match getScene s x.scene with
        | some k => match circuitOf k x.member b.port true with
          | some (n, _) => modCircuit s x.scene n fun q => { q with marked := true }
          | none => s
        | none => s) s

/-- A context stops at its instruction boundary: its rushes entries are freed and its combined stores leave (05 R122). -/
def parkCtx (s : State) (c : Nat) : State :=
  if (getCtx s c).state = .running then
    modCtx (leaveBuffer s c) c fun x => { (freeRushes x) with state := .parked, hint := none, parkedAt := now s }
  else s

/-- Whether a member can begin to hold: its region is not frozen, no load or wave is in progress. -/
def memberCanHold (s : State) (m : Member) : Bool :=
  m.state = .ended ||
  (match getRegion s m.region with
   | some x => m.state == .running && x.frozen.isNone && x.load.isNone && (x.phase == .idle || x.phase == .started) && x.faults.isEmpty
   | none => false)

/-- HOLD_BEGIN (12 R298): every source and ingress port of every member region emits one hold marker and nothing more. A hold
asked for on a frozen region, or during a load, waits (R312). -/
def execHoldBegin (serial : Nat) (s : State) : Result State :=
  match getScene s serial with
  | none => .next s
  | some k =>
    if !k.wanted || k.holding || k.isHeld || !k.started || !k.members.all (memberCanHold s) then .next s
    else
      let s := modScene s serial fun k => { k with wanted := false, holding := true }
      .next (k.members.foldl (fun s m =>
        if m.state = .ended then s
        else
          let s := match m.ctx with | some c => parkCtx s c | none => s
          match getRegion s m.region with
          | some x =>
            let s := setRegion s m.region { x with holding := true, heldUnits := [] }
            if x.phase == .started then markSources s m.region x else s
          | none => s) s)

/-! ## Held units (12 R299, R300) -/

/-- Record a held unit. -/
def addHeld (s : State) (r : Nat) (u : UnitRef) : State :=
  modRegion s r fun x => { x with heldUnits := x.heldUnits ++ [u] }

/-- A unit of a stage slot becomes held; an ELB, once its marker has reached the head of its FIFO (15 R398). -/
def holdUnit (s : State) (r : Nat) (x : Region) (stage slot : Nat) (c : UnitCfg) : State :=
  let mem := cfgKind c = 13
  let s := if mem then releaseCombined s stage (·.agent == slot) else s
  let u := getUnit s stage slot
  let g := getStage s stage
  let busy := (mem && ((match u.op with | some o => (match o.events with | e :: _ => e.rmw ≠ 8 | [] => true) | none => false) ||
      !u.past.isEmpty || portHolds g slot)) ||
    (slot = 8 && g.reqs.any fun q => q.rank == 1 || q.rank == 2) || (slot = 11 && g.reqs.any fun q => q.rank == 3)
  let ins := unitInputs c
  let behind := cfgKind c = 10 && !(match u.toks with | t :: _ => isHold t | [] => false)
  if busy || behind || (ins.any fun p => inputMarker s x stage slot c p = .none) || acted s (fireUnit s stage slot c) r x stage then s
  else
    let s := ins.foldl (fun s p => eatMarker s x stage slot c p) s
    let s := if u.marked then s else emitMarkers s x stage slot c
    addHeld s r { stage, slot }

/-- The marker of an operator slot's input channel. -/
def slotMarker (s : State) (x : Region) (stage tile oslot p : Nat) : MarkerAt :=
  match inKey (getStage s stage) x tile (slotEnd oslot p) with
  | none => .none
  | some k =>
    if (getBuf (getStage s stage) k).isEmpty then .none
    else match markerBuf s x 2048 stage k with
      | some (st, k) => .buf st k
      | none => .none

/-- Consume the marker of an operator slot's input. -/
def eatSlotMarker (s : State) (x : Region) (stage tile oslot p : Nat) : State :=
  match slotMarker s x stage tile oslot p with
  | .buf st k => dropHold s st k
  | _ => s

/-- One marker on each routed output of an operator slot. -/
def emitSlotMarkers (s : State) (x : Region) (stage tile oslot : Nat) : State :=
  (List.range 4).foldl (fun s p => emitMarker s x stage tile (slotEnd oslot p)) s

/-- A carry whose marker has reached its initial input (12 R300): its marker goes at once, and it collects residue until the
marker reaches the feedback input. -/
def holdCarry (s : State) (r : Nat) (x : Region) (stage tile oslot : Nat) : State :=
  let st := getSlot s stage tile oslot
  let u := slotRef stage tile oslot
  let head := fun (p : Nat) => match slotHead (getStage s stage) x tile oslot p with | some a => isHold a.tok | none => false
  if st.started then
    if head 1 then
      addHeld (modSlot (eatSlotMarker s x stage tile oslot 1) stage tile oslot fun v => { v with started := false, held := true }) r u
    else s
  else if (slotMarker s x stage tile oslot 0) ≠ .none && (head 0 || !acted s (fireSlot s stage tile oslot 3) r x stage) then
    let s := emitSlotMarkers (eatSlotMarker s x stage tile oslot 0) x stage tile oslot
    modSlot s stage tile oslot fun v => { v with started := true }
  else s

/-- An operator slot becomes held. -/
def holdSlot (s : State) (r : Nat) (x : Region) (stage tile oslot rop : Nat) : State :=
  if rop = 3 then holdCarry s r x stage tile oslot
  else
    let ins := (List.range 4).filter fun p => (inKey (getStage s stage) x tile (slotEnd oslot p)).isSome
    if (ins.any fun p => slotMarker s x stage tile oslot p = .none) || acted s (fireSlot s stage tile oslot rop) r x stage then s
    else
      let s := ins.foldl (fun s p => eatSlotMarker s x stage tile oslot p) s
      let s := emitSlotMarkers s x stage tile oslot
      addHeld (modSlot s stage tile oslot fun v => { v with held := true }) r (slotRef stage tile oslot)

/-- HOLD_MARKER (12 R299): a unit that cannot fire and whose inputs' channels all hold markers consumes them, emits one marker
on each output and is held. A memory node waits for its accesses. -/
def execHoldMarker (unit : UnitRef) (s : State) : Result State :=
  match regionOf s unit.stage with
  | none => .next s
  | some (r, x) =>
    if !x.holding || !regionLive x || x.heldUnits.contains unit || x.faults.any (·.unit == unit) then .next s
    else if unit.slot < 16 then
      match unitCfg (getStage s unit.stage) x unit.slot with
      | some c => .next (holdUnit s r x unit.stage unit.slot c)
      | none => .next s
    else
      let tile := (unit.slot - 16) / 4
      let oslot := (unit.slot - 16) % 4
      let rop := slotRop (getStage s unit.stage) x tile oslot
      if 4 ≤ tile || rop = 8 then .next s else .next (holdSlot s r x unit.stage tile oslot rop)

end Sys2Proof.Machine
end

