-- ==== Sys2Proof/Machine/Image.lean ====
section
/-! DEFINITION. A stage image read back (12 R303, R304; 14 R372; 15 R379): the records of its units and routers, and the stage that
they and the image's other bytes give. What no record lists stays as the kept record of the image has it. -/
namespace Sys2Proof.Machine

/-- The field of an image. -/
def imgBytes (bs : List Byte) (at_ n : Nat) : List Byte := (bs.drop at_).take n

/-! ## Records (12 R297, R304) -/

/-- A record from its 16 bytes. -/
def recOfBytes (bs : List Byte) : Rec :=
  let v := leNat bs
  { typ := bits v 76 4, slot := bits v 72 4, info := bits v 64 8, payload := bits v 0 64 }

/-- At most `n` records, up to the one of all zeros. -/
def recsOfBytes : Nat → List Byte → List Rec
  | 0, _ => []
  | n + 1, bs =>
    let r := recOfBytes (bs.take 16)
    if r = { typ := 0 } then [] else r :: recsOfBytes n (bs.drop 16)

/-- The records of a stage image. -/
def imageRecs (bs : List Byte) : List Rec := recsOfBytes 3584 (imgBytes bs 0x104100 0xE000)

/-- A TOKEN record with its data, in the tile of the UNIT record before it. -/
structure ImageTok where
  tile : Nat
  slot : Nat
  info : Nat
  circ : Nat
  tok  : Token
  deriving DecidableEq, Repr

/-- The tokens among an image's records, in their order. -/
def imageToks (tile : Nat) : List Rec → List ImageTok
  | [] => []
  | r :: rest =>
    if r.typ = 2 then imageToks (bits r.payload 4 2) rest
    else if r.typ = 3 then
      let data := ((rest.take 8).zipIdx.map fun (p : Rec × Nat) => p.1.payload * 2 ^ (64 * p.2)).sum
      { tile, slot := r.slot, info := r.info, circ := bits r.payload 32 12
        tok := { tag := BitVec.ofNat 4 (bits r.payload 60 4), mask := BitVec.ofNat 16 (bits r.payload 44 16)
                 data := BitVec.ofNat 512 data } } :: imageToks tile rest
    else imageToks tile rest

/-- The configuration word of a stage slot in the active context: its META record 0. -/
def imageWord (rs : List Rec) (slot : Nat) : Word :=
  match rs.find? fun r => r.typ == 6 && r.info == 0 && r.slot == slot with
  | some r => BitVec.ofNat 64 r.payload
  | none => 0

/-- META record 1: the loaded contexts, and the active one. -/
def imageMeta (rs : List Rec) : Nat :=
  match rs.find? fun r => r.typ == 6 && r.info == 1 with
  | some r => r.payload
  | none => 0
def imageLoaded (rs : List Rec) (c : Nat) : Bool := bits (imageMeta rs) c 1 = 1
def imageActive (rs : List Rec) : BitVec 2 := BitVec.ofNat 2 (bits (imageMeta rs) 4 2)

/-! ## Units (15 R379) -/

/-- The numbers in a list's lanes. -/
def laneNumbers (l : List Token) : List Nat := l.flatMap fun t => (List.range 16).map (lane t.data)

/-- RDC's running result, as `rdcStore` lists it. -/
def rdcLoad (op mod : Nat) (u : UnitState) (l : List Token) : UnitState :=
  let ty := mod / 32
  let w := tyWidth ty
  let slot := fun (w k i : Nat) => match l[k]? with | some t => slotBits w t.data i | none => 0
  let change := fun (f : Entry → Nat → Nat → Entry) =>
    { u with entries := u.entries.map fun e => if e.has then f e (e.key / 128) (e.key % 128) else e }
  let values := fun (v : Nat → Nat → Nat) => change fun e grp level => { e with bits := BitVec.ofNat 64 (v grp level) }
  let sums := laneNumbers l
  if u.err.isSome then { u with err := l.head? }
  else if op = 1 then
    let v := bits ((sums.take 4).zipIdx.map fun (p : Nat × Nat) => p.1 * 2 ^ (32 * p.2)).sum 0 128
    { u with entries := u.entries.map (fun e => { e with sum := sextInt 128 v })
             n1 := sums.getD 4 0 + sums.getD 5 0 * 2 ^ 32, n2 := sums.getD 6 0, n3 := sums.getD 7 0 }
  else if op = 4 then change fun e grp _ => { e with sum := (sums.getD grp 0 : Nat) }
  else if op = 5 then
    change fun e grp _ => { e with bits := BitVec.ofNat 64 (slot w 0 grp), sum := ((laneNumbers (l.drop 1)).getD grp 0 : Nat) }
  else if op = 0 && (tyFloat ty).isSome then
    let per := 512 / max 32 w
    if bits mod 1 1 = 1 then values fun grp level => slot w level grp
    else values fun _ level => slot (max 32 w) (level / per) (level % per)
  else values fun grp _ => slot w 0 grp

/-- SPA's scratch, as `spaStore` lists it. -/
def spaLoad (mod : Nat) (u : UnitState) (l : List Token) : UnitState :=
  let l := if u.err.isSome then l.drop 1 else l
  let ns := laneNumbers l
  let step := if bits mod 4 1 = 1 then 4 else 2
  { u with entries := u.entries.zipIdx.map fun (p : Entry × Nat) =>
      let e := { p.1 with key := ns.getD (step * p.2) 0 }
      let n := fun i => ns.getD (step * p.2 + i) 0
      if !e.has then e
      else if step = 4 then { e with sum := sextInt 96 (n 1 + n 2 * 2 ^ 32 + n 3 * 2 ^ 64) }
      else { e with bits := BitVec.ofNat 64 (n 1) } }

/-- The tokens on output 0 among a unit's waiting results, replaced in order. -/
def refillOut : List (List (Nat × Token)) → List Token → List (List (Nat × Token))
  | [], _ => []
  | g :: gs, l =>
    let step := fun (a : List (Nat × Token) × List Token) (q : Nat × Token) =>
      match q.1, a.2 with
      | 0, t :: rest => (a.1 ++ [(0, t)], rest)
      | _, _ => (a.1 ++ [q], a.2)
    let r := g.foldl step ([], l)
    r.1 :: refillOut gs r.2

/-- An element's internal stores, as `storeToks` lists them. [DEDUCED, log 27] -/
def loadStores (word : Word) (u : UnitState) (l : List Token) : UnitState :=
  let n := fun (t : Option Token) (i : Nat) => match t with | some t => lane t.data i | none => 0
  let wide := fun (t : Option Token) (i : Nat) => n t i + n t (i + 1) * 2 ^ 32
  let flagged := fun (u : UnitState) => { u with flags := BitVec.ofNat 8 (n l.head? 0) }
  let mid := (l.drop 1).dropLast
  let last := l.getLast?
  let k := u.toks.length
  let op := wbits word 48 8
  let mod := wbits word 40 8
  match wbits word 56 4 with
  | 0 => flagged u
  | 1 => flagged u
  | 2 => { flagged u with n0 := wide last 0 }
  | 3 => { u with toks := l }
  | 4 => { rdcLoad op mod (flagged u) mid with n0 := wide last 0 }
  | 5 => { u with n0 := wide l.head? 0, n1 := wide l.head? 2, n2 := wide l.head? 4, conts := n l.head? 6, n3 := n last 0 }
  | 6 => { u with toks := l.take k, toks2 := l.drop k }
  | 7 => { spaLoad mod (flagged u) mid with n0 := n last 0 }
  | 8 => { u with toks := l }
  | 9 => { u with n0 := n l.head? 0, toks := l.drop 1 }
  | 10 => { u with toks := l.dropLast, n0 := n last 0, n1 := n last 1, n2 := n last 2 }
  | 11 => { u with toks := l.take k, out := refillOut u.out (l.drop k) }
  | _ => u

/-- A unit's latches, state registers and stores. -/
def loadUnit (rs : List Rec) (ts : List ImageTok) (slot : Nat) (u : UnitState) : UnitState :=
  let mine := ts.filter (·.slot == slot)
  let of_ := fun (info : Nat) => (mine.filter (·.info == info)).map (·.tok)
  let q := fun (k : Nat) => match of_ (0x80 + k) with | t :: _ => ({ data := t.data, mask := t.mask } : QReg) | [] => {}
  let u := { u with a := of_ 0, b := of_ 1, c := of_ 2, cont := of_ 3 }
  if slot < 8 then loadStores (imageWord rs slot) { u with q0 := q 0, q1 := q 1, q2 := q 2, q3 := q 3 } (of_ 0xA0) else u

/-- The units of an image. [DEDUCED, log 27] -/
def loadUnits (rs : List Rec) (ts : List ImageTok) (l : List (Nat × UnitState)) : List (Nat × UnitState) :=
  (List.range 13).foldl (fun l slot => Sparse.set {} l slot (loadUnit rs ts slot (Sparse.get {} l slot))) l

/-! ## Routers (12 R296; 14 R372) -/

/-- The router buffers of an image: each token at its place, as old as any. [DEDUCED, log 27] -/
def loadBufs (ts : List ImageTok) : List (Nat × List Arrived) :=
  (ts.filter fun t => t.slot == 15 && t.info ≤ 0x40).foldl (fun l t =>
    let k := bufKey t.tile t.info t.circ
    Sparse.insert l k (Sparse.get [] l k ++ [{ tok := t.tok, at_ := 0 }])) []

/-- An operator slot of an image: its state, its stored tokens, and the residue that its carry holds; the rest of the residue
stands in Y. -/
def loadSlot (ts : List ImageTok) (k : Nat) (v : SlotState) : SlotState :=
  let mine := ts.filter fun t => t.slot == 15 && t.tile == k / 4 && t.circ == k % 4
  let residue := (mine.filter (·.info == 0x90)).map (·.tok)
  match (mine.filter (·.info == 0xA0)).map (·.tok) with
  | [] => v
  | h :: toks =>
    let phase := lane h.data 0
    { v with phase := bits phase 0 1 = 1, held := bits phase 2 1 = 1, toks, residue
             lags := (List.range 4).map fun b => bits (lane h.data 1) (8 * b) 5
             spilled := lane h.data 2 - residue.length }

/-- The operator slots of an image. -/
def loadSlots (ts : List ImageTok) (l : List (Nat × SlotState)) : List (Nat × SlotState) :=
  (List.range 16).foldl (fun l k => Sparse.set {} l k (loadSlot ts k (Sparse.get {} l k))) l

/-! ## A stage image (12 R304) -/

/-- The unissued cue entries, with their words from the image, in table order; `n` have been met. -/
def loadTable (bs : List Byte) : Nat → List CueEntry → List CueEntry
  | _, [] => []
  | n, e :: rest =>
    if e.issued then e :: loadTable bs n rest
    else
      { e with words := (List.range 4).map fun i => BitVec.ofNat 32 (leNat (imgBytes bs (0x113000 + 96 * n + 4 * i) 4)) } ::
        loadTable bs (n + 1) rest

/-- The nonzero bytes of a list as a memory. -/
def memOfBytes (bs : List Byte) : Memory :=
  (bs.zipIdx.filter fun p => p.1 ≠ 0).map fun (p : Byte × Nat) => (p.2, p.1)

/-- An accumulator slot of an image. -/
def accOfImage (bs : List Byte) (q : Nat) : Acc :=
  let h := leNat (imgBytes bs (0x104000 + 16 * q) 16)
  { sums := (List.range 256).filterMap fun c =>
      let v := sextInt 96 (leNat (imgBytes bs (0x100000 + 4096 * q + 16 * c) 16))
      if v = 0 then none else some (c, v)
    exp := sextInt 16 (bits h 32 16), terms := bits h 64 33
    sat := bits h 31 1 = 1, clamp := bits h 30 1 = 1, inv := bits h 29 1 = 1, meta' := bits h 28 1 = 1, head := bits h 20 7 }

/-- The context words of a stage: those that the reload has written stay, the others are the image's record's.
[DEDUCED, log 27] -/
def keepWords (reloaded : Nat → Bool) (old g : Stage) : Stage :=
  { g with
    cfg := old.cfg.foldl (fun l p => Sparse.insert l p.1 p.2) (g.cfg.filter fun p => !reloaded (p.1 / 16))
    rcfg := old.rcfg.foldl (fun l p => Sparse.insert l p.1 p.2) (g.rcfg.filter fun p => !reloaded (p.1 / 16))
    routes := old.routes ++ g.routes.filter fun r => !reloaded r.ctx }

/-- A stage as an image restores it; `kept` is the image's record, for what the image does not list. [DEDUCED, log 27] -/
def stageOfImage (reloaded : Nat → Bool) (old kept : Stage) (bs : List Byte) : Stage :=
  let rs := imageRecs bs
  let ts := imageToks 0 rs
  { keepWords reloaded old kept with
    region := old.region, lastCtx := old.lastCtx, icache := old.icache, squares := old.squares, reqs := old.reqs
    portNext := old.portNext, port := old.port, comb := old.comb
    warr := memOfBytes (imgBytes bs 0 0x80000), xarr := memOfBytes (imgBytes bs 0x80000 0x60000)
    yarr := memOfBytes (imgBytes bs 0xE0000 0x20000), bad := [], soft := [], mend := []
    acc := (List.range 4).foldl (fun l q => Sparse.set {} l q (accOfImage bs q)) []
    fifos := (List.range 8).foldl (fun l n => Sparse.set 0 l n (leNat (imgBytes bs (0x112100 + n) 1))) []
    bufs := loadBufs ts, units := loadUnits rs ts kept.units, rslots := loadSlots ts kept.rslots, table := loadTable bs 0 kept.table }

end Sys2Proof.Machine
end

