-- ==== Sys2Proof/Machine/Save.lean ====
section
/-! DEFINITION. Save areas and images, the end of a hold, the end of a member (11 R286, R287; 12 R302-R305; 17 R448;
18 R470; 05 R105, R107). Beside the bytes of an image the state keeps the record of what they stand for (log). -/
namespace Sys2Proof.Machine

/-! ## Save areas (11 R287) -/

/-- Save areas in use by a crew, in 64 KiB units from the pool's base: (first, count). -/
def usedAreas (s : State) (crew : Nat) : List (Nat × Nat) :=
  s.scenes.flatMap fun p => if p.2.crew = crew then p.2.areas else []

/-- The first unit at or after `at_` where `n` units are free. [DEDUCED, log 27] -/
def firstFit (used : List (Nat × Nat)) (size n : Nat) : Nat → Nat → Option Nat
  | 0, _ => none
  | fuel + 1, at_ =>
    if size < at_ + n then none
    else match used.find? fun a => a.1 < at_ + n && at_ < a.1 + a.2 with
      | some a => firstFit used size n fuel (a.1 + a.2)
      | none => some at_

/-- Units of a region's save area (12 R304): header, stage images, context image, rounded up. -/
def areaUnits (stages : Nat) : Nat := 18 * stages + 2

/-- The save areas of a scene's members, first-fit in turn; none when they do not fit. [DEDUCED, log 27] -/
def takeAreas (used : List (Nat × Nat)) (size : Nat) : List Nat → Option (List (Nat × Nat))
  | [] => some []
  | n :: rest =>
    match firstFit used size n (used.length + 1) 0 with
    | none => none
    | some a => (takeAreas ((a, n) :: used) size rest).map ((a, n) :: ·)

/-- The members of a scene that have not ended, with their numbers. -/
def liveMembers (k : Scene) : List (Nat × Member) :=
  (k.members.zipIdx.map fun (p : Member × Nat) => (p.2, p.1)).filter fun p => p.2.state != .ended

/-- The areas a hold of the scene would take; none when they do not fit the crew's free pool. -/
def holdAreas (s : State) (k : Scene) : Option (List (Nat × Nat)) :=
  let c := getCrew s k.crew
  takeAreas (usedAreas s k.crew) (wbits c.save 0 16 * 16) ((liveMembers k).map fun p => areaUnits (p.2.w * p.2.h))

/-- The bytes that a hold of the scene needs. -/
def holdBytes (k : Scene) : Nat := (((liveMembers k).map fun p => areaUnits (p.2.w * p.2.h)).sum) * 65536

/-- The scene with the save areas of a hold taken; none when they do not fit. -/
def takeHoldAreas (s : State) (k : Scene) : Option Scene :=
  (holdAreas s k).map fun as =>
    let base := wbits (getCrew s k.crew).save 16 32 * 65536
    let live := (liveMembers k).map (·.1)
    let f := fun (p : Member × Nat) =>
      match (live.zip as).find? (·.1 == p.2) with
      | some q => { p.1 with saveVA := BitVec.ofNat 64 (base + q.2.1 * 65536), saved := false }
      | none => p.1
    { k with areas := as, members := k.members.zipIdx.map f }

/-- Ask for a hold: the save areas are taken. A hold that is already asked for or in flight is the same hold (06 R143). -/
def requestHold (s : State) (serial : Nat) : Option State :=
  match getScene s serial with
  | none => none
  | some k =>
    if k.wanted || k.holding then some s
    else (takeHoldAreas s k).map fun k => setScene s serial { k with wanted := true }

/-- Another chip holds the scene: its members here stop too, whether or not their save fits at once (05 R109).
[DEDUCED, log 27] -/
def followHold (s : State) (serial : Nat) : State :=
  match getScene s serial with
  | none => s
  | some k =>
    if k.wanted || k.holding || k.isHeld then s
    else setScene s serial { ((takeHoldAreas s k).getD { k with areas := [] }) with wanted := true }

/-- A hold begins on this chip, and a scene's other chips are told of it (05 R109, 06 R143). -/
def askHold (s : State) (serial : Nat) : Option State :=
  (requestHold s serial).map fun t =>
    match getScene s serial with
    | some k => if k.xchip && !k.wanted && !k.holding then tellChips t serial k pHOLD 0 else t
    | none => t

/-- HOLD (18 R470): POOLFULL at once if the save would not fit; otherwise the scene is held at the boundary after HOLD. -/
def execHold (d : BitVec 5) (s : State) : Result State :=
  withRegs s [d] fun x =>
    if x.acq.isSome then stallCur s
    else match askHold s x.scene with
    | none => retire s d 0x37
    | some s => modCur (leaveBuffer s s.cur) fun y => { (freeRushes y) with wait := .hold d }

/-! ## Images (12 R304) -/

/-- Bytes padded or cut to a size. -/
def region (n : Nat) (bs : List Byte) : List Byte := takePad n bs

/-- The accumulator sums of a slot: 256 cells of 16 bytes. -/
def accImage (a : Acc) : List Byte :=
  (List.range 256).flatMap fun c => leBytes 16 ((Sparse.get 0 a.sums c) % (2 ^ 128 : Int)).toNat

/-- A slot's header. -/
def accHeader (a : Acc) : List Byte := leBytes 16 (accStatus a + (a.exp % (2 ^ 16 : Int)).toNat * 2 ^ 32 + a.terms % 2 ^ 33 * 2 ^ 64)

/-- The waiting barrier arrivals of a stage's agents. -/
def stageWaits (s : State) (stage : Nat) : List Byte :=
  s.eng.waits.flatMap fun b =>
    match getOp s b.op with
    | some o => if o.stage = stage && o.remote.isNone then leBytes 16 (arrivalAddr o + b.phase.toNat * 2 ^ 32) else []
    | none => []

/-- Unissued cue entries: the cue words; the part's own decoding is left zero. -/
def stageCues (g : Stage) : List Byte :=
  (g.table.filter fun e => !e.issued).flatMap fun e => region 96 (e.words.flatMap fun w => leBytes 4 w.toNat)

/-- A stage image. [DEDUCED, log 27] -/
def stageImage (s : State) (x : Region) (stage : Nat) : List Byte :=
  let g := getStage s stage
  let acc := fun q => (Sparse.get {} g.acc q : Acc)
  rawBytes g.warr 0 0x80000 ++ rawBytes g.xarr 0 0x60000 ++ rawBytes g.yarr 0 0x20000 ++
  ((List.range 4).flatMap fun q => accImage (acc q)) ++ region 0x100 ((List.range 4).flatMap fun q => accHeader (acc q)) ++
  region 0xE000 (((stageRecs s x stage true).filter (·.typ ≠ 5)).flatMap fun r => leBytes 16 r.bits.toNat) ++
  region 0x100 ((List.range 8).flatMap fun n => leBytes 1 (Sparse.get 0 g.fifos n)) ++ region 0x400 (stageWaits s stage) ++
  List.replicate 0xA00 0 ++ region 0xD000 (stageCues g)

/-- A context image. [DEDUCED, log 27] -/
def ctxImage (s : State) (c : Nat) : List Byte :=
  let x := getCtx s c
  let pc := match x.wait with | .hold _ => x.pc + 4 | _ => x.pc
  ((List.range 4096).flatMap fun n => leBytes 8 (privWord x n).toNat) ++ region 0x100 ((List.range 32).flatMap fun n => leBytes 8 (readG x (BitVec.ofNat 5 n)).toNat) ++
  region 0x100 (leBytes 8 x.lr.toNat ++ leBytes 8 pc.toNat) ++
  region 0xE00 ((List.range 0x24).flatMap fun r => leBytes 8 (if (sysAccess r).isSome then (sysRead s c r).toNat else 0))

/-- The header block of a region's save area. -/
def saveHeader (s : State) (x : Region) : List Byte :=
  let mapping := match activeCtx x with | some a => a.mapping.toNat | none => 0
  let reel := match activeCtx x with | some a => a.image | none => x.reel
  region 65536 (leBytes 8 reel.toNat ++ leBytes 8 (mapping + 4 * x.active.toNat) ++ leBytes 8 s.timecode.toNat ++
    leBytes 2 (x.w * x.h) ++ leBytes 2 (x.w - 1 + (x.h - 1) * 32))

/-- Where a member's stage image number `n` lies, and its context image. -/
def imageVA (m : Member) (n : Nat) : Word := m.saveVA + BitVec.ofNat 64 (0x10000 + 0x120000 * n)

/-- The key under which an image's record is kept. -/
def imageKey (crew : Nat) (va : Word) : Nat := crew * 2 ^ 32 + wbits va 16 32

/-! ## SAVE and RESTORE (17 R448) -/

/-- The words of a save or restore of one image; `cimg` is the context's number in its director. -/
def imageWords (opc stage : Nat) (cimg : Option Nat) (va : Word) : List (BitVec 32) :=
  [BitVec.ofNat 32 (opc * 2 ^ 24 + 5 * 2 ^ 20 + 0xFFFF),
   BitVec.ofNat 32 (stage + (match cimg with | some c => 2 ^ 9 + c * 2 ^ 10 | none => 0)), BitVec.ofNat 32 (wbits va 16 32), 0]

/-- Ask the context-save engine for an image; while its inbox has no free place, the cue waits for one (11 R261). -/
def askImage (s : State) (serial : Nat) (crew opc stage : Nat) (cimg : Option Nat) (va : Word) : State :=
  let o : Op := { words := imageWords opc stage cimg va, crew, scene := serial, stage, ctx := none, sheet := 0 }
  newOp s { o with phase := if inboxRoom s (opEngine o) then .inbox else .asked }

/-- The oldest cue that waits for a place in an engine's inbox takes one (11 R261). -/
def admitAsked (s : State) (id : Nat) (o : Op) : State :=
  if inboxRoom s (opEngine o) && !(s.eng.ops.any fun p => p.1 < id && p.2.phase == .asked && opEngine p.2 == opEngine o) then
    modOp s id fun o => { o with phase := .inbox }
  else s

/-- A save or restore cue: it enters its engine's inbox, or its engine takes it from there. -/
def imageOp (opc id : Nat) (run : State → Nat → Op → Eng State) (s : State) : State :=
  match getOp s id with
  | none => s
  | some o => if cueOpc o.words = opc && o.phase = .asked then admitAsked s id o else startOp opc id run s

/-- The stage, context and address of an image cue. -/
def imgStage (o : Op) : Nat := cuef o.words 1 0 9
def imgCtx (o : Op) : Nat := 4 * imgStage o + cuef o.words 1 10 2
def imgIsCtx (o : Op) : Bool := cuef o.words 1 9 1 = 1
def imgVA (o : Op) : Word := BitVec.ofNat 64 (cuef o.words 2 0 32 * 65536)

/-- Whether the context-save engine has work for a scene. -/
def savePending (s : State) (serial : Nat) : Bool := s.eng.ops.any fun p => p.2.scene == serial && cueClass p.2.words == 5

/-- A held member of a faulted scene has no region to freeze: it is reported, and ends. [DEDUCED, log 17] -/
def faultHeld (s : State) (key n : Nat) (k : Scene) (m : Member) (cause : BitVec 16) (info : Word) : State :=
  endMember (writeEvent s k.crew 0x11 (originField m.was) cause.toNat (BitVec.ofNat 64 (originField m.was)) info) key n

/-- A save write that faults, of a hold or of a context's eviction, freezes the scene with the fault's cause, on its other chips too;
SCENE_FAULT carries the save-area address (R287). [DEDUCED, log 27] -/
def saveFault (s : State) (serial : Nat) (cause : BitVec 16) (v : Word) : State :=
  match getScene s serial with
  | none => s
  | some k =>
    let s := (liveMembers k).foldl (fun s (p : Nat × Member) =>
      let m := p.2
      if k.launch.isSome then freezeRegion s m.region cause [] v false
      else if m.state == .frozen then s
      else if (getRegion s m.region).isNone then faultHeld s serial p.1 k m cause m.saveVA
      else
        let s := freezeWith s m.region cause [] v false
        let s := modMember s serial p.1 fun y => { y with state := .frozen }
        let s := match m.ctx with | some c => modCtx s c fun y => { y with state := .halted, wait := .none } | none => s
        sceneFault s m.region cause.toNat m.saveVA) (if k.xchip then tellChips s serial k pFREEZE cause.toNat else s)
    { s with eng := { s.eng with ops := s.eng.ops.filter fun p => !(p.2.scene == serial && cueClass p.2.words == 5 && (p.2.phase == .inbox || p.2.phase == .asked)) } }

/-- The fabric cause and value of a failed save or restore. -/
def saveCause (e : AccErr) : BitVec 16 × Word :=
  match e with
  | .xlate c va => (fXLATE, xlateValue c va)
  | .uecc va => (fUECC, BitVec.ofNat 64 (wbits va 0 48))
  | .wait => (0, 0)

/-- The status of a failed save or restore. -/
def saveStatus (e : AccErr) : BitVec 16 := match e with | .uecc _ => eUECC | _ => eXLATE

/-- An image access has failed: the scene freezes, and the operation completes with its status. -/
def failImage (s : State) (id : Nat) (o : Op) (e : AccErr) : Eng State :=
  match e with
  | .wait => .error .wait
  | e => .ok (finishOp (saveFault s o.scene (saveCause e).1 (saveCause e).2) id (saveStatus e) (saveCause e).2)

/-- The bytes of a stage image and of a context image. -/
def stageImageBytes : Nat := 0x120000
def ctxImageBytes : Nat := 0x9000

/-- Write a context's image, and keep its record. -/
def saveCtx (s : State) (o : Op) (c : Nat) : State × Option AccErr :=
  match vwrite s (engineCache (opEngine o)) o.crew (imgVA o) (ctxImage s c) with
  | (t, none) => ({ t with ctxImages := Sparse.insert t.ctxImages (imageKey o.crew (imgVA o)) (getCtx t c) }, none)
  | p => p

/-- Whether a context is still parked for a member of a held scene. -/
def parkedFor (s : State) (serial c : Nat) : Bool :=
  let x := getCtx s c
  x.state == .parked && x.scene == serial && (match getMember s serial x.member with
    | some m => m.ctx == some c && m.state == .held
    | none => false)

/-- `save`: one stage image, after the header block for the region's first stage; or one context image. A parked context that
is saved leaves its director (05 R104). An uncorrectable cell ends the save (08 R180). While a stage is saved or restored nothing
else asks for its arrays, so that its rows move in one event. [DEDUCED, log 27] -/
def runSave (s : State) (id : Nat) (o : Op) : Eng State :=
  let cache := engineCache (opEngine o)
  if imgIsCtx o then
    if !parkedFor s o.scene (imgCtx o) then .ok (finishOp s id eOK 0)
    else match saveCtx s o (imgCtx o) with
    | (t, none) =>
      let t := modMember t (getCtx t (imgCtx o)).scene (getCtx t (imgCtx o)).member fun m => { m with ctx := none }
      let t := { freeCtx t (imgCtx o) with sched := { t.sched with due := true } }
      .ok (finishOp t id eOK (BitVec.ofNat 64 ctxImageBytes))
    | (_, some e) => failImage s id o e
  else
    match regionOf s (imgStage o) with
    | none => .ok (finishOp s id eOK 0)
    | some (r, x) =>
      let g := getStage s (imgStage o)
      let s := countSoft s (dieOf (imgStage o)) g.soft.length
      let (t, e) := if stageOfRaster r = imgStage o then vwrite s cache o.crew (imgVA o - 0x10000) (saveHeader s x) else (s, none)
      match e, g.bad with
      | some e, _ => failImage s id o e
      | none, b :: _ => failImage s id o (.uecc (BitVec.ofNat 64 b.2))
      | none, [] =>
        match vwrite t cache o.crew (imgVA o) (stageImage s x (imgStage o)) with
        | (t, none) =>
          let t := { t with images := Sparse.insert t.images (imageKey o.crew (imgVA o)) (getStage t (imgStage o)) }
          .ok (finishOp t id eOK (BitVec.ofNat 64 stageImageBytes))
        | (_, some e) => failImage s id o e

def execSave (op : Nat) (s : State) : Result State := .next (imageOp 0x50 op runSave s)

/-- A context as an image restores it: private memory, registers and the writable system registers from the bytes.
[DEDUCED, log 27] -/
def ctxOfImage (x : Ctx) (bs : List Byte) : Ctx :=
  let word := fun a => wordOf (imgBytes bs a 8)
  let x := [0x001, 0x002, 0x003, 0x004, 0x019, 0x021].foldl (fun x r => sysWrite x r (word (0x8200 + 8 * r))) x
  let pc := word 0x8108
  { x with
    priv := (wordsOf 4096 bs).zipIdx.map fun (p : Word × Nat) => (p.2, p.1), lr := word 0x8100, cyc := word (0x8200 + 8 * 0x011)
    g := (List.range 31).foldl (fun l n => Sparse.set 0 l (n + 1) (word (0x8000 + 8 * (n + 1)))) []
    pc := match x.wait with | .hold _ => pc - 4 | _ => pc }

/-- The member that a context number is allocated to for a resume. -/
def nextMember (k : Scene) (c : Nat) : Option Nat := k.members.findIdx? fun m => m.next == some c

/-- The first stage's restore asks for the reel and the mapping that the header names: they are loaded again into the contexts that came
from them, and the active context is the one of the META records (12 R303). [DEDUCED, log 27] -/
def askReload (s : State) (o : Op) (bs : List Byte) : Except AccErr State :=
  match regionOf s (imgStage o) with
  | none => .ok s
  | some (r, x) =>
    if stageOfRaster r ≠ imgStage o then .ok s
    else
      match vread s (engineCache (opEngine o)) o.crew (imgVA o - 0x10000) 64 with
      | .error e => .error e
      | .ok h =>
        let s := countRead s (engineCache (opEngine o)) o.crew (imgVA o - 0x10000) 64
        let key := 64 * x.scene + x.member
        match Sparse.find? s.heldRegions key with
        | none => .ok s
        | some y =>
          let rs := imageRecs bs
          let reel : Word := BitVec.ofNat 64 (imgField h 0 8)
          let map := BitVec.ofNat 2 (imgField h 8 1)
          let y := { y with active := imageActive rs, loaded := y.loaded.filter fun p => imageLoaded rs p.1 }
          let same := y.loaded.filter fun p => p.2.image == reel && p.2.mapping == map
          let wmask := BitVec.ofNat 4 (same.map fun p => 2 ^ p.1).sum
          let s := { s with heldRegions := Sparse.insert s.heldRegions key y }
          .ok (if same.isEmpty then s else modRegion s r fun x => { x with
            load := some { image := reel, map, wmask, act := none, ctx := none, resume := true } })

/-- `restore`. A context that is still parked on another director is saved first (05 R105). [DEDUCED, log 27] -/
def runRestore (s : State) (id : Nat) (o : Op) : Eng State :=
  let cache := engineCache (opEngine o)
  let key := imageKey o.crew (imgVA o)
  if imgIsCtx o then
    match getScene s o.scene with
    | none => .ok (finishOp s id eOK 0)
    | some k =>
      match nextMember k (imgCtx o) with
      | none => .ok (finishOp s id eOK 0)
      | some n =>
        let old := match k.members[n]? with | some m => m.ctx | none => none
        let saved := match old with
          | some c => (match saveCtx s o c with
            | (t, none) => (Except.ok (freeCtx t c) : Except AccErr State)
            | (_, some e) => .error e)
          | none => .ok s
        match saved with
        | .error e => failImage s id o e
        | .ok s =>
          match vread s cache o.crew (imgVA o) ctxImageBytes with
          | .error e => failImage s id o e
          | .ok bs =>
            let x := ctxOfImage (Sparse.get {} s.ctxImages key) bs
            let s := setCtx s (imgCtx o) { x with state := .parked, scene := o.scene, member := n, crew := o.crew }
            let s := modMember s o.scene n fun m => { m with ctx := some (imgCtx o) }
            .ok (finishOp (countRead s cache o.crew (imgVA o) ctxImageBytes) id eOK (BitVec.ofNat 64 ctxImageBytes))
  else
    match vread s cache o.crew (imgVA o) stageImageBytes with
    | .error e => failImage s id o e
    | .ok bs =>
      let reloaded := fun (c : Nat) => match regionOf s (imgStage o) with
        | some (_, x) => (Sparse.find? x.loaded c).isSome
        | none => false
      let s := modStage s (imgStage o) fun old => stageOfImage reloaded old (Sparse.get {} s.images key) bs
      match askReload (countRead s cache o.crew (imgVA o) stageImageBytes) o bs with
      | .ok s => .ok (finishOp s id eOK (BitVec.ofNat 64 stageImageBytes))
      | .error e => failImage s id o e

def execRestore (op : Nat) (s : State) : Result State := .next (imageOp 0x51 op runRestore s)

/-! ## The end of a hold (12 R302) -/

/-- Whether every unit and operator slot of a region is held. -/
def regionHeld (s : State) (r : Nat) (x : Region) : Bool :=
  x.phase == .idle ||
  (((regionUnits s r x).all fun (p : Nat × Nat × UnitCfg) => x.heldUnits.contains { stage := p.1, slot := p.2.1 }) &&
   (regionStages r x).all fun st => (List.range 16).all fun o =>
     slotRop (getStage s st) x (o / 4) (o % 4) = 8 || x.heldUnits.contains { stage := st, slot := 16 + o })

/-- An operation that may stand through a hold: a waiting arrival, a collective cue that waits for its inputs, a reply that
waits for room in a held port. -/
def mayStand (s : State) (o : Op) : Bool :=
  (cueOpc o.words == 0x2A && o.phase == .waiting) || (cueClass o.words == 3 && o.phase == .inbox) ||
  (o.phase == .finished && cueRk o.words == 1 && (sendReply s o).isNone)

/-- Whether an entry of a cue table may be saved as it stands. -/
def entryStands (s : State) (e : CueEntry) : Bool :=
  !e.issued || (e.done && e.released) ||
  (match e.op with | some id => (match getOp s id with | some o => mayStand s o | none => false) | none => false)

/-- Whether a member is ready to be saved. -/
def memberHeld (s : State) (m : Member) : Bool :=
  (match m.ctx with | some c => (getCtx s c).loads.isEmpty && (getCtx s c).stores.isEmpty | none => true) &&
  (match getRegion s m.region with
   | some x => x.frozen.isNone && x.faults.isEmpty && regionHeld s m.region x &&
       (regionStages m.region x).all fun st => (getStage s st).table.all (entryStands s)
   | none => false)

/-- The save operations of one member: one for each stage of its region. -/
def saveMember (s : State) (serial crew : Nat) (m : Member) : State :=
  match getRegion s m.region with
  | none => s
  | some x =>
    let st := regionStages m.region x
    let s := st.foldl (fun s i => modStage s i fun g => { (dropMarkers g) with rslots := g.rslots }) (startBallast s m.region x)
    st.zipIdx.foldl (fun s (p : Nat × Nat) => askImage s serial crew 0x50 p.1 none (imageVA m p.2)) s

/-- The scene with its save areas: those taken when the hold was asked for, otherwise taken now that they fit. -/
def withAreas (s : State) (k : Scene) : Option Scene := if k.areas.isEmpty then takeHoldAreas s k else some k

/-- HOLD_COMPLETE (12 R302): every unit of every member region is held, every context stands at an instruction boundary with
its accesses performed, and every issued cue has retired: the context-save engine begins, once the save fits. -/
def execHoldComplete (serial : Nat) (s : State) : Result State :=
  match getScene s serial with
  | none => .next s
  | some k =>
    if !k.holding || k.saving || !(liveMembers k).all (fun p => memberHeld s p.2) ||
        !(s.eng.ops.all fun p => p.2.scene ≠ serial || mayStand s p.2) then .next s
    else
      match withAreas s k with
      | none => .next s
      | some k =>
        .next ((liveMembers k).foldl (fun s (p : Nat × Member) => saveMember s serial k.crew p.2)
          (setScene s serial { k with saving := true }))

/-- The scene is held: its regions are released, its slate is a candidate again (06 R144), a bare take's slot is HELD. -/
def sceneHeld (s : State) (serial : Nat) : State :=
  match getScene s serial with
  | none => s
  | some k =>
    let s := (liveMembers k).foldl (fun s (p : Nat × Member) =>
      match getRegion s p.2.region with
      | none => s
      | some x =>
        let s := { s with heldRegions := Sparse.insert s.heldRegions (64 * serial + p.1) { x with
          holding := false, heldUnits := [], slack := 0, slackRun := 0, slackHold := 0 } }
        let s := freeRegion (modRegion s p.2.region fun y => { y with phase := .idle }) p.2.region
        modMember s serial p.1 fun m => { m with state := .held, region := 0x10000 + p.2.region, was := p.2.region }) s
    let s := modScene s serial fun k => { k with
      holding := false, saving := false, isHeld := true, circuits := k.circuits.map fun q => { q with path := [], q := q.q.filter fun t => !isHold t } }
    let s := modSlate s k.order fun x => { x with readyAt := some (now s), notFitAt := none }
    let s := match k.launch with
      | some (c, slot) => modLaunch s c slot fun l => { l with state := lHELD }
      | none => s
    { s with sched := { s.sched with due := true } }

/-- REGION_SAVE_COMPLETE (12 R302): a member's images are saved, and it is HELD. With the last one the scene is held, and a
candidate again; until then the regions stand. [DEDUCED, log 27] -/
def execRegionSaveComplete (serial member : Nat) (s : State) : Result State :=
  match getScene s serial with
  | none => .next s
  | some k =>
    match k.members[member]? with
    | none => .next s
    | some m =>
      match getRegion s m.region with
      | none => .next s
      | some x =>
        let st := regionStages m.region x
        if !k.saving || m.saved || m.state = .ended || x.frozen.isSome || (s.eng.ops.any fun p =>
            p.2.scene == serial && cueClass p.2.words == 5 && st.contains (imgStage p.2)) then .next s
        else
          let s := modMember s serial member fun m => { m with saved := true, state := .held }
          match getScene s serial with
          | some k => .next (if (liveMembers k).all (·.2.saved) then sceneHeld s serial else s)
          | none => .next s

/-! ## The end of a member (05 R107) -/

/-- MEMBER_END: a member whose context has exited ends once no take is in progress, its counters are zero, and the cue tables
of its stages are empty; so it may during a hold that has not begun to save, and with the last one the hold is over (06
R143). A frozen member that the host has released ends when it has nothing left to do; a scene whose members have all ended is over
once its operations have acted on memory (05 R111). -/
def execMemberEnd (serial member : Nat) (s : State) : Result State :=
  match getScene s serial with
  | none => .next s
  | some k =>
    match k.members[member]? with
    | none => .next s
    | some m =>
      if m.state = .ended then .next (if allEnded k && !sceneActs s serial then endScene s serial else s)
      else if m.release && m.state = .frozen then .next (if memberQuiet s serial m (mayStand s) then endMember s serial member else s)
      else match m.ctx, getRegion s m.region with
      | some c, some x =>
        let y := getCtx s c
        if k.saving || m.state ≠ .running || (y.state ≠ .running && y.state ≠ .parked) || y.wait ≠ .exit || x.phase ≠ .idle || x.load.isSome ||
            x.frozen.isSome || y.copies ≠ 0 || y.tiles ≠ 0 || !allPerformed y ||
            !(regionStages m.region x).all (fun i => (getStage s i).table.isEmpty) then .next s
        else .next (endMember s serial member)
      | _, _ => .next s

end Sys2Proof.Machine
end

