-- ==== Sys2Proof/Machine/Slates.lean ====
section
/-! DEFINITION. Slates, queues, spill rings and dependencies (02 R50, R51; 06 R124-R135; 18 R474, R475). -/
namespace Sys2Proof.Machine

/-! ## Queues (06 R128, R129) -/

/-- QLOG of a crew; values above 20 act as 20. -/
def qlog (c : Crew) : Nat := min 20 (wbits c.qring 0 5)

/-- Slates a queue's spill ring holds. -/
def ringCap (c : Crew) : Nat := if qlog c = 0 then 0 else 2 ^ qlog c

/-- Address of ring place `i` of a priority. [DEDUCED, log 31] -/
def ringVA (c : Crew) (prio i : Nat) : Word :=
  BitVec.ofNat 64 (wbits c.qring 16 32 * 65536 + prio * 2 ^ (qlog c + 6) + 64 * (i % 2 ^ qlog c))

/-- The translation cache of the scheduler's and the host's accesses. -/
def hostCache : Nat := 536

/-- Whether a slate belongs to a queue: a bare take holds no place in one. -/
def inQueue (q : Nat) (x : Slate) : Bool := 8 * x.crew + x.prio == q && x.launch.isNone

/-- Whether a slate's scene is placed for good: a reservation on several chips that may yet be cancelled is no placement
(06 R140). -/
def slatePlaced (s : State) (x : Slate) : Bool :=
  match x.scene with
  | none => false
  | some k => match getScene s k with
    | some y => !y.xchip || y.tick.isSome || y.started || y.isHeld
    | none => true

/-- Slates in a queue's window: a placed slate has left it, though its queue entry stands until its scene ends (02 R50, 05
R111, 06 R137). [DEDUCED, log 31] -/
def windowCount (s : State) (q : Nat) : Nat :=
  (s.sched.slates.filter fun x => inQueue q x && x.ringPos.isNone && !slatePlaced s x).length

/-- QCREDIT (02 R50, 06 R129). -/
def qcredit (s : State) (q : Nat) : Nat :=
  let x := getQueue s q
  64 - windowCount s q + (ringCap (getCrew s (q / 8)) - x.ringLen) - (if x.held.isSome then 1 else 0) - (if x.spill.isSome then 1 else 0)

/-- A slate's words with its queue's crew and priority (06 R125). -/
def stampWords (crew prio : Nat) (ws : List Word) : List Word :=
  ws.set 4 (setBits (setBits (ws.getD 4 0) 61 3 prio) 58 3 crew)

/-- A slate as it arrives. -/
def newSlate (crew prio : Nat) (ws : List Word) : Slate :=
  let ws := stampWords crew prio ws
  { words := ws, sub := 0, crew, prio, joincnt := slateField ws 0 48 16, order := 0 }

/-- The next place in the submission order (02 R51). -/
def takeOrder (s : State) : Nat × State :=
  (s.sched.nextOrder, { s with sched := { s.sched with nextOrder := s.sched.nextOrder + 1 } })

/-- A slate takes its place among the queued ones. -/
def insertSlate (x : Slate) : List Slate → List Slate
  | [] => [x]
  | y :: rest => if x.order < y.order then x :: y :: rest else y :: insertSlate x rest

/-- A slate is accepted: it receives the next submission number (06 R126). Its place in the crew's order was given at its
commit (02 R51). -/
def acceptSlate (s : State) (x : Slate) (ringPos : Option Nat) : State × Nat :=
  let q := 8 * x.crew + x.prio
  let n := ((getQueue s q).subs + 1) % 2 ^ 32
  let x := { x with sub := n % 2 ^ 24, ringPos }
  let s := modQueue s q fun q => { q with subs := n, ringLen := if ringPos.isSome then q.ringLen + 1 else q.ringLen }
  ({ s with sched := { s.sched with slates := insertSlate x s.sched.slates } }, q * 2 ^ 24 + n % 2 ^ 24)

/-- Seal a queue, and report it (06 R131). -/
def sealQueue (s : State) (q : Nat) (va : Word) (kind : Nat) : State :=
  writeEvent (modQueue s q fun x => { x with sealed := true, sealVA := va, sealKind := kind }) (q / 8) 0x20 q 0 va
    (BitVec.ofNat 64 kind)

/-- The words of 64 bytes. -/
def wordsOfBytes (bs : List Byte) : List Word := (List.range 8).map fun i => wordOf ((bs.drop (8 * i)).take 8)

/-- The bytes of a slate. -/
def slateBytes (ws : List Word) : List Byte := ws.flatMap fun w => leBytes 8 w.toNat

/-- The live slate at a ring place. -/
def ringSlate (s : State) (q i : Nat) : Option Slate := s.sched.slates.find? fun x => inQueue q x && x.ringPos == some i

/-- Read the ring's head into a window that has a free entry (06 R129); a place whose slate was refused is passed over. None
while a key slot changes. -/
def tryRefill (s : State) (q : Nat) : Option State :=
  let x := getQueue s q
  let c := getCrew s (q / 8)
  if x.sealed || x.ringLen = 0 || 64 ≤ windowCount s q then some s
  else
    let pass := fun (s : State) => modQueue s q fun x => { x with ringHead := x.ringHead + 1, ringLen := x.ringLen - 1 }
    match ringSlate s q x.ringHead with
    | none => some (pass s)
    | some sl =>
      let va := ringVA c (q % 8) x.ringHead
      match vread s hostCache (q / 8) va 64 with
      | .error .wait => none
      | .error _ => some (sealQueue s q va 1)
      | .ok bs =>
        let ws := wordsOfBytes bs
        some (noteReady (modSlate (pass (countRead s hostCache (q / 8) va 64)) sl.order fun y =>
          { y with words := stampWords y.crew y.prio ws, joincnt := slateField ws 0 48 16, ringPos := none }))

/-- The refill read, if it can be made now. -/
def refillOne (s : State) (q : Nat) : State := (tryRefill s q).getD s

/-- Room is made in a full ring, where the window has a free entry. -/
def makeRoom (s : State) (q : Nat) : State :=
  if ringCap (getCrew s (q / 8)) ≤ (getQueue s q).ringLen then refillOne s q else s

/-- What a push comes to. -/
inductive Pushed where
  | handle (h : Nat)
  | full
  /-- sealed; whether this slate is the one held -/
  | sealed (held : Bool)
  /-- its spill write is under way -/
  | spilling
  deriving DecidableEq, Repr

/-- The spill write of a queue (06 R129, R131): it waits while the ring is full and the read that makes room waits; a slate
whose queue that read seals is not kept. -/
def spillNow (s : State) (q : Nat) : State × Pushed :=
  let s := makeRoom s q
  let x := getQueue s q
  match x.spill with
  | none => (s, .full)
  | some sl =>
    if x.sealed then (modQueue s q fun x => { x with spill := none }, .sealed false)
    else if ringCap (getCrew s (q / 8)) ≤ x.ringLen then (s, .spilling)
    else
      let i := x.ringHead + x.ringLen
      let va := ringVA (getCrew s (q / 8)) (q % 8) i
      match vwrite s hostCache (q / 8) va (slateBytes sl.words) with
      | (_, some .wait) => (s, .spilling)
      | (_, some _) =>
        (sealQueue (modQueue s q fun x => { x with spill := none, held := some sl }) q va 0, .sealed true)
      | (t, none) =>
        let (t, h) := acceptSlate (modQueue t q fun x => { x with spill := none }) sl (some i)
        (t, .handle h)

/-- Push a slate: into the window if it has room and the ring is empty, otherwise towards the ring's tail. It takes its place
in the submission order now. A queue that is both sealed and full answers SEALED. [DESIGN CHOICE, log 37] -/
def pushSlate (s : State) (x : Slate) : State × Pushed :=
  let q := 8 * x.crew + x.prio
  let y := getQueue s q
  if y.sealed then (s, .sealed false)
  else if qcredit s q = 0 then (s, .full)
  else
    let t := makeRoom s q
    if (getQueue t q).sealed then (t, .sealed false)
    else
      let (n, t) := takeOrder t
      let x := { x with order := n }
      if windowCount t q < 64 && (getQueue t q).ringLen = 0 then
        let (t, h) := acceptSlate t x none
        (t, .handle h)
      else (modQueue t q fun y => { y with spill := some x }, .spilling)

/-- An UNSEAL makes the failed access again (06 R132): a held slate is stored as a new push would be, a failed refill is read
again. The queue stays as it is while the access waits for a key slot, and sealed if it fails again. -/
def tryUnseal (s : State) (q : Nat) : State :=
  let x := getQueue s q
  let open_ := modQueue s q fun x => { x with sealed := false, sealVA := 0, sealKind := 0, held := none, retry := false }
  let waits := modQueue s q fun x => { x with retry := true }
  match x.held with
  | none => (tryRefill open_ q).getD waits
  | some sl =>
    match pushSlate open_ sl with
    | (t, .spilling) =>
      match spillNow t q with
      | (_, .spilling) => waits
      | (u, .sealed false) => modQueue u q fun y => { y with held := some sl }
      | (u, _) => u
    | (t, .sealed _) => modQueue t q fun y => { y with held := some sl }
    | (t, .handle _) => t
    | _ => waits

/-- REFILL_READ (06 R129): also the read of an UNSEAL that has waited (R132). -/
def execRefillRead (queue : Nat) (s : State) : Result State :=
  if 64 ≤ queue then .next s
  else if (getQueue s queue).retry && (getQueue s queue).held.isNone then .next (tryUnseal s queue)
  else .next (refillOne s queue)

/-- Record the result of a host push; after any result other than FULL the written-byte mask is clear (02 R50). -/
def pushResult (s : State) (q : Nat) (p : Pushed) : State :=
  let code : Option (BitVec 8) := match p with
    | .handle _ => some 0
    | .full => some 1
    | .sealed _ => some 2
    | .spilling => none
  match code with
  | none => s
  | some r => modCrew s (q / 8) fun c => { c with push := modAt c.push (q % 8) fun b => { b with result := r } }

/-- SPILL_WRITE (06 R129, R131): the slate of a host push reaches the ring, or seals its queue and is held; also the write of an
UNSEAL that has waited (R132). -/
def execSpillWrite (queue : Nat) (s : State) : Result State :=
  if 64 ≤ queue then .next s
  else if (getQueue s queue).retry && (getQueue s queue).held.isSome then .next (tryUnseal s queue)
  else if (getQueue s queue).spill.isNone then .next s
  else
    let (t, p) := spillNow s queue
    .next (pushResult t queue p)

/-- A queue's pending spill write is made, and its push reported. -/
def settleSpill (s : State) (q : Nat) : State :=
  if (getQueue s q).spill.isSome then (let (t, r) := spillNow s q; pushResult t q r) else s

/-- The spill writes of a crew's earlier commits are taken first: PUSH_STATUS is updated before the next commit. -/
def settleSpills (s : State) (crew : Nat) : State := (List.range 8).foldl (fun s p => settleSpill s (8 * crew + p)) s

/-- The words of a staging block. -/
def stagedWords (b : Block) : List Word := (List.range 8).map fun i => BitVec.ofNat 64 (bits b.toNat (64 * i) 64)

/-- A host access or commit is taken at once, unless earlier ones wait or it must wait itself: then it joins them
(02 R49, R52). -/
def hostTry (s : State) (a : HostAct) (r : Option State) : State :=
  match s.hostWait, r with
  | [], some t => t
  | _, _ => { s with hostWait := s.hostWait ++ [a] }

/-- A push commit; none while an earlier commit of the crew has still to be stored (02 R50). -/
def tryPush (crew prio : Nat) (val : BitVec 64) (en : BitVec 8) (s : State) : Option State :=
  let s := settleSpills s crew
  let b := (getCrew s crew).push.getD prio {}
  if (List.range 8).any fun p => (getQueue s (8 * crew + p)).spill.isSome then none
  else
    let old := BitVec.ofNat 64 (bits b.staging.toNat 448 64)
    let staging := BitVec.ofNat 512 (b.staging.toNat % 2 ^ 448 + (mergeBytes old val en).toNat * 2 ^ 448)
    let mask := b.mask ||| BitVec.ofNat 64 (en.toNat * 2 ^ 56)
    let put := fun (s : State) (keep : Bool) (r : BitVec 8) => modCrew s crew fun c =>
      { c with push := modAt c.push prio fun _ => { staging, mask := if keep then mask else 0, result := r } }
    if mask ≠ BitVec.allOnes 64 then some (put s false 3)
    else
      let (t, p) := pushSlate s (newSlate crew prio (stagedWords staging))
      some (match p with
        | .handle _ => put t false 0
        | .full => put t true 1
        | .sealed _ => put t false 2
        | .spilling => put t false b.result)

/-- Whether a write to a push block of a running crew commits. -/
def pushActs (s : State) (crew prio : Nat) (en : BitVec 8) : Bool :=
  s.chip.powered && s.chip.halt.isNone && crew < 8 && prio < 8 && (getCrew s crew).en && en.getLsbD 7

/-- SLATE_PUSH (02 R50): the STAGING write that enables byte 63 commits the push. A write that does not enable it only stages
bytes, and is a REGISTER_WRITE. -/
def execSlatePush (crew prio : Nat) (val : BitVec 64) (en : BitVec 8) (s : State) : Result State :=
  if !pushActs s crew prio en then .next s
  else .next (hostTry s (.start (.slatePush crew prio val en)) (tryPush crew prio val en s))

/-- QUEUE_UNSEAL (06 R132): the failed access is made again. -/
def execQueueUnseal (crew prio : Nat) (s : State) : Result State :=
  let q := 8 * crew + prio
  if partStopped s || 8 ≤ crew || 8 ≤ prio || !(getCrew s crew).en || !(getQueue s q).sealed then .next s
  else .next (tryUnseal s q)

/-! ## Entry into the dependency table (06 R127, R133-R135) -/

/-- Shape fields of a slate. -/
def slateW (ws : List Word) : Nat := slateField ws 4 0 5 + 1
def slateH (ws : List Word) : Nat := slateField ws 4 5 4 + 1
def slateN (ws : List Word) : Nat := slateField ws 4 9 6 + 1
def slateDies (ws : List Word) : Nat := let d := slateField ws 4 52 4; if d = 0 then 15 else d
def slateReel (ws : List Word) : Word := BitVec.ofNat 64 (slateField ws 3 0 48)
def slateXchip (ws : List Word) : Bool := slateField ws 4 47 1 = 1

/-- BADSLATE of the slate's own fields. -/
def slateBad (ws : List Word) : Bool :=
  ([slateField ws 1 48 16 ≠ 0, slateField ws 2 48 12 ≠ 0, slateField ws 3 48 16 ≠ 0, slateField ws 4 56 2 ≠ 0,
    slateField ws 4 15 32 ≠ 0, ws.getD 5 0 ≠ 0, ws.getD 6 0 ≠ 0, ws.getD 7 0 ≠ 0, slateField ws 0 0 2 ≠ 0,
    slateField ws 0 0 48 = 0, slateField ws 1 0 6 ≠ 0, slateField ws 3 0 6 ≠ 0, 8 < slateField ws 2 60 4,
    slateField ws 2 60 4 ≠ 0 && slateField ws 2 0 4 ≠ 0] : List Bool).any id

/-- A rectangle's raster numbers, and whether all are free. -/
def rectFree (free : List Bool) (o w h : Nat) : Bool :=
  (List.range h).all fun dy => (List.range w).all fun dx => free.getD (o + 32 * dy + dx) false

/-- The first origin whose rectangle is free, in rising row and column. -/
def firstOrigin (free : List Bool) (w h : Nat) : Option Nat :=
  (List.range 512).find? fun o => o % 32 + w ≤ 32 && o / 32 + h ≤ 16 && rectFree free o w h

/-- Mark a rectangle as taken. -/
def takeRect (free : List Bool) (o w h : Nat) : List Bool :=
  free.zipIdx.map fun (p : Bool × Nat) =>
    p.1 && !(o % 32 ≤ p.2 % 32 && p.2 % 32 < o % 32 + w && o / 32 ≤ p.2 / 32 && p.2 / 32 < o / 32 + h)

/-- The origins of `n` members in turn (06 R136). -/
def findOrigins (w h : Nat) : Nat → List Bool → Option (List Nat)
  | 0, _ => some []
  | n + 1, free =>
    match firstOrigin free w h with
    | none => none
    | some o => (findOrigins w h n (takeRect free o w h)).map (o :: ·)

/-- The stages of the package that a predicate admits on the permitted dies, by raster number. -/
def freeMap (s : State) (dies : Nat) (ok : Nat → Bool) : List Bool :=
  (List.range 512).map fun r =>
    let i := stageOfRaster r
    bits dies (dieOf i) 1 = 1 && !s.chip.fence.contains i && ok i

/-- QUOTA as it acts. -/
def quotaOf (c : Crew) : Nat := min 512 c.quota.toNat

/-- Whether `n` members fit on a package whose only occupied stages are the fenced ones. -/
def placeable (s : State) (ws : List Word) (n : Nat) : Bool :=
  (findOrigins (slateW ws) (slateH ws) n (freeMap s (slateDies ws) fun _ => true)).isSome

/-- A range entry: blocks touched, and whether it may be written; none when its length is 0. -/
def rangeEntry (x : Slate) (w0 w1 : Word) : Except Nat (Option Dep) :=
  let base := wbits w0 0 48
  let len := wbits w1 0 40
  if wbits w0 48 15 ≠ 0 || wbits w1 40 24 ≠ 0 then .error 4
  else if len = 0 then .ok none
  else if 2 ^ 48 < base + len then .error 4
  else .ok (some { crew := x.crew, order := x.order, wr := wbit w0 63, base := base / 64, len := (base + len - 1) / 64 - base / 64 + 1 })

/-- The entries of a range list, in order; the first that is bad gives the cause. -/
def rangeEntries (x : Slate) : List (Word × Word) → Except Nat (List Dep)
  | [] => .ok []
  | (a, b) :: rest =>
    match rangeEntry x a b with
    | .error e => .error e
    | .ok d => (rangeEntries x rest).map fun l => d.toList ++ l

/-- What reading a slate's range list gives: its entries, a cause, or a wait for a key slot. -/
def readRanges (s : State) (x : Slate) : Option (Except Nat (List Dep)) :=
  let n := slateField x.words 2 60 4
  if n = 0 then some (.ok [])
  else
    match vread s hostCache x.crew (BitVec.ofNat 64 (slateField x.words 2 0 48)) (16 * n) with
    | .error .wait => none
    | .error _ => some (.error 5)
    | .ok bs => some (rangeEntries x ((List.range n).map fun i =>
        (wordOf ((bs.drop (16 * i)).take 8), wordOf ((bs.drop (16 * i + 8)).take 8))))

/-- Two ranges conflict. [DEDUCED, log 31] -/
def depConflict (a b : Dep) : Bool := a.base < b.base + b.len && b.base < a.base + a.len && (a.wr || b.wr)

/-- Entries a crew holds. -/
def depUsed (s : State) (crew : Nat) : Nat := (s.sched.deps.filter (·.crew == crew)).length

/-- Whether the table of 4,096 entries has room: each enabled crew can always obtain 256 of them (06 R134). -/
def depRoom (s : State) (crew n : Nat) : Bool :=
  let spare := ((List.range 8).map fun c => if c ≠ crew && (getCrew s c).en then 256 - depUsed s c else 0).sum
  n = 0 || (s.sched.deps.length + n ≤ 4096 && (depUsed s crew + n ≤ 256 || s.sched.deps.length + n + spare ≤ 4096))

/-- `enter` (06 R135). -/
def enterSlate (s : State) (x : Slate) (ds : List Dep) : State :=
  let preds := ((s.sched.deps.filter fun e => e.crew = x.crew && ds.any (depConflict e)).map (·.order)).eraseDups
  noteReady (modSlate { s with sched := { s.sched with deps := s.sched.deps ++ ds } } x.order fun y =>
    { y with entered := true, preds })

/-- Whether an earlier slate of the crew has still to be stored in its ring. -/
def spillBefore (s : State) (crew order : Nat) : Bool :=
  (List.range 8).any fun p => match (getQueue s (8 * crew + p)).spill with | some y => y.order < order | none => false

/-- The next slate of a crew to enter, strictly in its submission order (06 R134). [DEDUCED, log 18] -/
def nextToEnter (s : State) (crew : Nat) : Option Slate :=
  (s.sched.slates.find? fun x => x.crew == crew && !x.entered).filter fun x => !spillBefore s crew x.order

/-! ## The chip map (06 R139) -/

/-- A chip map: each member's chip slot, and the slots' serials. -/
structure ChipMap where
  slots : List Nat
  chips : List Nat
  deriving DecidableEq, Repr

/-- The chip map of a frame block: a cause, or a wait for a key slot (`none`). -/
def readChipMap (s : State) (crew : Nat) (frame : Word) (n : Nat) : Option (Except Nat ChipMap) :=
  match vread s hostCache crew frame 128 with
  | .error .wait => none
  | .error _ => some (.error 7)
  | .ok bs =>
    let slots := (List.range n).map fun m => leNat ((bs.drop m).take 1)
    let chips := (List.range 16).map fun j => leNat ((bs.drop (64 + 4 * j)).take 4)
    let used := fun j => slots.contains j
    if slots.any (16 ≤ ·) || (List.range 16).any (fun j => used j && chips.getD j 0 = 0) ||
        (List.range 16).any (fun j => j ≠ 0 && !used j && chips.getD j 0 ≠ 0) then some (.error 7)
    else some (.ok { slots, chips })

/-- The members of a chip map on this chip. -/
def ownMembers (s : State) (cm : ChipMap) : List Nat :=
  (List.range cm.slots.length).filter fun m => cm.chips.getD (cm.slots.getD m 0) 0 == s.chip.serial.toNat

/-- Members that a slate places on this chip: those its chip map gives it, or all. A map that cannot be read is left to the
check at placement; none while it lies under a key slot that changes. -/
def membersHere (s : State) (x : Slate) : Option Nat :=
  if slateXchip x.words then
    match readChipMap s x.crew (BitVec.ofNat 64 (slateField x.words 1 0 48)) (slateN x.words) with
    | none => none
    | some (.ok cm) => some (ownMembers s cm).length
    | some (.error _) => some 0
  else some (slateN x.words)

/-- SLATE_ENTER (06 R127, R134, R139): the checks, each chip's members against its own QUOTA, and the entry of the crew's next
slate once the table has room for its ranges. -/
def execSlateEnter (crew : Nat) (s : State) : Result State :=
  match nextToEnter s crew with
  | none => .next s
  | some x =>
    let ws := x.words
    if slateBad ws then .next (refuseSlate s x 1)
    else
      match membersHere s x with
      | none => .next s
      | some n =>
        if quotaOf (getCrew s crew) < n * slateH ws * slateW ws then .next (refuseSlate s x 2)
        else if !placeable s ws n then .next (refuseSlate s x 3)
        else
          match readRanges s x with
          | none => .next s
          | some (.error cause) => .next (refuseSlate s x cause)
          | some (.ok ds) =>
            if depRoom s crew ds.length then
              .next (enterSlate (countRead s hostCache crew (BitVec.ofNat 64 (slateField ws 2 0 48)) (16 * slateField ws 2 60 4)) x ds)
            else .next s

/-! ## SPAWN and JOIN (18 R474, R475) -/

/-- SPAWN: waits until the context's earlier accesses have performed, reads the slate, and pushes it. -/
def execSpawn (d a : BitVec 5) (s : State) : Result State :=
  withRegs s [a, d] fun x =>
    let va := readG x a
    if misaligned va 64 then preciseTrap s tMISALIGN 0 va
    else
      let s := leaveBuffer s s.cur
      if !allPerformed x || x.acq.isSome || readWaits s (ctxStage s.cur) x.crew va then stallCur s
      else
        match vread s (ctxStage s.cur) x.crew va 64 with
        | .error e => accTrap s e
        | .ok bs =>
          let s := countRead s (ctxStage s.cur) x.crew va 64
          let ws := wordsOfBytes bs
          let q := 8 * x.crew + slateField ws 4 61 3
          let s := settleSpill s q
          if (getQueue s q).spill.isSome then stallCur s
          else match pushSlate s (newSlate x.crew (slateField ws 4 61 3) ws) with
          | (_, .full) => stallCur s
          | (t, .sealed held) => retire t d (BitVec.ofNat 64 (0x02 * 2 ^ 32 + (if held then 2 ^ 40 else 0)))
          | (t, .handle h) => retire t d (BitVec.ofNat 64 h)
          | (t, .spilling) =>
            match spillNow t q with
            | (u, .handle h) => retire u d (BitVec.ofNat 64 h)
            | (u, .sealed held) => retire u d (BitVec.ofNat 64 (0x02 * 2 ^ 32 + (if held then 2 ^ 40 else 0)))
            | _ => stallCur s

/-- The slate a handle names. [DEDUCED, log 31] -/
def handleSlate (s : State) (h : Word) : Option Slate :=
  s.sched.slates.find? fun x => inQueue (wbits h 24 6) x && x.sub == wbits h 0 24

/-- The join counter of a slate: in the ring it is the halfword of its entry (06 R129). [DEDUCED, log 31] -/
def joinCount (s : State) (x : Slate) : Except AccErr Nat :=
  match x.ringPos with
  | none => .ok x.joincnt
  | some i => (vread s hostCache x.crew (ringVA (getCrew s x.crew) x.prio i + 6) 2).map leNat

/-- Count a join. [DEDUCED, log 31] -/
def putJoin (s : State) (x : Slate) (n : Nat) : State × Option AccErr :=
  let s := noteReady (modSlate s x.order fun y => { y with joincnt := n })
  match x.ringPos with
  | none => (s, none)
  | some i => vwrite s hostCache x.crew (ringVA (getCrew s x.crew) x.prio i + 6) (leBytes 2 n)

/-- JOIN: a refused handle takes JOINREF. -/
def execJoin (a : BitVec 5) (s : State) : Result State :=
  withRegs s [a] fun x =>
    let h := readG x a
    let s := leaveBuffer s s.cur
    if !allPerformed x || x.acq.isSome then stallCur s
    else
      let refused := preciseTrap s tJOINREF 0 h
      if wbits h 30 34 ≠ 0 || wbits h 27 3 ≠ x.crew then refused
      else
        match handleSlate s h with
        | none => refused
        | some sl =>
          match joinCount s sl with
          | .error e => accTrap s e
          | .ok 0 => refused
          | .ok (n + 1) =>
            match putJoin s sl n with
            | (t, none) => advance t
            | (_, some e) => accTrap s e

end Sys2Proof.Machine
end

