-- ==== Sys2Proof/Machine/Power.lean ====
section
/-! DEFINITION. Power control: base levels and frequency groups, heat, the cap controller, start pacing and ballast (04). -/
namespace Sys2Proof.Machine

/-! ## Modes and caps (04 R78-R80) -/

/-- Highest base level of a mode. -/
def modeLevel (m : Nat) : Nat := match m with | 0 => 7 | 1 => 4 | 2 => 4 | _ => 2

/-- Highest mapping ceiling of a mode. -/
def modeCeiling (m : Nat) : Nat := if m = 3 then 1 else 3

/-- The selected cap in W: in QUIET it is 1,200 W (R79). -/
def selectedCap (mode cap : Nat) : Nat := if mode = 3 then 1200 else match cap with | 0 => 1200 | 1 => 1800 | _ => 2200

/-- Rail voltage of a base level (R84). -/
def levelMv (l : Nat) : Nat := [340, 355, 370, 385, 400, 440, 480, 520].getD l 520

/-! ## Clusters and groups (04 R84, R85) -/

/-- Change a cluster. -/
def modCluster (s : State) (c : Nat) (f : Cluster → Cluster) : State :=
  { s with power := { s.power with clusters := modAt s.power.clusters c f } }

/-- Join clusters into the groups they meet. -/
def joinGroup (groups : List (List Nat)) (cs : List Nat) : List (List Nat) :=
  let meet := groups.filter fun g => g.any cs.contains
  (cs ++ meet.flatten).eraseDups :: groups.filter fun g => !g.any cs.contains

/-- The frequency groups of all placed regions. -/
def groupsOf (s : State) : List (List Nat) := (s.regions.map fun p => regionClusters p.1 p.2).foldl joinGroup []

/-- The level a cluster is at or is going to. -/
def goalLevel (x : Cluster) : Nat := (x.queued <|> x.target).getD x.level

/-- A rise waits no longer. -/
def endRise (s : State) (k : Rise) : State :=
  { s with power := { s.power with waits := s.power.waits.filter fun w => w.rise ≠ k } }

/-- The level a cluster will have once its handover in progress is over (R97). -/
def nextLevel (x : Cluster) : Nat := x.target.getD x.level

/-- Order a level: the change begins with BASE_LEVEL_CHANGE, after a handover in progress and from the level then in force
(R97). A rise joins those that wait for the rail budget. -/
def orderLevel (s : State) (c l : Nat) : State :=
  let x := getCluster s c
  if goalLevel x = l then s
  else
    let s := modCluster s c fun x => { x with queued := some l }
    if nextLevel x < l then waitRise s (.base c) else endRise s (.base c)

/-- Order a level for every cluster of a list. -/
def orderAll (s : State) (cs : List Nat) (l : Nat) : State := cs.foldl (fun s c => orderLevel s c l) s

/-- The least goal of a list of clusters. -/
def leastGoal (s : State) (cs : List Nat) : Nat := cs.foldl (fun m c => min m (goalLevel (getCluster s c))) 7

/-- The clusters of a die. -/
def dieClusters (d : Nat) : List Nat := (List.range 8).map (8 * d + ·)

/-- The level of a die's clusters that hold no region: its lowest group's, or 0. -/
def idleLevel (s : State) (groups : List (List Nat)) (d : Nat) : Nat :=
  match groups.filter fun g => g.any fun c => c / 8 == d with
  | [] => 0
  | gs => leastGoal s gs.flatten

/-- Whether a cluster's die is in a thermal excursion or recovers from one (R89). -/
def dieHot (s : State) (c : Nat) : Bool := let r := s.power.rails.getD (c / 8) {}; r.excursion || r.rising

/-- The least level that the cap controller has set for a list of clusters. -/
def leastSet (s : State) (cs : List Nat) : Nat := cs.foldl (fun m c => min m (getCluster s c).set) 7

/-- The level set for a list of clusters is recorded. -/
def setAll (s : State) (cs : List Nat) (l : Nat) : State := cs.foldl (fun s c => modCluster s c fun x => { x with set := l }) s

/-- The level that the controller has set follows the groups as their levels do: outside a thermal excursion it is the level in
force, within one the lowest of the group's clusters; an idle cluster has that of its die's lowest group, or 0.
[DEDUCED, log 19] -/
def settleSets (s : State) (groups : List (List Nat)) : State :=
  let s := groups.foldl (fun s g => setAll s g (if g.any (dieHot s) then leastSet s g else leastGoal s g)) s
  let held := groups.flatten
  (List.range 4).foldl (fun s d =>
    let mine := (groups.filter fun g => g.any fun c => c / 8 == d).flatten
    setAll s ((dieClusters d).filter fun c => !held.contains c) (if mine.isEmpty then 0 else leastSet s mine)) s

/-- The level every group takes: the lowest of its clusters' (R85), and 4 in STEADY outside a thermal recovery (R80); idle
clusters follow their die. -/
def settleLevels (s : State) : State :=
  let groups := groupsOf s
  let s := groups.foldl (fun s g =>
    orderAll s g (if s.power.mode = 2 && !g.any (dieHot s) then 4 else leastGoal s g)) s
  let held := groups.flatten
  let s := (List.range 4).foldl (fun s d =>
    let l := if s.power.mode = 2 && !dieHot s (8 * d) then 4 else idleLevel s groups d
    orderAll s ((dieClusters d).filter fun c => !held.contains c) l) s
  settleSets s groups

/-- The voltage a die's rail needs for the levels its clusters run at or move to. -/
def railNeed (s : State) (d : Nat) : Nat :=
  (dieClusters d).foldl (fun m c => max m (levelMv (max (getCluster s c).level ((getCluster s c).target.getD 0)))) 340

/-- Set a die's rail to what its clusters need. -/
def setRail (s : State) (d : Nat) : State :=
  { s with power := { s.power with rails := modAt s.power.rails d fun r => { r with mv := railNeed s d } } }

/-- What a rise adds on a die's rail, in mA: a sixteenth of the current of a region for a step of its bubbles, the current of
the higher level less that of the present one for a base level. [DEDUCED, log 19] -/
def riseCost (s : State) (k : Rise) (d : Nat) : Nat :=
  let step := fun (p : Nat × Region) => if regionLive p.2 then mappingCurrent s p.1 p.2 d / 16 else 0
  let inCluster := fun (c : Nat) (p : Nat × Region) => (regionClusters p.1 p.2).contains c
  match k with
  | .pace r => match getRegion s r with | some x => mappingCurrent s r x d / 16 | none => 0
  | .base c =>
    let x := getCluster s c
    if c / 8 ≠ d then 0
    else ((s.regions.filter (inCluster c)).map fun p =>
      match activeCtx p.2 with
      | some a =>
        if regionLive p.2 then
          let mine := (regionStages p.1 p.2).filter fun i => clusterOf i == c
          let all := (regionStages p.1 p.2).filter fun i => dieOf i == d
          a.iest * 1000 * (x.queued.getD (nextLevel x) - nextLevel x) / 8 * mine.length / max 1 all.length
        else 0
      | none => 0).sum
  | .cool c => ((s.regions.filter (inCluster c)).map step).sum
  | .cap c => ((s.regions.filter fun p => p.2.crew == c).map step).sum

/-- Whether every rail has granted a rise its due: one that adds no current has no wait. -/
def riseGranted (s : State) (k : Rise) : Bool :=
  let paid := ((s.power.waits.find? fun w => w.rise == k).map (·.paid)).getD []
  (List.range 4).all fun d => riseCost s k d ≤ paid.getD d 0

/-- A rise has taken place and its next step waits, at the same place in the order. -/
def repayRise (s : State) (k : Rise) : State :=
  { s with power := { s.power with waits := s.power.waits.map fun w => if w.rise = k then { rise := k } else w } }

/-- A cluster's thermal level falls by one. -/
def coolNow (s : State) (c : Nat) : State := modCluster s c fun x => { x with thermal := x.thermal - 1 }

/-- A crew's cap level falls by one. -/
def uncapNow (s : State) (c : Nat) : State :=
  { s with power := { s.power with crews := modAt s.power.crews c fun p => { p with level := p.level - 1 } } }

/-- The ramps of a rail fall by `ma` in all, the oldest first. -/
def lowerRamps (d : Nat) : Nat → List Ballast → List Ballast
  | _, [] => []
  | ma, b :: bs =>
    if b.die ≠ d then b :: lowerRamps d ma bs
    else if b.ma ≤ ma then lowerRamps d (ma - b.ma) bs
    else { b with ma := b.ma - ma } :: lowerRamps d 0 bs

/-- The ballast of a rail falls by what new work draws (R91). -/
def yieldBallast (s : State) (d ma : Nat) : State :=
  { s with power := { s.power with ballast := lowerRamps d ma s.power.ballast } }

/-- BASE_LEVEL_CHANGE (R86): an ordered change begins; the rail follows, and the idle generator locks. A change ordered during
a handover waits (R97), and a rise waits for the rail budget (R92). -/
def execBaseLevelChange (cluster : Nat) (level : Nat) (s : State) : Result State :=
  let x := getCluster s cluster
  if x.queued ≠ some level || x.target.isSome || 32 ≤ cluster || 8 ≤ level then .next s
  else if x.level < level && !riseGranted s (.base cluster) then .next s
  else .next (setRail (modCluster (endRise s (.base cluster)) cluster fun x =>
    { x with queued := none, target := if x.level = level then none else some level }) (cluster / 8))

/-- GENERATOR_SWITCH (R86): every spine of the cluster switches to the new generator. -/
def execGeneratorSwitch (cluster : Nat) (s : State) : Result State :=
  match (getCluster s cluster).target with
  | some level =>
    if 32 ≤ cluster then .next s
    else .next (setRail (modCluster s cluster fun x => { x with level, target := none }) (cluster / 8))
  | none => .next s

/-! ## Heat (04 R89) -/

/-- The thermal shutdown: every clock stops, and the flash marker is written. [DEDUCED, log 19] -/
def thermalShutdown (s : State) (readings : List Nat) : State :=
  { s with
    chip := { s.chip with halt := some 0xF1, ready := false, thermalMarker := true }
    power := { s.power with clusters := s.power.clusters.zipIdx.map fun (p : Cluster × Nat) =>
      { p.1 with temp := readings.getD p.2 p.1.temp } } }

/-- A cluster's thermal level after a reading. -/
def thermalStep (level t : Nat) : Nat := if t < 95 then level - 1 else if t < 100 then level else min 15 (level + 1)

/-- A cluster after a reading: a fall that adds current waits for the rail budget (R92); a rise cancels one that waits. -/
def readCluster (s : State) (c t : Nat) : State :=
  let x := getCluster s c
  let s := modCluster s c fun x => { x with temp := t }
  if thermalStep x.thermal t < x.thermal then
    (if riseGranted s (.cool c) then coolNow s c else waitRise s (.cool c))
  else if 100 ≤ t && s.power.waits.any (fun w => w.rise == .cool c) then endRise s (.cool c)
  else modCluster s c fun x => { x with thermal := thermalStep x.thermal t }

/-- The groups that have a cluster on a die. -/
def dieGroups (s : State) (d : Nat) : List (List Nat) := (groupsOf s).filter fun g => g.any fun c => c / 8 == d

/-- The level to which a group rises after an excursion: 4 in STEADY, else what the cap controller last set. -/
def recoverLevel (s : State) (g : List Nat) : Nat :=
  if s.power.mode = 2 then 4 else min (modeLevel s.power.mode.toNat) (leastSet s g)

/-- A die after a reading: an excursion begins, or stands, or is over. [DEDUCED, log 19] -/
def dieReading (readings : List Nat) (s : State) (d : Nat) : State :=
  let hot := (dieClusters d).foldl (fun m c => max m (readings.getD c 0)) 0
  let rail := s.power.rails.getD d {}
  let setRails := fun (s : State) (e r : Bool) =>
    { s with power := { s.power with rails := modAt s.power.rails d fun x => { x with excursion := e, rising := r } } }
  if 110 ≤ hot then
    let s := (dieClusters d).foldl (fun s c => endRise (modCluster s c fun x => { x with thermal := 15 }) (.cool c)) s
    let s := (dieGroups s d).foldl (fun s g => orderAll s g 0) (setRails s true false)
    if rail.excursion then s else writeEvent s 8 0x82 0 4 (BitVec.ofNat 64 hot) (s.power.mode.setWidth 64)
  else if rail.excursion && hot < 100 then setRails s false true
  else s

/-- One reading's rise of the recovering groups, by one base level each: a group rises once every excursion of its dies is over,
from the reading after that (R89). A die has recovered when its groups have. [DEDUCED, log 19] -/
def riseGroups (before : List Rail) (s : State) : State :=
  let calm := fun (d : Nat) => (before.getD d {}).rising || !dieHot s (8 * d)
  let s := (groupsOf s).foldl (fun s g =>
    let ds := (g.map (· / 8)).eraseDups
    if ds.all calm && ds.any (fun d => dieHot s (8 * d)) && leastGoal s g < recoverLevel s g then orderAll s g (leastGoal s g + 1)
    else s) s
  (List.range 4).foldl (fun s d =>
    let rail := s.power.rails.getD d {}
    if rail.rising && (before.getD d {}).rising && (dieGroups s d).all fun g => recoverLevel s g ≤ leastGoal s g then
      { s with power := { s.power with rails := modAt s.power.rails d fun r => { r with rising := false } } }
    else s) s

/-- THERMAL_READING: the readings of the 32 clusters, in °C. -/
def execThermalReading (readings : List Nat) (s : State) : Result State :=
  if partStopped s then .next s
  else if readings.any (125 ≤ ·) then .next (thermalShutdown s readings)
  else
    let s := (readings.take 32).zipIdx.foldl (fun s (p : Nat × Nat) => readCluster s p.2 p.1) s
    .next (settleLevels (riseGroups s.power.rails ((List.range 4).foldl (dieReading readings) s)))

/-! ## The cap (04 R79, R94) -/

/-- Apply a mode and cap that were written since the last boundary (R79, R80). -/
def applyMode (s : State) : State :=
  let p := s.power
  let capNew := p.capReg ≠ p.cap
  let modeNew := p.modeReg ≠ p.mode
  let lim := modeLevel p.modeReg.toNat
  let s := { s with power := { p with
      mode := p.modeReg, cap := p.capReg
      crews := p.crews.map fun c => { c with ceiling := min c.ceiling (modeCeiling p.modeReg.toNat) }
      clusters := p.clusters.map fun c => { c with set := min c.set lim } } }
  let s := if modeNew then
      settleLevels ((List.range 32).foldl (fun s c => orderLevel s c (min lim (goalLevel (getCluster s c)))) s)
    else s
  let info := BitVec.ofNat 64 (selectedCap p.modeReg.toNat p.capReg.toNat)
  let s := if capNew then writeEvent s 8 0x82 0 1 info (p.modeReg.setWidth 64) else s
  if modeNew then writeEvent s 8 0x82 0 2 info (p.modeReg.setWidth 64) else s

/-- A crew's budget as an exact number of W: numerator and denominator. -/
def capBudget (s : State) (target : Int) (c : Nat) : Int × Nat :=
  let enabled := (List.range 8).filter fun k => (getCrew s k).en
  let zeros := enabled.filter fun k => (getCrew s k).power = 0
  let shares := (enabled.map fun k => (getCrew s k).power.toNat).sum
  if (getCrew s c).power ≠ 0 then ((getCrew s c).power.toNat * target, 256)
  else ((256 - shares : Int) * target, 256 * max 1 zeros.length)

/-- One crew's step of the cap controller; a fall of its cap level is left to the rail budget. -/
def capCrew (mode : Nat) (budget : Int × Nat) (power : Nat) (c : CrewPower) : CrewPower × Bool :=
  let c := { c with budget := (budget.1 / budget.2).toNat, last := power, burnt := 0 }
  if budget.1 < power * budget.2 then
    if 0 < c.ceiling then ({ c with ceiling := c.ceiling - 1, lowRun := 0 }, false)
    else ({ c with level := if mode = 2 then c.level else min 15 (c.level + 1), lowRun := 0 }, false)
  else if 100 * (power * budget.2 : Int) < 85 * budget.1 then
    if 2 ≤ c.lowRun + 1 then
      if 0 < c.level then ({ c with lowRun := 0 }, true)
      else ({ c with ceiling := min (modeCeiling mode) (c.ceiling + 1), lowRun := 0 }, false)
    else ({ c with lowRun := c.lowRun + 1 }, false)
  else ({ c with lowRun := 0 }, false)

/-- One crew at a window boundary. A rise of its cap level cancels a fall that still waits for the rail budget.
[DESIGN CHOICE, log 37] -/
def capStep (mode : Nat) (target : Int) (powers : List Nat) (s : State) (k : Nat) : State :=
  if !(getCrew s k).en then s
  else
    let (c, fall) := capCrew mode (capBudget s target k) (powers.getD k 0) (s.power.crews.getD k {})
    let up := (s.power.crews.getD k {}).level < c.level
    let s := { s with power := { s.power with crews := setAt s.power.crews k c } }
    let s := if up then endRise s (.cap k) else s
    if !fall then s else if riseGranted s (.cap k) then uncapNow s k else waitRise s (.cap k)

/-- The cap controller sets the level of every group. Inside a thermal excursion and its recovery it lowers a group that stands
above the level set, and leaves the rise to the recovery. -/
def setGroups (s : State) (f : Nat → Nat) : State :=
  settleLevels ((groupsOf s).foldl (fun s g =>
    let hot := g.any (dieHot s)
    let l := f (if hot then leastSet s g else leastGoal s g)
    let s := setAll s g l
    if hot && leastGoal s g ≤ l then s else orderAll s g l) s)

/-- The groups' part of a window boundary (R94). After a raise the count of low windows starts again, so that the next needs two
more. [DESIGN CHOICE, log 37] -/
def capGroups (mode module : Nat) (target : Int) (s : State) : State :=
  let run := if 10 * (module : Int) < 9 * target then s.power.lowRun + 1 else 0
  let s := { s with power := { s.power with lowRun := if 2 ≤ run then 0 else run } }
  if mode = 2 then s
  else if target < (module : Int) then setGroups s fun l => l - 1
  else if 2 ≤ run then setGroups s fun l => max l (min (modeLevel mode) (l + 1))
  else s

/-- The average power of a crew's ballast over the window that ends, in W: its energy counts against the cap and the crew's
budget (R93). -/
def ballastPower (s : State) (c : Nat) : Nat := (s.power.crews.getD c {}).burnt / 1000000000000

/-- CAP_WINDOW (R94): the estimated power of the module and of each crew in the window that ended, in W, without ballast. -/
def execCapWindow (module : Nat) (crews : List Nat) (s : State) : Result State :=
  if partStopped s || now s / 1000000 ≤ s.power.window then .next s
  else
    let module := module + ((List.range 8).map (ballastPower s)).sum
    let crews := (List.range 8).map fun c => crews.getD c 0 + ballastPower s c
    let old := selectedCap s.power.mode.toNat s.power.cap.toNat
    let above := old < module
    let bump := if above && s.power.overs ≠ BitVec.allOnes 16 then s.power.overs + 1 else s.power.overs
    let run := if above then s.power.overRun + 1 else 0
    let s := { s with power := { s.power with window := now s / 1000000, lastAvg := module, overs := bump, overRun := run } }
    let s := if above && s.power.overRun % 4 = 0 then
        writeEvent s 8 0x82 0 3 (BitVec.ofNat 64 old) (s.power.mode.setWidth 64) else s
    let s := applyMode s
    let mode := s.power.mode.toNat
    let cap := selectedCap mode s.power.cap.toNat
    let target : Int := cap - (module - cap : Nat)
    let s := (List.range 8).foldl (capStep mode target crews) s
    let s := { s with power := { s.power with crews := s.power.crews.map fun c => { c with burnt := 0 } } }
    .next (capGroups mode module target s)

/-! ## The rail budget: start pacing and ballast (04 R90-R93) -/

/-- PACING_STEP: the rails have granted one step of a paced region; ballast falls by what the new work draws. -/
def execPacingStep (region : Nat) (s : State) : Result State :=
  match getRegion s region with
  | some x =>
    if x.pacing = 0 || !riseGranted s (.pace region) then .next s
    else
      let s := (List.range 4).foldl (fun s d => yieldBallast s d (riseCost s (.pace region) d)) s
      let s := setRegion s region { x with pacing := x.pacing - 1 }
      .next (if x.pacing = 1 then endRise s (.pace region) else repayRise s (.pace region))
  | none => .next s

/-- BALLAST_CUT (R93): ramps that remain after 2 us are removed at once while the module's running 1 ms average is over the
cap. [DEDUCED, log 19] -/
def execBallastCut (s : State) : Result State :=
  let old := s.power.ballast.filter fun b => b.began + 2000 ≤ now s
  if s.power.running ≤ selectedCap s.power.mode.toNat s.power.cap.toNat || old.isEmpty then .next s
  else
    let drop := fun (d : Nat) => ((old.filter fun b => b.die == d).map (·.ma)).sum
    .next { s with power := { s.power with
      ballast := s.power.ballast.filter fun b => now s < b.began + 2000
      cut := s.power.cut + BitVec.ofNat 32 old.length
      rails := s.power.rails.zipIdx.map fun (p : Rail × Nat) => { p.1 with est := p.1.est - drop p.2 } } }

/-- Each rail pays `ma` to the waiting rises, in order. -/
def payRises (s : State) (d : Nat) : Nat → List RiseWait → List RiseWait
  | _, [] => []
  | ma, w :: ws =>
    let due := min ma (riseCost s w.rise d - w.paid.getD d 0)
    { w with paid := modAt w.paid d (· + due) } :: payRises s d (ma - due) ws

/-- The energy of `tc` ticks of ballast is charged to the crews whose work stopped (R93). -/
def chargeBallast (s : State) (tc : Nat) : State :=
  { s with power := { s.power with crews := s.power.crews.zipIdx.map fun (p : CrewPower × Nat) =>
    { p.1 with burnt := p.1.burnt +
        ((s.power.ballast.filter fun b => b.crew == p.2).map fun b => b.ma * (s.power.rails.getD b.die {}).mv * tc).sum } } }

/-- The estimate of a rail after `n` more samples: it follows the activity, by at most 40 A in 1 us (R90). -/
def nextEstimate (est goal n : Nat) : Nat := max (est - 400 * n) (min goal (est + 400 * n))

/-- A granted fall of a thermal or cap level takes place. -/
def settleRise (s : State) (w : RiseWait) : State :=
  match w.rise with
  | .cool c => if riseGranted s w.rise then endRise (coolNow s c) w.rise else s
  | .cap c => if riseGranted s w.rise then endRise (uncapNow s c) w.rise else s
  | _ => s

/-- `tc` ticks pass at the rails, from time `t` on: estimates, ballast ramps, and the budget of 40 A/us that each rail grants
(R90-R92). [DEDUCED, log 19] -/
def passPower (t tc : Nat) (s : State) : State :=
  let s := chargeBallast s tc
  let n := (t + tc) / 10 - t / 10
  let sample := fun (p : Rail × Nat) =>
    if n = 0 then p.1 else { p.1 with est := nextEstimate p.1.est (Config.railCurrent p.2 ((t + tc) / 10)) n }
  let s := { s with power := { s.power with
      rails := s.power.rails.zipIdx.map sample
      running := if n = 0 then s.power.running else Config.averagePower ((t + tc) / 10)
      ballast := (List.range 4).foldl (fun l d => lowerRamps d (40 * tc) l) s.power.ballast
      waits := (List.range 4).foldl (fun l d => payRises s d (40 * tc) l) s.power.waits } }
  s.power.waits.foldl settleRise s

/-- PW_STAT (R78). -/
def pwStat (s : State) : Word :=
  BitVec.ofNat 64 (s.power.lastAvg % 2 ^ 16 * 2 ^ 48 + s.power.overs.toNat * 2 ^ 32 +
    (s.power.clusters.foldl (fun m c => max m c.temp) 0) % 256 * 2 ^ 24 +
    (s.power.clusters.foldl (fun m c => max m c.thermal) 0) % 256 * 2 ^ 16)

/-- PW_STAT_READ: the read clears the count of windows over the cap. -/
def execPwStatRead (s : State) : Result State :=
  if partStopped s then .next { s with hostRead := List.replicate 8 0 }
  else .next { s with hostRead := leBytes 8 (pwStat s).toNat, power := { s.power with overs := 0 } }

end Sys2Proof.Machine
end

