-- ==== Sys2Proof/Machine/Place.lean ====
section
/-! DEFINITION. Placement, start, resume and pre-emption (05 R104-R108; 06 R136-R144; 12 R303; 23 R510; 02 R55). -/
namespace Sys2Proof.Machine

/-! ## Whether a scene fits (06 R136) -/

/-- Stages a crew holds resident. -/
def residentStages (s : State) (crew : Nat) : Nat := (s.regions.map fun p => if p.2.crew = crew then p.2.w * p.2.h else 0).sum

/-- The scene a slate was placed as. -/
def slateScene (s : State) (x : Slate) : Option (Nat × Scene) :=
  match x.scene with
  | none => none
  | some k => (getScene s k).map fun y => (k, y)

/-- Stages that a candidate may use: no region holds them, unless a scene's stages are counted free, and no other candidate's
reservation does. -/
def openStage (s : State) (order : Nat) (freed : List Nat) (i : Nat) : Bool :=
  (match (getStage s i).region with | none => true | some _ => freed.contains i) &&
  !(s.sched.resv.any fun p => p.1 == i && p.2 ≠ order)

/-- The origins at which a candidate's members fit; `freed` are the stages of a scene counted free, `off` what its crew's
resident total loses with it. -/
def fitOrigins (s : State) (x : Slate) (n : Nat) (freed : List Nat) (off : Nat) : Option (List Nat) :=
  let w := slateW x.words
  let h := slateH x.words
  if quotaOf (getCrew s x.crew) < residentStages s x.crew - off + n * w * h then none
  else findOrigins w h n (freeMap s (slateDies x.words) (openStage s x.order freed))

/-! ## The chip map (06 R139) and the scene-circuit table (23 R510) -/

/-- Whether every chip of a map is this one or a chip of the mesh. -/
def chipsReachable (s : State) (m : ChipMap) : Bool :=
  m.chips.all fun c => c = 0 || c = s.chip.serial.toNat || s.links.routes.any (·.1 == c)

/-- A scene-circuit entry. -/
def circuitEntry (n : Nat) (w : Word) : Option SceneCircuit :=
  let c : SceneCircuit := { smem := wbits w 8 6, sport := wbits w 0 8, dmem := wbits w 24 6, dport := wbits w 16 8 }
  if wbits w 30 34 ≠ 0 || wbits w 14 2 ≠ 0 || n ≤ c.smem || n ≤ c.dmem then none else some c

/-- The entries of a table, if each is well formed. -/
def circuitEntries (n : Nat) : List Word → Option (List SceneCircuit)
  | [] => some []
  | w :: rest => match circuitEntry n w, circuitEntries n rest with
    | some c, some l => some (c :: l)
    | _, _ => none

/-- Whether no two entries name one port on one side. -/
def circuitsDistinct : List SceneCircuit → Bool
  | [] => true
  | c :: rest => !(rest.any fun d => (d.smem == c.smem && d.sport == c.sport) || (d.dmem == c.dmem && d.dport == c.dport)) &&
      circuitsDistinct rest

/-- The scene-circuit table that a frame block names. [DEDUCED, log 22] -/
def readCircuits (s : State) (crew : Nat) (frame : Word) (n : Nat) : Option (Except Nat (List SceneCircuit)) :=
  match vread s hostCache crew (frame + 128) 8 with
  | .error .wait => none
  | .error _ => some (.error 5)
  | .ok bs =>
    let d := wordOf bs
    let cnt := wbits d 48 12
    if wbits d 60 4 ≠ 0 || (cnt ≠ 0 && wbits d 0 3 ≠ 0) then some (.error 1)
    else if cnt = 0 then some (.ok [])
    else
      match vread s hostCache crew (BitVec.ofNat 64 (wbits d 0 48)) (8 * cnt) with
      | .error .wait => none
      | .error _ => some (.error 5)
      | .ok bs =>
        match circuitEntries n ((List.range cnt).map fun i => wordOf ((bs.drop (8 * i)).take 8)) with
        | none => some (.error 1)
        | some l => if circuitsDistinct l then some (.ok l) else some (.error 1)

/-! ## Contexts (05 R104) -/

/-- The lowest-numbered free context of a director. -/
def freeContext (s : State) (stage : Nat) : Option Nat :=
  ((List.range 4).map (4 * stage + ·)).find? fun c => (getCtx s c).state == .free

/-- The oldest parked context of a director. -/
def oldestParked (s : State) (stage : Nat) : Option Nat :=
  ((List.range 4).map (4 * stage + ·)).foldl (fun best c =>
    if (getCtx s c).state ≠ .parked then best
    else match best with
      | some b => if (getCtx s c).parkedAt < (getCtx s b).parkedAt then some c else best
      | none => some c) none

/-- Whether the context-save engine is saving a context. -/
def beingSaved (s : State) (c : Nat) : Bool :=
  s.eng.ops.any fun p => cueOpc p.2.words == 0x50 && imgIsCtx p.2 && imgCtx p.2 == c

/-- Have the context-save engine save a director's oldest parked context, unless it is doing so (R104). -/
def evictParked (s : State) (stage : Nat) : State :=
  match oldestParked s stage with
  | none => s
  | some c =>
    let x := getCtx s c
    match getMember s x.scene x.member with
    | none => s
    | some m =>
      if beingSaved s c then s
      else askImage s x.scene x.crew 0x50 stage (some (c % 4)) (imageVA m (m.w * m.h))

/-- The directors of these origins that have no free context. -/
def fullDirectors (s : State) (origins : List Nat) : List Nat :=
  (origins.map stageOfRaster).filter fun i => (freeContext s i).isNone

/-! ## Placing a new scene (06 R138) -/

/-- A serial that no scene has: 1 to 65,535. [DESIGN CHOICE, log 10] -/
def freshSerial (s : State) : Nat :=
  let start := s.eng.nextSerial
  match (List.range 65535).find? fun i => (getScene s ((start + i) % 65535 + 1)).isNone with
  | some i => (start + i) % 65535 + 1
  | none => 0

/-- The load of an opening reel: every context of the mapping is written and CTX is to start (06 R138). -/
def openingLoad (ws : List Word) : LoadReq :=
  { image := slateReel ws, map := BitVec.ofNat 2 (slateField ws 4 50 2), wmask := 0xF
    act := some (BitVec.ofNat 2 (slateField ws 4 48 2)), ctx := none }

/-- The reel ports that a launch record binds (02 R54). -/
def launchPorts (rec : List Word) : List (Nat × PortEnd) :=
  (List.range 12).foldl (fun l e =>
    let a := rec.getD (8 + 2 * e) 0
    let b := rec.getD (9 + 2 * e) 0
    if entryKind rec e = 0 then l
    else Sparse.insert l (entryPort rec e)
      { kind := entryKind rec e, addr := BitVec.ofNat 64 (wbits a 0 48), count := wbits b 32 32
        endcut := if entryKind rec e = 2 then wbits b 20 4 else 0 }) []

/-- The ports of a member as it is placed: those of a launch record, otherwise none. [DEDUCED, log 22] -/
def openingPorts (s : State) (x : Slate) : List (Nat × PortEnd) :=
  match x.launch with
  | some (c, slot) => launchPorts (getLaunch s c slot).taken
  | none => []

/-- Place one member: its rectangle, its region, its context. -/
def placeMember (s : State) (x : Slate) (serial n origin : Nat) : State :=
  let w := slateW x.words
  let h := slateH x.words
  let ctx := if x.launch.isSome then none else freeContext s (stageOfRaster origin)
  let s := placeStages s origin w h
  let reel := slateReel x.words ≠ 0
  let s := setRegion s origin
    { w, h, crew := x.crew, scene := serial, member := n, ctx
      load := if reel then some (openingLoad x.words) else none, phase := if reel then .loading else .idle }
  let s := match ctx with
    | some c => setCtx s c { state := .halted, scene := serial, member := n, crew := x.crew }
    | none => s
  let ports := openingPorts s x
  modMember s serial n fun m => { m with region := origin, w, h, ctx, ports, state := .placed }

/-- The chip port and circuit number of a scene circuit with one end on another chip (01 R31; the numbering is the model's
own). [DEDUCED, log 15] -/
def routeCircuit (s : State) (serial : Nat) (cm : ChipMap) (n : Nat) (q : SceneCircuit) : SceneCircuit :=
  let own := fun m => cm.chips.getD (cm.slots.getD m 0) 0 == s.chip.serial.toNat
  let far := fun m => portTowards s (cm.chips.getD (cm.slots.getD m 0) 0)
  let circ := (64 * serial + n) % 4096
  if own q.smem && !own q.dmem then { q with via := (far q.dmem).map fun p => (p, circ), outward := true }
  else if !own q.smem && own q.dmem then { q with via := (far q.smem).map fun p => (p, circ) }
  else q

/-- The circuits of a scene with their chip ports. -/
def routeCircuits (s : State) (serial : Nat) (cm : Option ChipMap) (cs : List SceneCircuit) : List SceneCircuit :=
  match cm with
  | some m => cs.zipIdx.map fun (p : SceneCircuit × Nat) => routeCircuit s serial m p.2 p.1
  | none => cs

/-! ## Through places (07 R155)

A scene circuit runs X first, then Y (01 R13), between the origin stages of its two members; one end of a circuit that goes to
another chip is stage 0 of its chip port's die. Each leg takes the first of the two tiles in a stage's breadth that has a place
free all the way. -/

/-- Where a scene's members on this chip lie: number, origin, width, height. -/
abbrev Spots := List (Nat × Nat × Nat × Nat)

/-- Members of one shape at these origins. -/
def spotsOf (w h : Nat) (members origins : List Nat) : Spots := (members.zip origins).map fun p => (p.1, p.2, w, h)

/-- The coordinates passed from one to another, the first left out. -/
def tileLine (a b : Nat) : List Nat :=
  if a ≤ b then (List.range (b - a)).map (a + 1 + ·) else (List.range (a - b)).map (a - 1 - ·)

/-- The router inputs that a token enters between two stages (raster numbers), going in this tile row of the first and this tile
column of the second: 4 * (64 * tile row + tile column) + 0 north, 1 east, 2 south, 3 west. -/
def routerPath (a b : Nat) (lane : Nat × Nat) : List Nat :=
  let (ax, ay, bx, last) := (2 * (a % 32), 2 * (a / 32) + lane.1, 2 * (b % 32) + lane.2, 2 * (b / 32))
  ((tileLine ax bx).map fun x => 4 * (64 * ay + x) + if ax < bx then 3 else 1) ++
  ((tileLine ay last).map fun y => 4 * (64 * y + bx) + if ay < last then 0 else 2)

/-- The raster number of the stage whose router a through place is in. -/
def hopStage (h : Nat) : Nat := 32 * (h / 4 / 64 / 2) + h / 4 % 64 / 2

/-- Whether a stage (raster number) lies in a member's rectangle. -/
def inSpot (p : Nat × Nat × Nat × Nat) (r : Nat) : Bool :=
  let (_, o, w, h) := p
  o % 32 ≤ r % 32 && r % 32 < o % 32 + w && o / 32 ≤ r / 32 && r / 32 < o / 32 + h

/-- The through places of a circuit on one pair of lanes: the routers outside the regions of both its ends. -/
def throughPath (spots : Spots) (q : SceneCircuit) (lane : Nat × Nat) : List Nat :=
  let spot := fun m => (spots.find? (·.1 == m)).map (·.2.1)
  let gate := q.via.map fun v => 32 * stageY (128 * (v.1 / 3)) + stageX (128 * (v.1 / 3))
  let near := if q.via.isSome && !q.outward then gate else spot q.smem
  let far := if q.via.isSome && q.outward then gate else spot q.dmem
  match near, far with
  | some a, some b => (routerPath a b lane).filter fun h =>
      !(spots.any fun p => (p.1 == q.smem || p.1 == q.dmem) && inSpot p (hopStage h))
  | _, _ => []

/-- Whether a path has a place free at every router: four for each link direction, and none in a fenced stage (03 R66). -/
def pathFree (s : State) (used path : List Nat) : Bool :=
  path.all fun h => !s.chip.fence.contains (stageOfRaster (hopStage h)) && used.count h < 4

/-- Whether the die gate that a circuit to or from another chip passes is open: stage 0 of its chip port's die is not fenced
(03 R66). -/
def gateOpen (s : State) (q : SceneCircuit) : Bool :=
  match q.via with
  | some v => !s.chip.fence.contains (128 * (v.1 / 3))
  | none => true

/-- The circuits with their through places, in the table's order, if all find them. -/
def layFrom (s : State) (spots : Spots) : List Nat → List SceneCircuit → Option (List SceneCircuit)
  | _, [] => some []
  | used, q :: rest =>
    match (([(0, 0), (0, 1), (1, 0), (1, 1)] : List (Nat × Nat)).map (throughPath spots q)).find? fun p => gateOpen s q && pathFree s used p with
    | none => none
    | some p => (layFrom s spots (p ++ used) rest).map fun l => { q with path := p } :: l

/-- The circuits of a scene that is to be placed with their through places; a scene that is to be held counts as gone. -/
def layCircuits (s : State) (gone : Option Nat) (spots : Spots) (cs : List SceneCircuit) : Option (List SceneCircuit) :=
  layFrom s spots ((s.scenes.filter fun p => some p.1 ≠ gone).flatMap fun p => p.2.circuits.flatMap (·.path)) cs

/-- Whether every chip-port circuit of a scene can be opened: its number is free at the port, and the port has not 512 open
circuits (01 R31), those of both directions together. [DEDUCED, log 15; DESIGN CHOICE, log 37] -/
def circuitsOpenable (s : State) (cs : List SceneCircuit) : Bool :=
  (List.range 12).all fun p =>
    let mine := (cs.filterMap (·.via)).filter fun v => v.1 == p
    let held := (getChipPort s p).circuits
    mine.isEmpty || (held.length + mine.length ≤ 512 && mine.all fun v => !(held.any fun c => c.circ == v.2))

/-- Whether the circuits of a scene that is to be placed can be opened at its chip ports and find through places. -/
def circuitsFit (s : State) (serial : Nat) (cm : Option ChipMap) (spots : Spots) (cs : List SceneCircuit) : Bool :=
  let cs := routeCircuits s serial cm cs
  circuitsOpenable s cs && (layCircuits s none spots cs).isSome

/-- Open the chip-port circuits of a scene. -/
def openCircuit (s : State) (q : SceneCircuit) : State :=
  match q.via with
  | some (p, circ) => modChipPort s p fun c => { c with circuits := c.circuits ++ [{ circ, alloc := 0, credit := 0 }] }
  | none => s

/-- Effective priority of a candidate (06 R137). -/
def effPrio (s : State) (x : Slate) : Nat :=
  if 6 ≤ x.prio then x.prio
  else match x.readyAt with
    | some t => min 6 (x.prio + (now s - t) / 2000000)
    | none => x.prio

/-- Mark a new scene's members as PLACED at these origins: `members` are their numbers. Members of other chips stand as
ended here. -/
def createScene (s : State) (x : Slate) (serial : Nat) (members origins : List Nat) (cm : Option ChipMap)
    (cs : List SceneCircuit) (home : Bool) (eff : Nat) : State :=
  let n := slateN x.words
  let w := slateW x.words
  let h := slateH x.words
  let cs := routeCircuits s serial cm cs
  let cs := (layCircuits s none (spotsOf w h members origins) cs).getD cs
  let k : Scene :=
    { crew := x.crew, prio := x.prio, order := x.order, sub := x.sub, words := x.words
      members := List.replicate n { region := 0x10000, w, h, state := .ended }
      eff, xchip := cm.isSome, home, chips := (cm.map (·.chips)).getD [], slots := (cm.map (·.slots)).getD []
      circuits := cs, launch := x.launch }
  let s := cs.foldl openCircuit (setScene { s with eng := { s.eng with nextSerial := serial } } serial k)
  (members.zip origins).foldl (fun s p => placeMember s x serial p.1 p.2) s

/-- Drop a slate's reservation; the stages that it kept are free for others (06 R137, R143). -/
def unreserve (s : State) (order : Nat) : State :=
  { s with sched := { s.sched with resv := s.sched.resv.filter (·.2 ≠ order), due := s.sched.due || s.sched.resv.any (·.2 == order) } }

/-- A slate has been placed: its reservation lapses, and a launch slot records where (02 R55). -/
def markPlaced (s : State) (x : Slate) (serial : Nat) (origins : List Nat) : State :=
  let s := modSlate s x.order fun y => { y with scene := some serial, notFitAt := none }
  let s := unreserve s x.order
  match x.launch, origins with
  | some (c, slot), o :: _ =>
    modLaunch s c slot fun l => { l with
      state := lLOADING, scene := some serial, die := BitVec.ofNat 4 (dieOf (stageOfRaster o)), origin := BitVec.ofNat 9 (stageOfRaster o % 128) }
  | _, _ => s

/-! ## Resume (12 R303, 05 R105) -/

/-- A stage of a region that has moved. -/
def movedStage (old new i : Nat) : Nat := stageAt (stageX i + new % 32 - old % 32) (stageY i + new / 32 - old / 32)

/-- Whether a held member's parked context serves its new region: it is still on that origin's director. -/
def keepsContext (m : Member) (origin : Nat) : Bool :=
  match m.ctx with
  | some c => c / 4 == stageOfRaster origin
  | none => false

/-- The origins whose directors must give a context at a resume. -/
def needContexts (k : Scene) (origins : List Nat) : List Nat :=
  if k.launch.isSome then []
  else ((liveMembers k).zip origins).filterMap fun p => if keepsContext p.1.2 p.2 then none else some p.2

/-- Whether a context of a held scene is being saved: the scene waits for the save (05 R104, R105). -/
def contextSaving (s : State) (k : Scene) : Bool :=
  (liveMembers k).any fun p => match p.2.ctx with | some c => beingSaved s c | none => false

/-- The directors that must give a context at a resume and have none free (05 R104). -/
def resumeFull (s : State) (k : Scene) (origins : List Nat) : List Nat := fullDirectors s (needContexts k origins)

/-- Place one held member again: its rectangle, its context, and the restores of its images. -/
def resumeMember (s : State) (x : Slate) (serial n origin : Nat) : State :=
  match getMember s serial n with
  | none => s
  | some m =>
    let s := placeStages s origin m.w m.h
    let next := if x.launch.isSome || keepsContext m origin then none else freeContext s (stageOfRaster origin)
    let s := setRegion s origin { w := m.w, h := m.h, crew := x.crew, scene := serial, member := n, ctx := next <|> m.ctx }
    let s := modMember s serial n fun m => { m with next, state := .placed, region := origin }
    let s := (rectStages origin m.w m.h).zipIdx.foldl (fun s (p : Nat × Nat) =>
      askImage s serial x.crew 0x51 p.1 none (imageVA m p.2)) s
    match next with
    | some c =>
      askImage (setCtx s c { state := .halted, scene := serial, member := n, crew := x.crew }) serial x.crew 0x51 (c / 4)
        (some (c % 4)) (imageVA m (m.w * m.h))
    | none => s

/-- Where a held scene's members would lie. -/
def heldSpots (k : Scene) (origins : List Nat) : Spots :=
  ((liveMembers k).zip origins).map fun p => (p.1.1, p.2, p.1.2.w, p.1.2.h)

/-- The origins at which a held scene's members fit, with through places for its circuits. -/
def heldOrigins (s : State) (x : Slate) (k : Scene) : Option (List Nat) :=
  (fitOrigins s x (liveMembers k).length [] 0).filter fun os => (layCircuits s none (heldSpots k os) k.circuits).isSome

/-- Place a held scene again. -/
def resumeScene (s : State) (x : Slate) (serial : Nat) (k : Scene) (origins : List Nat) (eff : Nat) : State :=
  let s := setScene s serial { k with
    isHeld := false, tick := none, told := false, eff, circuits := (layCircuits s none (heldSpots k origins) k.circuits).getD k.circuits }
  ((liveMembers k).zip origins).foldl (fun s p => resumeMember s x serial p.1.1 p.2) s

/-- A region as it was held, at its new place, with the contexts that have been loaded again: units may fire from the next fc; a paced
start begins again (04 R97); no take has ended since the resume (18 R464). -/
def movedRegion (y : Region) (old new : Nat) (ctx : Option Nat) (reloaded : List (Nat × RegCtx)) : Region :=
  { y with
    ctx
    holding := false, heldUnits := [], faults := [], pacing := if y.phase = .started then 15 else 0
    last := 0x36, lastOvf := false
    takeCtx := if y.takeCtx.isSome then ctx else none
    loaded := reloaded.foldl (fun l p => Sparse.insert l p.1 p.2) (y.loaded.map fun (p : Nat × RegCtx) =>
      (p.1, { p.2 with bindings := p.2.bindings.map fun b => { b with stage := movedStage old new b.stage } })) }

/-- A restored stage goes on: held slots and marked sources are free, and its cue table belongs to the member's context. -/
def wakeStage (ctx : Option Nat) (g : Stage) : Stage :=
  { g with
    units := g.units.map fun (p : Nat × UnitState) => (p.1, { p.2 with marked := false })
    rslots := g.rslots.map fun (p : Nat × SlotState) => (p.1, { p.2 with held := false, started := false })
    table := g.table.map fun e => { e with ctx := ctx.getD e.ctx } }

/-- Operations that stood through the hold follow their member. -/
def moveOps (s : State) (serial old new w h : Nat) (ctx : Option Nat) : State :=
  let f := fun (p : Nat × Op) =>
    if p.2.scene = serial && p.2.remote.isNone && (rectStages old w h).contains p.2.stage then
      (p.1, { p.2 with stage := movedStage old new p.2.stage, ctx := if p.2.ctx.isSome then ctx else none })
    else p
  { s with eng := { s.eng with ops := s.eng.ops.map f } }

/-- A member's region as it was held. -/
def heldRegion (s : State) (serial n : Nat) : Option Region := Sparse.find? s.heldRegions (64 * serial + n)

/-- One member goes on after its restores. -/
def wakeMember (s : State) (serial n : Nat) (m : Member) : State :=
  match heldRegion s serial n with
  | none => s
  | some y =>
    let ctx := m.next <|> m.ctx
    let reloaded := match getRegion s m.region with | some x => x.loaded | none => []
    let s := setRegion s m.region (movedRegion y m.was m.region ctx reloaded)
    let s := if y.phase = .started then startPacing s m.region else s
    let s := moveOps { s with heldRegions := Sparse.erase s.heldRegions (64 * serial + n) } serial m.was m.region m.w m.h ctx
    let s := (rectStages m.region m.w m.h).foldl (fun s i => modStage s i (wakeStage ctx)) s
    let s := modMember s serial n fun q => { q with
      state := .running, next := none, ctx, ports := q.ports.map fun (p : Nat × PortEnd) => (p.1, { p.2 with marked := false }) }
    match ctx with
    | some c => resumeCtx s c
    | none => s

end Sys2Proof.Machine
end

