-- ==== Sys2Proof/Machine/Sched.lean ====
section
/-! DEFINITION. The scheduling pass, pre-emption, the start tick, and scenes across chips (05 R106, R108; 06 R137-R144;
12 R303; 02 R47). -/
namespace Sys2Proof.Machine

/-! ## Offering a candidate (06 R137, R138) -/

/-- What a candidate's turn comes to. -/
inductive Offer where
  | placed
  /-- it is not offered, or it waits although it fits -/
  | waits
  /-- it fits, and is refused as it is placed -/
  | refused
  | noFit
  deriving DecidableEq, Repr

/-- Whether a reply is awaited for a slate. -/
def awaiting (s : State) (order : Nat) : Bool := s.sched.xreqs.any (·.order == order)

/-- The other chips of a chip map. -/
def mapPeers (s : State) (cm : ChipMap) : List Nat :=
  ((cm.slots.map fun j => cm.chips.getD j 0).filter fun c => c ≠ 0 && c ≠ s.chip.serial.toNat).eraseDups

/-- Send a placement request: the scene's name and its effective priority, then the slate two words to a packet. -/
def sendRequest (s : State) (key : Nat) (x : Slate) (chips : List Nat) (eff dest : Nat) : State :=
  let s := placePacket s x.crew chips dest 0 4 (placePayload s key pREQUEST eff)
  (List.range 4).foldl (fun s i => placePacket s x.crew chips dest (i + 1) 4
    (BitVec.ofNat 128 ((x.words.getD (2 * i) 0).toNat + (x.words.getD (2 * i + 1) 0).toNat * 2 ^ 64))) s

/-- Ask the peers of a cross-chip scene, and await their replies for 200 us (06 R140). -/
def askPeers (s : State) (key : Nat) (x : Slate) (chips peers : List Nat) (eff : Nat) : State :=
  let s := peers.foldl (sendRequest · key x chips eff ·) s
  { s with sched := { s.sched with xreqs := s.sched.xreqs ++
      [{ serial := key, crew := x.crew, prio := x.prio, order := x.order, waiting := peers, deadline := now s + 200000 }] } }

/-- When every peer of a scene has replied FIT, or it has none, its start tick is 20 us ahead (06 R140). -/
def commitScene (s : State) (key : Nat) : State :=
  let t := now s + 20000
  match getScene s key with
  | some k => tellChips (setScene s key { k with tick := some t }) key k pCOMMIT t
  | none => s

/-- Save the oldest parked context of each of these directors (05 R104). -/
def evictAll (s : State) (stages : List Nat) : State := stages.foldl evictParked s

/-- The state an event leaves, or the state before it. -/
def runOr (s : State) (r : Result State) : State := match r with | .next t => t | _ => s

/-- Whether a placed member may start: its opening reel has loaded, unless its region has frozen. -/
def memberReady (s : State) (m : Member) : Bool :=
  match getRegion s m.region with
  | some x => m.state == .placed && (x.frozen.isSome || x.load.isNone || x.phase == .waved)
  | none => false

/-- Whether every member on this chip stands PLACED with its opening reel loaded (06 R138). -/
def allPlaced (s : State) (k : Scene) : Bool := (liveMembers k).all fun p => memberReady s p.2

/-- Whether the members of a held scene are restored: their images, and the reels and mappings of their regions (12 R303). -/
def restored (s : State) (key : Nat) (k : Scene) : Bool :=
  !savePending s key && (liveMembers k).all fun p => match getRegion s p.2.region with | some x => x.load.isNone | none => true

/-- Whether a scene stands on this chip: its members are PLACED, with their opening reels loaded (06 R138), or restored where it was
held (05 R109). -/
def scenePlaced (s : State) (key : Nat) (k : Scene) : Bool :=
  if k.started then (liveMembers k).all (·.2.state == .placed) && restored s key k else allPlaced s k

/-- Place a candidate that has not been placed, once its checks have passed. The peers of a cross-chip one are asked when its own
members are PLACED. -/
def placeNew (s : State) (x : Slate) (members origins : List Nat) (cm : Option ChipMap) : State × Offer :=
  let circuits := if x.launch.isSome then some (.ok []) else readCircuits s x.crew (BitVec.ofNat 64 (slateField x.words 1 0 48)) (slateN x.words)
  match circuits with
  | none => (s, .waits)
  | some (.error cause) => (refuseSlate s x cause, .refused)
  | some (.ok cs) =>
    let full := if x.launch.isSome then [] else fullDirectors s origins
    let key := freshSerial s
    if full ≠ [] then (evictAll s full, .waits)
    else if !circuitsFit s key cm (spotsOf (slateW x.words) (slateH x.words) members origins) cs then (s, .noFit)
    else
      let s := settleLevels (markPlaced (createScene s x key members origins cm cs true (effPrio s x)) x key origins)
      (match cm with | some m => modScene s key fun k => { k with away := mapPeers s m } | none => s, .placed)

/-- Offer a candidate that has not been placed. -/
def offerNew (s : State) (x : Slate) : State × Offer :=
  if slateXchip x.words then
    if s.links.outOfStep || now s < x.xnext || awaiting s x.order then (s, .waits)
    else
      match readChipMap s x.crew (BitVec.ofNat 64 (slateField x.words 1 0 48)) (slateN x.words) with
      | none => (s, .waits)
      | some (.error cause) => (refuseSlate s x cause, .refused)
      | some (.ok cm) =>
        if cm.chips.getD 0 0 ≠ s.chip.serial.toNat || !chipsReachable s cm then (refuseSlate s x 7, .refused)
        else if (mapPeers s cm).any s.links.peersOut.contains then (s, .waits)
        else
          let own := ownMembers s cm
          match fitOrigins s x own.length [] 0 with
          | none => (s, .noFit)
          | some os => placeNew s x own os (some cm)
  else
    match fitOrigins s x (slateN x.words) [] 0 with
    | none => (s, .noFit)
    | some os => placeNew s x (List.range (slateN x.words)) os none

/-- Reserve stages for a slate (06 R140, R143). -/
def reserve (s : State) (order : Nat) (stages : List Nat) : State :=
  { s with sched := { s.sched with resv := s.sched.resv ++ stages.map fun i => (i, order) } }

/-- Place a held scene again at these origins, its reservation over; a launch slot records where (02 R55). -/
def resumeAt (s : State) (x : Slate) (key : Nat) (k : Scene) (origins : List Nat) (eff : Nat) : State :=
  let s := settleLevels (resumeScene (unreserve s x.order) x key k origins eff)
  match x.launch, origins with
  | some (c, slot), o :: _ =>
    modLaunch s c slot fun l => { l with
      state := lLOADING, die := BitVec.ofNat 4 (dieOf (stageOfRaster o)), origin := BitVec.ofNat 9 (stageOfRaster o % 128) }
  | _, _ => s

/-- Offer a held scene (06 R144). One whose parked context is being saved waits for the save, and so does one that needs a context of
a full director (05 R104, R105). The peers of a cross-chip one are asked when its own members have been restored.
[DEDUCED, log 17] -/
def offerHeld (s : State) (x : Slate) (key : Nat) (k : Scene) : State × Offer :=
  let peers := otherChips s k
  if k.xchip && (s.links.outOfStep || peers.any s.links.peersOut.contains || now s < x.xnext || awaiting s x.order) then (s, .waits)
  else if contextSaving s k then (s, .waits)
  else
    match heldOrigins s x k with
    | none => (s, .noFit)
    | some os =>
      if resumeFull s k os ≠ [] then (evictAll s (resumeFull s k os), .waits)
      else (resumeAt s x key k os (effPrio s x), .placed)

/-- Offer a candidate. -/
def offer (s : State) (x : Slate) : State × Offer :=
  match slateScene s x with
  | some (key, k) => offerHeld s x key k
  | none => offerNew s x

/-! ## Pre-emption (06 R142, R143) -/

/-- When a candidate's effective priority first exceeded a level; none while it cannot. -/
def aboveSince (x : Slate) (eff : Nat) : Option Nat :=
  match x.readyAt with
  | none => none
  | some t =>
    if eff < x.prio then some t
    else if 6 ≤ x.prio || 6 < eff + 1 then none
    else some (t + (eff + 1 - x.prio) * 2000000)

/-- The stages a scene holds. -/
def sceneStages (s : State) (k : Scene) : List Nat :=
  (liveMembers k).flatMap fun p => match getRegion s p.2.region with | some x => regionStages p.2.region x | none => []

/-- The chip map of a candidate that has not been placed. -/
def slateMap (s : State) (x : Slate) : Option ChipMap :=
  if slateXchip x.words then
    match readChipMap s x.crew (BitVec.ofNat 64 (slateField x.words 1 0 48)) (slateN x.words) with
    | some (.ok cm) => some cm
    | _ => none
  else none

/-- Members that a candidate places on this chip. -/
def needMembers (s : State) (x : Slate) : List Nat :=
  match slateScene s x, slateMap s x with
  | some (_, k), _ => (liveMembers k).map (·.1)
  | none, some cm => ownMembers s cm
  | none, none => List.range (slateN x.words)

/-- The scene circuits of a candidate. -/
def needCircuits (s : State) (x : Slate) : List SceneCircuit :=
  match slateScene s x with
  | some (_, k) => k.circuits
  | none =>
    match if x.launch.isSome then none else
        readCircuits s x.crew (BitVec.ofNat 64 (slateField x.words 1 0 48)) (slateN x.words) with
    | some (.ok cs) => routeCircuits s 0 (slateMap s x) cs
    | _ => []

/-- The state without the reservations of stages: those that another candidate of the same pass has just made (06 R146). -/
def openTaken (s : State) (key : Nat) (freed : List Nat) : State :=
  if s.sched.taken.contains key then
    { s with sched := { s.sched with resv := s.sched.resv.filter fun p => !freed.contains p.1 } }
  else s

/-- Whether a candidate would fit with a running scene held: on its stages, and with its through places (06 R136, R142). -/
def fitsWithout (s : State) (x : Slate) (key : Nat) (v : Scene) : Bool :=
  let freed := sceneStages s v
  let s := openTaken s key freed
  let ms := needMembers s x
  (fitOrigins s x ms.length freed (if v.crew = x.crew then freed.length else 0)).any fun os =>
    (layCircuits s (some key) (spotsOf (slateW x.words) (slateH x.words) ms os) (needCircuits s x)).isSome

/-- Whether a running scene is a victim of a candidate that does not fit; one that another candidate of the same pass has
chosen still counts, so that this one seeks another only in a later pass (R146). A scene that has a frozen member (12 R312), or whose
save would not fit its crew's pool (11 R287), cannot be held. [DEDUCED, log 18] -/
def isVictim (s : State) (x : Slate) (key : Nat) (v : Scene) : Bool :=
  match x.notFitAt, aboveSince x v.eff with
  | some nf, some ab =>
    v.started && !allEnded v && (!v.wanted || s.sched.taken.contains key) && !v.holding && !v.saving && !v.isHeld && v.eff < effPrio s x &&
    (liveMembers v).all (fun p => p.2.state == .running) &&
    max (max nf ab) v.lastStart + max 1 (getCrew s v.crew).quantum.toNat * 10000 ≤ now s &&
    (holdAreas s v).isSome && fitsWithout s x key v
  | _, _ => false

/-- Whether victim `a` is chosen before `b`. -/
def victimBefore (a b : Scene) : Bool :=
  a.eff < b.eff || (a.eff == b.eff && (b.lastStart < a.lastStart || (a.lastStart == b.lastStart && a.crew < b.crew)))

/-- The victim of a candidate. [DEDUCED, log 18] -/
def chooseVictim (s : State) (x : Slate) : Option (Nat × Scene) :=
  (s.scenes.filter fun p => isVictim s x p.1 p.2).foldl (fun best p =>
    match best with
    | none => some p
    | some b => if victimBefore p.2 b.2 then some p else best) none

/-- Pre-empt: the victim's stages are reserved, and every member on every chip is to be held. -/
def preempt (s : State) (x : Slate) : State :=
  if s.sched.resv.any (·.2 == x.order) then s
  else
    match chooseVictim s x with
    | none => s
    | some (key, v) =>
      if s.sched.taken.contains key then s
      else match askHold (reserve s x.order (sceneStages s v)) key with
      | some s => { s with sched := { s.sched with taken := key :: s.sched.taken } }
      | none => s

/-! ## The pass (06 R137) -/

/-- Whether a queued slate may be a candidate: a ready slate, or a held scene. -/
def isCandidate (s : State) (x : Slate) : Bool :=
  (getCrew s x.crew).en && x.ringPos.isNone &&
  match slateScene s x with
  | some (_, k) => k.isHeld
  | none => x.scene.isNone && slateReady x

/-- Each queue's candidate: the earliest submitted. -/
def candidates (s : State) : List Slate :=
  (List.range 64).filterMap fun q => s.sched.slates.find? fun x => 8 * x.crew + x.prio == q && isCandidate s x

/-- The crew that is served next, among those that have a candidate. [DESIGN CHOICE, log 7; DEDUCED, log 18] -/
def nextCrew (s : State) (cs : List Nat) : Nat × State :=
  let credit := fun (s : State) (c : Nat) => s.sched.credit.getD c 0
  let f := fun (p : Nat × Nat) => if (getCrew s p.2).en then max 1 (getCrew s p.2).weight.toNat else p.1
  let s := if cs.all fun c => credit s c = 0 then
      { s with sched := { s.sched with credit := s.sched.credit.zipIdx.map f } } else s
  let order := (List.range 8).map fun i => (s.sched.last + 1 + i) % 8
  match order.find? fun c => cs.contains c && credit s c ≠ 0 with
  | some c => (c, { s with sched := { s.sched with last := c } })
  | none => (cs.headD 0, s)

/-- A crew's untried candidate of the level with the highest PRIO, then the lowest place in the submission order.
[DEDUCED, log 18] -/
def pickSlate (cs : List Slate) (crew : Nat) : Option Slate :=
  cs.foldl (fun best x =>
    if x.crew ≠ crew then best
    else match best with
      | none => some x
      | some b => if b.prio < x.prio || (b.prio == x.prio && x.order < b.order) then some x else best) none

/-- Offer a candidate, and seek a victim if it does not fit. One that fits costs its crew a credit (R137). -/
def serve (s : State) (order : Nat) : State :=
  match findSlate s order with
  | none => s
  | some x =>
    let spend := fun (s : State) => { s with sched := { s.sched with credit := modAt s.sched.credit x.crew fun n => n - 1 } }
    match offer s x with
    | (s, .placed) => spend s
    | (s, .refused) => spend s
    | (s, .waits) => modSlate s order fun y => { y with notFitAt := none }
    | (s, .noFit) =>
      let s := modSlate s order fun y => if y.notFitAt.isNone then { y with notFitAt := some (now s) } else y
      match findSlate s order with
      | some y => preempt s y
      | none => s

/-- Offer the candidates of one level. -/
def serveLevel : Nat → List Slate → State → State
  | 0, _, s => s
  | fuel + 1, cs, s =>
    if cs = [] then s
    else
      let (c, s) := nextCrew s ((cs.map (·.crew)).eraseDups)
      match pickSlate cs c with
      | none => s
      | some x => serveLevel fuel (cs.filter (·.order ≠ x.order)) (serve s x.order)

/-- One pass. [DEDUCED, log 18] -/
def runPass (s : State) : State :=
  let s := noteReady s
  let s := { s with sched := { s.sched with due := false, lastPass := now s, taken := [] } }
  let cs := candidates s
  let s := [7, 6, 5, 4, 3, 2, 1, 0].foldl (fun s lvl => serveLevel 64 (cs.filter fun x => effPrio s x == lvl) s) s
  settleLevels s

/-- SCHEDULING_PASS: after an event of R137, and every 100 us. [DESIGN CHOICE, log 13] -/
def execSchedulingPass (s : State) : Result State :=
  if !s.chip.ready || partStopped s || (!s.sched.due && now s < s.sched.lastPass + 100000) then .next s
  else .next (runPass s)

/-! ## The start tick (05 R106, R108; 12 R303) -/

/-- `g4` at entry. -/
def entryG4 (m : Member) : Word := BitVec.ofNat 64 (originField m.region + (m.w - 1) * 2 ^ 13 + (m.h - 1) * 2 ^ 18)

/-- A member's context at its entry; `entry` names what it finds in private memory (08 R200). [DESIGN CHOICE, log 8] -/
def entryCtx (k : Scene) (key n : Nat) (m : Member) (reel : Bool) (entry : Nat) : Ctx :=
  let x : Ctx :=
    { state := .running, scene := key, member := n, crew := k.crew, entry, pc := BitVec.ofNat 64 (slateField k.words 0 0 48)
      tiles := if reel then 1 else 0 }
  let x := writeG (writeG x 1 (BitVec.ofNat 64 (slateField k.words 1 0 48))) 2 (BitVec.ofNat 64 n)
  writeG (writeG (writeG x 3 (BitVec.ofNat 64 k.members.length)) 4 (entryG4 m)) 30 0x8000

/-- Start one member: its context at the entry state, its opening reel's take in progress. -/
def startMember (s : State) (key : Nat) (k : Scene) (n : Nat) (m : Member) : State :=
  match getRegion s m.region with
  | none => s
  | some x =>
    let reel := x.load.isSome && x.phase == .waved
    let s := match m.ctx with
      | some c =>
        { setCtx s c { (entryCtx k key n m reel (s.freeCtr + 1)) with pend := (getCtx s c).pend } with freeCtr := s.freeCtr + 1 }
      | none => s
    let s := modMember s key n fun m => { m with state := .running }
    match x.load with
    | some l =>
      if reel then
        let s := startTake s m.region x { l with ctx := none }
        modRegion s m.region fun y => { y with takeCtx := m.ctx }
      else s
    | none => s

/-- Whether the start tick of a scene has come: on one chip, once every member is PLACED; across chips, at the agreed tick. -/
def tickCome (s : State) (k : Scene) : Bool := !k.xchip || (match k.tick with | some t => t ≤ now s | none => false)

/-- Every member of a held scene goes on at once (05 R109). -/
def wakeScene (s : State) (key : Nat) (k : Scene) : State :=
  let s := (liveMembers k).foldl (fun s p => wakeMember s key p.1 p.2) s
  let s := modScene s key fun k => { k with
    areas := [], lastStart := now s, circuits := k.circuits.map fun q => { q with marked := false } }
  match k.launch with
  | some (c, slot) => modLaunch s c slot fun l => { l with state := lRUNNING }
  | none => s

/-- Whether the clusters of a member's region run at one level: a load waits for it, and so does a resume (04 R85). -/
def memberLevels (s : State) (m : Member) : Bool :=
  match getRegion s m.region with
  | some x => levelsAgree s m.region x
  | none => true

/-- The members of a scene that was placed again are held as before; its save areas stand (06 R140). -/
def returnHeld (s : State) (key : Nat) (k : Scene) : State :=
  if !(liveMembers k).any (·.2.state == .placed) then s
  else
    let s := { s with eng := { s.eng with ops := s.eng.ops.filter fun p => !(p.2.scene == key && cueClass p.2.words == 5) } }
    let s := (liveMembers k).foldl (fun s (p : Nat × Member) =>
      if p.2.state ≠ .placed then s
      else
        let s := freeRegion s p.2.region
        let s := match p.2.next with | some c => freeCtx s c | none => s
        modMember s key p.1 fun m => { m with
          state := .held, region := 0x10000 + m.was, next := none, ctx := if m.ctx = m.next then none else m.ctx }) s
    modScene s key fun k => { k with
      isHeld := true, told := false, circuits := k.circuits.map fun q => { q with path := [] } }

/-- What was reserved for a cross-chip scene is free (06 R140). -/
def freePlacement (s : State) (key : Nat) : State :=
  match getScene s key with
  | none => s
  | some k => if k.started then returnHeld s key k else dropScene s key

/-- A cross-chip scene stands on this chip: its home chip asks the peers, or commits where it has none; a peer answers FIT, or lets
go what it placed when its home chip cannot be reached (06 R140). [DEDUCED, log 17] -/
def announceScene (s : State) (key : Nat) (k : Scene) : State :=
  let s := modScene s key fun k => { k with told := true }
  let home := (sceneName s key).1
  if k.home then
    match findSlate s k.order with
    | some x => if otherChips s k = [] then commitScene s key else askPeers s key x k.chips (otherChips s k) k.eff
    | none => s
  else if (portTowards s home).isNone then freePlacement s key
  else sendPlace s key k.crew k.chips home pFIT s.chip.serial.toNat

/-- Whether a cross-chip scene that is being placed has yet to be announced. -/
def untold (k : Scene) : Bool := k.xchip && k.tick.isNone && !k.told && !k.isHeld

/-- START_TICK: at the scene's tick every member starts in the entry state; a held scene resumes once its restores are made. Until
then a cross-chip scene that stands on this chip is announced. -/
def execStartTick (serial : Nat) (s : State) : Result State :=
  match getScene s serial with
  | none => .next s
  | some k =>
    let live := liveMembers k
    if !live.all (fun p => p.2.state == .placed) || (live.isEmpty && (!k.xchip || k.started)) then .next s
    else if untold k then
      .next (if scenePlaced s serial k && live.all (fun p => memberLevels s p.2) then announceScene s serial k else s)
    else if !tickCome s k then .next s
    else if k.started then (if !restored s serial k || !live.all (fun p => memberLevels s p.2) then .next s else .next (wakeScene s serial k))
    else if !live.all (fun p => memberReady s p.2) then .next s
    else
      let s := modScene s serial fun k => { k with started := true, lastStart := now s, tick := some (now s) }
      .next (live.foldl (fun s p => startMember s serial k p.1 p.2) s)

/-! ## Scenes across chips (06 R140, R141; 02 R47) -/

/-- Forget the placement request of a scene. -/
def dropReq (s : State) (key : Nat) : State :=
  { s with sched := { s.sched with xreqs := s.sched.xreqs.filter (·.serial ≠ key) } }

/-- A cross-chip placement fails: CANCEL goes to every peer, what was reserved is free, and the candidate is not offered to
peers for 100 us. -/
def cancelPlacement (s : State) (key : Nat) : State :=
  match getScene s key with
  | none => dropReq s key
  | some k =>
    let s := freePlacement (tellChips (dropReq s key) key k pCANCEL 0) key
    modSlate s k.order fun x => { x with scene := if k.started then x.scene else none, xnext := now s + 100000 }

/-- Every peer has replied FIT: the scene commits. -/
def allFit (s : State) (key : Nat) : State :=
  match getScene s key with
  | none => dropReq s key
  | some k => if scenePlaced s key k then commitScene (dropReq s key) key else cancelPlacement s key

/-- PLACEMENT_REPLY (R140): `peer` is the replying chip's serial. A reply after 200 us comes too late. -/
def execPlacementReply (serial : Nat) (peer : Nat) (reply : PlaceReply) (s : State) : Result State :=
  match s.sched.xreqs.find? (·.serial == serial) with
  | none => .next s
  | some q =>
    if !q.waiting.contains peer then .next s
    else if q.deadline < now s then .next (cancelPlacement s serial)
    else
      match reply with
      | .fit =>
        let rest := q.waiting.erase peer
        let f := fun (y : XReq) => if y.serial = serial then { y with waiting := rest } else y
        let s := { s with sched := { s.sched with xreqs := s.sched.xreqs.map f } }
        .next (if rest = [] then allFit s serial else s)
      | .nofit => .next (cancelPlacement s serial)
      | .badpeer =>
        let s := cancelPlacement s serial
        .next (match findSlate s q.order with
          | some x =>
            let s := match slateScene s x with | some (key, _) => dropScene s key | none => s
            refuseSlate s x 7
          | none => s)

/-- PLACEMENT_TIMEOUT (R140): 200 us have passed without every reply. -/
def execPlacementTimeout (serial : Nat) (s : State) : Result State :=
  match s.sched.xreqs.find? (·.serial == serial) with
  | none => .next s
  | some q => .next (if q.deadline ≤ now s then cancelPlacement s serial else s)

/-- The slate that a request describes, as a peer's scheduler sees it: its reservations stand under a number of their own. -/
def requestSlate (req : PlaceRequest) : Slate :=
  { words := req.words, sub := 0, crew := req.crew, prio := slateField req.words 4 61 3, joincnt := 0, order := 2 ^ 64 + req.serial
    entered := true }

/-- A peer places its members of a new scene; it answers FIT when they are PLACED, their opening reels loaded.
[DEDUCED, log 17] -/
def placePeer (s : State) (req : PlaceRequest) (cm : ChipMap) : State × Option Nat :=
  let x := requestSlate req
  let members := req.members.filter (· < slateN req.words)
  match fitOrigins s x members.length [] 0 with
  | none => (s, some pNOFIT)
  | some os =>
    match readCircuits s req.crew (BitVec.ofNat 64 (slateField req.words 1 0 48)) (slateN req.words) with
    | some (.ok cs) =>
      if fullDirectors s os ≠ [] then (evictAll s (fullDirectors s os), some pNOFIT)
      else if !circuitsFit s req.serial (some cm) (spotsOf (slateW x.words) (slateH x.words) members os) cs then (s, some pNOFIT)
      else (settleLevels (createScene s x req.serial members os (some cm) cs false req.eff), none)
    | _ => (s, some pNOFIT)

/-- A peer places its members of a held scene again, under the same conditions as the home chip (05 R104, R105); it answers FIT
when they have been restored. [DEDUCED, log 17] -/
def reservePeer (s : State) (req : PlaceRequest) (k : Scene) : State × Option Nat :=
  let x := requestSlate req
  if !k.isHeld || contextSaving s k then (s, some pNOFIT)
  else
    match heldOrigins s x k with
    | none => (s, some pNOFIT)
    | some os =>
      if resumeFull s k os ≠ [] then (evictAll s (resumeFull s k os), some pNOFIT)
      else (resumeAt s x req.serial k os req.eff, none)

/-- What a peer answers to a request at once, if it does; one out of step places no cross-chip scene (01 R38).
[DEDUCED, log 17] -/
def answerRequest (s : State) (req : PlaceRequest) : State × Option Nat × List Nat :=
  let bad := (s, some pBADPEER, [])
  if 8 ≤ req.crew || !(getCrew s req.crew).en then bad
  else if s.links.outOfStep then (s, some pNOFIT, [])
  else
    match readChipMap s req.crew (BitVec.ofNat 64 (slateField req.words 1 0 48)) (slateN req.words) with
    | none => (s, some pNOFIT, [])
    | some (.error _) => bad
    | some (.ok cm) =>
      let r := match getScene s req.serial with
        | some k => reservePeer s req k
        | none => placePeer s req cm
      (r.1, r.2, cm.chips)

/-- PLACEMENT_REQUEST (R140): a request of another chip; the scene's key names its home chip. -/
def execPlacementRequest (req : PlaceRequest) (s : State) : Result State :=
  if req.serial < 65536 then .next s
  else
    match answerRequest s req with
    | (s, some op, chips) => .next (sendPlace s req.serial req.crew chips (sceneName s req.serial).1 op s.chip.serial.toNat)
    | (s, none, _) => .next s

/-- Freeze every member of a scene on this chip; each is reported as faulted. -/
def freezeMembers (s : State) (key : Nat) (k : Scene) (cause : BitVec 16) : State :=
  (liveMembers k).foldl (fun s p =>
    if (getRegion s p.2.region).isNone then faultHeld s key p.1 k p.2 cause 0
    else reportRegion (freezeRegion s p.2.region cause [] 0 false) p.2.region) s

/-- PLACEMENT_COMMIT (R141): the start tick is known; at or past it the members are frozen with LINKFAIL, and the other chips
are told. [DEDUCED, log 17] -/
def execPlacementCommit (serial : Nat) (tick : BitVec 64) (s : State) : Result State :=
  match getScene s serial with
  | none => .next s
  | some k =>
    if k.home || !k.xchip || k.tick.isSome then .next s
    else if tick.toNat ≤ now s then
      .next (tellChips (freezeMembers s serial k fLINKFAIL) serial k pFREEZE fLINKFAIL.toNat)
    else .next (modScene s serial fun k => { k with tick := some tick.toNat })

/-- PLACEMENT_CANCEL (R140): what was reserved is free. -/
def execPlacementCancel (serial : Nat) (s : State) : Result State :=
  match getScene s serial with
  | none => .next s
  | some k =>
    .next (if k.home || !k.xchip || k.tick.isSome then s else freePlacement s serial)

/-- PEER_TEARDOWN (02 R47): the members on this chip are frozen with PEERLOST, and each is reported. A scene that is not committed is
let go instead, and the home chip sends CANCEL (06 R146). -/
def execPeerTeardown (serial : Nat) (s : State) : Result State :=
  match getScene s serial with
  | none => .next s
  | some k =>
    if !k.xchip then .next s
    else if !k.started && k.tick.isNone then .next (if k.home then cancelPlacement s serial else dropScene s serial)
    else
      let s := if k.home && k.tick.isNone then tellChips (dropReq s serial) serial k pCANCEL 0 else dropReq s serial
      .next (freezeMembers s serial k fPEERLOST)

end Sys2Proof.Machine
end

