-- ==== Sys2Proof/Machine/Registers.lean ====
section
/-! DEFINITION. What the host reads at each register of BAR0 (02 R42-R60; 01 R40; 03 R72-R75; 04 R78; 06 R132; 12 R308, R311). -/
namespace Sys2Proof.Machine

/-- Pack fields: (lowest bit, value), each below its width. -/
def packFields (fs : List (Nat × Nat)) : Word := BitVec.ofNat 64 ((fs.map fun f => f.2 * 2 ^ f.1).sum)

/-- DEV_ID (R44). -/
def devId (s : State) : Word := packFields [(32, s.chip.serial.toNat), (16, 0x2048), (8, s.chip.revision.toNat)]

/-- DEV_STATUS (R44; 03 R62, R64; 04 R89). -/
def devStatus (s : State) : Word :=
  let code := (s.chip.halt.getD s.chip.stepCode).toNat
  packFields [(63, if s.chip.ready && s.chip.halt.isNone then 1 else 0), (60, s.power.mode.toNat), (8, code)]

/-- Register `n` of a ring, in the order BASE to CTL (R48, R58). -/
def ringReg (r : Ring) (n : Nat) : Word :=
  match n with
  | 0 => r.base
  | 1 => r.size
  | 2 => r.prod.setWidth 64
  | 3 => r.cons.setWidth 64
  | 4 => r.lost.setWidth 64
  | 5 => r.ctl
  | _ => 0

/-- Whether a launch slot is occupied: PLACING to HELD. -/
def slotBusy (l : Launch) : Bool := 1 ≤ l.state.toNat && l.state.toNat ≤ 4

/-- BUSY of a crew (R45): resident work, queued slates or occupied launch slots. -/
def crewBusy (s : State) (c : Nat) : Bool :=
  (s.regions.any fun p => p.2.crew == c) || (s.scenes.any fun p => p.2.crew == c) || (s.sched.slates.any fun x => x.crew == c) ||
  (getCrew s c).slots.any slotBusy || (getCrew s c).tearing ||
  (List.range 8).any fun p => (getQueue s (8 * c + p)).held.isSome || (getQueue s (8 * c + p)).spill.isSome

/-- CREW_CTL (R45). -/
def crewCtl (s : State) (c : Nat) : Word :=
  let x := getCrew s c
  packFields [(63, if x.en then 1 else 0), (62, if crewBusy s c then 1 else 0), (56, x.err.toNat), (48, x.weight.toNat),
    (40, x.power.toNat), (16, x.quantum.toNat), (0, x.quota.toNat)]

/-- A crew's set-up block (R44; 06 R128; 11 R278). -/
def crewReg (s : State) (c o : Nat) : Word :=
  let x := getCrew s c
  match o with
  | 0 => crewCtl s c
  | 0x08 => x.ptroot
  | 0x10 => x.keys
  | 0x18 => x.save
  | 0x20 => x.qring
  | 0x28 => x.sync
  | _ => 0

/-- Eight bytes of a byte list, zeros beyond its end. -/
def byteWord (bs : List Byte) (o : Nat) : Word := wordOf (takePad 8 (bs.drop o))

/-- The identity key, which is derived from the device secret (03 R70). [PRESUMED, log 14] -/
def identityKey (secret : BitVec 256) : SignKey :=
  let part := fun n => leBytes 32 (Config.identitySeed secret n).toNat
  { chains := part 0, prf := part 1, seed := part 2 }

/-- The trust block (03 R72). -/
def trustReg (s : State) (o : Nat) : Word :=
  let c := s.chip
  if o = 0x08 then packFields [(63, if c.trCmd = 0 then 0 else 1), (48, c.trResult.toNat), (0, c.trCount.toNat)]
  else if o = 0x10 then BitVec.ofNat 64 (c.index % 2 ^ 21)
  else if o = 0x18 then c.sigTime
  else if o = 0x20 then c.fwAddr
  else if o = 0x28 then c.fwLen
  else if o = 0x30 then packFields [(63, if c.recovery then 1 else 0), (62, if c.activeB then 1 else 0),
    (61, if c.bootThermal then 1 else 0), (40, c.bootAttempts.toNat), (32, c.bootCode.toNat), (0, c.runVersion.toNat)]
  else if 0x100 ≤ o && o < 0xC08 then byteWord (c.sig.take 2820) (o - 0x100)
  else if 0xD00 ≤ o && o < 0xD48 then byteWord (xmssPublic (identityKey c.secret)) (o - 0xD00)
  else if 0x1000 ≤ o && o < 0x2000 then byteWord (c.cert.take 4096) (o - 0x1000)
  else 0

/-- PW_DIE (04 R78): the current is the part's own estimate. -/
def pwDie (s : State) (d : Nat) : Word :=
  packFields [(48, (s.power.rails.getD d {}).est / 1000 % 2 ^ 16), (32, (s.power.rails.getD d {}).mv),
    (24, (dieClusters d).foldl (fun m c => max m (getCluster s c).level) 0)]

/-- PW_CREW (04 R78). -/
def pwCrew (s : State) (c : Nat) : Word :=
  let x := s.power.crews.getD c {}
  packFields [(48, x.last % 2 ^ 16), (32, x.budget % 2 ^ 16), (4, x.level % 16), (0, x.ceiling % 4)]

/-- The power block (04 R78). -/
def powerReg (s : State) (o : Nat) : Word :=
  if o = 0 then packFields [(8, s.power.modeReg.toNat), (0, s.power.capReg.toNat)]
  else if o = 0x08 then pwStat s
  else if o = 0x10 then packFields [(16, s.power.slackHi.toNat), (0, s.power.slackLo.toNat)]
  else if o = 0x18 then s.power.cut.setWidth 64
  else if 0x20 ≤ o && o < 0x40 then pwDie s ((o - 0x20) / 8)
  else if 0x40 ≤ o && o < 0x80 then pwCrew s ((o - 0x40) / 8)
  else 0

/-- The table block at PTW_ADDR, read under slot 0; a block outside the populated tiers reads zero. -/
def ptwBlock (s : State) : Block :=
  let pa := wbits s.xl.ptwAddr 6 40 * 64
  if populated s pa then blockOf (readInBlock s ((keyValue s 0).getD 0) pa 64) else 0

/-- The table registers (12 R308). -/
def xlReg (s : State) (o : Nat) : Word :=
  if o = 0 then s.xl.ptwAddr
  else if 0x40 ≤ o && o < 0x80 then BitVec.ofNat 64 (bits (ptwBlock s).toNat (8 * (o - 0x40)) 64)
  else if o = 0x88 then packFields [(63, if s.xl.inv.isSome then 1 else 0), (62, if s.xl.dropped then 1 else 0), (0, s.xl.count.toNat)]
  else 0

/-- The link block (01 R40): LK_STAT and TC_STAT read zero until cold-start step 6 has passed. -/
def linkReg (s : State) (o : Nat) : Word :=
  let p := getChipPort s (o / 16)
  if !s.chip.linkValid && (o < 0xC0 && o % 16 = 0 || o = 0x108) then 0
  else if o < 0xC0 && o % 16 = 0 then packFields [(48, p.rtt.toNat), (44, p.state.toNat), (0, p.replays.toNat)]
  else if o < 0xC0 then packFields [(2, if p.disable then 1 else 0), (0, if p.tcen then 1 else 0)]
  else if o = 0x108 then packFields [(63, if s.links.outOfStep then 1 else 0), (62, if s.links.root then 1 else 0),
    (61, if s.links.reacq then 1 else 0), (48, s.links.hops.toNat), (0, s.links.offset.toNat)]
  else 0

/-- The key-slot block (03 R73). -/
def keyReg (s : State) (o : Nat) : Word :=
  let k := s.keys
  if o = 0x48 then packFields [(63, if k.pend.isSome then 1 else 0), (62, if k.dropped then 1 else 0), (48, k.result.toNat), (0, k.count.toNat)]
  else if o = 0x50 then k.qsel
  else if o = 0x58 then
    let n := wbits k.qsel 0 13
    packFields [(1, if k.changing.contains n then 1 else 0), (0, if (keyValue s n).isSome then 1 else 0)]
  else 0

/-- The fence map (03 R66). -/
def fenceWord (s : State) (o : Nat) : Word :=
  packFields ((List.range 64).map fun i => (i, if s.chip.fence.contains (8 * o + i) then 1 else 0))

/-- The device page. -/
def deviceReg (s : State) (o : Nat) : Word :=
  if o = 0 then devId s
  else if o = 0x08 then devStatus s
  else if o = 0x10 then s.timecode
  else if 0x20 ≤ o && o < 0x40 then (s.chip.cecnt.getD ((o - 0x20) / 8) 0).setWidth 64
  else if 0x100 ≤ o && o < 0x130 then ringReg s.devRing ((o - 0x100) / 8)
  else if 0x1000 ≤ o && o < 0x1800 then crewReg s ((o - 0x1000) / 0x100) (o % 0x100)
  else if 0x4000 ≤ o && o < 0x6000 then trustReg s (o - 0x4000)
  else if 0x6000 ≤ o && o < 0x6100 then powerReg s (o - 0x6000)
  else if 0x7000 ≤ o && o < 0x7090 then xlReg s (o - 0x7000)
  else if 0x8000 ≤ o && o < 0x8200 then linkReg s (o - 0x8000)
  else if 0x10000 ≤ o && o < 0x10060 then keyReg s (o - 0x10000)
  else if 0x20000 ≤ o && o < 0x20040 then fenceWord s (o - 0x20000)
  else if 0x80000 ≤ o && o < 0x80090 then s.msixTable.getD ((o - 0x80000) / 8) 0
  else if o = 0x81000 then packFields (s.msixPend.map fun n => (n, 1))
  else 0

/-- LSTAT (02 R53). -/
def lstat (l : Launch) : Word :=
  packFields [(60, l.state.toNat), (48, l.code.toNat), (44, l.die.toNat), (32, l.origin.toNat), (0, l.count.toNat)]

/-- The port that a launch slot's entry names, while its take is placed. -/
def entryEnd (s : State) (l : Launch) (e : Nat) : Option PortEnd :=
  match l.scene.bind (getScene s) with
  | some k => match k.members with
    | m :: _ => Sparse.find? m.ports (entryPort l.taken e)
    | [] => none
  | none => none

/-- SEED_CREDIT (02 R56). Once the take's region is gone its FIFO is empty, and EXHAUSTED stands. [DESIGN CHOICE, log 37] -/
def seedCredit (s : State) (l : Launch) (e : Nat) : Word :=
  match entryEnd s l e with
  | some p => packFields [(8, if p.exhausted then 1 else 0), (0, 64 - p.fifo.length)]
  | none => packFields [(8, if (l.pages.getD e {}).exhausted then 1 else 0), (0, 64)]

/-- A launch slot (02 R53, R56). -/
def launchReg (s : State) (crew slot o : Nat) : Word :=
  let l := getLaunch s crew slot
  if o < 0x100 then l.record.getD (o / 8) 0
  else if o = 0x108 then lstat l
  else if 0x200 ≤ o && o < 0x260 then (viewLaunch s l).lres.getD ((o - 0x200) / 8) 0
  else if 0x1000 ≤ o && o < 0x1C00 then
    let e := (o - 0x1000) / 0x100
    match o % 0x100 with
    | 0x48 => seedCredit s l e
    | 0x50 => ((l.pages.getD e {}).err).setWidth 64
    | _ => 0
  else 0

/-- A push block (02 R50, 06 R132). -/
def pushReg (s : State) (crew prio o : Nat) : Word :=
  let q := 8 * crew + prio
  let x := getQueue s q
  match o with
  | 0x40 => packFields [(56, ((getCrew s crew).push.getD prio {}).result.toNat), (0, x.subs % 2 ^ 32)]
  | 0x48 => BitVec.ofNat 64 (qcredit s q % 2 ^ 24)
  | 0x50 => packFields [(63, if x.sealed then 1 else 0), (62, if x.held.isSome then 1 else 0), (24, x.ringLen % 2 ^ 21),
      (0, windowCount s q % 2 ^ 7)]
  | 0x60 => x.sealVA
  | _ => 0

/-- The drain-chain block (02 R60). Where no frozen region is named the chain has no record, so END reads 1; in a crew started
afresh DC_STAT reads zero (R47) until the block is used. [DEDUCED, log 21] -/
def drainReg (s : State) (crew o : Nat) : Word :=
  let c := getCrew s crew
  let rec_ := fun (r : Nat) => (drainAt s r c.dcIdx.toNat).toNat
  let len := fun (r : Nat) => match getRegion s r with | some x => (drainChain s r x).length | none => 0
  match o, dcRegion s crew with
  | 0x00, _ => c.dcSel
  | 0x08, _ => c.dcIdx
  | 0x10, none => if c.dcUsed then 2 else 0
  | 0x10, some r => packFields [(32, len r), (1, if len r ≤ c.dcIdx.toNat then 1 else 0), (0, 1)]
  | 0x18, some r => BitVec.ofNat 64 (rec_ r)
  | 0x20, some r => BitVec.ofNat 64 (rec_ r / 2 ^ 64)
  | _, _ => 0

/-- A crew window (02 R48). -/
def windowReg (s : State) (crew o : Nat) : Word :=
  if !(getCrew s crew).en then 0
  else if o < 0x30 then ringReg (getCrew s crew).ring (o / 8)
  else if o = 0x30 then (getCrew s crew).membase
  else if 0x1000 ≤ o && o < 0x1400 then pushReg s crew ((o - 0x1000) / 0x80) (o % 0x80)
  else if 0x2000 ≤ o && o < 0x2100 then drainReg s crew (o - 0x2000)
  else if 0x10000 ≤ o && o < 0x90000 then launchReg s crew ((o - 0x10000) / 0x10000) (o % 0x10000)
  else 0

/-- The registers that return values in a halt (03 R64; 04 R89). -/
def haltReg (o : Nat) : Bool := o == 0 || o == 0x08 || o == 0x4030

/-- The word at an aligned offset of BAR0 (02 R41, R42). -/
def readReg (s : State) (o : Nat) : Word :=
  if !s.chip.powered || (s.chip.halt.isSome && !haltReg o) then 0
  else if o < 0x1000000 then deviceReg s o
  else if o < 0x9000000 then windowReg s (o / 0x1000000 - 1) (o % 0x1000000)
  else 0

end Sys2Proof.Machine
end

