-- ==== Sys2Proof/Machine/Crews.lean ====
section
/-! DEFINITION. What the host does: register writes, crews, launch slots, seeds, rings and the memory window (02; 12 R311). -/
namespace Sys2Proof.Machine

/-- Whether the host's accesses act: the part is on and not halted. -/
def hostActs (s : State) : Bool := s.chip.powered && s.chip.halt.isNone

/-! ## Register writes (00 R6; 02 R42) -/

/-- Keep the bits of a mask. -/
def maskWord (v : Word) (m : Nat) : Word := v &&& BitVec.ofNat 64 m

/-- Bits `[hi : lo]`. -/
def fieldMask (hi lo : Nat) : Nat := 2 ^ (hi + 1) - 2 ^ lo

/-- The RW fields of a CREW_CTL write other than EN. -/
def crewFields (c : Crew) (v : Word) : Crew :=
  { c with weight := BitVec.ofNat 8 (wbits v 48 8), power := BitVec.ofNat 8 (wbits v 40 8)
           quantum := BitVec.ofNat 16 (wbits v 16 16), quota := BitVec.ofNat 10 (wbits v 0 10) }

/-- A write to a crew's set-up block; its fields change only while EN is 0 (R46). -/
def writeCrewReg (s : State) (crew o : Nat) (v : Word) : State :=
  if (getCrew s crew).en then s
  else modCrew s crew fun c =>
    match o with
    | 0 => crewFields c v
    | 0x08 => { c with ptroot := maskWord v (fieldMask 45 12) }
    | 0x10 => { c with keys := maskWord v (fieldMask 28 16 + fieldMask 12 0) }
    | 0x18 => { c with save := maskWord v (fieldMask 47 0) }
    | 0x20 => { c with qring := maskWord v (fieldMask 47 16 + fieldMask 4 0) }
    | 0x28 => { c with sync := maskWord v (fieldMask 47 16 + fieldMask 4 0) }
    | _ => c

/-- The LINK_FAIL records kept from step 3 are written once the device ring is first enabled (R58), with the timecode at which
the port failed. [DESIGN CHOICE, log 37] -/
def writeKept (s : State) : State :=
  if !ringOn s.devRing then s
  else
    let ports := s.devRing.kept
    ports.foldl (fun s (p : Nat × Word) => writeEventAt s 8 0x81 p.1 0 (BitVec.ofNat 64 p.1) 0 p.2) { s with devRing := { s.devRing with kept := [] } }

/-- A write to a ring's BASE, SIZE or CTL (R58). PROD and LOST are read-only; CONS is EVENT_RING_CONSUME. -/
def writeRingReg (s : State) (n o : Nat) (v : Word) : State :=
  let r := getRing s n
  match o with
  | 0 => setRing s n { r with base := maskWord v (fieldMask 63 12) }
  | 1 => writeKept (setRing s n { r with size := maskWord v (fieldMask 4 0) })
  | 5 => setRing s n { r with ctl := maskWord v (if n = 8 then 1 else 3) }
  | _ => s

/-- PW_CTL: a reserved mode or cap leaves its field unchanged (04 R78). -/
def writePwCtl (s : State) (v : Word) : State :=
  { s with power := { s.power with
      modeReg := if wbits v 8 3 < 4 then BitVec.ofNat 3 (wbits v 8 3) else s.power.modeReg
      capReg := if wbits v 0 2 < 3 then BitVec.ofNat 2 (wbits v 0 2) else s.power.capReg } }

/-- Put a word's enabled bytes into a block at a byte offset. -/
def putBlock (b : Block) (o : Nat) (v : Word) (en : BitVec 8) : Block :=
  let old := BitVec.ofNat 64 (bits b.toNat (8 * o) 64)
  BitVec.ofNat 512 (b.toNat - old.toNat * 2 ^ (8 * o) + (mergeBytes old v en).toNat * 2 ^ (8 * o))

/-- A write to a word of the MSI-X table: a pending vector that is no longer masked is sent (02 R44). [PRESUMED, log 38] -/
def writeMsix (s : State) (k : Nat) (v : Word) : State :=
  let s := { s with msixTable := setAt s.msixTable k (if k % 2 = 1 then maskWord v (fieldMask 32 0) else v) }
  if s.msixPend.contains (k / 2) && !vectorMasked s (k / 2) then
    raiseVector { s with msixPend := s.msixPend.filter (· ≠ k / 2) } (k / 2)
  else s

/-- A write to the device page. A port whose DISABLE is cleared stays in state 4 until RETRAIN is written (01 R40).
[DESIGN CHOICE, log 37] `v` is the register's value with the enabled bytes replaced, `raw` what was written.
[DESIGN CHOICE, log 37] -/
def writeDevice (s : State) (o : Nat) (v raw : Word) (en : BitVec 8) : State :=
  if 0x100 ≤ o && o < 0x130 then writeRingReg s 8 ((o - 0x100) / 8) v
  else if 0x1000 ≤ o && o < 0x1800 then writeCrewReg s ((o - 0x1000) / 0x100) (o % 0x100) v
  else if o = 0x4020 then { s with chip := { s.chip with fwAddr := maskWord v (fieldMask 63 12) } }
  else if o = 0x4028 then { s with chip := { s.chip with fwLen := maskWord v (fieldMask 25 0) } }
  else if 0x4040 ≤ o && o < 0x4060 then
    let old : Block := s.chip.msg.setWidth 512
    { s with chip := { s.chip with msg := (putBlock old (o - 0x4040) raw en).setWidth 256 } }
  else if o = 0x6000 then writePwCtl s v
  else if o = 0x6010 then
    { s with power := { s.power with slackHi := BitVec.ofNat 16 (wbits v 16 16), slackLo := BitVec.ofNat 16 (wbits v 0 16) } }
  else if o = 0x7000 then { s with xl := { s.xl with ptwAddr := maskWord v (fieldMask 45 6) } }
  else if 0x7040 ≤ o && o < 0x7080 then { s with xl := { s.xl with ptwData := putBlock s.xl.ptwData (o - 0x7040) raw en } }
  else if 0x8000 ≤ o && o < 0x80C0 && o % 16 = 8 then
    modChipPort s ((o - 0x8000) / 16) fun p => { p with tcen := wbit v 0, disable := p.disable && wbit v 2 }
  else if 0x10000 ≤ o && o < 0x10040 then { s with keys := { s.keys with data := putBlock s.keys.data (o - 0x10000) raw en } }
  else if o = 0x10050 then { s with keys := { s.keys with qsel := maskWord v (fieldMask 12 0) } }
  else if 0x80000 ≤ o && o < 0x80090 then writeMsix s ((o - 0x80000) / 8) v
  else s

/-- A write to a launch slot: its record, its seed data, its seed errors (02 R53, R56). -/
def writeLaunch (s : State) (crew slot o : Nat) (v raw : Word) (en : BitVec 8) : State :=
  if o < 0x100 then modLaunch s crew slot fun l => { l with record := setAt l.record (o / 8) v }
  else if 0x1000 ≤ o && o < 0x1C00 then
    let e := (o - 0x1000) / 0x100
    let f := fun (p : SeedPage) =>
      if o % 0x100 < 0x40 then { p with data := putBlock p.data (o % 0x100) raw en }
      else if o % 0x100 = 0x50 && en.getLsbD 0 then { p with err := p.err &&& ~~~(raw.setWidth 4) }
      else p
    modLaunch s crew slot fun l => { l with pages := modAt l.pages e f }
  else s

/-- A write to a crew window. A STAGING write that does not enable byte 63 only stages its bytes (R50). -/
def writeWindow (s : State) (crew o : Nat) (v raw : Word) (en : BitVec 8) : State :=
  if !(getCrew s crew).en then s
  else if o < 0x30 then writeRingReg s crew (o / 8) v
  else if o = 0x30 then modCrew s crew fun c => { c with membase := maskWord v (fieldMask 47 32) }
  else if 0x1000 ≤ o && o < 0x1400 && o % 0x80 < 0x40 then
    if o % 0x80 = 0x38 && en.getLsbD 7 then s
    else
      let f := fun (b : PushBlock) =>
        { b with staging := putBlock b.staging (o % 0x80) raw en, mask := b.mask ||| BitVec.ofNat 64 (en.toNat * 2 ^ (o % 0x80)) }
      modCrew s crew fun c => { c with push := modAt c.push ((o - 0x1000) / 0x80) f }
  else if o = 0x2000 then modCrew s crew fun c => { c with dcSel := maskWord v (fieldMask 12 0), dcUsed := true }
  else if o = 0x2008 then modCrew s crew fun c => { c with dcIdx := v, dcUsed := true }
  else if 0x10000 ≤ o && o < 0x90000 then writeLaunch s crew ((o - 0x10000) / 0x10000) (o % 0x10000) v raw en
  else s

/-- The enabled bytes of a write to an aligned word of BAR0; reserved fields and read-only registers ignore them. -/
def writeReg (s : State) (o : Nat) (val : Word) (en : BitVec 8) : State :=
  let v := mergeBytes (readReg s o) val en
  if o < 0x1000000 then writeDevice s o v val en
  else if o < 0x9000000 then writeWindow s (o / 0x1000000 - 1) (o % 0x1000000) v val en
  else s

/-- Whether a commit of the host waits: register writes to the crews' windows that arrive after it do not overtake it
(02 R52, R55). -/
def commitsWait (s : State) : Bool :=
  s.hostWait.any fun a => match a with
    | .start _ => true
    | _ => false

/-- A write or command that may not overtake a waiting commit joins it; otherwise it acts at once. -/
def afterCommits (s : State) (i : Instr) (t : State) : State :=
  if commitsWait s then { s with hostWait := s.hostWait ++ [.start i] } else t

/-- REGISTER_WRITE (00 R6; 02 R42): the enabled bytes of an aligned word. A write of CREW_CTL that changes EN, and the command
registers, are steps of their own. [DEDUCED, log 21] -/
def execRegisterWrite (off : Nat) (val : BitVec 64) (en : BitVec 8) (s : State) : Result State :=
  let o := off / 8 * 8
  if !hostActs s then .next s
  else if o < 0x1000000 then .next (writeReg s o val en)
  else .next (afterCommits s (.registerWrite off val en) (writeReg s o val en))

/-- PUSH registers, rings and CECNT reads that act are steps of their own: CECNT_READ (12 R311). -/
def execCecntRead (die : Nat) (s : State) : Result State :=
  if !hostActs s || 4 ≤ die then .next { s with hostRead := leBytes 8 0 }
  else .next { s with hostRead := leBytes 8 (s.chip.cecnt.getD die 0).toNat, chip := { s.chip with cecnt := setAt s.chip.cecnt die 0 } }

/-! ## Crews (02 R46, R47) -/

/-- Whether two slot ranges overlap. -/
def keysOverlap (a b : Word) : Bool :=
  wbits a 0 13 < wbits b 0 13 + wbits b 16 13 && wbits b 0 13 < wbits a 0 13 + wbits a 16 13

/-- The first failing condition of an enable, 0 for none. -/
def enableError (s : State) (crew : Nat) : BitVec 4 :=
  let c := getCrew s crew
  let others := (List.range 8).filter fun k => k ≠ crew && (getCrew s k).en
  let kb := wbits c.keys 0 13
  let kc := wbits c.keys 16 13
  if crewBusy s crew then 4
  else if kb = 0 || kc = 0 || 8192 < kb + kc || others.any fun k => keysOverlap c.keys (getCrew s k).keys then 1
  else if 256 < c.power.toNat + (others.map fun k => (getCrew s k).power.toNat).sum then 2
  else if !populated s (wbits c.ptroot 12 34 * 4096) then 3
  else 0

/-- A crew's queues, spill rings and dependency entries are empty. -/
def clearQueues (s : State) (crew : Nat) : State :=
  let f := fun (p : Queue × Nat) => if p.2 / 8 = crew then ({} : Queue) else p.1
  let orders := (s.sched.slates.filter (·.crew == crew)).map (·.order)
  { s with sched := { s.sched with
      queues := s.sched.queues.zipIdx.map f
      slates := s.sched.slates.filter (·.crew ≠ crew)
      deps := s.sched.deps.filter (·.crew ≠ crew)
      resv := s.sched.resv.filter fun r => !orders.contains r.2
      xreqs := s.sched.xreqs.filter (·.crew ≠ crew) } }

/-- A crew starts afresh (R47), its mapping ceiling at the mode's limit (04 R82); its cap level and its count of low windows
stand. [DESIGN CHOICE, log 37] -/
def freshCrew (s : State) (crew : Nat) : State :=
  let s := clearQueues s crew
  let s := modCrew s crew fun c =>
    { c with en := true, err := 0, ring := {}, push := List.replicate 8 {}, dcSel := 0, dcIdx := 0, dcUsed := false, slots := List.replicate 8 {} }
  { s with power := { s.power with crews := modAt s.power.crews crew fun p => { p with ceiling := modeCeiling s.power.mode.toNat } } }

/-- CREW_ENABLE (R46): the write's fields, then the checks. Before READY, and in recovery (03 R64), it is ignored.
[DEDUCED, log 21] -/
def execCrewEnable (crew : Nat) (val : BitVec 64) (s : State) : Result State :=
  if !hostActs s || 8 ≤ crew || !s.chip.ready || (getCrew s crew).en || !wbit val 63 then .next s
  else
    let s := modCrew s crew fun c => crewFields c val
    let e := enableError s crew
    .next (if e = 0 then freshCrew s crew else modCrew s crew fun c => { c with err := e })

/-- Discard everything a crew holds; its regions are freed without saving (R47; 11 R276, R279; 12 R309). -/
def discardCrew (s : State) (crew : Nat) : State :=
  let s := (s.scenes.filter fun p => p.2.crew = crew).foldl (fun s p => dropScene s p.1) s
  let s := clearQueues s crew
  { s with
    eng := { s.eng with
      ops := s.eng.ops.filter fun p => p.2.crew ≠ crew
      sets := s.eng.sets.filter fun p => p.2.crew ≠ crew
      places := s.eng.places.filter (·.crew ≠ crew)
      waits := s.eng.waits.filter (·.crew ≠ crew) }
    xl := { s.xl with tlb := s.xl.tlb.filter (·.crew ≠ crew) }
    images := s.images.filter fun p => p.1 / 2 ^ 32 ≠ crew
    ctxImages := s.ctxImages.filter fun p => p.1 / 2 ^ 32 ≠ crew }

/-- Tell the other chips of a crew's cross-chip scenes: the home chip sends CANCEL while a placement is not agreed (06 R146), and
every chip TEARDOWN for scenes that the others hold (R47). -/
def tellTeardown (s : State) (crew : Nat) : State :=
  (s.scenes.filter fun p => p.2.crew = crew && p.2.xchip).foldl (fun s p =>
    let s := if p.2.home && p.2.tick.isNone then tellChips s p.1 p.2 pCANCEL 0 else s
    if p.2.home && p.2.tick.isNone && !p.2.started then s else tellChips s p.1 p.2 pTEARDOWN s.chip.serial.toNat) s

/-- Window accesses that a teardown finds waiting have been accepted, and complete as the crew's set-up then stands (R47).
[DEDUCED, log 21] -/
def keepAccepted (s : State) (crew : Nat) : State :=
  let torn := some ((getCrew s crew).ptroot, (getCrew s crew).keys)
  { s with hostWait := s.hostWait.map fun a => match a with
    | .read c va len none => if c = crew then .read c va len torn else a
    | .write c va bs none => if c = crew then .write c va bs torn else a
    | a => a }

/-- CREW_TEARDOWN (R47). -/
def execCrewTeardown (crew : Nat) (s : State) : Result State :=
  if !hostActs s || 8 ≤ crew || !(getCrew s crew).en then .next s
  else
    let s := modCrew s crew fun c => { c with en := false }
    let s := keepAccepted (discardCrew (tellTeardown s crew) crew) crew
    let f := fun (l : Launch) => if l.state = lIDLE then l else { l with state := lABORTED, scene := none }
    .next { (modCrew s crew fun c => { c with slots := c.slots.map f }) with sched := { s.sched with due := true } }

/-! ## Launch slots (02 R54, R55) -/

/-- Whether a record sets a reserved bit, or names an address or ENDCUT it may not. ENDCUT of an entry that is no memory
source is ignored. [DEDUCED, log 21; DESIGN CHOICE, log 37] -/
def recordBad (rec : List Word) : Bool :=
  let w1 := rec.getD 1 0
  let entry := fun (e : Nat) =>
    let a := rec.getD (8 + 2 * e) 0
    let b := rec.getD (9 + 2 * e) 0
    let kind := wbits b 12 4
    ([wbits a 48 16 ≠ 0, wbits b 24 8 ≠ 0, wbits b 16 4 ≠ 0, wbits b 8 4 ≠ 0, 4 ≤ kind,
      (kind = 2 || kind = 3) && wbits a 0 6 ≠ 0, (kind = 0 || kind = 1) && wbits a 0 48 ≠ 0,
      kind = 2 && 4 < wbits b 20 4] : List Bool).any id
  wbits w1 56 8 ≠ 0 || wbits w1 48 5 ≠ 0 || wbits w1 9 31 ≠ 0 || (List.range 6).any (fun i => rec.getD (2 + i) 0 ≠ 0) ||
  (List.range 12).any entry

/-- The reel ports that a record names. -/
def recordPorts (rec : List Word) : List (Nat × Nat) :=
  ((List.range 12).filter fun e => entryKind rec e ≠ 0).map fun e => (entryPort rec e, entryKind rec e)

/-- Whether a record binds every ingress and egress port of the reel once, and no other. -/
def recordBinds (rec : List Word) (bs : List Binding) : Bool :=
  let ports := recordPorts rec
  let fits := fun (p : Nat × Nat) => bs.any fun b => b.port == p.1 && (if b.dir = 0 then p.2 == 1 || p.2 == 2 else b.dir = 1 && p.2 == 3)
  (ports.map (·.1)).eraseDups.length == ports.length && ports.all fits && bs.all fun b => ports.any (·.1 == b.port)

/-- The pseudo-slate of a bare take: shape, dies, mapping and context of its record. -/
def launchWords (rec : List Word) : List Word :=
  let w1 := rec.getD 1 0
  [0, 0, 0, rec.getD 0 0, packFields [(0, wbits w1 0 5), (5, wbits w1 5 4), (48, wbits w1 44 2), (50, wbits w1 46 2), (52, wbits w1 40 4)], 0, 0, 0]

/-- The checks of GO: a code, none if the record passes; `none` outside while a key slot changes. A bad REEL answers 0x01, but
0x03 when another reserved bit is set too; a CTX that the mapping does not hold answers 0x01.
[DEDUCED, log 21; DESIGN CHOICE, log 37] -/
def launchCheck (s : State) (crew : Nat) (rec : List Word) : Option (Option (BitVec 8)) :=
  let ws := launchWords rec
  if badAddr (rec.getD 0 0) then some (some (if recordBad rec then 3 else 1))
  else
    match readImage s hostCache crew (rec.getD 0 0) with
    | .error none => none
    | .error (some _) => some (some 1)
    | .ok im =>
      match pickMapping im (slateField ws 4 50 2) (s.power.crews.getD crew {}).ceiling with
      | none => some (some 1)
      | some (_, words) =>
        let rw := indexWords 0 none words
        if (checkWords words 0xF im.w im.h).isSome || !(mapContexts rw).contains (slateField ws 4 48 2) then some (some 1)
        else if im.w ≠ slateW ws || im.h ≠ slateH ws || quotaOf (getCrew s crew) < slateW ws * slateH ws then some (some 2)
        else if recordBad rec || !recordBinds rec (bindingsOf 0 rw (slateField ws 4 48 2)) then some (some 3)
        else if !placeable s ws (slateN ws) then some (some 4)
        else some none

/-- A crew's launch slot, or another unit of it, takes commands while the part runs and the crew is enabled. -/
def slotActs (s : State) (crew slot : Nat) : Bool := hostActs s && crew < 8 && slot < 8 && (getCrew s crew).en

/-- GO takes effect: the record is copied and checked; the take joins the scheduler, or the slot is rejected. None while the
reel's key slot changes. -/
def tryGo (crew slot : Nat) (s : State) : Option State :=
  let l := getLaunch s crew slot
  if !slotActs s crew slot || l.state ≠ lIDLE then some s
  else (launchCheck s crew l.record).map fun code =>
    let s := if badAddr (l.record.getD 0 0) then s else countImage s hostCache crew (l.record.getD 0 0)
    let s := modLaunch s crew slot fun l => { l with
      taken := l.record, count := l.count + 1, code := 0, lres := List.replicate 12 0, scene := none, state := lPLACING
      pages := l.pages.map fun p => { p with exhausted := false } }
    match code with
    | some c => rejectLaunch s crew slot c
    | none =>
      let x : Slate :=
        { words := launchWords l.record, sub := 0, crew, prio := wbits (l.record.getD 1 0) 53 3, joincnt := 0
          order := s.sched.nextOrder, entered := true, launch := some (crew, slot) }
      noteReady { s with sched := { s.sched with slates := s.sched.slates ++ [x], nextOrder := s.sched.nextOrder + 1 } }

/-- LAUNCH_GO. -/
def execLaunchGo (crew : Nat) (slot : Nat) (s : State) : Result State :=
  .next (hostTry s (.start (.launchGo crew slot)) (tryGo crew slot s))

/-- Remove a slot's take: its scene and its place with the scheduler. -/
def removeTake (s : State) (crew slot : Nat) : State :=
  let s := match (getLaunch s crew slot).scene with | some k => dropScene s k | none => s
  match s.sched.slates.find? fun x => x.launch == some (crew, slot) with
  | some x => releaseSlate s x.order
  | none => s

/-- ABORT takes effect: an occupied slot's take is removed. -/
def abortLaunch (crew slot : Nat) (s : State) : State :=
  if !slotActs s crew slot || !slotBusy (getLaunch s crew slot) then s
  else modLaunch (removeTake (copyLres s crew slot) crew slot) crew slot fun l => { l with state := lABORTED, scene := none }

/-- LAUNCH_ABORT; it follows a GO that waits (R55). -/
def execLaunchAbort (crew : Nat) (slot : Nat) (s : State) : Result State :=
  .next (afterCommits s (.launchAbort crew slot) (abortLaunch crew slot s))

/-- RELEASE takes effect on a slot whose take has ended. -/
def releaseLaunch (crew slot : Nat) (s : State) : State :=
  if !slotActs s crew slot || (getLaunch s crew slot).state.toNat < 5 then s
  else modLaunch (removeTake (copyLres s crew slot) crew slot) crew slot fun l => { l with state := lIDLE, scene := none }

/-- LAUNCH_RELEASE; it follows a GO that waits (R55). -/
def execLaunchRelease (crew : Nat) (slot : Nat) (s : State) : Result State :=
  .next (afterCommits s (.launchRelease crew slot) (releaseLaunch crew slot s))

/-- A seed commit takes effect (R57): the checks in the order EARLY, LATE, BADTAG, FULL. The FIFO of a held take stands with
its member. A commit to an entry that is not of KIND 1 has no effect while the take runs.
[DEDUCED, log 21; DESIGN CHOICE, log 37] -/
def commitEntry (crew slot entry : Nat) (val : Word) (s : State) : State :=
  let l := getLaunch s crew slot
  let st := l.state
  let fail := fun (bit : BitVec 4) => modLaunch s crew slot fun l =>
    { l with pages := modAt l.pages entry fun p => { p with err := p.err ||| bit } }
  if !slotActs s crew slot || 12 ≤ entry then s
  else if st = lIDLE || st = lPLACING || st = lLOADING || st = lREJECTED then fail 8
  else if st = lDONE || st = lFAULTED || st = lABORTED then fail 4
  else if entryKind l.taken entry ≠ 1 then s
  else
    match entryEnd s l entry, l.scene with
    | some p, some k =>
      if p.exhausted then fail 4
      else if badSeedTag (wbits val 16 4) then fail 2
      else if 64 ≤ p.fifo.length then fail 1
      else modPort s k 0 (entryPort l.taken entry) fun p => commitSeed p val (l.pages.getD entry {}).data
    | _, _ => fail 4

/-- SEED_COMMIT. -/
def execSeedCommit (crew : Nat) (slot : Nat) (entry : Nat) (val : BitVec 64) (s : State) : Result State :=
  .next (hostTry s (.start (.seedCommit crew slot entry val)) (some (commitEntry crew slot entry val s)))

/-! ## Rings and the memory window (02 R49, R58) -/

/-- EVENT_RING_CONSUME: ring 0-7 is a crew's, 8 the device's. -/
def execEventRingConsume (ring : Nat) (val : BitVec 64) (s : State) : Result State :=
  if !hostActs s || 9 ≤ ring || (ring < 8 && !(getCrew s ring).en) then .next s
  else
    let r := { (getRing s ring) with cons := val.setWidth 32 }
    let s := setRing s ring r
    .next (if wbit r.ctl 0 && r.prod ≠ r.cons then raiseVector s (ringVector ring) else s)

/-- A crew's MEMBASE after the register writes that wait behind commits (R49, R52). -/
def membaseOf (s : State) (crew : Nat) : Word :=
  s.hostWait.foldl (fun m a => match a with
    | .start (.registerWrite off val en) =>
      if off / 8 * 8 = 0x1000000 * (crew + 1) + 0x30 then maskWord (mergeBytes m val en) (fieldMask 47 32) else m
    | _ => m) (getCrew s crew).membase

/-- The virtual address of an offset of a crew's memory window, as an access that arrives now finds it. [DEDUCED, log 21] -/
def hostVA (s : State) (crew off : Nat) : Word := maskWord (membaseOf s crew) (fieldMask 47 32) + BitVec.ofNat 64 (off % 2 ^ 32)

/-- The next block of a window write is performed; the rest of the write comes before all that waits (R49). A block that reads
uncorrectable and is only partly written is left as it is (01 R18). -/
def storeBlock (s : State) (crew : Nat) (ps : List Piece) (bytes : List Byte) : State :=
  match ps with
  | [] => s
  | p :: ps =>
    let s := if pieceBad s p true then s else writePiece (if p.len < 64 then countPiece s p else s) p (bytes.take p.len)
    if ps.isEmpty then s else { s with hostWait := .store crew ps (bytes.drop p.len) :: s.hostWait }

/-- The next block of a window read is performed; a block that reads uncorrectable gives open values (00 R8). -/
def fetchBlock (s : State) (crew : Nat) (ps : List Piece) : State :=
  match ps with
  | [] => s
  | p :: ps =>
    let s :=
      if pieceBad s p false then
        { s with hostRead := s.hostRead ++ (blockBytes (Config.freeBlock s.freeCtr)).take p.len, freeCtr := s.freeCtr + 1 }
      else { (countPiece s p) with hostRead := s.hostRead ++ plainBytes s hostCache crew p.va.toNat (readPiece s p) }
    if ps.isEmpty then s else { s with hostWait := .fetch crew ps :: s.hostWait }

/-- Whether a crew's memory window answers. [DEDUCED, log 21] -/
def windowActs (s : State) (crew : Nat) : Bool := hostActs s && crew < 8 && (getCrew s crew).en

/-- The part as an access sees it that its crew's teardown found waiting: with the crew's PTROOT and KEYS of that time (R47). -/
def tornCrew (s : State) (crew : Nat) (torn : Option (Word × Word)) : State :=
  match torn with
  | some p => modCrew s crew fun c => { c with ptroot := p.1, keys := p.2 }
  | none => s

/-- HOSTMEM_FAULT of an access; a crew that has been torn down gets no event (R47). -/
def hostFault (s : State) (crew : Nat) (va : Word) (cause : BitVec 8) (torn : Option (Word × Word)) : State :=
  if torn.isSome then s else writeEvent s crew 0x30 0 0 va (cause.setWidth 64)

/-- A window read begins (R49): all of it is translated; a fault returns zeros with HOSTMEM_FAULT. None while a key slot
changes. -/
def tryFetch (crew : Nat) (va : Word) (len : Nat) (torn : Option (Word × Word)) (s : State) : Option State :=
  match pieces (tornCrew s crew torn) hostCache crew .read false (len / 64 + 2) va len with
  | .ok ps => some (fetchBlock { (useCache s hostCache crew .read va len) with hostRead := [] } crew ps)
  | .error (.xlate c v) => some { (hostFault s crew v c torn) with hostRead := List.replicate len 0 }
  | .error _ => none

/-- HOST_MEMORY_READ (R49): each aligned 64-byte block is one event, in ascending address order. A window that does not answer
reads zero. -/
def execHostMemoryRead (crew : Nat) (off : Nat) (len : Nat) (s : State) : Result State :=
  if !windowActs s crew then .next { s with hostRead := List.replicate len 0 }
  else .next (hostTry s (.read crew (hostVA s crew off) len none) (tryFetch crew (hostVA s crew off) len none s))

/-- A window write begins (R49): all of it is translated; a fault drops it with HOSTMEM_FAULT. None while a key slot changes. -/
def tryStore (crew : Nat) (va : Word) (bytes : List Byte) (torn : Option (Word × Word)) (s : State) : Option State :=
  match pieces (tornCrew s crew torn) hostCache crew .write false (bytes.length / 64 + 2) va bytes.length with
  | .ok ps => some (storeBlock (useCache s hostCache crew .write va bytes.length) crew ps bytes)
  | .error (.xlate c v) => some (hostFault s crew v c torn)
  | .error _ => none

/-- HOST_MEMORY_WRITE (R49): each aligned 64-byte block is one event, in ascending address order. -/
def execHostMemoryWrite (crew : Nat) (off : Nat) (bytes : List (BitVec 8)) (s : State) : Result State :=
  if !windowActs s crew then .next s
  else .next (hostTry s (.write crew (hostVA s crew off) bytes none) (tryStore crew (hostVA s crew off) bytes none s))

/-- A waiting commit or register write takes effect, if it can. -/
def startHost (i : Instr) (s : State) : Option State :=
  match i with
  | .slatePush crew prio val en => if pushActs s crew prio en then tryPush crew prio val en s else some s
  | .launchGo crew slot => tryGo crew slot s
  | .launchAbort crew slot => some (abortLaunch crew slot s)
  | .launchRelease crew slot => some (releaseLaunch crew slot s)
  | .seedCommit crew slot entry val => some (commitEntry crew slot entry val s)
  | .registerWrite off val en => some (if hostActs s then writeReg s (off / 8 * 8) val en else s)
  | _ => some s

/-- The oldest waiting host access, or its next block, is performed, if it can be (R49, R52). -/
def hostNext (s : State) : Result State :=
  match s.hostWait with
  | [] => .next s
  | a :: rest =>
    let t := { s with hostWait := rest }
    match a with
    | .store crew ps bytes => .next (storeBlock t crew ps bytes)
    | .fetch crew ps => .next (fetchBlock t crew ps)
    | .read crew va len torn => .next ((tryFetch crew va len torn t).getD s)
    | .write crew va bytes torn => .next ((tryStore crew va bytes torn t).getD s)
    | .start i => .next ((startHost i t).getD s)

end Sys2Proof.Machine
end

