-- ==== Sys2Proof/Machine/Integer.lean ====
section
/-! DEFINITION. Integer script instructions (18 R456, R457). -/
namespace Sys2Proof.Machine

/-- A register-register operation: g[d] := f (g[a], g[b]). -/
def opRR (d a b : BitVec 5) (f : Word → Word → Word) (s : State) : Result State :=
  withRegs s [a, b, d] fun x => retire s d (f (readG x a) (readG x b))

/-- A divide: a zero divisor takes DIVZERO with the dividend in xval, and g[d] is unchanged. -/
def opDiv (d a b : BitVec 5) (f : Word → Word → Word) (s : State) : Result State :=
  withRegs s [a, b, d] fun x =>
    if readG x b = 0 then preciseTrap s tDIVZERO 0 (readG x a) else retire s d (f (readG x a) (readG x b))

/-- A register-immediate operation: g[d] := f (g[a]). -/
def opRI (d a : BitVec 5) (f : Word → Word) (s : State) : Result State :=
  withRegs s [a, d] fun x => retire s d (f (readG x a))

/-- A shift count (18 R456). -/
def shiftCount (b : Word) : Nat := wbits b 0 6

/-- Bits [127:64] of the signed product. -/
def mulHigh (a b : Word) : Word := BitVec.ofInt 64 (a.toInt * b.toInt / 2 ^ 64)
/-- Bits [127:64] of the unsigned product. -/
def mulHighU (a b : Word) : Word := BitVec.ofNat 64 (a.toNat * b.toNat / 2 ^ 64)

def execAdd (d a b : BitVec 5) (s : State) : Result State := opRR d a b (· + ·) s
def execSub (d a b : BitVec 5) (s : State) : Result State := opRR d a b (· - ·) s
def execAnd (d a b : BitVec 5) (s : State) : Result State := opRR d a b (· &&& ·) s
def execOr (d a b : BitVec 5) (s : State) : Result State := opRR d a b (· ||| ·) s
def execXor (d a b : BitVec 5) (s : State) : Result State := opRR d a b (· ^^^ ·) s
def execSll (d a b : BitVec 5) (s : State) : Result State := opRR d a b (fun x y => x <<< shiftCount y) s
def execSrl (d a b : BitVec 5) (s : State) : Result State := opRR d a b (fun x y => x >>> shiftCount y) s
def execSra (d a b : BitVec 5) (s : State) : Result State := opRR d a b (fun x y => x.sshiftRight (shiftCount y)) s
def execSlt (d a b : BitVec 5) (s : State) : Result State := opRR d a b (fun x y => boolWord (sltWord x y)) s
def execSltu (d a b : BitVec 5) (s : State) : Result State := opRR d a b (fun x y => boolWord (ultWord x y)) s
def execMul (d a b : BitVec 5) (s : State) : Result State := opRR d a b (· * ·) s
def execMulh (d a b : BitVec 5) (s : State) : Result State := opRR d a b mulHigh s
def execMulhu (d a b : BitVec 5) (s : State) : Result State := opRR d a b mulHighU s
def execDiv (d a b : BitVec 5) (s : State) : Result State := opDiv d a b (fun x y => x.sdiv y) s
def execDivu (d a b : BitVec 5) (s : State) : Result State := opDiv d a b (fun x y => x / y) s
def execRem (d a b : BitVec 5) (s : State) : Result State := opDiv d a b (fun x y => x.srem y) s
def execRemu (d a b : BitVec 5) (s : State) : Result State := opDiv d a b (fun x y => x % y) s

def execAddi (d a : BitVec 5) (imm : BitVec 15) (s : State) : Result State := opRI d a (· + sext15 imm) s
def execAndi (d a : BitVec 5) (imm : BitVec 15) (s : State) : Result State := opRI d a (· &&& sext15 imm) s
def execOri (d a : BitVec 5) (imm : BitVec 15) (s : State) : Result State := opRI d a (· ||| sext15 imm) s
def execXori (d a : BitVec 5) (imm : BitVec 15) (s : State) : Result State := opRI d a (· ^^^ sext15 imm) s
def execSlti (d a : BitVec 5) (imm : BitVec 15) (s : State) : Result State :=
  opRI d a (fun x => boolWord (sltWord x (sext15 imm))) s
def execSlli (d a : BitVec 5) (n : BitVec 6) (s : State) : Result State := opRI d a (· <<< n.toNat) s
def execSrli (d a : BitVec 5) (n : BitVec 6) (s : State) : Result State := opRI d a (· >>> n.toNat) s
def execSrai (d a : BitVec 5) (n : BitVec 6) (s : State) : Result State := opRI d a (fun x => x.sshiftRight n.toNat) s
def execLdi (d : BitVec 5) (imm : BitVec 20) (s : State) : Result State :=
  withRegs s [d] fun _ => retire s d (imm.signExtend 64)
def execLsi (d a : BitVec 5) (imm : BitVec 15) (s : State) : Result State :=
  opRI d a (fun x => (x <<< 15) ||| zext15 imm) s

end Sys2Proof.Machine
end

