-- ==== Sys2Proof/Machine/Trust.lean ====
section
/-! DEFINITION. The trust block, the key slots and the translation registers (03 R67-R75; 12 R307-R309). -/
namespace Sys2Proof.Machine

/-! ## Firmware images (03 R67, R68) -/

/-- The parts of an image. -/
def fwHeader (im : List Byte) : List Byte := im.take 64
def fwField (im : List Byte) (at_ n : Nat) : Nat := leNat ((im.drop at_).take n)
def fwVersion (im : List Byte) : Nat := fwField im 4 2
def fwRaise (im : List Byte) : Bool := bits (fwField im 6 2) 0 1 = 1
def fwBodyLen (im : List Byte) : Nat := fwField im 8 4
def fwSigned (im : List Byte) : List Byte := im.take (64 + fwBodyLen im)
def fwPub (im : List Byte) : List Byte := (im.drop (64 + fwBodyLen im)).take 68
def fwSig (im : List Byte) : List Byte := (im.drop (64 + fwBodyLen im + 68)).take 2820

/-- SHAKE256 cut to 32 bytes, as it is kept in fuses and registers. -/
def imageDigest (bs : List Byte) : BitVec 256 := BitVec.ofNat 256 (leNat (shake256 bs))

/-- The cause of an image's failure (R61 step 4), 0 when it verifies. [DEDUCED, log 20] -/
def fwCause (c : Chip) (im : List Byte) : Nat :=
  if im.take 4 ≠ [0x5A, 0x51, 0x46, 0x57] || im.length ≠ 64 + fwBodyLen im + 68 + 2820 ||
      ((fwHeader im).drop 12).any (· ≠ 0) || 64 < fwVersion im then 3
  else if imageDigest (fwPub im) ≠ c.fwDigest then 1
  else if !xmssVerify (fwPub im) (fwSigned im) (fwSig im) then 1
  else if fwVersion im < c.minVersion then 2
  else 0

/-! ## Trust commands (03 R69-R72) -/

/-- A command written while BUSY is dropped with the result BUSY. -/
def trBusy (s : State) : State := { s with chip := { s.chip with trResult := 1 } }

/-- A command ends with a result. -/
def trDone (s : State) (r : BitVec 8) : State :=
  { s with chip := { s.chip with trCmd := 0, trResult := r, trCount := s.chip.trCount + 1, trImage := [] } }

/-- The flash has been written: what becomes of the next write is open. [DEDUCED, log 20] -/
def flashWritten (s : State) : State :=
  { s with
    freeCtr := s.freeCtr + 1
    chip := { s.chip with flashTakes := Config.flashTakes s.freeCtr, flashReads := Config.flashReads s.freeCtr } }

/-- SIGN (R71): the index advances before it is used. The message is kept until the signature is written. Where the flash does
not take the new index, or does not read it back, the result is FLASH and nothing is signed. -/
def execSign (s : State) : Result State :=
  let i := s.chip.index
  if !hostActs s then .next s
  else if s.chip.trCmd ≠ 0 then .next (trBusy s)
  else if i = 2 ^ 20 then .next (trDone s 2)
  else if !(s.chip.flashTakes && s.chip.flashReads) then
    .next (trDone (flashWritten { s with chip := { s.chip with index := if s.chip.flashTakes then i + 1 else i } }) 3)
  else
    let s := flashWritten s
    let m := leBytes 8 (devId s).toNat ++ leBytes 8 s.timecode.toNat ++ leBytes 32 s.chip.msg.toNat
    .next { s with chip := { s.chip with
      trCmd := 1, trIndex := i, index := i + 1, sigTime := s.timecode, trImage := m } }

/-- SIGN_COMPLETE (R71). -/
def execSignComplete (s : State) : Result State :=
  if s.chip.trCmd ≠ 1 then .next s
  else
    let sig := xmssSign (identityKey s.chip.secret) s.chip.trIndex s.chip.trImage
    .next (trDone { s with chip := { s.chip with sig } } 0)

/-- The result of an update's verification (R69). -/
def updateResult (c : Chip) (im : List Byte) : BitVec 8 :=
  match fwCause c im with
  | 0 => 0
  | 1 => 4
  | 2 => 5
  | _ => 6

/-- UPDATE (R69): the image is read from host memory and verified; if it passes it goes to the inactive bank, and the marker
is switched once the bank has been read back as it was written; else the result is FLASH. [DEDUCED, log 20] -/
def execUpdate (s : State) : Result State :=
  if !hostActs s then .next s
  else if s.chip.trCmd ≠ 0 then .next (trBusy s)
  else
    let n := s.chip.fwLen.toNat
    if n = 0 || 0x2000000 < n then .next { s with chip := { s.chip with trCmd := 2, trPending := 6 } }
    else
      let im := rawBytes s.hostMem s.chip.fwAddr.toNat n
      let r := updateResult s.chip im
      let kept := s.chip.flashTakes && s.chip.flashReads
      let s := if r = 0 then flashWritten s else s
      let c := { s.chip with trCmd := 2, trPending := if r = 0 && !kept then 3 else r }
      .next { s with chip :=
        if r ≠ 0 || !kept then c
        else { c with bankA := if c.activeB then im else c.bankA, bankB := if c.activeB then c.bankB else im, activeB := !c.activeB } }

/-- UPDATE_COMPLETE (R69). -/
def execUpdateComplete (s : State) : Result State :=
  if s.chip.trCmd ≠ 2 then .next s else .next (trDone s s.chip.trPending)

/-! ## Key slots (03 R73-R75) -/

/-- A key command written while BUSY is dropped. -/
def keyDropped (s : State) : State := { s with keys := { s.keys with dropped := true } }

/-- A key command ends with a result; DROPPED stands until the next accepted command. -/
def keyDone (s : State) (r : BitVec 8) : State :=
  { s with keys := { s.keys with pend := none, changing := [], result := r, count := s.keys.count + 1 } }

/-- An accepted command clears DROPPED. -/
def keyAccept (s : State) : State := { s with keys := { s.keys with dropped := false } }

/-- An accepted command fails a check of R74: no slot changes, and KS_DATA stands. [DESIGN CHOICE, log 37] -/
def keyRefused (s : State) (r : BitVec 8) : State := keyDone (keyAccept s) r

/-- Whether a key pair is weak: equal halves, or one all zero. -/
def weakKey (k : BitVec 512) : Bool :=
  let a := bits k.toNat 0 256
  let b := bits k.toNat 256 256
  a == b || a == 0 || b == 0

/-- KEY_LOAD (R74, R75): KS_DATA is captured and cleared as the command passes its checks. [DESIGN CHOICE, log 37] -/
def execKeyLoad (slot : BitVec 13) (s : State) : Result State :=
  if !hostActs s then .next s
  else if s.keys.pend.isSome then .next (keyDropped s)
  else if slot = 0 then .next (keyRefused s 2)
  else if (keyValue s slot.toNat).isSome then .next (keyRefused s 4)
  else if weakKey s.keys.data then .next (keyRefused s 5)
  else .next { s with keys := { s.keys with
    pend := some { retire := false, slot := slot.toNat, count := 1, key := s.keys.data }
    data := 0, changing := [slot.toNat], dropped := false, result := 0 } }

/-- KEY_LOAD_COMPLETE (R75). -/
def execKeyLoadComplete (s : State) : Result State :=
  match s.keys.pend with
  | some p =>
    if p.retire then .next s
    else .next (keyDone { s with keys := { s.keys with
      slots := Sparse.insert s.keys.slots p.slot p.key, hurt := s.keys.hurt.filter (·.2 ≠ p.slot) } } 0)
  | none => .next s

/-- KEY_RETIRE (R74, R75): a COUNT of 0 acts as 1. -/
def execKeyRetire (slot : BitVec 13) (count : BitVec 13) (s : State) : Result State :=
  let n := max 1 count.toNat
  if !hostActs s then .next s
  else if s.keys.pend.isSome then .next (keyDropped s)
  else if slot = 0 then .next (keyRefused s 2)
  else if 8192 < slot.toNat + n then .next (keyRefused s 3)
  else .next { s with keys := { s.keys with
    pend := some { retire := true, slot := slot.toNat, count := n }
    changing := (List.range n).map (slot.toNat + ·), dropped := false, result := 0 } }

/-- The translated accesses under way: crew, key slot, virtual address. [DEDUCED, log 34] -/
def openAccesses (s : State) : List (Nat × Nat × Word) :=
  (s.hostWait.flatMap fun a => match a with
    | .store crew ps _ => ps.map fun p => (crew, p.key, p.va)
    | .fetch crew ps => ps.map fun p => (crew, p.key, p.va)
    | _ => []) ++
  (s.ctxs.flatMap fun p =>
    (p.2.loads.map fun l => (p.2.crew, l.key, l.va)) ++ p.2.stores.map fun t => (p.2.crew, t.key, t.va)) ++
  s.stages.flatMap fun p =>
    let crew := match regionOf s p.1 with | some (_, x) => x.crew | none => 8
    (p.2.comb.map fun w => (crew, w.key, w.va)) ++ (p.2.port.map fun (q : Nat × MemEvent) => (crew, q.2.key, q.2.va)) ++
    p.2.units.flatMap fun u => (nodeOps u.2).flatMap fun o => (o.events.filter (·.array == 3)).map fun e => (crew, e.key, e.va)

/-- KEY_RETIRE_COMPLETE (R75): every access that used an old key has performed; the slots are empty. [DEDUCED, log 34] -/
def execKeyRetireComplete (s : State) : Result State :=
  match s.keys.pend with
  | some p =>
    if !p.retire || (openAccesses s).any (fun a => p.slot ≤ a.2.1 && a.2.1 < p.slot + p.count) then .next s
    else .next (keyDone { s with keys := { s.keys with
      slots := s.keys.slots.filter fun q => !(p.slot ≤ q.1 && q.1 < p.slot + p.count)
      hurt := s.keys.hurt.filter fun q => !(p.slot ≤ q.2 && q.2 < p.slot + p.count) } } 0)
  | none => .next s

/-! ## Page tables and translation caches (12 R307-R309) -/

/-- PTW_WRITE (R308): a PTW_DATA write that enables byte 63; a block outside the populated tiers is not written. -/
def execPtwWrite (val : BitVec 64) (en : BitVec 8) (s : State) : Result State :=
  if !hostActs s || !en.getLsbD 7 then .next s
  else
    let s := { s with xl := { s.xl with ptwData := putBlock s.xl.ptwData 56 val en } }
    let pa := wbits s.xl.ptwAddr 6 40 * 64
    .next (if populated s pa then writePiece s { va := 0, pa, len := 64, key := 0, kind := 0 } (blockBytes s.xl.ptwData) else s)

/-- PTW_READ (R308); a corrected read is counted (01 R18), and a block that reads uncorrectable gives an open value (00 R8). -/
def execPtwRead (s : State) : Result State :=
  let pa := wbits s.xl.ptwAddr 6 40 * 64
  if !hostActs s then .next { s with hostRead := List.replicate 64 0 }
  else if populated s pa && badBlock s pa then
    .next { s with hostRead := blockBytes (Config.freeBlock s.freeCtr), freeCtr := s.freeCtr + 1 }
  else
    let t := if populated s pa && s.soft.contains (pa / 64) then countSoft s (homeDie pa) 1 else s
    .next { t with hostRead := blockBytes (ptwBlock s) }

/-- XL_INV (R308). -/
def execXlInv (val : BitVec 64) (s : State) : Result State :=
  if !hostActs s then .next s
  else if s.xl.inv.isSome then .next { s with xl := { s.xl with dropped := true } }
  else .next { s with xl := { s.xl with inv := some val, dropped := false, tlb := s.xl.tlb.filter fun e => !invMatches val e } }

/-- XL_INV_COMPLETE (R308): no access is under way that a dropped entry of any page size may have translated.
[DEDUCED, log 34] -/
def execXlInvComplete (s : State) : Result State :=
  match s.xl.inv with
  | none => .next s
  | some v =>
    if (openAccesses s).any fun a => a.1 == invCrew v && (invWhole v || a.2.2.toNat / 2 ^ 30 == invVA v / 2 ^ 30) then .next s
    else .next { s with xl := { s.xl with inv := none, count := s.xl.count + 1 } }

/-- TRANSLATION_WALK (R307, R309): a miss of a cache walks the crew's table; only a leaf is cached. -/
def execTranslationWalk (cache : Nat) (crew : Nat) (va : BitVec 64) (access : Access) (s : State) : Result State :=
  if 8 ≤ crew || !(getCrew s crew).en || (tlbEntry s cache crew va).isSome || wbits va 48 16 ≠ 0 then .next s
  else .next (walkPage s cache crew va access)

end Sys2Proof.Machine
end

