-- ==== Sys2Proof/Machine/Links.lean ====
section
/-! DEFINITION. Chip ports: received beats, failures, training, and the timecode mesh (01 R29-R40; 06 R140; 11 R270, R271,
R283; 13 R328). -/
namespace Sys2Proof.Machine

/-! ## Failure (01 R34) -/

/-- The scene circuits through a port: scene, number, circuit. -/
def portCircuits (s : State) (p : Nat) : List (Nat × Nat × SceneCircuit) :=
  s.scenes.flatMap fun k => (k.2.circuits.zipIdx.filter fun (q : SceneCircuit × Nat) =>
    match q.1.via with | some v => v.1 == p | none => false).map fun (q : SceneCircuit × Nat) => (k.1, q.2, q.1)

/-- Remote gathers through a port that are writing a row whose data have arrived (11 R271). -/
def portWriting (s : State) (p : Nat) : List (Nat × Op) :=
  s.eng.ops.filter fun q =>
    q.2.phase == .running && q.2.remote.isNone && cueOpc q.2.words == 0x03 && !q.2.todo.isEmpty && gatherPort s q.2 == some p

/-- Operations that await an answer through a port: remote arrivals and remote gathers. -/
def portOps (s : State) (p : Nat) : List (Nat × Op) :=
  s.eng.ops.filter fun q =>
    q.2.phase == .waiting && q.2.remote.isNone &&
    ((cueOpc q.2.words == 0x2A && arrivalPort s q.2 == some p) || (cueOpc q.2.words == 0x03 && gatherPort s q.2 == some p))

/-- Whatever passes through a port fails: operations complete with LINKFAIL, a gather once it has written the row it is at;
receiving circuits deliver an error token, and each region with a circuit through it takes a fabric fault. -/
def failTraffic (s : State) (p : Nat) : State :=
  let ops := portOps s p
  let s := (portWriting s p).foldl (fun s q => modOp s q.1 fun o => { o with linkDown := true }) s
  let s := ops.foldl (fun s q => finishOp s q.1 eLINKFAIL (if cueOpc q.2.words = 0x03 then gatherDetail q.2 else 0)) s
  let cs := portCircuits s p
  let s := cs.foldl (fun s (c : Nat × Nat × SceneCircuit) =>
    if c.2.2.outward then s else pushCircuit s c.1 c.2.1 (errorToken fLINKFAIL 0 0)) s
  let s := modChipPort s p fun q => { q with circuits := q.circuits.map fun c => { c with failed := true }, cmds := [], sent := [], due := [], replay := [] }
  cs.foldl (fun s (c : Nat × Nat × SceneCircuit) =>
    match getMember s c.1 (if c.2.2.outward then c.2.2.smem else c.2.2.dmem) with
    | some m => freezeRegion s m.region fLINKFAIL [] 0 false
    | none => s) s

/-- Whether a chip of a scene can no longer be reached. -/
def cutOffScene (s : State) (k : Scene) : Bool := (otherChips s k).any fun c => (portTowards s c).isNone

/-- Whether a scene, new or held, stands between FIT and its start tick, seen from this chip: a peer has answered FIT; at the home
chip it is committed, or a chip that has replied FIT is cut off. -/
def awaitsStart (s : State) (key : Nat) (k : Scene) : Bool :=
  k.xchip && !k.isHeld && (!k.started || (liveMembers k).any (·.2.state == .placed)) &&
  (if !k.home then k.told
   else k.tick.isSome || (match s.sched.xreqs.find? (·.serial == key) with
    | some q => (otherChips s k).any fun c => !q.waiting.contains c && (portTowards s c).isNone
    | none => false))

/-- A link failure between FIT and the start tick: the members are frozen, and the other chips are told (06 R141). -/
def failStarts (s : State) : State :=
  (s.scenes.filter fun p => awaitsStart s p.1 p.2 && cutOffScene s p.2).foldl (fun s p =>
    tellChips (freezeMembers (dropReq s p.1) p.1 p.2 fLINKFAIL) p.1 p.2 pFREEZE fLINKFAIL.toNat) s

/-- A port fails: state 3, or 4 when it is disabled. -/
def failPort (s : State) (p : Nat) (state : BitVec 4) : State :=
  let up := portUp s p
  let s := failTraffic s p
  let s := failStarts (modChipPort s p fun q => { q with state, dropping := false, tries := 0 })
  if up then writeEvent s 8 0x81 p 0 (BitVec.ofNat 64 p) 0 else s

/-! ## Receiving beats (01 R29, R30, R33) -/

/-- Ask for a replay from the first missing SEQ: beats are dropped until it arrives. When three replays of one beat have
failed, the port fails: each further uncorrectable codeword or reserved beat that comes before the awaited SEQ counts as one
replay that failed, also in a burst that comes before a replay could. [DEDUCED, log 15; DESIGN CHOICE, log 37] -/
def askReplay (s : State) (p : Nat) : State :=
  let q := getChipPort s p
  let n := if q.replays = BitVec.allOnes 32 then q.replays else q.replays + 1
  if 3 ≤ q.tries then failPort s p 3
  else sendControl (modChipPort s p fun q => { q with dropping := true, replays := n, tries := q.tries + 1 }) p [] true

/-- CODEWORD_UNCORRECTABLE (R33). -/
def execCodewordUncorrectable (port : Nat) (s : State) : Result State :=
  .next (if portUp s port then askReplay s port else s)

/-- A beat of a type arrives in order: the state with the next SEQ expected. A reserved TYPE is as an uncorrectable codeword; a
gap asks for a replay once; what follows is dropped until the expected SEQ arrives. -/
def receive (s : State) (p : Nat) (typ : BitVec 4) (b : Beat) (k : State → State) : Result State :=
  let q := getChipPort s p
  if !portUp s p then .next s
  else if 7 ≤ b.typ.toNat then .next (askReplay s p)
  else if b.typ ≠ typ then .next s
  else if b.seq ≠ q.rxSeq then .next (if q.dropping then s else askReplay s p)
  else .next (k (modChipPort s p fun q =>
    { q with rxSeq := q.rxSeq + 1, dropping := false, tries := 0, acked := b.ack }))

/-- A token reaches the circuit that arrives under a number. -/
def landToken (p : Nat) (b : Beat) (s : State) : State :=
  match (portCircuits s p).find? fun c => c.2.2.via == some (p, b.circ.toNat) && !c.2.2.outward with
  | some c => pushCircuit s c.1 c.2.1 (cleanTok { tag := b.tag, mask := b.mask, data := b.body })
  | none => s

/-- TOKEN_BEAT and REDUCTION_BEAT (R30): the token reaches its circuit, which an adder may take as its remote input. -/
def execTokenBeat (port : Nat) (beat : Beat) (s : State) : Result State := receive s port 1 beat (landToken port beat)
def execReductionBeat (port : Nat) (beat : Beat) (s : State) : Result State := receive s port 2 beat (landToken port beat)

/-- Send what a circuit holds while it has credit. -/
def flushAll : Nat → State → Nat → Nat → State
  | 0, s, _, _ => s
  | n + 1, s, k, c => flushAll n (flushCircuit s k c) k c

/-- One credit entry of a link-control beat: buffers of a circuit, or of the command or memory beats. [DEDUCED, log 15;
DESIGN CHOICE, log 16] [DEDUCED, log 15; DESIGN CHOICE, log 16] -/
def landCredit (p : Nat) (s : State) (e : Nat) : State :=
  let circ := bits e 0 12
  let n := bits e 12 8
  match bits e 20 4 with
  | 3 => modChipPort s p fun q => { q with cmdCredit := q.cmdCredit + n }
  | 6 => modChipPort s p fun q => { q with memCredit := q.memCredit + n }
  | typ =>
    if e = 0 then s
    else
      let s := modPortCircuit s p circ fun c => { c with credit := c.credit + n, reduce := typ == 2 }
      match (portCircuits s p).find? fun c => c.2.2.via == some (p, circ) && c.2.2.outward with
      | some c => flushAll n s c.1 c.2.1
      | none => s

/-- The status of a link-control beat: the other side's width, and a request for a replay after the beat's ACK.
[DESIGN CHOICE, log 16] -/
def landStatus (p : Nat) (ack : BitVec 12) (v : Nat) (s : State) : State :=
  modChipPort s p fun q =>
    let q := { q with farHalf := bits v 1 1 == 1 }
    if bits v 0 1 = 1 then replayFrom ack q else q

/-- LINK_CONTROL_BEAT (R30): up to 16 credit entries, and the training and lane status. -/
def execLinkControlBeat (port : Nat) (beat : Beat) (s : State) : Result State :=
  receive s port 5 beat fun s =>
    let e := fun k => bits beat.body.toNat (32 * k) 24
    landStatus port beat.ack (bits beat.body.toNat 24 8) ((List.range 16).foldl (fun s k => landCredit port s (e k)) s)

/-- Command or memory beats have left their receive buffers: the buffers' credit goes back (R31). -/
def freeBuffers (port typ n : Nat) (s : State) : State := sendControl s port [creditEntry typ 0 n] false

/-- The gather whose rows a circuit carries. [DESIGN CHOICE, log 16] -/
def gatherOf (s : State) (circ : Nat) : Option Nat :=
  (s.eng.ops.find? fun q => q.1 % 2048 == circ % 2048 && cueOpc q.2.words == 0x03 && q.2.phase == .waiting).map (·.1)

/-- MEMORY_BEAT (R30; 11 R270): a request of the peer, or a block of the rows asked for. -/
def execMemoryBeat (port : Nat) (beat : Beat) (s : State) : Result State :=
  receive s port 6 beat fun s =>
    freeBuffers port 6 1 (
      if beat.circ.toNat < 2048 then serveRequest s (port, beat.circ.toNat, beat.body)
      else match gatherOf s beat.circ.toNat with
        | some id => gatherData s id beat.body
        | none => s)

/-! ## Command packets (13 R328) -/

/-- Fields of a header. -/
def hKind (h : Word) : Nat := wbits h 60 4
def hCrew (h : Word) : Nat := wbits h 57 3
def hRemote (h : Word) : Bool := wbit h 56
def hChip (h : Word) : Nat := wbits h 52 4
def hDest (h : Word) : Nat := wbits h 36 16
def hSource (h : Word) : Nat := wbits h 20 16
def hTicket (h : Word) : Nat := wbits h 8 12
def hIdx (h : Word) : Nat := wbits h 4 4
def hLast (h : Word) : Nat := wbits h 0 4

/-- The cross-chip scene of a crew that has this serial (11 R283: every chip of the scene holds the same one). -/
def sceneBySerial (s : State) (crew serial : Nat) : Option Scene :=
  (s.scenes.find? fun q => q.2.xchip && q.2.crew == crew && q.1 % 65536 == serial).map (·.2)

/-- The operation that a remote arrival asks of this chip's sync engine, which answers through the port (11 R283). -/
def arrivalOp (s : State) (p : Nat) (h : Word) (a b : BitVec 128) : Op :=
  let peer := bits b.toNat 16 32
  let chip := match sceneBySerial s (hCrew h) (bits b.toNat 0 16) with
    | some k => k.chips.findIdx (· == peer)
    | none => p
  { words := (List.range 4).map fun i => BitVec.ofNat 32 (bits a.toNat (32 * i) 32)
    crew := hCrew h, scene := bits b.toNat 0 16, stage := hDest h / 2 ^ 14 * 128, ctx := none, sheet := 0
    sent := BitVec.ofNat 64 (bits b.toNat 64 64), remote := some { port := p, ticket := hTicket h, chip, dest := hSource h }, peer }

/-- A remote arrival enters the inbox of its sync engine; a CUE packet that holds no arrival is discarded. -/
def landArrival (s : State) (o : Op) : State := if cueOpc o.words ≠ 0x2A then s else newOp s o

/-- Whether an answer names this operation: the ticket, and for a cue the endpoint that issued it (13 R328). -/
def answers (h : Word) (q : Nat × Op) : Bool :=
  if cueOpc q.2.words = 0x03 then q.1 % 2048 == hTicket h % 2048
  else opTicket q.1 q.2 == hTicket h && opSource q.2 % 2 ^ 16 == hDest h

/-- A reply to a remote arrival or gather: status, DETAIL and the release timecode. -/
def landReply (s : State) (p : Nat) (h : Word) (a : BitVec 128) : State :=
  let status := BitVec.ofNat 16 (bits a.toNat 0 16)
  match (portOps s p).find? (answers h) with
  | some q =>
    let rel := bits a.toNat 80 48
    let detail := BitVec.ofNat 64 (bits a.toNat 16 64)
    if cueOpc q.2.words = 0x03 then gatherRefused s q.1 q.2 status detail
    else if status ≠ 0 then finishOp s q.1 status (if status = eBADPEER then BitVec.ofNat 64 (cuef q.2.words 2 1 4) else detail)
    else
      finishOp (if detail = 0 then s else slackSample s q.2 (q.2.sent.setWidth 48 |>.setWidth 64) rel) q.1 eOK 0
  | none => s

/-- A peer's answer to a request. -/
def answerOf (op : Nat) : Option PlaceReply :=
  if op = pFIT then some .fit else if op = pNOFIT then some .nofit else if op = pBADPEER then some .badpeer else none

/-- The slate of a placement request, from its packets after the first. [DESIGN CHOICE, log 16] -/
def requestWords (ps : List (BitVec 128)) : List Word :=
  (List.range 8).map fun i => BitVec.ofNat 64 (bits ((ps.getD (i / 2 + 1) 0).toNat) (64 * (i % 2)) 64)

/-- A placement request, its five packets whole. -/
def landRequest (s : State) (key crew : Nat) (ps : List (BitVec 128)) : State :=
  let words := requestWords ps
  let members := match readChipMap s crew (BitVec.ofNat 64 (slateField words 1 0 48)) (slateN words) with
    | some (.ok cm) => ownMembers s cm
    | _ => []
  runOr s (execPlacementRequest { serial := key, crew, words, members, eff := bits (ps.getD 0 0).toNat 64 3 } s)

/-- A member chip has ended its members of a scene. -/
def landEnded (s : State) (key chip : Nat) : State :=
  let s := modScene s key fun k => { k with away := k.away.erase chip }
  match getScene s key with
  | some k => if allEnded k then endScene s key else s
  | none => s

/-- A chip of the mesh tells that it is out of step, or in step again. [DESIGN CHOICE, log 16] -/
def landStep (s : State) (chip : Nat) (out : Bool) : State :=
  let l := s.links.peersOut.filter (· ≠ chip)
  { s with links := { s.links with peersOut := if out then l ++ [chip] else l } }

/-- A region of the scene on another chip froze under SCENEFRZ: the members here freeze with its cause (14 R353). -/
def orderMembers (s : State) (key : Nat) (cause : BitVec 16) : State :=
  match getScene s key with
  | some k => (liveMembers k).foldl (fun s (p : Nat × Member) => freezeRegion s p.2.region cause [] 0 false) s
  | none => s

/-- A scheduler message. -/
def landPlace (s : State) (h : Word) (ps : List (BitVec 128)) : State :=
  let a := ps.getD 0 0
  let op := bits a.toNat 0 4
  let key := sceneKey s (bits a.toNat 32 32) (bits a.toNat 16 16)
  let v := bits a.toNat 64 64
  match answerOf op with
  | some r => runOr s (execPlacementReply key v r s)
  | none =>
    if op = pREQUEST then landRequest s key (hCrew h) ps
    else if op = pCOMMIT then runOr s (execPlacementCommit key (BitVec.ofNat 64 v) s)
    else if op = pCANCEL then runOr s (execPlacementCancel key s)
    else if op = pTEARDOWN then
      runOr s (execPeerTeardown key (modScene s key fun k => { k with away := k.away.erase v }))
    else if op = pHOLD then followHold s key
    else if op = pFREEZE then (match getScene s key with | some k => freezeMembers (dropReq s key) key k (BitVec.ofNat 16 v) | none => s)
    else if op = pORDER then orderMembers s key (BitVec.ofNat 16 v)
    else if op = pENDED then landEnded s key v
    else if op = pSLACK then
      (match getMember s key (v % 2 ^ 16) with
       | some m => modRegion s m.region fun x => addSample x (((v / 2 ^ 16 : Nat) : Int))
       | none => s)
    else if op = pSTEP then
      (if v / 2 = s.chip.serial.toNat then landStep s (bits a.toNat 32 32) (v % 2 = 1)
       else match portTowards s (v / 2) with
         | some q => sendPacket s q h a
         | none => s)
    else s

/-- The packets of a message, by index, if all are there. -/
def wholeMessage (q : Port) (h : Word) : Option (List (BitVec 128)) :=
  (List.range (hLast h + 1)).mapM fun i =>
    (q.cmds.find? fun c => hKind c.1 == hKind h && hTicket c.1 == hTicket h && hSource c.1 == hSource h && hIdx c.1 == i).map (·.2)

/-- The chip that a message of a cross-chip scene is for, as its CHIP field names it in the scene's chip map, where this chip knows
it (13 R328). [DESIGN CHOICE, log 16] -/
def messageChip (s : State) (h : Word) (ps : List (BitVec 128)) : Option Nat :=
  let a := (ps.getD 0 0).toNat
  let chips :=
    if hKind h = 0 then ((sceneBySerial s (hCrew h) (bits (ps.getD 1 0).toNat 0 16)).map (·.chips)).getD []
    else if hKind h = 4 && bits a 0 4 ≠ pSTEP then
      match getScene s (sceneKey s (bits a 32 32) (bits a 16 16)) with
      | some k => k.chips
      | none =>
        if bits a 0 4 ≠ pREQUEST then []
        else
          let words := requestWords ps
          match readChipMap s (hCrew h) (BitVec.ofNat 64 (slateField words 1 0 48)) (slateN words) with
          | some (.ok cm) => cm.chips
          | _ => []
    else []
  (chips[hChip h]?).filter fun c => c ≠ 0 && c ≠ s.chip.serial.toNat

/-- Whether a router discards a packet: a reserved KIND, a reserved class of its destination, or a packet that does not leave its
chip (13 R328). -/
def packetBad (h : Word) : Bool := 5 ≤ hKind h || (bits (hDest h) 13 1 = 1 && 8 ≤ bits (hDest h) 9 4) || !hRemote h

/-- A whole message is delivered: it travels on to the chip that it names, or acts here. -/
def landMessage (s : State) (p : Nat) (h : Word) (ps : List (BitVec 128)) : State :=
  if packetBad h then s
  else
    match messageChip s h ps with
    | some c =>
      match portTowards s c with
      | some q => ps.zipIdx.foldl (fun s (b : BitVec 128 × Nat) => sendPacket s q (setBits h 4 4 b.2) b.1) s
      | none => s
    | none =>
      match hKind h with
      | 0 => landArrival s (arrivalOp s p h (ps.getD 0 0) (ps.getD 1 0))
      | 1 => landReply s p h (ps.getD 0 0)
      | 4 => landPlace s h ps
      | _ => s

/-- Whether a whole message must stay in its receive buffers: it is a remote arrival, and its engine's inbox is full (11 R261). -/
def messageWaits (s : State) (p : Nat) (h : Word) (ps : List (BitVec 128)) : Bool :=
  hKind h == 0 && !inboxRoom s (opEngine (arrivalOp s p h (ps.getD 0 0) (ps.getD 1 0)))

/-- The packet of a message with this header. -/
def sameMessage (h g : Word) : Bool := hKind g == hKind h && hTicket g == hTicket h && hSource g == hSource h

/-- A message leaves its receive buffers and is delivered, once it is whole and need not wait. -/
def landWhole (p : Nat) (s : State) (h : Word) : State :=
  match wholeMessage (getChipPort s p) h with
  | none => s
  | some ps =>
    if messageWaits s p h ps then s
    else
      let s := modChipPort s p fun q => { q with cmds := q.cmds.filter fun c => !sameMessage h c.1 }
      landMessage (freeBuffers p 3 ps.length s) p h ps

/-- The whole messages of a port that can be are delivered, in the order of their arrival. -/
def landMessages (s : State) (p : Nat) : State :=
  (((getChipPort s p).cmds.map (·.1)).filter (hIdx · == 0)).foldl (landWhole p) s

/-- A packet arrives (13 R328). [DESIGN CHOICE, log 16] -/
def landPacket (p : Nat) (body : Block) (s : State) : State :=
  let h := BitVec.ofNat 64 (bits body.toNat 0 64)
  landMessages (modChipPort s p fun q => { q with cmds := q.cmds ++ [(h, BitVec.ofNat 128 (bits body.toNat 64 128))] }) p

/-- The messages that wait in the ports' receive buffers are tried again. -/
def landAgain (s : State) : State :=
  (List.range 12).foldl (fun s p => if (getChipPort s p).cmds.isEmpty then s else landMessages s p) s

/-- COMMAND_BEAT (R30). -/
def execCommandBeat (port : Nat) (beat : Beat) (s : State) : Result State :=
  receive s port 3 beat (landPacket port beat.body)

/-! ## Training (01 R33, R34, R40; 03 R76) -/

/-- LANE_FAILURE (R33): the port retrains on the half that is whole, which measures its round trip anew (R40), and replays what
was in flight; with no whole half, or a round trip above 700 ns, it has failed. [DEDUCED, log 15] -/
def execLaneFailure (port : Nat) (retrain : LaneRetrain) (s : State) : Result State :=
  if !portUp s port then .next s
  else if !retrain.halfWhole then .next (failPort s port 3)
  else
    let s := modChipPort s port fun q => { q with rtt := BitVec.ofNat 16 retrain.rtt }
    if 700 < retrain.rtt then .next (failPort s port 3)
    else .next (sendControl (modChipPort s port fun q => replayFrom q.acked { q with state := 2 }) port [] false)

/-- PORT_RETRAIN (R40): the open circuits fail, and training begins, on a port too that self-test left untrained (03 R65). A
disabled port stays untrained. [DEDUCED, log 15] -/
def execPortRetrain (port : Nat) (s : State) : Result State :=
  if !hostActs s || 12 ≤ port || (getChipPort s port).disable then .next s
  else
    let s := modChipPort (failTraffic s port) port fun q => { q with state := 0, circuits := [], dropping := false, tries := 0 }
    .next { s with chip := { s.chip with deadPorts := s.chip.deadPorts.filter (· ≠ port) } }

/-- PORT_DISABLE (R40). -/
def execPortDisable (port : Nat) (s : State) : Result State :=
  if !hostActs s || 12 ≤ port then .next s
  else .next (failPort (modChipPort s port fun q => { q with disable := true }) port 4)

/-! ## The timecode mesh (01 R36-R39) -/

/-- The lowest serial of the chips that can be reached. -/
def lowestSerial (l : List Nat) : Option Nat :=
  l.foldl (fun best x => match best with | some b => some (min b x) | none => some x) none

/-- Whether a chip is the root among those it reaches: its serial is the lowest (R36). -/
def isLowest (own : Nat) (l : List Nat) : Bool := match lowestSerial l with | some b => own < b | none => true

/-- The port towards the root. -/
def upstreamPort (s : State) : Option Nat :=
  if s.links.root then none else (s.links.routes.find? (·.1 == s.links.rootSerial)).map (·.2)

/-- The root among the chips that are reached, the lowest serial, and the hops to it: this chip itself is 0 hops from itself
(R36). -/
def electRoot (own : Nat) (reach : List Reach) : Bool × Nat × Nat :=
  let root := isLowest own (reach.map (·.serial))
  let r := if root then own else (lowestSerial (reach.map (·.serial))).getD own
  (root, r, if root then 0 else ((reach.find? (·.serial == r)).map (·.hops)).getD 0)

/-- A signed number of 32 bits. -/
def offsetInt (v : BitVec 32) : Int := v.toInt

/-- Whether the chip is out of step, of which the other chips are told (R38). [DESIGN CHOICE, log 16] -/
def setStep (s : State) (out : Bool) : State :=
  if s.links.outOfStep = out then s
  else
    let s := { s with links := { s.links with outOfStep := out } }
    s.links.routes.foldl (fun s (r : Nat × Nat) =>
      sendPacket s r.2 (packetHeader 4 0 r.2 (unitEndpoint 0 5 0) (unitEndpoint 0 5 0) 0 0 0)
        (placePayload s 0 pSTEP ((if out then 1 else 0) + 2 * r.1))) s

/-- The rate that corrects a measured offset: within 100 ppm (R37). -/
def followRate (d : Int) : Int := max (-100) (min 100 (-d))

/-- A measured offset: the rate follows it within 100 ppm; beyond 64 tc the chip falls out of step and reports it. A chip that
a re-acquisition slews back goes on at -1,000 ppm until it is within 64 tc (R37, R38). [DEDUCED, log 15] -/
def takeOffset (s : State) (d : Int) : State :=
  let s := { s with links := { s.links with offset := BitVec.ofInt 32 d } }
  if s.links.slewing && 64 < d then s
  else
    let back := s.links.slewing
    let s := { s with links := { s.links with rate := followRate d, slewing := false } }
    if 64 < d.natAbs then
      if s.links.outOfStep then s else writeEvent (setStep s true) 8 0x80 0 0 (BitVec.ofInt 64 d) 0
    else if back then setStep s false
    else s

/-- TIMECODE_BEAT (R37): the upstream chip's time is the one it sent plus half the round trip measured with timecode beats.
[DEDUCED, log 15] -/
def execTimecodeBeat (port : Nat) (beat : TimedBeat) (s : State) : Result State :=
  receive s port 4 beat.beat fun s =>
    let sent := bits beat.beat.body.toNat 0 64
    let s := modChipPort s port fun q => { q with echo := BitVec.ofNat 64 sent }
    if upstreamPort s = some port && (getChipPort s port).tcOn then takeOffset s ((now s : Int) - (sent + beat.trip / 2 : Nat))
    else s

/-- TIMECODE_BEAT_SEND (R37): every 1,024 tc a timecode beat is due at every port; its body is made as it goes
(`timecodeBody`). [DESIGN CHOICE, log 16] -/
def execTimecodeBeatSend (s : State) : Result State :=
  if partStopped s || now s < s.links.lastBeat + 1024 then .next s
  else
    let s := { s with links := { s.links with lastBeat := now s } }
    .next ((List.range 12).foldl (fun s p => if (getChipPort s p).tcOn then sendBeat s p 4 0 0 0 0 else s) s)

/-- TIMECODE_REACQUIRE (R38, R40). -/
def execTimecodeReacquire (s : State) : Result State :=
  .next (if hostActs s then { s with links := { s.links with reacq := true } } else s)

/-- A cross-chip scene is resident: its members stand on this chip and are not held. -/
def residentXchip (s : State) : Bool := s.scenes.any fun p => p.2.xchip && !p.2.isHeld

/-- REACQUISITION (R38): a follower that is behind steps forward; one that is ahead slews until it is within 64 tc; the root, and a
chip with no upstream chip, keep their count. TCEN acts from here (R40). [DEDUCED, log 15] -/
def execReacquisition (s : State) : Result State :=
  if !s.links.reacq || residentXchip s then .next s
  else
    let s := { s with links := { s.links with
      reacq := false, ports := s.links.ports.map fun (q : Port) => { q with tcOn := q.tcen } } }
    let d := offsetInt s.links.offset
    if (upstreamPort s).isNone then .next (setStep { s with links := { s.links with rate := 0 } } false)
    else if 64 < d then .next { s with links := { s.links with rate := -1000, slewing := true } }
    else
      let s := if d < 0 then { s with timecode := s.timecode + BitVec.ofNat 64 d.natAbs } else s
      .next (setStep { s with links := { s.links with rate := 0, offset := if d < 0 then 0 else s.links.offset } } false)

/-- The chips that are reached, from their serials, the ports towards them and their hops. -/
def reachOf : List Nat → List Nat → List Nat → List Reach
  | serial :: ss, port :: ps, hops :: hs => { serial, port, hops } :: reachOf ss ps hs
  | _, _, _ => []

/-- ROOT_LOST (R39): of the chips that remain, the one with the lowest serial is the root; it keeps its count. One cut off from
every other chip free-runs, out of step. -/
def execRootLost (serials ports hops : List Nat) (s : State) : Result State :=
  let reach := reachOf serials ports hops
  let (root, serial, hops) := electRoot s.chip.serial.toNat reach
  let s := { s with links := { s.links with
    root, rootSerial := serial, hops := BitVec.ofNat 4 hops, routes := reach.map fun r => (r.serial, r.port)
    rate := if root then 0 else s.links.rate, slewing := s.links.slewing && !root } }
  .next (if reach = [] then setStep s true else s)

end Sys2Proof.Machine
end

