-- ==== Sys2Proof/Machine/Start.lean ====
section
/-! DEFINITION. Cold and warm starts, resets and power removal (02 R43; 03 R61-R66, R72, R76, R77). A start runs as one step,
on the report of what its tests find. -/
namespace Sys2Proof.Machine

/-! ## What a reset discards (02 R43) -/

/-- Everything held for crews is discarded without events; the listed registers return to their reset values. The fuses, the
flash, the fence map, the timecode, TR_INDEX, TCEN and DISABLE stay, as does what no list names. -/
def resetHost (s : State) : State :=
  let s := (s.scenes.map (·.1)).foldl dropScene s
  let p : Power := {}
  { s with
    hostWait := [], msixTable := State.reset.msixTable, msixPend := []
    crews := List.replicate 8 {}, devRing := { (({} : Ring)) with kept := s.devRing.kept }, sched := { (({} : Sched)) with nextOrder := s.sched.nextOrder }
    scenes := [], regions := [], ctxs := [], images := [], ctxImages := [], heldRegions := []
    stages := s.stages.map fun (q : Nat × Stage) => (q.1, { (({} : Stage)) with lastCtx := q.2.lastCtx })
    eng := { (({} : Engines)) with nextOp := s.eng.nextOp, nextSerial := s.eng.nextSerial }
    xl := { s.xl with inv := none, dropped := false, tlb := [] }
    chip := { s.chip with fwAddr := 0, fwLen := 0 }
    power := { s.power with
      modeReg := p.modeReg, capReg := p.capReg, mode := p.mode, cap := p.cap, lastAvg := 0, overs := 0, overRun := 0, lowRun := 0
      slackHi := p.slackHi, slackLo := p.slackLo, cut := 0, crews := p.crews } }

/-! ## The start steps (03 R61-R66) -/

/-- The image in the active bank. -/
def activeBank (c : Chip) : List Byte := if c.activeB then c.bankB else c.bankA

/-- Merge stages into a fence map. -/
def addFence (fence new : List Nat) : List Nat := fence ++ (new.filter fun i => !fence.contains i && i < 512)

/-- Whether a die has more than 16 fenced stages (R61 step 3). -/
def fenceFull (fence : List Nat) : Bool := (List.range 4).any fun d => 16 < (fence.filter fun i => dieOf i == d).length

/-- What self-test leaves, whether or not it passes: a stage that fails any attempt is fenced, and a chip port that fails has its
LINK_FAIL event written once the device ring is set up (R65). -/
def selfTest (r : StartReport) (s : State) : State :=
  let new := r.deadPorts.filter fun p => p < 12 && !s.chip.deadPorts.contains p
  writeKept { s with
    chip := { s.chip with
      fence := addFence (addFence s.chip.fence s.chip.fusedFence) r.fenced, deadPorts := s.chip.deadPorts ++ new }
    devRing := { s.devRing with kept := s.devRing.kept ++ new.map fun p => (p, s.timecode) } }

/-- The memory of step 2's write test: the lowest 64 KiB of each stack and of each fitted LPDDR-6 channel hold nothing that is
known. [DESIGN CHOICE, log 6] -/
def testAreas (s : State) : List (Nat × Nat) :=
  ((List.range 8).map fun k => (k * 2 ^ 36, 0x10000)) ++
  ((List.range 4).filter fun d => s.chip.lpddr.getD d 0 ≠ 0).map fun d => (0x8000000000 + d * 2 ^ 37, 0x40000)

/-- Memory after the write test. -/
def writeTest (s : State) : State :=
  (testAreas s).foldl (fun s (a : Nat × Nat) => { s with
    mem := clearBytes s.mem a.1 a.2, ciph := Sparse.clear s.ciph (a.1 / 64) ((a.1 + a.2) / 64)
    bad := s.bad.filter fun b => b < a.1 / 64 || (a.1 + a.2) / 64 ≤ b
    soft := s.soft.filter fun b => b < a.1 / 64 || (a.1 + a.2) / 64 ≤ b }) s

/-- What a step does before it is known to pass: the write test of a cold start, self-test, the clearing of the key store. The
read-back check of a warm start leaves memory as it is. [DESIGN CHOICE, log 37] -/
def stepBegin (cold : Bool) (r : StartReport) (n : Nat) (s : State) : State :=
  match n, cold with
  | 2, true => writeTest s
  | 3, true => selfTest r s
  | 5, _ => { s with keys := { s.keys with slots := [(0, 0)], changing := [], pend := none, hurt := [] } }
  | _, _ => s

/-- A chip port as step 6 leaves it: trained, failed for too long a round trip (01 R33), or untrained. It takes part in timecode
as its TCEN now says (01 R40). -/
def startPort (dead : List Nat) (r : StartReport) (p : Nat) (q : Port) : Port :=
  let fresh : Port := { tcen := q.tcen, tcOn := q.tcen, disable := q.disable, state := if q.disable then 4 else 0 }
  match r.trained.find? (·.1 == p) with
  | some t =>
    if q.disable || dead.contains p then fresh
    else { fresh with rtt := BitVec.ofNat 16 t.2, state := if 700 < t.2 then 3 else 1 }
  | none => fresh

/-- The chip ports as step 6 leaves them. -/
def startPorts (r : StartReport) (s : State) : List Port :=
  s.links.ports.zipIdx.map fun (q : Port × Nat) => startPort s.chip.deadPorts r q.2 q.1

/-- The chips of the mesh: those that answer through a port that ends trained and takes part in timecode (01 R36). -/
def meshReach (r : StartReport) (s : State) : List Reach :=
  let ps := startPorts r s
  r.reach.filter fun c => match ps[c.port]? with | some q => q.state == 1 && q.tcOn | none => false

/-- The root that step 6 finds: that of a mesh which already holds acquired time, or the one elected (R76; 01 R36). -/
def startRoot (r : StartReport) (s : State) : Bool × Nat × Nat :=
  let reach := meshReach r s
  match r.joins.filter fun k => reach.any (·.serial == k) with
  | some k => (false, k, ((reach.find? (·.serial == k)).map (·.hops)).getD 0)
  | none => electRoot s.chip.serial.toNat reach

/-- How deep the mesh is, as far as this chip sees it: from the root to itself, or to the others if it is the root. -/
def meshDepth (r : StartReport) (s : State) : Nat :=
  match startRoot r s with
  | (true, _, _) => ((meshReach r s).map (·.hops)).foldl max 0
  | (false, _, hops) => hops

/-- The causes with which a test of a step may fail (R61); the other causes are computed. -/
def testCauses (cold : Bool) (n : Nat) : List Nat :=
  match n, cold with
  | 1, _ => [1]
  | 2, true => [1, 2]
  | 2, false => [1, 2, 3]
  | 3, true => [2]
  | 4, true => [1, 2, 3]
  | 4, false => [4]
  | 5, _ => [1]
  | 6, true => [1, 2]
  | _, _ => []

/-- The cause that the start's report gives for a step: one of its own. -/
def reportCause (cold : Bool) (r : StartReport) (n : Nat) : Nat :=
  if r.failStep ≠ n then 0
  else if (testCauses cold n).contains r.failCause then r.failCause else (testCauses cold n).headD 0

/-- The cause with which a step fails, 0 when it passes. -/
def stepCause (cold : Bool) (r : StartReport) (n : Nat) (s : State) : Nat :=
  let found := reportCause cold r n
  match n with
  | 2 => if !cold && !s.chip.training then 3 else found
  | 3 => if !cold then 0 else if fenceFull s.chip.fence then 1 else found
  | 4 =>
    if found ≠ 0 then found
    else if cold then fwCause s.chip (activeBank s.chip)
    else if s.chip.loadedDigest = some (imageDigest s.chip.loadedImage) then 0 else 4
  | 5 => found
  | 6 =>
    if !cold then 0
    else if 16 < meshDepth r s then 1
    else if !(s.chip.serial.toNat :: (meshReach r s).map (·.serial)).Nodup then 2 else found
  | _ => found

/-- What a passed step leaves. An elected root starts its count at 0, with peers as without them (R76).
[DEDUCED, log 20; DESIGN CHOICE, log 37] -/
def stepPass (cold : Bool) (r : StartReport) (n : Nat) (s : State) : State :=
  let c := s.chip
  match n with
  | 2 => if cold then { s with chip := { c with training := true } } else s
  | 4 =>
    if !cold then s
    else
      let im := activeBank c
      { s with chip := { c with
          loadedImage := im, runVersion := BitVec.ofNat 16 (fwVersion im), recovery := false
          minVersion := if fwRaise im then max c.minVersion (fwVersion im) else c.minVersion } }
  | 6 =>
    if !cold then s
    else
      let reach := meshReach r s
      let (root, serial, hops) := startRoot r s
      { s with
        timecode := if root then 0 else r.upTime + BitVec.ofNat 64 (r.beatTrip / 2)
        power := { s.power with window := if root then 0 else (r.upTime.toNat + r.beatTrip / 2) / 1000000 }
        chip := { c with linkValid := true }
        links := { s.links with
          ports := startPorts r s, root, rootSerial := serial, hops := BitVec.ofNat 4 hops
          routes := reach.map fun c => (c.serial, c.port)
          outOfStep := false, reacq := false, slewing := false, peersOut := [], offset := 0, rate := 0, frac := 0, lastBeat := 0 } }
  | _ => s

/-- READY is set, and the running image's digest stands recorded; the thermal marker is cleared (04 R89). [DEDUCED, log 20] -/
def startDone (s : State) : State :=
  { s with chip := { s.chip with
      ready := true, stepCode := 0x70, attempts := 0, retryStep := none, thermalMarker := false
      loadedDigest := s.chip.loadedDigest <|> some (imageDigest s.chip.loadedImage) } }

/-- Run steps in turn up to the first that fails: the state, and the failing step and its cause. [DEDUCED, log 20] -/
def runSteps (cold : Bool) (r : StartReport) : List Nat → State → State × Option (Nat × Nat)
  | [], s => (startDone s, none)
  | n :: rest, s =>
    let s := stepBegin cold r n s
    match stepCause cold r n s with
    | 0 => runSteps cold r rest (stepPass cold r n s)
    | cause => (s, some (n, cause))

/-- The code of a step and cause (R62). [DEDUCED, log 20] -/
def startCode (n cause : Nat) : BitVec 8 := BitVec.ofNat 8 (16 * n + cause)

/-- The recovery image boots, or the part halts (R64). -/
def bootRecovery (s : State) (r : StartReport) : State :=
  if r.recoveryOk && fwCause s.chip s.chip.recoveryImage = 0 then
    { s with chip := { s.chip with
      recovery := true, retryStep := none, loadedImage := s.chip.recoveryImage, loadedDigest := none
      runVersion := BitVec.ofNat 16 (fwVersion s.chip.recoveryImage) } }
  else { s with chip := { s.chip with halt := some 0x4F, retryStep := none } }

/-- The cold steps from `n` on; a failed step is retried up to three times, and then the recovery image boots (R63).
[DESIGN CHOICE, log 3] -/
def coldFrom (s : State) (r : StartReport) (n : Nat) : State :=
  match runSteps true r ((List.range 6).map (· + 1) |>.filter (n ≤ ·)) s with
  | (s, none) => s
  | (s, some (k, cause)) =>
    let made := if k = n then s.chip.attempts + 1 else 1
    let s := { s with chip := { s.chip with
      ready := false, stepCode := startCode k cause, attempts := made, retryStep := some k
      bootAttempts := BitVec.ofNat 8 made, bootCode := startCode k cause } }
    if made < 4 then s else bootRecovery s r

/-- The part as a cold start begins: not READY, no fence, no trained port. -/
def coldBegin (s : State) : State :=
  let untrain := fun (q : Port) => { (({} : Port)) with tcen := q.tcen, tcOn := q.tcOn, disable := q.disable }
  { s with
    chip := { s.chip with
      ready := false, stepCode := 0x10, attempts := 0, retryStep := none, fence := [], recovery := false, halt := none
      bootThermal := s.chip.thermalMarker, loadedDigest := none, deadPorts := [], linkValid := false }
    power := { s.power with window := 0 }
    links := { s.links with ports := s.links.ports.map untrain, routes := [] } }

/-- The warm steps; a failure abandons them for a cold start, and its code stays in TR_BOOT (R63). [DEDUCED, log 20] -/
def warmRun (s : State) (r : StartReport) : State :=
  let s := { s with
    chip := { s.chip with ready := false, stepCode := 0x10, bootThermal := s.chip.thermalMarker }
    links := { s.links with ports := s.links.ports.map fun (q : Port) => { q with replays := 0 } } }
  match runSteps false r ((List.range 6).map (· + 1)) s with
  | (s, none) => s
  | (s, some (k, cause)) =>
    let s := coldFrom (coldBegin s) { r with failStep := r.coldStep, failCause := r.coldCause } 1
    if s.chip.bootCode.toNat ≠ 0 && s.chip.retryStep.isSome then s
    else { s with chip := { s.chip with bootCode := startCode k cause, bootAttempts := 1 } }

/-! ## Starts and resets -/

/-- COLD_START (R61): the module supply comes up. [DESIGN CHOICE, log 3] -/
def execColdStart (report : StartReport) (s : State) : Result State :=
  if s.chip.powered then .next s
  else .next (coldFrom (coldBegin { s with chip := { s.chip with powered := true } }) report 1)

/-- WARM_START (R61): a PCIe conventional reset. [DEDUCED, log 20] -/
def execWarmStart (report : StartReport) (s : State) : Result State :=
  if !hostActs s then .next s else .next (warmRun (resetHost s) report)

/-- FUNCTION_LEVEL_RESET (02 R43). [DEDUCED, log 20] -/
def execFunctionLevelReset (report : StartReport) (s : State) : Result State :=
  if !hostActs s then .next s else .next (warmRun (resetHost s) report)

/-- START_STEP_RETRY (R63). -/
def execStartStepRetry (report : StartReport) (s : State) : Result State :=
  match s.chip.retryStep with
  | some n => if hostActs s then .next (coldFrom s report n) else .next s
  | none => .next s

/-- RESTART (R72): what R43 discards is discarded without events, and a cold start runs. The registers that R43 lists return to
their reset values too: the device ring's, the power block's, TR_FWADDR, TR_FWLEN and the MSI-X table.
[DEDUCED, log 20; DESIGN CHOICE, log 37] -/
def execRestart (report : StartReport) (s : State) : Result State :=
  if !hostActs s then .next s
  else if s.chip.trCmd ≠ 0 then .next (trBusy s)
  else .next (coldFrom (coldBegin (trDone (resetHost s) 0)) report 1)

/-- POWER_REMOVAL (R77): only the fuses and the flash survive. Host memory is not the module's. -/
def execPowerRemoval (s : State) : Result State :=
  let c := s.chip
  .next { State.reset with
    agenda := s.agenda, flip := s.flip, cur := s.cur, freeCtr := s.freeCtr, hostRead := s.hostRead, hostMem := s.hostMem
    msix := s.msix
    keys := { slots := [] }
    chip := {
      powered := false, ready := false, stepCode := 0, serial := c.serial, revision := c.revision, fusedFence := c.fusedFence
      minVersion := c.minVersion, fwDigest := c.fwDigest, secret := c.secret, bankA := c.bankA, bankB := c.bankB
      recoveryImage := c.recoveryImage, activeB := c.activeB, training := c.training, index := c.index, cert := c.cert
      flashTakes := c.flashTakes, flashReads := c.flashReads, loadedDigest := none, linkValid := false, thermalMarker := c.thermalMarker, lpddr := c.lpddr } }

/-- PORT_TRAINING_COMPLETE (R76; 01 R33): a port that trains with a partner of another mesh leaves the chip out of step. One that
self-test left untrained trains only once it is told to (R65). -/
def execPortTrainingComplete (port : Nat) (rtt : Nat) (halfWidth : Bool) (otherMesh : Bool) (s : State) : Result State :=
  let q := getChipPort s port
  if partStopped s || 12 ≤ port || q.state ≠ 0 || q.disable || s.chip.deadPorts.contains port then .next s
  else
    let s := modChipPort s port fun q => { q with
      rtt := BitVec.ofNat 16 rtt, state := if halfWidth then 2 else 1, txSeq := 0, rxSeq := 0, acked := 0xFFF, sent := [], due := []
      replay := [], lane := none, dropping := false, tries := 0, cmdCredit := 64, memCredit := 64, farHalf := false }
    if 700 < rtt then .next (failPort s port 3)
    else if otherMesh && !s.links.outOfStep then
      .next (writeEvent (setStep s true) 8 0x80 0 0 (s.links.offset.signExtend 64) 0)
    else .next s

end Sys2Proof.Machine
end

