-- ==== Sys2Proof/Machine/Dispatch.lean ====
section
/-! DEFINITION. The dispatcher: one arm per constructor, each one call of that instruction's meaning. -/
namespace Sys2Proof.Machine

/-- What one instruction, operation or event of the opcode table does to the machine. -/
def exec (i : Instr) (s : State) : Host.Outcome State Fault Refusal :=
  match i with
  | .coldStart report => Sys2Proof.Machine.execColdStart report s
  | .warmStart report => Sys2Proof.Machine.execWarmStart report s
  | .functionLevelReset report => Sys2Proof.Machine.execFunctionLevelReset report s
  | .startStepRetry report => Sys2Proof.Machine.execStartStepRetry report s
  | .powerRemoval => Sys2Proof.Machine.execPowerRemoval s
  | .registerWrite off val en => Sys2Proof.Machine.execRegisterWrite off val en s
  | .crewEnable crew val => Sys2Proof.Machine.execCrewEnable crew val s
  | .crewTeardown crew => Sys2Proof.Machine.execCrewTeardown crew s
  | .peerTeardown serial => Sys2Proof.Machine.execPeerTeardown serial s
  | .slatePush crew prio val en => Sys2Proof.Machine.execSlatePush crew prio val en s
  | .queueUnseal crew prio => Sys2Proof.Machine.execQueueUnseal crew prio s
  | .launchGo crew slot => Sys2Proof.Machine.execLaunchGo crew slot s
  | .launchAbort crew slot => Sys2Proof.Machine.execLaunchAbort crew slot s
  | .launchRelease crew slot => Sys2Proof.Machine.execLaunchRelease crew slot s
  | .seedCommit crew slot entry val => Sys2Proof.Machine.execSeedCommit crew slot entry val s
  | .eventRingConsume ring val => Sys2Proof.Machine.execEventRingConsume ring val s
  | .dcHiRead crew => Sys2Proof.Machine.execDcHiRead crew s
  | .hostRegionRelease crew => Sys2Proof.Machine.execHostRegionRelease crew s
  | .hostMemoryRead crew off len => Sys2Proof.Machine.execHostMemoryRead crew off len s
  | .hostMemoryWrite crew off bytes => Sys2Proof.Machine.execHostMemoryWrite crew off bytes s
  | .pwStatRead => Sys2Proof.Machine.execPwStatRead s
  | .cecntRead die => Sys2Proof.Machine.execCecntRead die s
  | .sign => Sys2Proof.Machine.execSign s
  | .signComplete => Sys2Proof.Machine.execSignComplete s
  | .update => Sys2Proof.Machine.execUpdate s
  | .updateComplete => Sys2Proof.Machine.execUpdateComplete s
  | .restart report => Sys2Proof.Machine.execRestart report s
  | .keyLoad slot => Sys2Proof.Machine.execKeyLoad slot s
  | .keyLoadComplete => Sys2Proof.Machine.execKeyLoadComplete s
  | .keyRetire slot count => Sys2Proof.Machine.execKeyRetire slot count s
  | .keyRetireComplete => Sys2Proof.Machine.execKeyRetireComplete s
  | .ptwWrite val en => Sys2Proof.Machine.execPtwWrite val en s
  | .ptwRead => Sys2Proof.Machine.execPtwRead s
  | .xlInv val => Sys2Proof.Machine.execXlInv val s
  | .xlInvComplete => Sys2Proof.Machine.execXlInvComplete s
  | .timecodeReacquire => Sys2Proof.Machine.execTimecodeReacquire s
  | .reacquisition => Sys2Proof.Machine.execReacquisition s
  | .portRetrain port => Sys2Proof.Machine.execPortRetrain port s
  | .portDisable port => Sys2Proof.Machine.execPortDisable port s
  | .tokenBeat port beat => Sys2Proof.Machine.execTokenBeat port beat s
  | .reductionBeat port beat => Sys2Proof.Machine.execReductionBeat port beat s
  | .commandBeat port beat => Sys2Proof.Machine.execCommandBeat port beat s
  | .timecodeBeat port beat => Sys2Proof.Machine.execTimecodeBeat port beat s
  | .timecodeBeatSend => Sys2Proof.Machine.execTimecodeBeatSend s
  | .linkControlBeat port beat => Sys2Proof.Machine.execLinkControlBeat port beat s
  | .memoryBeat port beat => Sys2Proof.Machine.execMemoryBeat port beat s
  | .codewordUncorrectable port => Sys2Proof.Machine.execCodewordUncorrectable port s
  | .laneFailure port retrain => Sys2Proof.Machine.execLaneFailure port retrain s
  | .rootLost serials ports hops => Sys2Proof.Machine.execRootLost serials ports hops s
  | .thermalReading readings => Sys2Proof.Machine.execThermalReading readings s
  | .capWindow module crews => Sys2Proof.Machine.execCapWindow module crews s
  | .baseLevelChange cluster level => Sys2Proof.Machine.execBaseLevelChange cluster level s
  | .generatorSwitch cluster => Sys2Proof.Machine.execGeneratorSwitch cluster s
  | .pacingStep region => Sys2Proof.Machine.execPacingStep region s
  | .ballastCut => Sys2Proof.Machine.execBallastCut s
  | .schedulingPass => Sys2Proof.Machine.execSchedulingPass s
  | .slateEnter crew => Sys2Proof.Machine.execSlateEnter crew s
  | .spillWrite queue => Sys2Proof.Machine.execSpillWrite queue s
  | .refillRead queue => Sys2Proof.Machine.execRefillRead queue s
  | .placementRequest req => Sys2Proof.Machine.execPlacementRequest req s
  | .placementReply serial peer reply => Sys2Proof.Machine.execPlacementReply serial peer reply s
  | .placementTimeout serial => Sys2Proof.Machine.execPlacementTimeout serial s
  | .placementCommit serial tick => Sys2Proof.Machine.execPlacementCommit serial tick s
  | .placementCancel serial => Sys2Proof.Machine.execPlacementCancel serial s
  | .startTick serial => Sys2Proof.Machine.execStartTick serial s
  | .holdBegin serial => Sys2Proof.Machine.execHoldBegin serial s
  | .holdMarker unit => Sys2Proof.Machine.execHoldMarker unit s
  | .holdComplete serial => Sys2Proof.Machine.execHoldComplete serial s
  | .regionSaveComplete serial member => Sys2Proof.Machine.execRegionSaveComplete serial member s
  | .memberEnd serial member => Sys2Proof.Machine.execMemberEnd serial member s
  | .configurationLoad region => Sys2Proof.Machine.execConfigurationLoad region s
  | .configurationCompleteWave region => Sys2Proof.Machine.execConfigurationCompleteWave region s
  | .startInjection region => Sys2Proof.Machine.execStartInjection region s
  | .wrapSample region => Sys2Proof.Machine.execWrapSample region s
  | .freeze region soft => Sys2Proof.Machine.execFreeze region soft s
  | .regionReplay region => Sys2Proof.Machine.execRegionReplay region s
  | .regionRelease region => Sys2Proof.Machine.execRegionRelease region s
  | .regionReport region => Sys2Proof.Machine.execRegionReport region s
  | .tokenForward stage tile output => Sys2Proof.Machine.execTokenForward stage tile output s
  | .adderPair adder => Sys2Proof.Machine.execAdderPair adder s
  | .translationWalk cache crew va access => Sys2Proof.Machine.execTranslationWalk cache crew va access s
  | .asyncTrap ctx => Sys2Proof.Machine.execAsyncTrap ctx s
  | .runAhead ctx => Sys2Proof.Machine.execRunAhead ctx s
  | .loadDataReturn ctx index => Sys2Proof.Machine.execLoadDataReturn ctx index s
  | .storePerform ctx index => Sys2Proof.Machine.execStorePerform ctx index s
  | .cueEntryIssue stage => Sys2Proof.Machine.execCueEntryIssue stage s
  | .cueEntryRetire stage entry => Sys2Proof.Machine.execCueEntryRetire stage entry s
  | .operationComplete op => Sys2Proof.Machine.execOperationComplete op s
  | .walkStep op => Sys2Proof.Machine.execWalkStep op s
  | .walkHandoff op => Sys2Proof.Machine.execWalkHandoff op s
  | .rulesetInstall op engine => Sys2Proof.Machine.execRulesetInstall op engine s
  | .barrierElapsed crew die index => Sys2Proof.Machine.execBarrierElapsed crew die index s
  | .barrierTimeout crew die index => Sys2Proof.Machine.execBarrierTimeout crew die index s
  | .add d a b => Sys2Proof.Machine.execAdd d a b s
  | .sub d a b => Sys2Proof.Machine.execSub d a b s
  | .and d a b => Sys2Proof.Machine.execAnd d a b s
  | .or d a b => Sys2Proof.Machine.execOr d a b s
  | .xor d a b => Sys2Proof.Machine.execXor d a b s
  | .sll d a b => Sys2Proof.Machine.execSll d a b s
  | .srl d a b => Sys2Proof.Machine.execSrl d a b s
  | .sra d a b => Sys2Proof.Machine.execSra d a b s
  | .slt d a b => Sys2Proof.Machine.execSlt d a b s
  | .sltu d a b => Sys2Proof.Machine.execSltu d a b s
  | .mul d a b => Sys2Proof.Machine.execMul d a b s
  | .mulh d a b => Sys2Proof.Machine.execMulh d a b s
  | .mulhu d a b => Sys2Proof.Machine.execMulhu d a b s
  | .div d a b => Sys2Proof.Machine.execDiv d a b s
  | .divu d a b => Sys2Proof.Machine.execDivu d a b s
  | .rem d a b => Sys2Proof.Machine.execRem d a b s
  | .remu d a b => Sys2Proof.Machine.execRemu d a b s
  | .addi d a imm => Sys2Proof.Machine.execAddi d a imm s
  | .andi d a imm => Sys2Proof.Machine.execAndi d a imm s
  | .ori d a imm => Sys2Proof.Machine.execOri d a imm s
  | .xori d a imm => Sys2Proof.Machine.execXori d a imm s
  | .slti d a imm => Sys2Proof.Machine.execSlti d a imm s
  | .slli d a n => Sys2Proof.Machine.execSlli d a n s
  | .srli d a n => Sys2Proof.Machine.execSrli d a n s
  | .srai d a n => Sys2Proof.Machine.execSrai d a n s
  | .ldi d imm => Sys2Proof.Machine.execLdi d imm s
  | .lsi d a imm => Sys2Proof.Machine.execLsi d a imm s
  | .lb d a imm => Sys2Proof.Machine.execLb d a imm s
  | .lbu d a imm => Sys2Proof.Machine.execLbu d a imm s
  | .lh d a imm => Sys2Proof.Machine.execLh d a imm s
  | .lhu d a imm => Sys2Proof.Machine.execLhu d a imm s
  | .lw d a imm => Sys2Proof.Machine.execLw d a imm s
  | .lwu d a imm => Sys2Proof.Machine.execLwu d a imm s
  | .ld d a imm => Sys2Proof.Machine.execLd d a imm s
  | .sb d a imm => Sys2Proof.Machine.execSb d a imm s
  | .sh d a imm => Sys2Proof.Machine.execSh d a imm s
  | .sw d a imm => Sys2Proof.Machine.execSw d a imm s
  | .sd d a imm => Sys2Proof.Machine.execSd d a imm s
  | .ldp d a imm => Sys2Proof.Machine.execLdp d a imm s
  | .stp d a imm => Sys2Proof.Machine.execStp d a imm s
  | .lda d a width scope => Sys2Proof.Machine.execLda d a width scope s
  | .sdr a b width scope => Sys2Proof.Machine.execSdr a b width scope s
  | .beq a b off => Sys2Proof.Machine.execBeq a b off s
  | .bne a b off => Sys2Proof.Machine.execBne a b off s
  | .blt a b off => Sys2Proof.Machine.execBlt a b off s
  | .bge a b off => Sys2Proof.Machine.execBge a b off s
  | .bltu a b off => Sys2Proof.Machine.execBltu a b off s
  | .bgeu a b off => Sys2Proof.Machine.execBgeu a b off s
  | .j off => Sys2Proof.Machine.execJ off s
  | .jal off => Sys2Proof.Machine.execJal off s
  | .jalr link a imm => Sys2Proof.Machine.execJalr link a imm s
  | .hint off => Sys2Proof.Machine.execHint off s
  | .take d a act wmask map => Sys2Proof.Machine.execTake d a act wmask map s
  | .ctx d a wmask map => Sys2Proof.Machine.execCtx d a wmask map s
  | .bindSource d a b port => Sys2Proof.Machine.execBindSource d a b port s
  | .bindSink d a b port => Sys2Proof.Machine.execBindSink d a b port s
  | .bindSeed d port => Sys2Proof.Machine.execBindSeed d port s
  | .bindQuery d port => Sys2Proof.Machine.execBindQuery d port s
  | .seed d a b port => Sys2Proof.Machine.execSeed d a b port s
  | .wrapw d => Sys2Proof.Machine.execWrapw d s
  | .hold d => Sys2Proof.Machine.execHold d s
  | .cue d a => Sys2Proof.Machine.execCue d a s
  | .waitc l st c t => Sys2Proof.Machine.execWaitc l st c t s
  | .fence scope => Sys2Proof.Machine.execFence scope s
  | .spawn d a => Sys2Proof.Machine.execSpawn d a s
  | .join a => Sys2Proof.Machine.execJoin a s
  | .bar d a phase => Sys2Proof.Machine.execBar d a phase s
  | .algld a slot => Sys2Proof.Machine.execAlgld a slot s
  | .trap imm => Sys2Proof.Machine.execTrap imm s
  | .tret => Sys2Proof.Machine.execTret s
  | .sysr d reg => Sys2Proof.Machine.execSysr d reg s
  | .sysw d reg => Sys2Proof.Machine.execSysw d reg s
  | .copy op => Sys2Proof.Machine.execCopy op s
  | .copyad op => Sys2Proof.Machine.execCopyad op s
  | .rgather op => Sys2Proof.Machine.execRgather op s
  | .zero op => Sys2Proof.Machine.execZero op s
  | .walk op => Sys2Proof.Machine.execWalk op s
  | .rsload op => Sys2Proof.Machine.execRsload op s
  | .rsrel op => Sys2Proof.Machine.execRsrel op s
  | .atadd op => Sys2Proof.Machine.execAtadd op s
  | .atmin op => Sys2Proof.Machine.execAtmin op s
  | .atmax op => Sys2Proof.Machine.execAtmax op s
  | .atand op => Sys2Proof.Machine.execAtand op s
  | .ator op => Sys2Proof.Machine.execAtor op s
  | .atxor op => Sys2Proof.Machine.execAtxor op s
  | .atswp op => Sys2Proof.Machine.execAtswp op s
  | .atcas op => Sys2Proof.Machine.execAtcas op s
  | .accadd op => Sys2Proof.Machine.execAccadd op s
  | .barinit op => Sys2Proof.Machine.execBarinit op s
  | .arrive op => Sys2Proof.Machine.execArrive op s
  | .alloc op => Sys2Proof.Machine.execAlloc op s
  | .swrite op => Sys2Proof.Machine.execSwrite op s
  | .sread op => Sys2Proof.Machine.execSread op s
  | .cbind op => Sys2Proof.Machine.execCbind op s
  | .crel op => Sys2Proof.Machine.execCrel op s
  | .regen op => Sys2Proof.Machine.execRegen op s
  | .save op => Sys2Proof.Machine.execSave op s
  | .restore op => Sys2Proof.Machine.execRestore op s
  | .pass stage tile oslot => Sys2Proof.Machine.execPass stage tile oslot s
  | .steer stage tile oslot => Sys2Proof.Machine.execSteer stage tile oslot s
  | .merge stage tile oslot => Sys2Proof.Machine.execMerge stage tile oslot s
  | .carry stage tile oslot => Sys2Proof.Machine.execCarry stage tile oslot s
  | .invar stage tile oslot => Sys2Proof.Machine.execInvar stage tile oslot s
  | .fork stage tile oslot => Sys2Proof.Machine.execFork stage tile oslot s
  | .joinOperator stage tile oslot => Sys2Proof.Machine.execJoinOperator stage tile oslot s
  | .permit stage tile oslot => Sys2Proof.Machine.execPermit stage tile oslot s
  | .aluAdd stage slot => Sys2Proof.Machine.execAluAdd stage slot s
  | .aluSub stage slot => Sys2Proof.Machine.execAluSub stage slot s
  | .aluMul stage slot => Sys2Proof.Machine.execAluMul stage slot s
  | .aluFma stage slot => Sys2Proof.Machine.execAluFma stage slot s
  | .aluMin stage slot => Sys2Proof.Machine.execAluMin stage slot s
  | .aluMax stage slot => Sys2Proof.Machine.execAluMax stage slot s
  | .aluAbs stage slot => Sys2Proof.Machine.execAluAbs stage slot s
  | .aluNeg stage slot => Sys2Proof.Machine.execAluNeg stage slot s
  | .aluRcp stage slot => Sys2Proof.Machine.execAluRcp stage slot s
  | .aluRsqrt stage slot => Sys2Proof.Machine.execAluRsqrt stage slot s
  | .aluAdds stage slot => Sys2Proof.Machine.execAluAdds stage slot s
  | .aluSubs stage slot => Sys2Proof.Machine.execAluSubs stage slot s
  | .aluCeq stage slot => Sys2Proof.Machine.execAluCeq stage slot s
  | .aluCne stage slot => Sys2Proof.Machine.execAluCne stage slot s
  | .aluClt stage slot => Sys2Proof.Machine.execAluClt stage slot s
  | .aluCle stage slot => Sys2Proof.Machine.execAluCle stage slot s
  | .aluSel stage slot => Sys2Proof.Machine.execAluSel stage slot s
  | .aluAnd stage slot => Sys2Proof.Machine.execAluAnd stage slot s
  | .aluOr stage slot => Sys2Proof.Machine.execAluOr stage slot s
  | .aluXor stage slot => Sys2Proof.Machine.execAluXor stage slot s
  | .aluNot stage slot => Sys2Proof.Machine.execAluNot stage slot s
  | .aluShl stage slot => Sys2Proof.Machine.execAluShl stage slot s
  | .aluShr stage slot => Sys2Proof.Machine.execAluShr stage slot s
  | .aluSra stage slot => Sys2Proof.Machine.execAluSra stage slot s
  | .aluClz stage slot => Sys2Proof.Machine.execAluClz stage slot s
  | .aluPopc stage slot => Sys2Proof.Machine.execAluPopc stage slot s
  | .aluMov stage slot => Sys2Proof.Machine.execAluMov stage slot s
  | .aluBcast stage slot => Sys2Proof.Machine.execAluBcast stage slot s
  | .algAmul stage slot => Sys2Proof.Machine.execAlgAmul stage slot s
  | .algAconj stage slot => Sys2Proof.Machine.execAlgAconj stage slot s
  | .algAnorm stage slot => Sys2Proof.Machine.execAlgAnorm stage slot s
  | .algAscale stage slot => Sys2Proof.Machine.execAlgAscale stage slot s
  | .algAadd stage slot => Sys2Proof.Machine.execAlgAadd stage slot s
  | .algAsub stage slot => Sys2Proof.Machine.execAlgAsub stage slot s
  | .cvtCvt stage slot => Sys2Proof.Machine.execCvtCvt stage slot s
  | .cvtCvti stage slot => Sys2Proof.Machine.execCvtCvti stage slot s
  | .cvtCvtf stage slot => Sys2Proof.Machine.execCvtCvtf stage slot s
  | .cvtCvta stage slot => Sys2Proof.Machine.execCvtCvta stage slot s
  | .wcvSplit stage slot => Sys2Proof.Machine.execWcvSplit stage slot s
  | .wcvPack stage slot => Sys2Proof.Machine.execWcvPack stage slot s
  | .wcvUnzip stage slot => Sys2Proof.Machine.execWcvUnzip stage slot s
  | .rdcSumc stage slot => Sys2Proof.Machine.execRdcSumc stage slot s
  | .rdcSuma stage slot => Sys2Proof.Machine.execRdcSuma stage slot s
  | .rdcMaxr stage slot => Sys2Proof.Machine.execRdcMaxr stage slot s
  | .rdcMinr stage slot => Sys2Proof.Machine.execRdcMinr stage slot s
  | .rdcCnt stage slot => Sys2Proof.Machine.execRdcCnt stage slot s
  | .rdcArgmax stage slot => Sys2Proof.Machine.execRdcArgmax stage slot s
  | .seqRange stage slot => Sys2Proof.Machine.execSeqRange stage slot s
  | .seqNest stage slot => Sys2Proof.Machine.execSeqNest stage slot s
  | .seqMtok stage slot => Sys2Proof.Machine.execSeqMtok stage slot s
  | .seqBtab stage slot => Sys2Proof.Machine.execSeqBtab stage slot s
  | .seqTags stage slot => Sys2Proof.Machine.execSeqTags stage slot s
  | .isxIsect stage slot => Sys2Proof.Machine.execIsxIsect stage slot s
  | .isxUnion stage slot => Sys2Proof.Machine.execIsxUnion stage slot s
  | .isxDiff stage slot => Sys2Proof.Machine.execIsxDiff stage slot s
  | .spaAccum stage slot => Sys2Proof.Machine.execSpaAccum stage slot s
  | .spaFlush stage slot => Sys2Proof.Machine.execSpaFlush stage slot s
  | .spaFlushs stage slot => Sys2Proof.Machine.execSpaFlushs stage slot s
  | .spaClr stage slot => Sys2Proof.Machine.execSpaClr stage slot s
  | .fltKeep stage slot => Sys2Proof.Machine.execFltKeep stage slot s
  | .fltDrop stage slot => Sys2Proof.Machine.execFltDrop stage slot s
  | .fltCompact stage slot => Sys2Proof.Machine.execFltCompact stage slot s
  | .ordReord stage slot => Sys2Proof.Machine.execOrdReord stage slot s
  | .ordTag stage slot => Sys2Proof.Machine.execOrdTag stage slot s
  | .elbSlack stage slot => Sys2Proof.Machine.execElbSlack stage slot s
  | .elbWatch stage slot => Sys2Proof.Machine.execElbWatch stage slot s
  | .crtTurn stage slot => Sys2Proof.Machine.execCrtTurn stage slot s
  | .crtTurnw stage slot => Sys2Proof.Machine.execCrtTurnw stage slot s
  | .mma stage => Sys2Proof.Machine.execMma stage s
  | .mmaa stage => Sys2Proof.Machine.execMmaa stage s
  | .mmas stage => Sys2Proof.Machine.execMmas stage s
  | .mmab stage => Sys2Proof.Machine.execMmab stage s
  | .accClear stage => Sys2Proof.Machine.execAccClear stage s
  | .drainp stage => Sys2Proof.Machine.execDrainp stage s
  | .drainf stage => Sys2Proof.Machine.execDrainf stage s
  | .stat stage => Sys2Proof.Machine.execStat stage s
  | .mtxNop stage => Sys2Proof.Machine.execMtxNop stage s
  | .memLd stage slot => Sys2Proof.Machine.execMemLd stage slot s
  | .memSt stage slot => Sys2Proof.Machine.execMemSt stage slot s
  | .memLdx stage slot => Sys2Proof.Machine.execMemLdx stage slot s
  | .memStx stage slot => Sys2Proof.Machine.execMemStx stage slot s
  | .memGld stage slot => Sys2Proof.Machine.execMemGld stage slot s
  | .memGst stage slot => Sys2Proof.Machine.execMemGst stage slot s
  | .memGldx stage slot => Sys2Proof.Machine.execMemGldx stage slot s
  | .memGstx stage slot => Sys2Proof.Machine.execMemGstx stage slot s
  | .memTas stage slot => Sys2Proof.Machine.execMemTas stage slot s
  | .memRadd stage slot => Sys2Proof.Machine.execMemRadd stage slot s
  | .memRmin stage slot => Sys2Proof.Machine.execMemRmin stage slot s
  | .memRmax stage slot => Sys2Proof.Machine.execMemRmax stage slot s
  | .memRor stage slot => Sys2Proof.Machine.execMemRor stage slot s
  | .memRand stage slot => Sys2Proof.Machine.execMemRand stage slot s
  | .memRxor stage slot => Sys2Proof.Machine.execMemRxor stage slot s
  | .memEcue stage slot => Sys2Proof.Machine.execMemEcue stage slot s
  | .gath stage => Sys2Proof.Machine.execGath stage s
  | .gseq stage => Sys2Proof.Machine.execGseq stage s
  | .accessPerform stage index => Sys2Proof.Machine.execAccessPerform stage index s
  | .squareGrant stage array square => Sys2Proof.Machine.execSquareGrant stage array square s
  | .combiningBufferRelease stage index => Sys2Proof.Machine.execCombiningBufferRelease stage index s
  | .freezeOrder region cause => Sys2Proof.Machine.execFreezeOrder region cause s
  | .portTrainingComplete port rtt halfWidth otherMesh => Sys2Proof.Machine.execPortTrainingComplete port rtt halfWidth otherMesh s

end Sys2Proof.Machine
end

