-- ==== Sys2Proof/Machine/Background.lean ====
section
/-! DEFINITION. The part's own events that an empty schedule runs: the candidates take turns, and an event is enabled
when it changes the state. Events whose data come from outside (host accesses, beats, sensor readings), and run-ahead
and translation-cache fills, which only the schedule can ask for, are not among them. -/
namespace Sys2Proof.Machine

/-- The timecode as `tc` ticks pass, at its corrected rate; the millionths of a tick left over are kept (01 R35, R37). -/
def passTimecode (s : State) (tc : Nat) : State :=
  let t := s.links.frac + tc * ((1000000 : Int) + s.links.rate).toNat
  { s with timecode := s.timecode + BitVec.ofNat 64 (t / 1000000), links := { s.links with frac := t % 1000000 } }

/-- Time passes: `tc` ticks of the timecode, `fc` cycles of every region, and `cyc` cycles of the directors, which running
contexts count (18 R480). The chip ports send what is due, requests that wait for a key (11 R270) and messages that wait for a
place in an inbox (11 R261) are tried again, and error tokens of a freeze enter their circuits (14 R353), writes of memory nodes that have nothing more in progress leave the
combining buffers (09 R218), and controller groups restore their copies of key slots from good ones (12 R311).
[DESIGN CHOICE, log 13] -/
def passTime (s : State) (tc fc cyc : Nat) : State :=
  let s := landAgain (serveAgain (passTimecode (passPower (now s) tc (passBarriers s tc)) tc))
  let s := s.scenes.foldl (fun s p => sendLates s p.1) s
  let s := (s.stages.filter fun (p : Nat × Stage) => !p.2.comb.isEmpty).foldl (fun s p => settleBuffer s p.1) s
  { s with
    keys := { s.keys with hurt := s.keys.hurt.filter fun q => !keyGood s q.2 }
    links := { s.links with ports := s.links.ports.map (sendBeats s.timecode tc) }
    regions := s.regions.map fun (p : Nat × Region) => (p.1, { p.2 with fc := p.2.fc + fc })
    ctxs := s.ctxs.map fun (p : Nat × Ctx) =>
      (p.1, if p.2.state = .running then { p.2 with cyc := p.2.cyc + BitVec.ofNat 64 cyc } else p.2) }

/-- An event of the part: what it does to the state. -/
abbrev Event := State → Result State

/-- The events of a unit whose configuration has this kind. -/
def kindEvents (stage slot kind : Nat) : List Event :=
  match kind with
  | 0 => [execAluAdd stage slot, execAluSub stage slot, execAluMul stage slot, execAluFma stage slot, execAluMin stage slot,
    execAluMax stage slot, execAluAbs stage slot, execAluNeg stage slot, execAluRcp stage slot, execAluRsqrt stage slot,
    execAluAdds stage slot, execAluSubs stage slot, execAluCeq stage slot, execAluCne stage slot, execAluClt stage slot,
    execAluCle stage slot, execAluSel stage slot, execAluAnd stage slot, execAluOr stage slot, execAluXor stage slot,
    execAluNot stage slot, execAluShl stage slot, execAluShr stage slot, execAluSra stage slot, execAluClz stage slot,
    execAluPopc stage slot, execAluMov stage slot, execAluBcast stage slot]
  | 1 => [execAlgAmul stage slot, execAlgAconj stage slot, execAlgAnorm stage slot, execAlgAscale stage slot,
    execAlgAadd stage slot, execAlgAsub stage slot]
  | 2 => [execCvtCvt stage slot, execCvtCvti stage slot, execCvtCvtf stage slot, execCvtCvta stage slot]
  | 3 => [execWcvSplit stage slot, execWcvPack stage slot, execWcvUnzip stage slot]
  | 4 => [execRdcSumc stage slot, execRdcSuma stage slot, execRdcMaxr stage slot, execRdcMinr stage slot, execRdcCnt stage slot,
    execRdcArgmax stage slot]
  | 5 => [execSeqRange stage slot, execSeqNest stage slot, execSeqMtok stage slot, execSeqBtab stage slot, execSeqTags stage slot]
  | 6 => [execIsxIsect stage slot, execIsxUnion stage slot, execIsxDiff stage slot]
  | 7 => [execSpaAccum stage slot, execSpaFlush stage slot, execSpaFlushs stage slot, execSpaClr stage slot]
  | 8 => [execFltKeep stage slot, execFltDrop stage slot, execFltCompact stage slot]
  | 9 => [execOrdReord stage slot, execOrdTag stage slot]
  | 10 => [execElbSlack stage slot, execElbWatch stage slot]
  | 11 => [execCrtTurn stage slot, execCrtTurnw stage slot]
  | 13 => [execMemLd stage slot, execMemSt stage slot, execMemLdx stage slot, execMemStx stage slot, execMemGld stage slot,
    execMemGst stage slot, execMemGldx stage slot, execMemGstx stage slot, execMemTas stage slot, execMemRadd stage slot,
    execMemRmin stage slot, execMemRmax stage slot, execMemRor stage slot, execMemRand stage slot, execMemRxor stage slot,
    execMemEcue stage slot]
  | 12 => [execMma stage, execMmaa stage, execMmas stage, execMmab stage, execAccClear stage, execDrainp stage, execDrainf stage,
    execStat stage, execMtxNop stage]
  | 14 => [execGath stage, execGseq stage]
  | _ => []

/-- Outstanding accesses of the contexts. -/
def accessEvents (s : State) : List Event :=
  s.ctxs.flatMap fun p =>
    (List.range p.2.loads.length).map (execLoadDataReturn p.1) ++
    ((List.range p.2.stores.length).map (execStorePerform p.1))

/-- The engines' operations. -/
def opEvents (id : Nat) (o : Op) : List Event :=
  match o.phase with
  | .finished => [execOperationComplete id]
  | .asked => [execSave id, execRestore id]
  | .inbox =>
    [execCopy id, execCopyad id, execRgather id, execZero id, execWalk id, execRsload id, execRsrel id, execAtadd id, execAtmin id, execAtmax id, execAtand id,
     execAtor id, execAtxor id, execAtswp id, execAtcas id, execAccadd id, execBarinit id, execArrive id, execAlloc id, execSwrite id, execSread id,
     execCbind id, execCrel id, execRegen id, execSave id, execRestore id]
  | _ => [execWalkStep id, execWalkHandoff id, execCopy id, execCopyad id, execZero id, execRgather id, execRegen id] ++ (o.todo.take 1).map (execRulesetInstall id)

/-- The cue tables. -/
def tableEvents (s : State) : List Event :=
  s.stages.flatMap fun p =>
    if p.2.table.isEmpty then []
    else (List.range p.2.table.length).map (execCueEntryRetire p.1) ++ [execCueEntryIssue p.1]

/-- A stage's units, operator slots and routers. -/
def stageEvents (s : State) (x : Region) (stage : Nat) : List Event :=
  let g := getStage s stage
  let units := (List.range 13).flatMap fun slot =>
    match unitCfg g x slot with
    | some c => kindEvents stage slot (cfgKind c)
    | none => []
  let slots := (List.range 16).flatMap fun o =>
    match slotRop g x (o / 4) (o % 4) with
    | 0 => [execPass stage (o / 4) (o % 4)]
    | 1 => [execSteer stage (o / 4) (o % 4)]
    | 2 => [execMerge stage (o / 4) (o % 4)]
    | 3 => [execCarry stage (o / 4) (o % 4)]
    | 4 => [execInvar stage (o / 4) (o % 4)]
    | 5 => [execFork stage (o / 4) (o % 4)]
    | 6 => [execJoinOperator stage (o / 4) (o % 4)]
    | 7 => [execPermit stage (o / 4) (o % 4)]
    | _ => []
  let outs := (List.range 4 ++ (List.range 16).map (0x20 + ·) ++ [0x30, 0x31])
  let forwards := (List.range 4).flatMap fun t => outs.map fun o => execTokenForward stage t (BitVec.ofNat 6 o)
  let ports := (List.range ((activeCtx x).map (·.bindings.length) |>.getD 0)).map fun k => execAccessPerform stage (k + 2)
  units ++ slots ++ ports ++ forwards

/-- The accesses of a stage's nodes, of its gather unit and matrix node, and of the engines that work there. -/
def memoryEvents (s : State) (stage : Nat) (g : Stage) : List Event :=
  let nodes := [9, 10].flatMap fun slot =>
    match (getUnit s stage slot).op with
    | some m => (m.events.take 1).map fun e => (e.array, squareOf e.array e.addr)
    | none => []
  let asked := (g.reqs.filter fun q => !q.done).map fun q => (q.array, squareOf q.array q.addr)
  let mends := g.mend.map fun k => (k.1, squareOf k.1 k.2)
  ((nodes ++ asked ++ mends).eraseDups.map fun k => execSquareGrant stage k.1 k.2) ++
  [execAccessPerform stage 0, execAccessPerform stage 1]

/-- A region's events. -/
def regionEvents (s : State) (r : Nat) (x : Region) : List Event :=
  [execConfigurationLoad r, execConfigurationCompleteWave r, execStartInjection r, execFreeze r []] ++
  (if x.phase == .started then
    (regionStages r x).flatMap (stageEvents s x) ++ [execWrapSample r] ++
    (if x.holding then (regionStages r x).flatMap fun i => ((List.range 13) ++ (List.range 16).map (16 + ·)).map fun u =>
      execHoldMarker { stage := i, slot := u } else [])
   else []) ++ [execPacingStep r]

/-- Buffered writes that leave of their own accord. -/
def bufferEvents (s : State) : List Event :=
  let stages := ((s.stages.map fun (p : Nat × Stage) => p.1) ++ s.ctxs.map fun (p : Nat × Ctx) => p.1 / 4).eraseDups
  stages.map fun i => execCombiningBufferRelease i 0

/-- A scene's events. -/
def sceneEvents (k : Nat) (x : Scene) : List Event :=
  let ms := List.range x.members.length
  [execStartTick k, execHoldBegin k, execHoldComplete k] ++ ms.map (execRegionSaveComplete k) ++ ms.map (execMemberEnd k) ++
  x.orders.map fun o => execFreezeOrder o.1 o.2

/-- The scheduler's, the sync engine's and the adders' events. -/
def partEvents (s : State) : List Event :=
  (List.range 8).map execSlateEnter ++ (List.range 64).map execSpillWrite ++ (List.range 64).map execRefillRead ++
  s.sched.xreqs.map (fun q => execPlacementTimeout q.serial) ++ [execSchedulingPass] ++
  s.eng.waits.flatMap (fun b => [execBarrierTimeout b.crew b.die b.index, execBarrierElapsed b.crew b.die b.index]) ++
  s.eng.adders.map fun p => execAdderPair p.1

/-- The device page's and the power controller's events. -/
def deviceEvents (s : State) : List Event :=
  [hostNext, execBallastCut, execKeyLoadComplete, execKeyRetireComplete, execXlInvComplete, execSignComplete, execUpdateComplete, execTimecodeBeatSend, execReacquisition] ++
  (s.power.clusters.zipIdx.flatMap fun (p : Cluster × Nat) =>
    match p.1.queued with
    | some l => [execBaseLevelChange p.2 l, execGeneratorSwitch p.2]
    | none => [execGeneratorSwitch p.2])

/-- The candidates, in the order in which they are tried. [DESIGN CHOICE, log 1] -/
def candidateEvents (s : State) : List Event :=
  accessEvents s ++ (s.eng.ops.flatMap fun p => opEvents p.1 p.2) ++ tableEvents s ++
  (s.regions.flatMap fun p => regionEvents s p.1 p.2) ++ (s.stages.flatMap fun p => memoryEvents s p.1 p.2) ++ (s.scenes.flatMap fun p => sceneEvents p.1 p.2) ++
  partEvents s ++ deviceEvents s ++ bufferEvents s

/-- The first event of a list that changes the state, with its place in the list and what it leaves. -/
def firstEnabled (s : State) : Nat → List Event → Option (Nat × Result State)
  | _, [] => none
  | k, e :: rest =>
    match e s with
    | .next t => if t = s then firstEnabled s (k + 1) rest else some (k, .next t)
    | r => some (k, r)

/-- One of the part's own events, if one is enabled. The candidates take turns: the search begins after the one that came
last, so that none is passed over for ever. [DESIGN CHOICE, log 1] -/
def background (s : State) : Option (Result State) :=
  let l := candidateEvents s
  let k := s.turn % max 1 l.length
  (firstEnabled s (k + 1) (l.drop k ++ l.take k)).map fun q =>
    match q.2 with
    | .next t => .next { t with turn := q.1 % max 1 l.length }
    | r => r

end Sys2Proof.Machine
end

