-- ==== Sys2Proof/Machine/Step.lean ====
section
/-! DEFINITION. One step of the part. The schedule says who moves: an event of the table, a director, or time. With an
empty schedule the directors and the part's own events take turns. -/
namespace Sys2Proof.Machine

/-- Context `c` uses its issue slot: the trap of an acquire-marked cue that retired with BADCUE is taken (12 R290), or a pending
asynchronous trap, or the instruction at its pc runs. [DEDUCED, log 29] -/
def issueCtx (s : State) (c : Nat) : Result State :=
  let s := prepIssue s c
  match (getCtx s c).acqBad with
  | some v => .next (takeTrap (modCtx s c fun x => { x with acqBad := none }) c tBADCUE 0 v false (getCtx s c).pc)
  | none =>
  if !(getCtx s c).pend.isEmpty && !(getCtx s c).tm then .next (takePending s c)
  else
    match fetch s c with
    | .trap cause sub => .next (preciseTrap s cause sub (getCtx s c).pc)
    | .wait => .next (stallCur s)
    | .word w s =>
      match decode w with
      | .ok i => exec i s
      | .error _ => .next (preciseTrap s tILLEGAL 0 (w.setWidth 64))

/-- Whether a context that waited still waits at the same instruction: it was not ready. -/
def stillWaits (s s' : State) (c : Nat) : Bool :=
  (match (getCtx s c).wait with | .stall => true | .step _ => true | _ => false) &&
  (getCtx s' c).wait == (getCtx s c).wait && (getCtx s' c).pc == (getCtx s c).pc

/-- The first ready context of the list issues. -/
def issueFirst (s : State) : List Nat → Option (Result State)
  | [] => none
  | c :: rest =>
    match issueCtx s c with
    | .next s' => if stillWaits s s' c then issueFirst s rest else some (.next s')
    | r => some r

/-- The stages whose contexts take turns when the schedule is empty: those after the stage that issued last come first.
[DESIGN CHOICE, log 1] -/
def turnStages (s : State) : List Nat :=
  let all := (s.ctxs.map fun p => p.1 / 4).eraseDups
  all.filter (ctxStage s.cur < ·) ++ all.filter (· ≤ ctxStage s.cur)

/-- The first stage with a ready context issues. [DESIGN CHOICE, log 1] -/
def issueAny (s : State) : List Nat → Option (Result State)
  | [] => none
  | g :: rest =>
    match issueFirst s (readyList s g) with
    | some r => some r
    | none => issueAny s rest

/-- The step of an empty schedule: the directors and the part's own events take turns. A tick passes with each; the
directors' cycles pass with an issue, and when neither can move.
[DESIGN CHOICE, log 1; DESIGN CHOICE, log 13; DESIGN CHOICE, log 35] -/
def idleStep (s : State) : Result State :=
  if partStopped s then .fault .stopped
  else
    let t := { s with flip := !s.flip }
    let u := passTime t 1 1 1
    let bg := background (passTime t 1 1 0)
    if s.flip then bg.getD ((issueAny u (turnStages u)).getD (.next u))
    else (issueAny u (turnStages u)).getD (bg.getD (.next u))

/-- One step. [DESIGN CHOICE, log 1; DESIGN CHOICE, log 12] -/
def step (s : State) : Host.Outcome State Fault Refusal :=
  match s.agenda with
  | [] => idleStep s
  | .event i :: rest => if (encode i).isSome then .next { s with agenda := rest } else exec i { s with agenda := rest }
  | .issue g :: rest =>
    let t := { s with agenda := rest }
    if partStopped t then .next t else (issueFirst t (readyList t g)).getD (.next t)
  | .tick tc fc :: rest => .next (passTime { s with agenda := rest } tc fc fc)

/-! ## Placing one instruction for the next step -/

/-- The physical and virtual address of the placed instruction. [DESIGN CHOICE, log 11] -/
def placeAddr : Nat := 0x100000

/-- The page tables of the placed program: one 1 GiB page, virtual = physical, key slot 1, readable, writable and
executable. [DESIGN CHOICE, log 11] -/
def placeTables (s : State) : State :=
  let s := { s with ciph := Sparse.erase (Sparse.erase s.ciph 0x400) 0x440,
                    bad := s.bad.filter fun b => b ≠ 0x400 && b ≠ 0x440 && b ≠ 0x4000 }
  { s with mem := putBytes (putBytes s.mem 0x10000 (leBytes 8 0x8000000000011000))
             0x11000 (leBytes 8 0xC800400000000800) }

/-- The scene, member and region in which the placed program runs: scene 0 of crew 0, one member on stage 0.
[DESIGN CHOICE, log 11] -/
def placeScene (s : State) : State :=
  let s := setScene s 0 { crew := 0, prio := 0, order := 0, sub := 0, words := List.replicate 8 0,
                          members := [{ region := 0, w := 1, h := 1, ctx := some 0, state := .running }], started := true }
  let s := setRegion s 0 { w := 1, h := 1, crew := 0, scene := 0, member := 0, ctx := some 0 }
  modStage s 0 fun g => { g with region := some 0, lastCtx := 3, icache := [] }

/-- The state with an instruction stored where the step fetches its next instruction. Nothing runs from reset until a scene
is placed: this stands for a placed one-member scene of crew 0 whose context is at the instruction. [DESIGN CHOICE, log 11] -/
def State.withFetchWord (s : State) (nbits w : Nat) : State :=
  let word : Code := BitVec.ofNat 32 (w % 2 ^ nbits)
  let s := placeScene (placeTables s)
  let s := modCrew s 0 fun c => { c with en := true, ptroot := 0x10000, keys := 0x10001 }
  let s := { s with keys := { s.keys with slots := Sparse.insert s.keys.slots 1 0, changing := [], hurt := [] },
                    xl := { s.xl with tlb := [] }, ciph := Sparse.insert s.ciph (placeAddr / 64) 0 }
  let s := { s with mem := putBytes s.mem placeAddr (codeBytes word) }
  let s := modCtx s 0 fun x =>
    { x with state := .running, pc := BitVec.ofNat 64 placeAddr, wait := .none, pend := [], loads := [], acq := none, acqBad := none,
             scene := 0, member := 0, crew := 0 }
  { s with agenda := [], flip := false, cur := 0, chip := { s.chip with powered := true, halt := none } }

end Sys2Proof.Machine
end

