-- ==== Sys2Proof/Safety.lean ====
section
/-! DEFINITION. The notions the claims are stated in: when a script instruction can complete, what an instruction leaves
alone, and the form of the state that every step keeps. -/
namespace Sys2Proof

open Sys2Proof.Machine

/-! ## Invariants -/

/-- Global memory and host memory are in canonical form. -/
def memoryWf (s : State) : Bool := Memory.wf s.mem && Memory.wf s.hostMem

/-- The contexts, stages, regions and scenes are listed with strictly rising numbers. -/
def risingKeys {α : Type} : List (Nat × α) → Bool
  | [] => true
  | [_] => true
  | p :: q :: rest => decide (p.1 < q.1) && risingKeys (q :: rest)

/-! ## The running context -/

/-- The context whose turn it is runs, and none of the registers awaits a load's data (05 R118). -/
def OperandsReady (s : State) (rs : List (BitVec 5)) : Prop := (curCtx s).state = .running ∧ busyRegs s rs = false

/-- No trap handler runs in the context whose turn it is, and it has a handler address (12 R290). -/
def TrapReady (s : State) : Prop := (curCtx s).tm = false ∧ (curCtx s).xvec ≠ 0

/-- The context `x` after a precise trap (12 R289, R290): the cause, the address and the value are recorded, TM is set, the pc
is the handler's address, and its rushes entries are freed. -/
def Trapped (x y : Ctx) (cause sub : BitVec 8) (val retpc : Word) : Prop :=
  y.xcause = (sub ++ cause : BitVec 16).setWidth 64 ∧ y.xpc = retpc ∧ y.xval = val ∧ y.tm = true ∧ y.pc = x.xvec ∧
  y.rushes = [] ∧ y.g = x.g ∧ y.lr = x.lr ∧ y.xvec = x.xvec

/-- The special registers that a trap does not write are as before, and so is the private memory (18 R480). -/
def SpecialSame (x y : Ctx) : Prop :=
  y.lr = x.lr ∧ y.xvec = x.xvec ∧ y.sheet = x.sheet ∧ y.dcidx = x.dcidx ∧ y.gen = x.gen ∧ y.cyc = x.cyc ∧
  y.mapLast = x.mapLast ∧ y.copies = x.copies ∧ y.tiles = x.tiles ∧ y.loads = x.loads ∧ y.priv = x.priv

/-- Everything but the contexts is the same. -/
def SameButCtxs (s t : State) : Prop := t = { s with ctxs := t.ctxs }

/-- Only context `c` may differ among the contexts. -/
def OtherCtxsSame (s t : State) (c : Nat) : Prop := ∀ c', c' ≠ c → getCtx t c' = getCtx s c'

/-- A store without its place in the stream port's order. -/
def unstamped (e : Store) : Store := { e with stamp := 0 }

/-- Two lists of stores that differ at most in the places they have in their stream port's order (09 R210). -/
def SameStores (l m : List Store) : Prop := l.map unstamped = m.map unstamped

/-- Everything but the contexts is the same, and the next place in the order of one stage's stream port. -/
def SameButPort (s t : State) (stage : Nat) : Prop :=
  t = { s with ctxs := t.ctxs, stages := t.stages } ∧
  ∃ n, ∀ i, getStage t i = if i = stage then { getStage s i with portNext := n } else getStage s i

/-- A context is the same, but for the places of its stores in the stream port's order. -/
def SameButStamps (s t : State) (c : Nat) : Prop :=
  ∃ l, SameStores l (getCtx s c).stores ∧ getCtx t c = { getCtx s c with stores := l }

/-- Another context than `c` is at most ordered anew at its stage's stream port, and nothing but the contexts and that port's
next place differs: what an instruction or a trap of context `c` leaves alone when its UO writes leave the combining buffer
(09 R210, R218). -/
def OthersSame (s t : State) (c : Nat) : Prop := SameButPort s t (ctxStage c) ∧ ∀ d, d ≠ c → SameButStamps s t d

/-- An access's translation has gone through its cache: only cached translations differ, and the count of corrected errors where
memory holds a correctable one (12 R309, R311). -/
def UsedCache (s u : State) : Prop :=
  u = { s with xl := { s.xl with tlb := u.xl.tlb }, chip := { s.chip with cecnt := u.chip.cecnt } } ∧
  (s.soft = [] → u.chip.cecnt = s.chip.cecnt)

/-- A read of a block counts its corrected error, if it has one, and nothing else changes but the contexts (01 R18). -/
def SameButCount (s t : State) (pa : Nat) : Prop :=
  (s.soft.contains (pa / 64) = false → SameButCtxs s t) ∧
  (s.soft.contains (pa / 64) = true → SameButCtxs { s with chip := { s.chip with
    cecnt := modAt s.chip.cecnt (homeDie pa) fun c => BitVec.ofNat 32 (min (2 ^ 32 - 1) (c.toNat + 1)) } } t)

/-- Every byte of global memory, of host memory and of the arrays reads as before. -/
def MemorySame (s t : State) : Prop :=
  (∀ k a, readInBlock t k a 1 = readInBlock s k a 1) ∧ (∀ a, rawBytes t.hostMem a 1 = rawBytes s.hostMem a 1) ∧
  (∀ i a, rawBytes (getStage t i).warr a 1 = rawBytes (getStage s i).warr a 1 ∧
    rawBytes (getStage t i).xarr a 1 = rawBytes (getStage s i).xarr a 1 ∧
    rawBytes (getStage t i).yarr a 1 = rawBytes (getStage s i).yarr a 1)

/-! ## Units of the fabric -/

/-- The element operations with their kind, operation code and rule (15 R380-R397, R399). -/
def ElementRule (s : State) (stage slot : Nat) (i : Instr) (kind op : Nat) (rule : Rule) : Prop :=
  (i, kind, op, rule) ∈ ([(.aluAdd stage slot, 0, 0, ruleAlu 0), (.aluSub stage slot, 0, 1, ruleAlu 1), (.aluMul stage slot, 0, 2, ruleAlu 2),
   (.aluFma stage slot, 0, 3, ruleAlu 3), (.aluMin stage slot, 0, 4, ruleAlu 4), (.aluMax stage slot, 0, 5, ruleAlu 5),
   (.aluAbs stage slot, 0, 6, ruleAlu 6), (.aluNeg stage slot, 0, 7, ruleAlu 7), (.aluRcp stage slot, 0, 8, ruleAlu 8),
   (.aluRsqrt stage slot, 0, 9, ruleAlu 9), (.aluAdds stage slot, 0, 10, ruleAlu 10),
   (.aluSubs stage slot, 0, 11, ruleAlu 11), (.aluCeq stage slot, 0, 12, ruleAlu 12),
   (.aluCne stage slot, 0, 13, ruleAlu 13), (.aluClt stage slot, 0, 14, ruleAlu 14), (.aluCle stage slot, 0, 15, ruleAlu 15),
   (.aluSel stage slot, 0, 16, ruleAlu 16), (.aluAnd stage slot, 0, 17, ruleAlu 17), (.aluOr stage slot, 0, 18, ruleAlu 18),
   (.aluXor stage slot, 0, 19, ruleAlu 19), (.aluNot stage slot, 0, 20, ruleAlu 20), (.aluShl stage slot, 0, 21, ruleAlu 21),
   (.aluShr stage slot, 0, 22, ruleAlu 22), (.aluSra stage slot, 0, 23, ruleAlu 23), (.aluClz stage slot, 0, 24, ruleAlu 24),
   (.aluPopc stage slot, 0, 25, ruleAlu 25), (.aluMov stage slot, 0, 26, ruleAlu 26),
   (.aluBcast stage slot, 0, 27, ruleAlu 27), (.algAmul stage slot, 1, 0, ruleAlg 0 (stageAlgs s stage)),
   (.algAconj stage slot, 1, 1, ruleAlg 1 (stageAlgs s stage)), (.algAnorm stage slot, 1, 2, ruleAlg 2 (stageAlgs s stage)),
   (.algAscale stage slot, 1, 3, ruleAlg 3 (stageAlgs s stage)), (.algAadd stage slot, 1, 4, ruleAlg 4 (stageAlgs s stage)),
   (.algAsub stage slot, 1, 5, ruleAlg 5 (stageAlgs s stage)), (.cvtCvt stage slot, 2, 0, ruleCvt 0),
   (.cvtCvti stage slot, 2, 1, ruleCvt 1)] : List (Instr × Nat × Nat × Rule)) ∨
  (i, kind, op, rule) ∈ ([(.cvtCvtf stage slot, 2, 2, ruleCvt 2), (.cvtCvta stage slot, 2, 3, ruleCvt 3), (.wcvSplit stage slot, 3, 0, ruleSplit),
   (.wcvPack stage slot, 3, 1, rulePack), (.wcvUnzip stage slot, 3, 2, ruleUnzip), (.rdcSumc stage slot, 4, 0, ruleRdc 0),
   (.rdcSuma stage slot, 4, 1, ruleRdc 1), (.rdcMaxr stage slot, 4, 2, ruleRdc 2), (.rdcMinr stage slot, 4, 3, ruleRdc 3),
   (.rdcCnt stage slot, 4, 4, ruleRdc 4), (.rdcArgmax stage slot, 4, 5, ruleRdc 5), (.seqRange stage slot, 5, 0, ruleSeq 0),
   (.seqNest stage slot, 5, 1, ruleSeq 1), (.seqMtok stage slot, 5, 2, ruleSeq 2), (.seqBtab stage slot, 5, 3, ruleBtab),
   (.seqTags stage slot, 5, 4, ruleTags), (.isxIsect stage slot, 6, 0, ruleIsx 0), (.isxUnion stage slot, 6, 1, ruleIsx 1),
   (.isxDiff stage slot, 6, 2, ruleIsx 2), (.spaAccum stage slot, 7, 0, ruleSpa 0), (.spaFlush stage slot, 7, 1, ruleSpa 1),
   (.spaFlushs stage slot, 7, 2, ruleSpa 2), (.spaClr stage slot, 7, 3, ruleSpa 3),
   (.fltKeep stage slot, 8, 0, ruleKeep false), (.fltDrop stage slot, 8, 1, ruleKeep true),
   (.fltCompact stage slot, 8, 2, ruleCompact), (.ordReord stage slot, 9, 0, ruleReord (outputRoom s stage slot)),
   (.ordTag stage slot, 9, 1, ruleTag), (.crtTurn stage slot, 11, 0, ruleTurn 32), (.crtTurnw stage slot, 11, 1, ruleTurn 64)] : List (Instr × Nat × Nat × Rule))

/-- The tokens of a group that leave on the outputs of a unit reach the buffers that the outputs feed, and no other router
buffer of the stage changes. -/
def Sends (s t : State) (x : Region) (stage slot : Nat) (l : List (Nat × Token)) : Prop :=
  ∀ k, getBuf (getStage t stage) k = getBuf (getStage s stage) k ++ l.filterMap fun q =>
    if outKey (getStage s stage) x (slotTile slot) (unitEnd slot q.1) = some k then some { tok := q.2, at_ := x.fc } else none

/-- Only the stages differ, and of these only one. -/
def OnlyStage (s t : State) (stage : Nat) : Prop :=
  t = { s with stages := t.stages } ∧ ∀ i, i ≠ stage → getStage t i = getStage s i

/-! ## Engine operations -/

/-- An operation that stands at the head of its engine's inbox. -/
def AtHead (s : State) (id : Nat) (o : Op) (opc : Nat) : Prop :=
  getOp s id = some o ∧ o.phase = .inbox ∧ cueOpc o.words = opc ∧
  ∀ p ∈ inboxOf s (opEngine o), id ≤ p.1

/-- An operation that its engine takes from the head of its inbox and works on: its cue keeps its layout, what it read when it
issued could be read, and the engine has room for one more in flight (11 R261, 17 R431). -/
def Starts (s : State) (id : Nat) (o : Op) (opc : Nat) : Prop :=
  AtHead s id o opc ∧ cueBad s o = false ∧ flightRoom s (opEngine o) = true ∧ o.pre = none

/-- The engine cues with their opcodes (13 R325). -/
def engineCues (id : Nat) : List (Instr × Nat) :=
  [(.copy id, 0x01), (.copyad id, 0x02), (.rgather id, 0x03), (.zero id, 0x04), (.walk id, 0x10), (.rsload id, 0x11),
   (.rsrel id, 0x12), (.atadd id, 0x20), (.atmin id, 0x21), (.atmax id, 0x22), (.atand id, 0x23), (.ator id, 0x24),
   (.atxor id, 0x25), (.atswp id, 0x26), (.atcas id, 0x27), (.accadd id, 0x28), (.barinit id, 0x29), (.arrive id, 0x2A),
   (.alloc id, 0x2B), (.swrite id, 0x2C), (.sread id, 0x2D), (.cbind id, 0x30), (.crel id, 0x31), (.regen id, 0x40),
   (.save id, 0x50), (.restore id, 0x51)]

end Sys2Proof
end

