-- ==== Sys2Proof/Certificates/Slice0/Obligations.lean ====
section
/-! DEFINITION. The claims about the machine, stated over `exec` and `step`. Each name says what it states, and each
docstring cites the rules it rests on. A statement that rests on a choice of the model says so and names the log entry. -/

open Sys2Proof Sys2Proof.Machine


/-! ## Encoding (13 R329-R332) -/

/-- Every instruction that has a word is decoded from it, with every operand at every value (13 R329-R332). -/
def Obligations.DecodeEncode : Prop :=
  ∀ (i : Instr) (w : Code), encode i = some w → decode w = .ok i

/-- Only encoded words decode: a word the decoder takes is the word of the instruction it gives, so every unused field is zero
and every reserved value is rejected (13 R330-R332). -/
def Obligations.EncodeDecode : Prop :=
  ∀ (w : Code) (i : Instr), decode w = .ok i → encode i = some w

/-- A few words written out from the encodings of 13 R329-R332 and 18. -/
def Obligations.DecodeSpecWords : Prop :=
  decode 0b0000001_00011_00100_00101_0000000000 = .ok (.add 3 4 5) ∧
  decode 0b0000010_00101_00110_111111111111101 = .ok (.addi 5 6 0x7FFD) ∧
  decode 0b0001010_00111_00000010010001101000 = .ok (.ldi 7 0x2468) ∧
  decode 0b0010110_01001_00001_000000000000000 = .ok (.ld 9 1 0) ∧
  decode 0b0011011_00101_00001_000000000100000 = .ok (.sd 5 1 32) ∧
  decode 0b0100001_00101_00000_111111111111101 = .ok (.bne 5 0 0x7FFD) ∧
  decode 0b0110000_00101_01001_000000000000100 = .ok (.take 5 9 0 1 0) ∧
  decode 0b0110010_00101_01011_01100_0100000001 = .ok (.bindSink 5 11 12 1) ∧
  decode 0b0111001_00000_00000_000000100_000000 = .ok (.waitc 0 0 4 0) ∧
  decode 0x82000000 = .ok .tret ∧ decode 0 = .error .unassigned

/-! ## The step -/

/-- A director's issue slot runs the decoded instruction: the first ready context of the stage fetches the word at its pc, and
the step is that instruction's effect. With an empty schedule the stages after the one that issued last come first, one tick and one cycle having passed, and the next such step gives the part's own events
the first choice. The order is the model's schedule (log 1). -/
def Obligations.StepRunsDecoded : Prop :=
  ∀ (s u : State) (g c : Nat) (w : Code) (i : Instr) (more : List Nat),
    partStopped s = false → decode w = .ok i →
    (∀ rest : List Turn, let t := { s with agenda := rest }
      s.agenda = .issue g :: rest → readyList t g = c :: more → (getCtx s c).pend = [] → (getCtx s c).acqBad = none → (getCtx s c).wait = .none →
      fetch (prepIssue t c) c = .word w u → step s = exec i u) ∧
    (∀ rest : List Nat, let t := passTime { s with flip := !s.flip } 1 1 1
      s.agenda = [] → s.flip = false → turnStages t = g :: rest → readyList t g = c :: more → (getCtx t c).pend = [] →
      (getCtx t c).acqBad = none → (getCtx t c).wait = .none → fetch (prepIssue t c) c = .word w u → step s = exec i u)

/-- A scheduled event is that event's effect, with the schedule moved past it. The schedule is the model's (log 1). The effect of
every instruction, in every state, is a next state: none ends in a fault or a refusal. -/
def Obligations.StepRunsEvent : Prop :=
  (∀ (s : State) (i : Instr) (rest : List Turn), s.agenda = .event i :: rest → encode i = none →
    step s = exec i { s with agenda := rest }) ∧
  (∀ (i : Instr) (s : State), ∃ t, exec i s = .next t)

/-- A word that does not decode takes a precise ILLEGAL trap at its address with the word as `xval` (12 R289, 13 R330). -/
def Obligations.UndecodedTraps : Prop :=
  ∀ (s u : State) (g c : Nat) (rest : List Turn) (more : List Nat) (w : Code) (e : DecodeError),
    s.agenda = .issue g :: rest → partStopped s = false → readyList { s with agenda := rest } g = c :: more →
    (getCtx s c).pend = [] → (getCtx s c).acqBad = none → (getCtx s c).wait = .none → (getCtx s c).tm = false → (getCtx s c).xvec ≠ 0 →
    fetch (prepIssue { s with agenda := rest } c) c = .word w u → decode w = .error e →
    ∃ t, step s = .next t ∧ Trapped (getCtx s c) (getCtx t c) 0x01 0 (w.setWidth 64) (getCtx s c).pc

/-! ## Reset (03 R61, R62; 02; 18 R480) -/

/-- After reset the part is READY with no context, region, scene or slate, every crew is disabled, the command registers are
idle, and a context's system registers hold the values R480 states. That the part is READY at reset is the model's choice (log 3). -/
def Obligations.ResetState : Prop :=
  State.reset.chip.ready = true ∧ State.reset.chip.stepCode = 0x70 ∧ State.reset.ctxs = [] ∧ State.reset.regions = [] ∧
  State.reset.scenes = [] ∧ State.reset.sched.slates = [] ∧ (∀ c, (getCrew State.reset c).en = false) ∧
  State.reset.eng.ops = [] ∧ State.reset.chip.trCmd = 0 ∧ State.reset.keys.pend = none ∧ State.reset.xl.inv = none ∧
  (let x := getCtx State.reset 0
   x.lr = exitAddress ∧ x.xcause = 0 ∧ x.xpc = 0 ∧ x.xval = 0 ∧ x.xvec = 0 ∧ x.sheet = 0 ∧ x.dcidx = 0 ∧ x.cyc = 0 ∧
   statusWord x = 0 ∧ cntWord x = 0)

/-- The invariant holds after reset. The canonical form is the model's (log 6). -/
def Obligations.ResetInvariant : Prop :=
  memoryWf State.reset = true

/-- Every step keeps global memory and host memory in canonical form, from any state in which they are. The form is
the model's (log 6). -/
def Obligations.StepKeepsMemoryForm : Prop :=
  ∀ s s' : State, memoryWf s = true → step s = .next s' → memoryWf s' = true

/-! ## Integer instructions (18 R456, R457) -/

/-- The OP group other than the divides writes `g[d]` from `g[a]` and `g[b]` (R456); the immediate group writes `g[d]` (R457).
The divides truncate toward zero; the remainder takes the dividend's sign; −2⁶³ by −1 gives −2⁶³ and remainder 0; a zero divisor
takes DIVZERO with the dividend in `xval` and `g[d]` unchanged (R456). The words are those of the tables. -/
def Obligations.IntegerAndDivideResults : Prop :=
  (∀ (s : State) (d a b : BitVec 5) (i : BitVec 15) (m : BitVec 6) (k : BitVec 20),
      let x := readG (curCtx s) a
      let y := readG (curCtx s) b
      let n := y.toNat % 64
      let imm : Word := BitVec.ofInt 64 i.toInt
      (OperandsReady s [a, b, d] →
      exec (.add d a b) s = .next (retire s d (BitVec.ofInt 64 (x.toInt + y.toInt))) ∧
      exec (.sub d a b) s = .next (retire s d (BitVec.ofInt 64 (x.toInt - y.toInt))) ∧
      exec (.and d a b) s = .next (retire s d (x &&& y)) ∧
      exec (.or d a b) s = .next (retire s d (x ||| y)) ∧
      exec (.xor d a b) s = .next (retire s d (x ^^^ y)) ∧
      exec (.sll d a b) s = .next (retire s d (BitVec.ofNat 64 (x.toNat * 2 ^ n))) ∧
      exec (.srl d a b) s = .next (retire s d (BitVec.ofNat 64 (x.toNat / 2 ^ n))) ∧
      exec (.sra d a b) s = .next (retire s d (BitVec.ofInt 64 (x.toInt / 2 ^ n))) ∧
      exec (.slt d a b) s = .next (retire s d (if x.toInt < y.toInt then 1 else 0)) ∧
      exec (.sltu d a b) s = .next (retire s d (if x.toNat < y.toNat then 1 else 0)) ∧
      exec (.mul d a b) s = .next (retire s d (BitVec.ofInt 64 (x.toInt * y.toInt))) ∧
      exec (.mulh d a b) s = .next (retire s d (BitVec.ofInt 64 (x.toInt * y.toInt / 2 ^ 64))) ∧
      exec (.mulhu d a b) s = .next (retire s d (BitVec.ofNat 64 (x.toNat * y.toNat / 2 ^ 64)))) ∧
      (OperandsReady s [a, d] →
      exec (.addi d a i) s = .next (retire s d (BitVec.ofInt 64 (x.toInt + i.toInt))) ∧
      exec (.andi d a i) s = .next (retire s d (x &&& imm)) ∧
      exec (.ori d a i) s = .next (retire s d (x ||| imm)) ∧
      exec (.xori d a i) s = .next (retire s d (x ^^^ imm)) ∧
      exec (.slti d a i) s = .next (retire s d (if x.toInt < i.toInt then 1 else 0)) ∧
      exec (.slli d a m) s = .next (retire s d (BitVec.ofNat 64 (x.toNat * 2 ^ m.toNat))) ∧
      exec (.srli d a m) s = .next (retire s d (BitVec.ofNat 64 (x.toNat / 2 ^ m.toNat))) ∧
      exec (.srai d a m) s = .next (retire s d (BitVec.ofInt 64 (x.toInt / 2 ^ m.toNat))) ∧
      exec (.ldi d k) s = .next (retire s d (BitVec.ofInt 64 k.toInt)) ∧
      exec (.lsi d a i) s = .next (retire s d (BitVec.ofNat 64 (x.toNat * 2 ^ 15 + i.toNat))))) ∧
  (∀ (s : State) (d a b : BitVec 5), OperandsReady s [a, b, d] →
      let x := readG (curCtx s) a
      let y := readG (curCtx s) b
      (y ≠ 0 →
        exec (.div d a b) s = .next (retire s d (BitVec.ofInt 64 (x.toInt.tdiv y.toInt))) ∧
        exec (.divu d a b) s = .next (retire s d (BitVec.ofNat 64 (x.toNat / y.toNat))) ∧
        exec (.rem d a b) s = .next (retire s d (BitVec.ofInt 64 (x.toInt.tmod y.toInt))) ∧
        exec (.remu d a b) s = .next (retire s d (BitVec.ofNat 64 (x.toNat % y.toNat)))) ∧
      (y = 0 → TrapReady s →
        ∀ i ∈ [(.div d a b : Instr), .divu d a b, .rem d a b, .remu d a b],
          ∃ t, exec i s = .next t ∧ Trapped (curCtx s) (curCtx t) 0x06 0 x (curCtx s).pc)) ∧
  (∀ (d a b : BitVec 5) (i : BitVec 15) (m : BitVec 6) (k : BitVec 20),
      (∀ p ∈ [((.add d a b : Instr), 0), (.sub d a b, 1), (.and d a b, 2), (.or d a b, 3), (.xor d a b, 4),
          (.sll d a b, 5), (.srl d a b, 6), (.sra d a b, 7), (.slt d a b, 8), (.sltu d a b, 9),
          (.mul d a b, 10), (.mulh d a b, 11), (.mulhu d a b, 12), (.div d a b, 13), (.divu d a b, 14),
          (.rem d a b, 15), (.remu d a b, 16)],
        encode p.1 = some (0x01#7 ++ d ++ a ++ b ++ BitVec.ofNat 10 p.2)) ∧
      (∀ p ∈ [((.addi d a i : Instr), 0x02#7), (.andi d a i, 0x03), (.ori d a i, 0x04), (.xori d a i, 0x05), (.slti d a i, 0x06), (.lsi d a i, 0x0B)],
        encode p.1 = some (p.2 ++ d ++ a ++ i)) ∧
      (∀ p ∈ [((.slli d a m : Instr), 0x07#7), (.srli d a m, 0x08), (.srai d a m, 0x09)], encode p.1 = some (p.2 ++ d ++ a ++ 0#9 ++ m)) ∧
      encode (.ldi d k) = some (0x0A#7 ++ d ++ k))

/-- What completing an instruction with one result does and what it leaves alone: `d` is written (a write to `g0` is
discarded), the pc moves on by 4, and every other register, every special register, every other context and everything else in
the machine is as before (13 R330, 18 R455). -/
def Obligations.RetireFrame : Prop :=
  ∀ (s : State) (d : BitVec 5) (v : Word),
    let t := retire s d v
    let x := curCtx s
    let y := curCtx t
    readG y d = (if d = 0 then 0 else v) ∧ (∀ r, r ≠ d → readG y r = readG x r) ∧ y.pc = x.pc + 4 ∧
    y = { x with g := y.g, pc := y.pc, wait := .none } ∧ SameButCtxs s t ∧ OtherCtxsSame s t s.cur ∧ MemorySame s t

/-- The integer and immediate instructions leave every general register but `d`, every special register but the trap registers,
the other contexts and all memory as they are, whether they complete, stall or trap (18 R455; 12 R290). Branches, jumps, HINT,
WAITC and TRAP write no general register; only JAL and JALR write `lr`; memory, the other special registers and the other
contexts are as before. Where a trap, a wait or an exit empties the combining buffer, the stores take their places in the stream
port's order (09 R210, R218). -/
def Obligations.IntegerAndControlFrame : Prop :=
  (∀ (s t : State) (d a b : BitVec 5) (m : BitVec 15) (n : BitVec 6) (k : BitVec 20),
      ∀ i ∈ [(.add d a b : Instr), .sub d a b, .and d a b, .or d a b, .xor d a b, .sll d a b, .srl d a b, .sra d a b, .slt d a b,
          .sltu d a b, .mul d a b, .mulh d a b, .mulhu d a b, .div d a b, .divu d a b, .rem d a b, .remu d a b, .addi d a m,
          .andi d a m, .ori d a m, .xori d a m, .slti d a m, .slli d a n, .srli d a n, .srai d a n, .ldi d k, .lsi d a m,
          .ldp d a m],
        TrapReady s → exec i s = .next t →
        (∀ r, r ≠ d → readG (curCtx t) r = readG (curCtx s) r) ∧ SpecialSame (curCtx s) (curCtx t) ∧
        OthersSame s t s.cur ∧ MemorySame s t) ∧
  (∀ (s t : State) (a b : BitVec 5) (m : BitVec 15) (o : BitVec 25) (l : BitVec 1) (c : BitVec 9) (n : BitVec 6),
      ∀ i ∈ [(.beq a b m : Instr), .bne a b m, .blt a b m, .bge a b m, .bltu a b m, .bgeu a b m, .j o, .jal o, .jalr l a m, .hint o,
          .waitc a b c n, .trap m],
        TrapReady s → exec i s = .next t →
        (curCtx t).g = (curCtx s).g ∧ (curCtx t).priv = (curCtx s).priv ∧ (curCtx t).xvec = (curCtx s).xvec ∧
        (curCtx t).sheet = (curCtx s).sheet ∧ (curCtx t).dcidx = (curCtx s).dcidx ∧ (curCtx t).cyc = (curCtx s).cyc ∧
        ((∀ o, i ≠ .jal o) → (∀ m, i ≠ .jalr l a m) → (curCtx t).lr = (curCtx s).lr) ∧
        ((∀ o, i ≠ .hint o) → (curCtx t).gen = (curCtx s).gen) ∧
        OthersSame s t s.cur ∧ MemorySame s t)

/-! ## Memory accesses of scripts (18 R458-R460) -/

/-- A global load at an aligned, reachable address becomes outstanding, and the pc moves on; `d` is not yet written (R458,
R459). A load that a rushes entry serves completes at once (08 R201), but for LDA, which an entry never serves and which frees
them all. That an entry does not serve bytes which an earlier load has yet to read is the model's reading (log 30). No other
register changes, general or special, and beyond the context only what its translation leaves in the cache (12 R309) and its
place in the order of the stage's stream port (09 R210). A load's data returns once no earlier access to the same bytes, or of
its port to the same home controller, stands before it: the bytes at its address under its key
(unpredictable ones in the crew's sync backing area, 11 R279), with the context's own earlier unperformed stores laid over them,
reach the register; the load is no longer outstanding, the rushes entries of its block are freed, under any of its addresses, and
a corrected error is counted (01 R18). An uncorrectable block leaves the register unchanged and
queues an asynchronous UECC trap with the address (R458). Sign and zero extension of loaded bytes (R458). -/
def Obligations.Loads : Prop :=
  (∀ (s : State) (d a : BitVec 5) (m : BitVec 15) (w sc : BitVec 2),
      ∀ p ∈ [((.lb d a m : Instr), 1, true), (.lbu d a m, 1, false), (.lh d a m, 2, true), (.lhu d a m, 2, false),
          (.lw d a m, 4, true), (.lwu d a m, 4, false), (.ld d a m, 8, false), (.lda d a w sc, 2 ^ w.toNat, false)],
        let x := curCtx s
        let isLda := p.1 == .lda d a w sc
        let va := if isLda then readG x a else readG x a + BitVec.ofInt 64 m.toInt
        let n := p.2.1
        ∀ q, OperandsReady s [a, d] → va.toNat % n = 0 → pieceOf s (ctxStage s.cur) x.crew va n .read false = .ok q →
          accessWaits x q.kind = false → x.loads.length < 31 →
          let clash := ∃ o ∈ x.loads, overlaps o.pa o.n q.pa n = true
          ∃ t u, exec p.1 s = .next t ∧ UsedCache s u ∧ OthersSame u t s.cur ∧ MemorySame s t ∧
            (let y := curCtx t
             y = { x with pc := x.pc + 4, wait := .none, g := y.g, loads := y.loads, stores := y.stores, rushes := y.rushes
                          nextSeq := y.nextSeq } ∧
             (∀ r, r ≠ d → readG y r = readG x r) ∧ SameStores y.stores x.stores ∧ (isLda = true → y.rushes = []) ∧
             (isLda = true ∨ clash ∨ rushHit x va n = none →
               y.g = x.g ∧ ∃ l, y.loads = x.loads ++ [l] ∧ l.d = d ∧ l.va = va ∧ l.n = n ∧
                 l.signed = p.2.2 ∧ l.pa = q.pa ∧ l.key = q.key ∧ l.kind = q.kind ∧
                 l.acq = (isLda && q.kind == 0 && sc != 0) ∧ (isLda = true → l.scope = sc)) ∧
             (∀ r, isLda = false → ¬ clash → rushHit x va n = some r →
               y.loads = x.loads ∧
               readG y d = if d = 0 then 0 else extendBytes n p.2.2 (blockSlice r.data (va.toNat % 64) n)))) ∧
  ((∀ (s : State) (c k : Nat) (l : Load),
        let x := getCtx s c
        x.loads[k]? = some l → (∀ o ∈ x.loads, o.seq < l.seq → overlaps o.pa o.n l.pa l.n = false) →
        portWaits s (ctxStage c) l.stamp l.pa = false →
        let y := { x with
          loads := x.loads.eraseIdx k
          rushes := x.rushes.filter fun r => r.block ≠ l.va.toNat / 64 && r.pa ≠ some (l.pa / 64) }
        ∃ t, exec (.loadDataReturn c k) s = .next t ∧ SameButCount s t l.pa ∧ OtherCtxsSame s t c ∧ MemorySame s t ∧
          (badBlock s l.pa = false →
            getCtx t c = writeG y l.d
              (extendBytes l.n l.signed ((x.stores.filter (·.seq < l.seq)).foldl (overlay l.pa)
                (plainBytes s (ctxStage c) x.crew l.va.toNat (readInBlock s ((keyValue s l.key).getD 0) l.pa l.n))))) ∧
          (badBlock s l.pa = true →
            getCtx t c = { y with pend := x.pend ++ [{ cause := 0x08, val := l.va }] })) ∧
    (∀ (v : Word),
        extendBytes 1 true (leBytes 1 v.toNat) = (v.setWidth 8).signExtend 64 ∧
        extendBytes 1 false (leBytes 1 v.toNat) = (v.setWidth 8).setWidth 64 ∧
        extendBytes 2 true (leBytes 2 v.toNat) = (v.setWidth 16).signExtend 64 ∧
        extendBytes 2 false (leBytes 2 v.toNat) = (v.setWidth 16).setWidth 64 ∧
        extendBytes 4 true (leBytes 4 v.toNat) = (v.setWidth 32).signExtend 64 ∧
        extendBytes 4 false (leBytes 4 v.toNat) = (v.setWidth 32).setWidth 64 ∧
        extendBytes 8 false (leBytes 8 v.toNat) = v))

/-- A load or store that is not naturally aligned takes MISALIGN with the address, and one whose translation fails takes XLATE
with SUB the cause and the address; nothing is loaded or stored (R458, 12 R310). -/
def Obligations.AccessTraps : Prop :=
  ∀ (s : State) (d a : BitVec 5) (m : BitVec 15),
    ∀ p ∈ [((.lb d a m : Instr), 1, Access.read), (.lbu d a m, 1, .read), (.lh d a m, 2, .read), (.lhu d a m, 2, .read),
        (.lw d a m, 4, .read), (.lwu d a m, 4, .read), (.ld d a m, 8, .read), (.sb d a m, 1, .write), (.sh d a m, 2, .write),
        (.sw d a m, 4, .write), (.sd d a m, 8, .write)],
      let x := curCtx s
      let va := readG x a + BitVec.ofInt 64 m.toInt
      let n := p.2.1
      OperandsReady s [a, d] → TrapReady s →
        (va.toNat % n ≠ 0 → ∃ t, exec p.1 s = .next t ∧ Trapped x (curCtx t) 0x02 0 va x.pc ∧ MemorySame s t) ∧
        (∀ c v, va.toNat % n = 0 → pieceOf s (ctxStage s.cur) x.crew va n p.2.2 false = .error (.xlate c v) →
          v = va ∧ ∃ t, exec p.1 s = .next t ∧ Trapped x (curCtx t) 0x03 c va x.pc ∧ MemorySame s t)

/-- A store at an aligned, reachable address becomes outstanding with the low bytes of its register, and the pc moves on; no
other register changes, general or special, and memory does not change until it performs (R458, R459). A store of an unordered
page waits in the combining buffer while it has room, but where NOCOMB is set (09 R218, 16 R427); any other takes its place in the
order of the stage's stream port (09 R210), and what it must follow of its context's buffered stores leaves the buffer first: all
of them before a release, and all before bytes that it overlaps (log 30). -/
def Obligations.StoreIssues : Prop :=
  ∀ (s : State) (d a : BitVec 5) (m : BitVec 15) (w sc : BitVec 2),
    ∀ p ∈ [((.sb d a m : Instr), 1), (.sh d a m, 2), (.sw d a m, 4), (.sd d a m, 8), (.sdr a d w sc, 2 ^ w.toNat)],
      let x := curCtx s
      let isSdr := p.1 == .sdr a d w sc
      let va := if isSdr then readG x a else readG x a + BitVec.ofInt 64 m.toInt
      let n := p.2
      ∀ q, OperandsReady s [a, d] → va.toNat % n = 0 → pieceOf s (ctxStage s.cur) x.crew va n .write false = .ok q →
        accessWaits x q.kind = false → x.stores.length < 31 →
        ∃ t u e l, exec p.1 s = .next t ∧ UsedCache s u ∧ OthersSame u t s.cur ∧ MemorySame s t ∧
          curCtx t = { x with pc := x.pc + 4, wait := .none, stores := l ++ [e], nextSeq := (curCtx t).nextSeq
                              rushes := x.rushes.filter fun r => r.block ≠ va.toNat / 64 && r.pa ≠ some (q.pa / 64) } ∧
          SameStores l (if !e.buffered && storeFollows x q isSdr then x.stores.map fun o => { o with buffered := false }
            else x.stores) ∧
          e.va = va ∧ e.bytes = leBytes n (readG x d).toNat ∧
          e.pa = q.pa ∧ e.key = q.key ∧ e.kind = q.kind ∧ e.rel = (isSdr && q.kind == 0) ∧ (isSdr = true → e.scope = sc) ∧
          e.buffered = (q.kind == 2 && !noComb s (ctxStage s.cur) && decide (combCount s (ctxStage s.cur) < 64))

/-- A store that may perform writes its bytes at its physical address under its key, and every other byte of that block reads as
before under that key, and every byte of every other block under every key; registers, arrays and host memory are as before
(R458, 09 R208, 03 R75). It may perform once no earlier access to the same bytes, or of its port to the same home controller,
stands before it, and a release only once every earlier access has performed, or at stage scope has been accepted (09 R222). A
corrected error of its block is counted, and the block's code is good again (01 R18). A store whose merge read is uncorrectable
is not performed and queues an asynchronous UECC trap (R458).
That an unwritten byte reads zero is the model's choice (log 6). -/
def Obligations.StorePerforms : Prop :=
  ∀ (s : State) (c k : Nat) (e : Store),
      let x := getCtx s c
      let key := (keyValue s e.key).getD 0
      let n := e.bytes.length
      x.stores[k]? = some e → e.buffered = false → portWaits s (ctxStage c) e.stamp e.pa = false →
      (∀ o ∈ x.stores, o.seq < e.seq → overlaps o.pa o.bytes.length e.pa n = false ∧
        (e.rel = true → e.scope = 0 ∧ o.buffered = false)) →
      (∀ o ∈ x.loads, o.seq < e.seq → overlaps o.pa o.n e.pa n = false ∧ (e.rel = true → e.scope = 0)) →
      (badBlock s e.pa = false → Memory.wf s.mem = true → 0 < n → e.pa % 64 + n ≤ 64 →
        ∃ t, exec (.storePerform c k) s = .next t ∧ getCtx t c = { x with stores := x.stores.eraseIdx k } ∧
          OtherCtxsSame s t c ∧ readInBlock t key e.pa n = e.bytes ∧
          (∀ a, a / 64 = e.pa / 64 → a < e.pa ∨ e.pa + n ≤ a → readInBlock t key a 1 = readInBlock s key a 1) ∧
          (∀ k' a, a / 64 ≠ e.pa / 64 → readInBlock t k' a 1 = readInBlock s k' a 1) ∧
          (∀ b, b ∈ t.soft ↔ b ∈ s.soft ∧ b ≠ e.pa / 64) ∧
          SameButCount s { t with mem := s.mem, ciph := s.ciph, soft := s.soft } e.pa) ∧
      (badBlock s e.pa = true →
        ∃ t, exec (.storePerform c k) s = .next t ∧ SameButCount s t e.pa ∧ OtherCtxsSame s t c ∧
          getCtx t c = { x with stores := x.stores.eraseIdx k, pend := x.pend ++ [{ cause := 0x08, val := e.va }] })

/-- LDP and STP move 8 bytes between `g[d]` and private memory (R460): an address that is not a multiple of 8 takes MISALIGN,
one at or above 0x8000 XLATE with SUB NOMAP; otherwise the bytes move, the pc moves on, and every other private byte is as
before. -/
def Obligations.PrivateMemory : Prop :=
  ∀ (s : State) (d a : BitVec 5) (m : BitVec 15),
    let x := curCtx s
    let va := readG x a + BitVec.ofInt 64 m.toInt
    encode (.ldp d a m) = some (0x1C#7 ++ d ++ a ++ m) ∧ encode (.stp d a m) = some (0x1D#7 ++ d ++ a ++ m) ∧
    (OperandsReady s [a, d] → TrapReady s → ∀ i ∈ [(.ldp d a m : Instr), .stp d a m],
      (va.toNat % 8 ≠ 0 → ∃ t, exec i s = .next t ∧ Trapped x (curCtx t) 0x02 0 va x.pc ∧ (curCtx t).priv = x.priv) ∧
      (va.toNat % 8 = 0 → 0x8000 ≤ va.toNat →
        ∃ t, exec i s = .next t ∧ Trapped x (curCtx t) 0x03 1 va x.pc ∧ (curCtx t).priv = x.priv)) ∧
    (OperandsReady s [a, d] → va.toNat % 8 = 0 → va.toNat < 0x8000 →
      (x.privBad.contains (va.toNat / 8) = false →
        exec (.ldp d a m) s = .next (retire s d (BitVec.ofNat 64 (leNat (privBytes x va.toNat 8))))) ∧
      (∃ t, exec (.stp d a m) s = .next t ∧ (curCtx t).pc = x.pc + 4 ∧ (curCtx t).g = x.g ∧
        leNat (privBytes (curCtx t) va.toNat 8) = (readG x d).toNat ∧
        (∀ b, b < va.toNat ∨ va.toNat + 8 ≤ b → privBytes (curCtx t) b 1 = privBytes x b 1) ∧
        SameButCtxs s t ∧ OtherCtxsSame s t s.cur ∧ (curCtx t).loads = x.loads ∧ (curCtx t).stores = x.stores ∧
        (curCtx t).copies = x.copies ∧ (curCtx t).tiles = x.tiles))

/-! ## Branches, jumps, waits and traps (18 R461-R463, R472, R473, R478; 12 R289-R291) -/

/-- The six branches compare and branch (R461). -/
def Obligations.Branches : Prop :=
  ∀ (s : State) (a b : BitVec 5) (off : BitVec 15), OperandsReady s [a, b] →
    let x := curCtx s
    let u := readG x a
    let v := readG x b
    ∀ p ∈ [((.beq a b off : Instr), 0x20#7, decide (u = v)), (.bne a b off, 0x21#7, decide (u ≠ v)),
        (.blt a b off, 0x22#7, decide (u.toInt < v.toInt)), (.bge a b off, 0x23#7, decide (v.toInt ≤ u.toInt)),
        (.bltu a b off, 0x24#7, decide (u.toNat < v.toNat)), (.bgeu a b off, 0x25#7, decide (v.toNat ≤ u.toNat))],
      encode p.1 = some (p.2.1 ++ a ++ b ++ off) ∧
      ∃ t, exec p.1 s = .next t ∧ (curCtx t).g = x.g ∧ (curCtx t).lr = x.lr ∧
        (curCtx t).pc = (if p.2.2 then x.pc + BitVec.ofInt 64 (4 * off.toInt) else x.pc + 4)

/-- J and JAL jump by 4 × off25 and JALR to base + imm15, the base being `lr` when a = 0; JAL, and JALR with d = 1, link; a
misaligned JALR target takes MISALIGN with `lr` unchanged; a jump to the exit address is an exit (R462, 05 R107). -/
def Obligations.Jumps : Prop :=
  ∀ (s : State) (a : BitVec 5) (l : BitVec 1) (m : BitVec 15) (o : BitVec 25), OperandsReady s [a] →
    let x := curCtx s
    let far := x.pc + BitVec.ofInt 64 (4 * o.toInt)
    let near := (if a = 0 then x.lr else readG x a) + BitVec.ofInt 64 m.toInt
    (∀ p ∈ [((.j o : Instr), far, false), (.jal o, far, true), (.jalr l a m, near, decide (l = 1))],
      (p.1 = .jalr l a m → near.toNat % 4 = 0) →
      ∃ t, exec p.1 s = .next t ∧ (curCtx t).g = x.g ∧
        (p.2.1 ≠ exitAddress →
          (curCtx t).pc = p.2.1 ∧ (curCtx t).lr = (if p.2.2 then x.pc + 4 else x.lr) ∧ (curCtx t).wait = .none) ∧
        (p.2.1 = exitAddress → (curCtx t).wait = .exit ∧ (curCtx t).pc = x.pc)) ∧
    (near.toNat % 4 ≠ 0 → TrapReady s →
      ∃ t, exec (.jalr l a m) s = .next t ∧ Trapped x (curCtx t) 0x02 0 near x.pc)

/-- HINT opens the next generation, keeps the likely path, and flushes the unresolved entries of earlier generations; the next
branch resolves the generation if it goes to the likely path and flushes its entries otherwise (R463, 08 R202). -/
def Obligations.HintGenerations : Prop :=
  ∀ (s : State) (o : BitVec 25) (a b : BitVec 5) (off : BitVec 15) (h : Word),
    let x := curCtx s
    (OperandsReady s [] → ∃ t, exec (.hint o) s = .next t ∧ (curCtx t).gen = x.gen + 1 ∧
      (curCtx t).hint = some (x.pc + BitVec.ofInt 64 (4 * o.toInt)) ∧ (curCtx t).pc = x.pc + 4 ∧ (curCtx t).g = x.g ∧
      (∀ r, r ∈ (curCtx t).rushes ↔ r ∈ x.rushes ∧ r.resolved = true)) ∧
    (OperandsReady s [a, b] → x.hint = some h → ∀ i ∈ [(.beq a b off : Instr), .bne a b off, .blt a b off, .bge a b off,
        .bltu a b off, .bgeu a b off],
      ∃ t, exec i s = .next t ∧ (curCtx t).hint = none ∧
        ((curCtx t).pc = h → ∀ r ∈ (curCtx t).rushes, r.gen = x.gen → r.resolved = true) ∧
        ((curCtx t).pc ≠ h → ∀ r, r ∈ (curCtx t).rushes ↔ r ∈ x.rushes ∧ (r.gen ≠ x.gen ∨ r.resolved = true)))

/-- RUN_AHEAD changes nothing but the context's rushes entries, the place it has reached, and what its translations and reads
leave in the caches and the counts (R463; 01 R18; 12 R309). When the next instruction is a branch
on a register that awaits a load, and the likely path begins with a LD whose address is known and reachable and for which no
accepted access stands before it at its home, the load fills a rushes entry of the open generation with its block (R463). -/
def Obligations.RunAhead : Prop :=
  (∀ (s : State) (c : Nat), ∃ t u, exec (.runAhead c) s = .next t ∧ UsedCache s u ∧
      t = { u with ctxs := t.ctxs } ∧ OtherCtxsSame s t c ∧
      getCtx t c = { getCtx s c with rushes := (getCtx t c).rushes, ahead := (getCtx t c).ahead }) ∧
  (∀ (s u v : State) (c : Nat) (h : Word) (w w' : Code) (a b d e : BitVec 5) (off m : BitVec 15) (q q' : Piece),
      let x := getCtx s c
      let va := readG x e + BitVec.ofInt 64 m.toInt
      x.state = .running → x.hint = some h → x.ahead = none → fetch s c = .word w u → decode w = .ok (.bne a b off) → awaits x a = true →
      fetch (modCtx s c fun y => { y with pc := h }) c = .word w' v → decode w' = .ok (.ld d e m) → awaits x e = false →
      va.toNat % 8 = 0 → x.rushes.length < 64 → accessGate x = false →
      pieceOf s (ctxStage c) x.crew va 1 .read false = .ok q → badBlock s q.pa = false →
      pieceOf s (ctxStage c) x.crew (va - BitVec.ofNat 64 (va.toNat % 64)) 64 .read false = .ok q' → badBlock s q'.pa = false →
      q'.kind ≠ 1 → portWaits s (ctxStage c) 0 q'.pa = false →
      ∃ t, exec (.runAhead c) s = .next t ∧ ∃ r ∈ (getCtx t c).rushes, r.block = va.toNat / 64 ∧ r.gen = x.gen ∧
        r.pa = some (q'.pa / 64) ∧
        r.data = blockOf (x.stores.foldl (overlay q'.pa)
          (plainBytes s (ctxStage c) x.crew (va.toNat / 64 * 64) (readInBlock s ((keyValue s q'.key).getD 0) q'.pa 64))))

/-- WAITC proceeds once every count is at or below its bound and frees the rushes entries, and otherwise waits, a bound below the
outstanding stores emptying the combining buffer (R472, 09 R218); FENCE
empties the combining buffer, proceeds once every earlier load and store has performed, frees the rushes entries, and at system
scope drops the director's
cached instruction lines of the crew (R473, 09 R222). A fence at stage scope waits for no home controller (09 R222). -/
def Obligations.WaitsAndFences : Prop :=
  ∀ (s : State) (l m : BitVec 5) (c : BitVec 9) (n : BitVec 6) (sc : BitVec 2), OperandsReady s [] →
    let x := curCtx s
    let met := x.loads.length ≤ l.toNat ∧ x.stores.length ≤ m.toNat ∧ x.copies ≤ c.toNat ∧ x.tiles ≤ n.toNat
    let out := x.stores.map fun e => { e with buffered := false }
    (met → ∃ t, exec (.waitc l m c n) s = .next t ∧ curCtx t = { x with pc := x.pc + 4, rushes := [], wait := .none } ∧
      SameButCtxs s t ∧ OtherCtxsSame s t s.cur) ∧
    (¬ met → ∃ t, exec (.waitc l m c n) s = .next t ∧ OthersSame s t s.cur ∧ MemorySame s t ∧
      ∃ o, curCtx t = { x with wait := .stall, stores := o } ∧
        SameStores o (if x.stores.length ≤ m.toNat then x.stores else out)) ∧
    (sc = 0 ∨ x.loads = [] ∧ x.stores = [] → ∃ t o, exec (.fence sc) s = .next t ∧
      curCtx t = { x with pc := x.pc + 4, rushes := [], wait := .none, stores := o } ∧ SameStores o out ∧
      (∀ d, d ≠ s.cur → SameButStamps s t d) ∧ MemorySame s t ∧ (sc ≠ 3 → OthersSame s t s.cur) ∧
      (sc = 3 → ∀ q ∈ (getStage t (ctxStage s.cur)).icache,
        q ∈ (getStage s (ctxStage s.cur)).icache ∧ ¬ (x.crew * 2 ^ 42 ≤ q.1 ∧ q.1 < (x.crew + 1) * 2 ^ 42))) ∧
    (sc ≠ 0 → x.loads ≠ [] ∨ x.stores ≠ [] →
      ∃ t, exec (.fence sc) s = .next t ∧ (curCtx t).pc = x.pc ∧ (curCtx t).wait = .stall ∧ SameStores (curCtx t).stores out)

/-- TRAP takes a precise TRAP trap with the immediate as `xval` and `xpc` = TRAP + 4; TRET with TM = 0 takes ILLEGAL (R478).
TRET sets the pc to `xpc` and TM to 0; the oldest pending asynchronous trap, if any, is then taken before any instruction issues
(12 R291). -/
def Obligations.TrapAndReturn : Prop :=
  (∀ (s : State) (m : BitVec 15), OperandsReady s [] → TrapReady s →
      let x := curCtx s
      encode (.trap m) = some (0x40#7 ++ 0#10 ++ m) ∧ encode .tret = some 0x82000000 ∧
      (∃ t, exec (.trap m) s = .next t ∧ Trapped x (curCtx t) 0x07 0 (m.setWidth 64) (x.pc + 4) ∧
        SpecialSame x (curCtx t) ∧ OthersSame s t s.cur) ∧
      (∃ t, exec .tret s = .next t ∧ Trapped x (curCtx t) 0x01 0 0x82000000 x.pc)) ∧
  (∀ (s : State), OperandsReady s [] → (curCtx s).tm = true →
      let x := curCtx s
      (x.pend = [] → ∃ t, exec .tret s = .next t ∧ curCtx t = { x with pc := x.xpc, tm := false } ∧ SameButCtxs s t ∧
        OtherCtxsSame s t s.cur) ∧
      (∀ p rest, x.pend = p :: rest → x.xvec ≠ 0 → ∃ t, exec .tret s = .next t ∧
        (curCtx t).xcause = BitVec.ofNat 64 (2 ^ 63 + p.cause.toNat) ∧ (curCtx t).xpc = x.xpc ∧ (curCtx t).xval = p.val ∧
        (curCtx t).tm = true ∧ (curCtx t).pc = x.xvec ∧ (curCtx t).pend = rest ∧ (curCtx t).g = x.g))

/-- At a context's issue slot its oldest pending asynchronous trap is taken: the cause is recorded with ASYNC set, `xpc` names
the first instruction not issued, and what the context waited for is tried again after TRET (12 R289, R290). A precise trap in a
handler, or with no handler address, is a director halt: the context issues no more, the member is FROZEN, its region is frozen
with DIRHALT unless it was frozen already, and no unit is marked (12 R290, R292). -/
def Obligations.AsyncTraps : Prop :=
  (∀ (s : State) (c : Nat) (p : AsyncTrap) (rest : List AsyncTrap),
      let x := getCtx s c
      trapReady x = true → x.tm = false → x.xvec ≠ 0 → x.pend = p :: rest →
      ∃ t, exec (.asyncTrap c) s = .next t ∧ (getCtx t c).xcause = BitVec.ofNat 64 (2 ^ 63 + p.cause.toNat) ∧
        (getCtx t c).xpc = x.pc ∧ (getCtx t c).xval = p.val ∧ (getCtx t c).tm = true ∧ (getCtx t c).pc = x.xvec ∧
        (getCtx t c).pend = rest ∧ (getCtx t c).wait = .none ∧ (getCtx t c).rushes = [] ∧ (getCtx t c).g = x.g ∧
        SpecialSame x (getCtx t c) ∧ OthersSame s t c) ∧
  (∀ (s : State) (m : BitVec 15) (r : Nat) (q : Region), OperandsReady s [] →
      let x := curCtx s
      ((curCtx s).tm = true ∨ (curCtx s).xvec = 0) → ctxRegion s s.cur = some r → getRegion s r = some q →
      ∃ t, exec (.trap m) s = .next t ∧ (curCtx t).state = .halted ∧
        (getMember t x.scene x.member).map (·.state) = some .frozen ∧
        (∃ q', getRegion t r = some q' ∧
          (q.frozen = none → ∃ f, q'.frozen = some f ∧ f.cause = 0x0019 ∧ f.marks = [] ∧ f.replay = false) ∧
          (q.frozen ≠ none → q' = q)))

/-! ## System registers and algebra tables (18 R477, R479-R481) -/

/-- SYSR writes the register's value into `g[d]`; a read of `dchi` also advances `dcidx` (R479-R481),
whose 64 bits are the model's choice (log 39). An unassigned system register takes ILLEGAL (R479). -/
def Obligations.SystemRead : Prop :=
  (∀ (s : State) (d : BitVec 5), OperandsReady s [d] →
      let x := curCtx s
      let c := s.cur
      (∀ p ∈ [((0x000 : BitVec 12), BitVec.ofNat 64 (16 * x.gen.toNat + (if x.tm then 1 else 0))), (0x001, x.xcause),
          (0x002, x.xpc), (0x003, x.xval), (0x004, x.xvec), (0x005, x.lr),
          (0x008, BitVec.ofNat 64 (c % 4 + c / 4 % 128 * 2 ^ 8 + c / 512 * 2 ^ 15)), (0x009, BitVec.ofNat 64 x.crew),
          (0x00A, BitVec.ofNat 64 (x.scene % 2 ^ 16)), (0x010, s.timecode), (0x011, x.cyc),
          (0x012, BitVec.ofNat 64 (x.tiles % 64 * 2 ^ 32 + x.copies % 1024 * 2 ^ 16 + x.stores.length % 32 * 2 ^ 8 +
            x.loads.length % 32)),
          (0x018, mapselWord s x), (0x019, x.sheet), (0x021, x.dcidx), (0x022, (dcRecord s c).setWidth 64)],
        exec (.sysr d p.1) s = .next (retire s d p.2)) ∧
      (∀ r, ctxRegion s c = some r → exec (.sysr d 0x020) s = .next (retire s d (frzWord s r))) ∧
      (∃ t, exec (.sysr d 0x023) s = .next t ∧ (d ≠ 0 → readG (curCtx t) d = ((dcRecord s c) >>> 64).setWidth 64) ∧
        (curCtx t).dcidx = BitVec.ofNat 64 (x.dcidx.toNat + 1) ∧ (curCtx t).pc = x.pc + 4)) ∧
  (∀ (s : State) (d : BitVec 5) (r : BitVec 12), OperandsReady s [d] → TrapReady s → sysRegs.contains r.toNat = false →
      (∃ t, exec (.sysr d r) s = .next t ∧
        Trapped (curCtx s) (curCtx t) 0x01 0 ((0x42#7 ++ d ++ r ++ 0#8).setWidth 64) (curCtx s).pc) ∧
      (∃ t, exec (.sysw d r) s = .next t ∧
        Trapped (curCtx s) (curCtx t) 0x01 0 ((0x43#7 ++ d ++ r ++ 0#8).setWidth 64) (curCtx s).pc))

/-- SYSW writes `g[d]` into a writable register: `xvec` with bits [1:0] zero, `lr`, `sheet`, `dcidx`, and in a handler `xcause`,
`xpc` and `xval`; a write to a read-only register is ignored in a handler, and outside one it, or a write to a handler-only
register, takes PRIV with the register number (R479, R480); `xcause` keeps its reserved bits zero (12 R289), and that a handler's write of
it is not ignored is the model's choice (log 37), as is that all 64 bits of `dcidx` are kept (log 39). A command written to `frz` acts on the member's own region as
REGION_REPLAY, REGION_RELEASE and REGION_REPORT do, in a handler or not (R480, 12 R295). -/
def Obligations.SystemWrite : Prop :=
  (∀ (s : State) (d : BitVec 5), OperandsReady s [d] →
      let x := curCtx s
      let v := readG x d
      let next := fun (y : Ctx) => setCtx s s.cur { y with pc := x.pc + 4, wait := .none }
      exec (.sysw d 0x004) s = .next (next { x with xvec := v &&& ~~~3 }) ∧
      exec (.sysw d 0x005) s = .next (next { x with lr := v }) ∧
      exec (.sysw d 0x019) s = .next (next { x with sheet := v &&& 0x0000FFFFFFFF0000 }) ∧
      exec (.sysw d 0x021) s = .next (next { x with dcidx := v }) ∧
      (x.tm = true →
        exec (.sysw d 0x001) s = .next (next { x with xcause := v &&& 0x800000000000FFFF }) ∧ exec (.sysw d 0x002) s = .next (next { x with xpc := v }) ∧
        exec (.sysw d 0x003) s = .next (next { x with xval := v }) ∧
        ∀ r ∈ [(0x000 : BitVec 12), 0x008, 0x009, 0x00A, 0x010, 0x011, 0x012, 0x018, 0x022, 0x023],
          exec (.sysw d r) s = .next (next x)) ∧
      (TrapReady s →
        ∀ r ∈ [(0x000 : BitVec 12), 0x001, 0x002, 0x003, 0x008, 0x009, 0x00A, 0x010, 0x011, 0x012, 0x018, 0x022, 0x023],
          ∃ t, exec (.sysw d r) s = .next t ∧ Trapped x (curCtx t) 0x04 0 (r.setWidth 64) x.pc)) ∧
  (∀ (s : State) (d : BitVec 5) (r : Nat), OperandsReady s [d] → ctxRegion s s.cur = some r →
      let v := (readG (curCtx s) d).toNat % 4
      (v = 1 → exec (.sysw d 0x020) s = exec (.regionReplay r) (advance s)) ∧
      (v = 2 → exec (.sysw d 0x020) s = exec (.regionRelease r) (advance s)) ∧
      (v = 3 → exec (.sysw d 0x020) s = exec (.regionReport r) (advance s)) ∧
      (v = 0 → exec (.sysw d 0x020) s = .next (advance s)))

/-- ALGLD puts a legal table into the scene's slot; a misaligned address takes MISALIGN, and a table that fails the check takes
TABLE with the slot and leaves the slot as it was (R477, 10 R253). The read waits behind what the stage's port accepted earlier for
the same home (09 R210). -/
def Obligations.AlgebraLoad : Prop :=
  ∀ (s : State) (a : BitVec 5) (n : BitVec 15) (k : Scene) (bs : List Byte), OperandsReady s [a] →
    1 ≤ n.toNat → n.toNat ≤ 7 → getScene s (curCtx s).scene = some k →
    let x := curCtx s
    let va := readG x a
    (va.toNat % 16 = 0 → accessGate x = false → x.stores = [] → readWaits s (ctxStage s.cur) x.crew va = false → vread s (ctxStage s.cur) x.crew va 16 = .ok bs →
      (algOk (BitVec.ofNat 128 (leNat bs)) = true → ∃ t, exec (.algld a n) s = .next t ∧ (curCtx t).pc = x.pc + 4 ∧
        (curCtx t).g = x.g ∧
        getScene t x.scene = some { k with algs := Sparse.insert k.algs n.toNat (BitVec.ofNat 128 (leNat bs)) }) ∧
      (algOk (BitVec.ofNat 128 (leNat bs)) = false → TrapReady s → ∃ t, exec (.algld a n) s = .next t ∧
        Trapped x (curCtx t) 0x0A 0 (n.setWidth 64) x.pc ∧ getScene t x.scene = some k)) ∧
    (va.toNat % 16 ≠ 0 → TrapReady s → ∃ t, exec (.algld a n) s = .next t ∧ Trapped x (curCtx t) 0x02 0 va x.pc)

/-! ## Take steps (18 R464-R470) -/

/-- The first checks of the take steps: of TAKE and CTX, BADADDR for an image address that is not 64-byte aligned or has bits
[63:48] set, then FROZEN (R464-R466); of BIND, FROZEN, and then BADADDR for an endpoint address (R467): that order of BIND's checks
is the model's choice (log 37). None issues before an acquire-marked cue of its context has retired (09 R224). TAKE and CTX ask the member's region for a load, and the step waits for its answer; a TAKE counts
as one tile operation (R465, R466). -/
def Obligations.TakeSteps : Prop :=
  (∀ (s : State) (d a b : BitVec 5) (m : BitVec 4) (n act : BitVec 2) (port : BitVec 8) (r : Nat) (y : Region),
      OperandsReady s [a, b, d] → (curCtx s).acq = none → curRegion s = some (r, y) →
      let va := readG (curCtx s) a
      let bad := va.toNat % 64 ≠ 0 ∨ 2 ^ 48 ≤ va.toNat
      (m ≠ 0 → bad → exec (.take d a act m n) s = .next (retire s d 0x31) ∧ exec (.ctx d a m n) s = .next (retire s d 0x31)) ∧
      (y.frozen ≠ none → (m ≠ 0 → ¬ bad → exec (.take d a act m n) s = .next (retire s d 0x34) ∧
          exec (.ctx d a m n) s = .next (retire s d 0x34)) ∧
        exec (.bindSource d a b port) s = .next (retire s d 0x34) ∧ exec (.bindSink d a b port) s = .next (retire s d 0x34) ∧
        exec (.bindSeed d port) s = .next (retire s d 0x34) ∧ exec (.bindQuery d port) s = .next (retire s d 0x34)) ∧
      (y.frozen = none → bad →
        exec (.bindSource d a b port) s = .next (retire s d 0x31) ∧ exec (.bindSink d a b port) s = .next (retire s d 0x31)) ∧
      (TrapReady s → ∃ t, exec (.ctx d a 0 n) s = .next t ∧ (curCtx t).xcause = 0x01 ∧ (curCtx t).xpc = (curCtx s).pc)) ∧
  (∀ (s : State) (d a : BitVec 5) (act n : BitVec 2) (m : BitVec 4) (r : Nat) (y : Region),
      OperandsReady s [a, d] → (curCtx s).acq = none → curRegion s = some (r, y) → y.frozen = none → y.phase = .idle →
      y.load = none →
      let x := curCtx s
      let va := readG x a
      x.stores = [] → x.tiles < 63 → va.toNat % 64 = 0 → va.toNat < 2 ^ 48 →
      (∃ t y', exec (.take d a act m n) s = .next t ∧ (curCtx t).wait = .take d ∧ (curCtx t).pc = x.pc ∧
        (curCtx t).tiles = x.tiles + 1 ∧ getRegion t r = some y' ∧ y'.phase = .loading ∧
        y'.load = some { image := va, map := n, wmask := m, act := some act, ctx := some s.cur, sheet := x.sheet,
                         words := if m = 0 then some [] else none, algs := takeAlgs s y }) ∧
      (m ≠ 0 → ∃ t y', exec (.ctx d a m n) s = .next t ∧ (curCtx t).wait = .ctxLoad d ∧ (curCtx t).pc = x.pc ∧
        (curCtx t).tiles = x.tiles ∧ getRegion t r = some y' ∧ y'.phase = .idle ∧
        y'.load = some { image := va, map := n, wmask := m, act := none, ctx := some s.cur, sheet := x.sheet, algs := takeAlgs s y }))

/-- BIND gives the member's port its outside end: a memory source, a memory sink or a seed FIFO that is empty; the query gives
the tokens moved and the overflow of the last take (R467). SEED puts one token from private memory into the port's seed FIFO,
every masked-off lane zero, and with bit 63 exhausts the port; it refuses a port that is no seed port (NOSEED), one that is
exhausted (LATE) and an unknown tag (BADTAG), and waits on a full FIFO (R468). -/
def Obligations.Ports : Prop :=
  (∀ (s : State) (d a b : BitVec 5) (port : BitVec 8) (r : Nat) (y : Region) (q : PortEnd),
      OperandsReady s [a, b, d] → (curCtx s).acq = none → curRegion s = some (r, y) → y.frozen = none → portInUse y port.toNat = false →
      (getMember s (curCtx s).scene (curCtx s).member).isSome = true →
      let x := curCtx s
      let va := readG x a
      let v := (readG x b).toNat
      let done := fun (t : State) (p : PortEnd) =>
        (curCtx t).pc = x.pc + 4 ∧ (d ≠ 0 → readG (curCtx t) d = 0) ∧ getPort t x.scene x.member port.toNat = some p
      (va.toNat % 64 = 0 → va.toNat < 2 ^ 48 →
        (v < 2 ^ 36 → v / 2 ^ 32 % 16 ≤ 4 → ∃ t, exec (.bindSource d a b port) s = .next t ∧
          done t { kind := 2, addr := va, count := v % 2 ^ 32, endcut := v / 2 ^ 32 % 16 }) ∧
        (v < 2 ^ 32 → ∃ t, exec (.bindSink d a b port) s = .next t ∧ done t { kind := 3, addr := va, count := v })) ∧
      (∃ t, exec (.bindSeed d port) s = .next t ∧ done t { kind := 1 }) ∧
      (getPort s x.scene x.member port.toNat = some q →
        exec (.bindQuery d port) s = .next (retire s d (BitVec.ofNat 64 (q.lastMoved % 2 ^ 32 * 2 ^ 16 +
          (if q.lastOvf then 256 else 0)))))) ∧
  (∀ (s : State) (d a b : BitVec 5) (port : BitVec 8) (r : Nat) (y : Region) (q : PortEnd),
      OperandsReady s [a, b, d] → (curCtx s).acq = none → curRegion s = some (r, y) → y.frozen = none →
      let x := curCtx s
      let va := readG x a
      let w := readG x b
      va.toNat % 64 = 0 → va.toNat < 0x8000 → getPort s x.scene x.member port.toNat = some q →
      (q.kind ≠ 1 → exec (.seed d a b port) s = .next (retire s d 0x3A)) ∧
      (q.kind = 1 → q.exhausted = true → exec (.seed d a b port) s = .next (retire s d 0x38)) ∧
      (q.kind = 1 → q.exhausted = false → badSeedTag (w.toNat / 2 ^ 16 % 16) = true →
        exec (.seed d a b port) s = .next (retire s d 0x39)) ∧
      (q.kind = 1 → q.exhausted = false → badSeedTag (w.toNat / 2 ^ 16 % 16) = false → x.privBad = [] → 64 ≤ q.fifo.length →
        ∃ t, exec (.seed d a b port) s = .next t ∧ curCtx t = { x with wait := .step d }) ∧
      (q.kind = 1 → q.exhausted = false → badSeedTag (w.toNat / 2 ^ 16 % 16) = false → x.privBad = [] → q.fifo.length < 64 →
        ∃ t p, exec (.seed d a b port) s = .next t ∧ (curCtx t).pc = x.pc + 4 ∧
          getPort t x.scene x.member port.toNat = some p ∧ p.exhausted = w.getLsbD 63 ∧
          p.fifo = if w.getLsbD 62 then q.fifo else q.fifo ++ [seedToken w (blockOf (privBytes x va.toNat 64))]))

/-- WRAPW waits while a take is in progress, and then writes the last take's outcome and frees the rushes entries (R469). HOLD
writes POOLFULL at once if the crew's save pool has no room for the scene; otherwise the scene's hold is wanted, its areas are
taken, and the context yields until resume (R470). -/
def Obligations.WrapAndHold : Prop :=
  (∀ (s : State) (d : BitVec 5) (r : Nat) (y : Region), OperandsReady s [d] → (curCtx s).acq = none → curRegion s = some (r, y) →
      (y.phase ≠ .idle → ∃ t, exec (.wrapw d) s = .next t ∧ (curCtx t).pc = (curCtx s).pc ∧ (curCtx t).wait = .stall) ∧
      (y.phase = .idle → ∃ t, exec (.wrapw d) s = .next t ∧ (curCtx t).pc = (curCtx s).pc + 4 ∧ (curCtx t).rushes = [] ∧
        (d ≠ 0 → readG (curCtx t) d = BitVec.ofNat 64 (y.last.toNat + if y.lastOvf then 256 else 0)))) ∧
  (∀ (s : State) (d : BitVec 5) (k : Scene), OperandsReady s [d] → (curCtx s).acq = none → getScene s (curCtx s).scene = some k → k.wanted = false →
      k.holding = false →
      (holdAreas s k = none → exec (.hold d) s = .next (retire s d 0x37)) ∧
      (∀ as, holdAreas s k = some as → ∃ t k', exec (.hold d) s = .next t ∧ (curCtx t).wait = .hold d ∧
        (curCtx t).pc = (curCtx s).pc ∧ (curCtx t).g = (curCtx s).g ∧ (curCtx t).rushes = [] ∧
        getScene t (curCtx s).scene = some k' ∧ k'.wanted = true ∧ k'.areas = as))

/-! ## Cues, barriers, child scenes (18 R471, R474-R476; 05 R119, R120) -/

/-- CUE puts the low 32 bits of four registers into the stage's cue dependency table, gives `g[d]` the ticket, and counts the
cue in its class; with ACQ the context's accesses wait for its retirement (R471, 09 R224), and where the cue may complete BADCUE
so does its next issue slot (log 29); that a > 28 takes ILLEGAL is the model's reading (log 29). A ready entry of a cue
table goes to its engine's inbox as an operation, and pops its FIFO, which then counts one less (05 R119, R120). A completed entry
is freed and its push counted once the FIFO has room; until then it stays with its tiles released (05 R120). The retirement of an
acquire-marked cue ends the wait for it, and leaves the context the trap BADCUE, with the cue's word 0, if it completed so, which
the context's next issue slot takes (12 R289, R290). -/
def Obligations.CueTable : Prop :=
  (∀ (s : State) (d a : BitVec 5), OperandsReady s [a, a + 1, a + 2, a + 3, d] →
      let x := curCtx s
      let w := [(readG x a).setWidth 32, (readG x (a + 1)).setWidth 32, (readG x (a + 2)).setWidth 32, (readG x (a + 3)).setWidth 32]
      let st := ctxStage s.cur
      (a.toNat ≤ 28 → x.acq = none → (getStage s st).table.length < 64 →
        (if cueClass w = 0 then x.copies < 512 else x.tiles < 63) →
        ∃ t e, exec (.cue d a) s = .next t ∧ (curCtx t).pc = x.pc + 4 ∧ (d ≠ 0 → readG (curCtx t) d = x.tickets) ∧
          (∀ r, r ≠ d → readG (curCtx t) r = readG x r) ∧ (curCtx t).tickets = x.tickets + 1 ∧
          (getStage t st).table = (getStage s st).table ++ [e] ∧ e.words = w ∧ e.ctx = s.cur ∧ e.ticket = x.tickets ∧
          e.sheet = x.sheet ∧ e.issued = false ∧ (e.ins, e.outs) = cueTiles w ∧
          (curCtx t).copies = (if cueClass w = 0 then x.copies + 1 else x.copies) ∧
          (curCtx t).tiles = (if cueClass w = 0 then x.tiles else x.tiles + 1) ∧
          (cueAcq w = true → (curCtx t).acq = some x.tickets ∧ (curCtx t).wait ∈ [.none, .acquire] ∧
            (cueMalformed w = true → (curCtx t).wait = .acquire)) ∧
          (cueAcq w = false → (curCtx t).wait = .none ∧ (curCtx t).acq = none)) ∧
      (28 < a.toNat → TrapReady s → ∃ t, exec (.cue d a) s = .next t ∧
        Trapped x (curCtx t) 0x01 0 ((0x38#7 ++ d ++ a ++ 0#15).setWidth 64) x.pc)) ∧
  (∀ (s : State) (st n : Nat) (e : CueEntry) (o : Op), stageHolding s st = false → Sparse.wf 0 (getStage s st).fifos = true →
      firstIssue s st (getStage s st) [] (getStage s st).table = some (n, o) → (getStage s st).table[n]? = some e →
      ∃ t, exec (.cueEntryIssue st) s = .next t ∧ getOp t s.eng.nextOp = some o ∧ o.words = e.words ∧ o.ctx = some e.ctx ∧
        o.stage = st ∧ o.crew = e.crew ∧ o.scene = e.scene ∧ o.sheet = e.sheet ∧ o.ticket = e.ticket ∧
        o.phase = (if cueMalformed e.words then .finished else .inbox) ∧
        t.eng.nextOp = s.eng.nextOp + 1 ∧
        (getStage t st).table[n]? = some { e with issued := true, op := some s.eng.nextOp } ∧
        (getStage t st).table.length = (getStage s st).table.length ∧
        (cuePop e.words = false → (getStage t st).fifos = (getStage s st).fifos) ∧
        (cuePop e.words = true → ∀ k, Sparse.get 0 (getStage t st).fifos k =
          if k = cuePopN e.words then Sparse.get 0 (getStage s st).fifos k - 1 else Sparse.get 0 (getStage s st).fifos k) ∧
        t.ctxs = s.ctxs ∧ t.mem = s.mem) ∧
  (∀ (s : State) (st n : Nat) (e : CueEntry), (getStage s st).table[n]? = some e → e.done = true → (getCtx s e.ctx).acq = none →
      let full := Sparse.get 0 (getStage s st).fifos (cuePushN e.words)
      ∃ t, exec (.cueEntryRetire st n) s = .next t ∧
        (cuePush e.words = true → 32 ≤ full →
          (getStage t st).table[n]? = some { e with released := true } ∧ (getStage t st).fifos = (getStage s st).fifos) ∧
        (cuePush e.words = true → full < 32 →
          (getStage t st).table = (getStage s st).table.eraseIdx n ∧
          Sparse.get 0 (getStage t st).fifos (cuePushN e.words) = full + 1) ∧
        (cuePush e.words = false →
          (getStage t st).table = (getStage s st).table.eraseIdx n ∧ (getStage t st).fifos = (getStage s st).fifos)) ∧
  (∀ (s : State) (st n : Nat) (e : CueEntry), (getStage s st).table[n]? = some e → e.done = true → e.released = false →
      let x := getCtx s e.ctx
      x.acq = some e.ticket → x.acqBad = none →
      ∃ t, exec (.cueEntryRetire st n) s = .next t ∧
        getCtx t e.ctx = { x with acq := none, wait := if x.wait = .acquire then .none else x.wait
                                  acqBad := if e.status = 0x01 then some ((e.words.getD 0 0).setWidth 64) else none }) ∧
  (∀ (s : State) (st c : Nat) (v : Word) (rest : List Turn) (more : List Nat),
      s.agenda = .issue st :: rest → partStopped s = false → readyList { s with agenda := rest } st = c :: more → (getCtx s c).acqBad = some v →
      (getCtx s c).tm = false → (getCtx s c).xvec ≠ 0 → (getCtx s c).wait = .none →
      ∃ t, step s = .next t ∧ Trapped (getCtx s c) (getCtx t c) 0x05 0 v (getCtx s c).pc)

/-- BAR makes one arrival and waits; executed again once the arrival has completed it writes the status and goes on, and a
barrier fault is then an asynchronous trap; an address with bits [63:30] set gives BADCUE and no arrival (R476). It frees the
rushes entries (08 R202). -/
def Obligations.BarArrives : Prop :=
  ∀ (s : State) (d a : BitVec 5) (p : BitVec 1), OperandsReady s [a, d] →
    let x := curCtx s
    let w := barWords (readG x a) p
    let st := ctxStage s.cur
    (x.bars.find? (·.pc == x.pc) = none → 2 ^ 30 ≤ (readG x a).toNat →
      exec (.bar d a p) s = .next (retire (modCur s fun y => { y with rushes := [] }) d 0x01)) ∧
    (x.bars.find? (·.pc == x.pc) = none → (readG x a).toNat < 2 ^ 30 → x.acq = none → x.stores = [] →
      inboxRoom s (cueEngine st w) = true → stageArrivals s st < 64 →
      ∃ t o, exec (.bar d a p) s = .next t ∧ (curCtx t).wait = .bar d ∧ (curCtx t).pc = x.pc ∧ (curCtx t).rushes = [] ∧
        (curCtx t).bars = x.bars ++ [{ pc := x.pc, addr := (readG x a).toNat }] ∧ getOp t s.eng.nextOp = some o ∧
        o.words = w ∧ o.scene = x.scene ∧ o.crew = x.crew ∧ o.stage = st ∧ o.ctx = some s.cur ∧ o.barPc = some x.pc) ∧
    (∀ b c, x.bars.find? (·.pc == x.pc) = some b → b.done = some c →
      ∃ t, exec (.bar d a p) s = .next t ∧ (curCtx t).pc = x.pc + 4 ∧ (d ≠ 0 → readG (curCtx t) d = c.setWidth 64) ∧
        (curCtx t).wait = .none ∧ (curCtx t).bars = x.bars.erase b ∧ (curCtx t).rushes = [] ∧
        (curCtx t).pend = x.pend ++ (if c = 0x16 ∨ c = 0x17 ∨ c = 0x18 then
          [{ cause := 0x11, val := BitVec.ofNat 64 (c.toNat + b.addr * 2 ^ 16) }] else []))

/-- SPAWN pushes the slate at its address into the queue its PRIO names: into the window while that has room and the spill ring
is empty, with the handle in `g[d]`; a sealed queue gives 0x02; a misaligned address takes MISALIGN (R474, 06 R126, R129). JOIN
counts down the join counter of the slate its handle names; a handle that is refused takes JOINREF with the handle and changes
no counter (R475). -/
def Obligations.SpawnAndJoin : Prop :=
  (∀ (s : State) (d a : BitVec 5) (bs : List Byte), OperandsReady s [a, d] →
      let x := curCtx s
      let va := readG x a
      let ws := wordsOfBytes bs
      let q := 8 * x.crew + slateField ws 4 61 3
      (va.toNat % 64 ≠ 0 → TrapReady s → ∃ t, exec (.spawn d a) s = .next t ∧ Trapped x (curCtx t) 0x02 0 va x.pc) ∧
      (va.toNat % 64 = 0 → x.loads = [] → x.stores = [] → x.acq = none → (getQueue s q).spill = none →
        readWaits s (ctxStage s.cur) x.crew va = false → vread s (ctxStage s.cur) x.crew va 64 = .ok bs →
        ((getQueue s q).sealed = true → ∃ t, exec (.spawn d a) s = .next t ∧ (curCtx t).pc = x.pc + 4 ∧
          (d ≠ 0 → readG (curCtx t) d = 0x0200000000) ∧ t.sched = s.sched) ∧
        ((getQueue s q).sealed = false → 0 < qcredit s q → windowCount s q < 64 → (getQueue s q).ringLen = 0 →
          ∃ t y, exec (.spawn d a) s = .next t ∧ (curCtx t).pc = x.pc + 4 ∧
            t.sched.slates.Perm (y :: s.sched.slates) ∧ t.sched.nextOrder = s.sched.nextOrder + 1 ∧ y.words = stampWords x.crew (slateField ws 4 61 3) ws ∧ y.crew = x.crew ∧
            y.prio = slateField ws 4 61 3 ∧ y.order = s.sched.nextOrder ∧ y.entered = false ∧
            (d ≠ 0 → readG (curCtx t) d = BitVec.ofNat 64 (q * 2 ^ 24 + y.sub))))) ∧
  (∀ (s : State) (a : BitVec 5), OperandsReady s [a] → (curCtx s).loads = [] → (curCtx s).stores = [] → (curCtx s).acq = none →
      let x := curCtx s
      let h := readG x a
      (h.toNat < 2 ^ 30 → h.toNat / 2 ^ 27 = x.crew → ∀ y, handleSlate s h = some y → y.ringPos = none →
        (0 < y.joincnt → ∃ t, exec (.join a) s = .next t ∧ (curCtx t).pc = x.pc + 4 ∧ (curCtx t).g = x.g ∧
          ∀ z ∈ s.sched.slates, z.order = y.order → ∃ z' ∈ t.sched.slates, z'.order = y.order ∧ z'.joincnt = y.joincnt - 1) ∧
        (y.joincnt = 0 → TrapReady s → ∃ t, exec (.join a) s = .next t ∧ Trapped x (curCtx t) 0x09 0 h x.pc ∧
          t.sched = s.sched)) ∧
      ((2 ^ 30 ≤ h.toNat ∨ h.toNat / 2 ^ 27 % 8 ≠ x.crew ∨ handleSlate s h = none) → TrapReady s →
        ∃ t, exec (.join a) s = .next t ∧ Trapped x (curCtx t) 0x09 0 h x.pc ∧ t.sched = s.sched))

/-- A finished operation of a context completes: with no reply its status reaches the sync slot its cue names, its class counter
falls, its table entry is complete with that status, and it leaves its engine (11 R262, R263). A cue whose fields break its
layout completes with BADCUE, the cue's word 0 as DETAIL, and no other effect (13 R326, 17 R431, 11 R266). -/
def Obligations.OperationsEnd : Prop :=
  (∀ (s : State) (id c : Nat) (o : Op), getOp s id = some o → o.phase = .finished → o.remote = none → o.unit = none →
      o.ctx = some c → o.barPc = none → (getCtx s c).scene = o.scene → (getCtx s c).state ≠ .free → sceneAway s o.scene = false →
      cueRk o.words = 0 → cueOpc o.words ≠ 0x2A →
      (cueSlot o.words ≠ 0xFFFF → syncGet s o.crew (dieOf o.stage) (cueSlot o.words) ≠ .error .wait) →
      ∃ t, exec (.operationComplete id) s = .next t ∧ t.eng.ops = Sparse.erase s.eng.ops id ∧
        (cueClass o.words = 0 → (getCtx t c).copies = (getCtx s c).copies - 1 ∧ (getCtx t c).tiles = (getCtx s c).tiles) ∧
        (cueClass o.words ≠ 0 → (getCtx t c).tiles = (getCtx s c).tiles - 1 ∧ (getCtx t c).copies = (getCtx s c).copies) ∧
        (∀ e ∈ (getStage t o.stage).table, e.op = some id → e.done = true ∧ e.status = o.status) ∧
        (∀ v u, cueSlot o.words ≠ 0xFFFF → syncGet s o.crew (dieOf o.stage) (cueSlot o.words) = .ok (v, u) →
          ∃ p, t.eng.places.find? (isPlace o.crew (dieOf o.stage) (cueSlot o.words)) = some p ∧
            p.val = completionValue v o.status o.detail)) ∧
  (∀ (s : State) (id : Nat) (o : Op), ∀ p ∈ engineCues id, AtHead s id o p.2 → cueBad s o = true →
      ∃ t, exec p.1 s = .next t ∧
        getOp t id = some { o with phase := .finished, status := 0x01, detail := ((o.words.getD 0 0).setWidth 64), result := [] } ∧
        t = { s with eng := { s.eng with ops := t.eng.ops } })

/-! ## Engine operations (11; 17) -/

/-- An atomic on a sync variable replaces the addressed field by its function of the old value and the operand, and completes OK
with the old value as DETAIL (11 R280, 17 R441). An atomic in global memory writes its function of the old bytes back, and
completes OK with the old value (17 R441). -/
def Obligations.Atomics : Prop :=
  (∀ (s u : State) (id : Nat) (o : Op) (v : BitVec 128),
      let bs := syncArgs o
      let n := if cuef o.words 1 28 1 = 1 then 64 else 32
      let lo := 32 * cuef o.words 1 26 2
      let old := v.toNat / 2 ^ lo % 2 ^ n
      let x := if syncArg o then imgField bs 0 8 % 2 ^ n else ((BitVec.ofNat 32 (cuef o.words 2 0 32)).signExtend 64).toNat % 2 ^ n
      let cmp := imgField bs 8 8 % 2 ^ n
      ∀ p ∈ [((.atadd id : Instr), 0x20, (old + x) % 2 ^ n), (.atmin id, 0x21, if sextInt n x < sextInt n old then x else old),
          (.atmax id, 0x22, if sextInt n old < sextInt n x then x else old), (.atand id, 0x23, old &&& x),
          (.ator id, 0x24, old ||| x), (.atxor id, 0x25, old ^^^ x), (.atswp id, 0x26, x),
          (.atcas id, 0x27, if old = cmp then x else old)],
        Starts s id o p.2.1 → cuef o.words 1 29 1 = 0 →
        syncGet s o.crew (syncDie o) (syncIndex o) = .ok (v, u) →
        ∃ t q, exec p.1 s = .next t ∧ t.eng.places.find? (isPlace o.crew (syncDie o) (syncIndex o)) = some q ∧
          q.val = BitVec.ofNat 128 (v.toNat - old * 2 ^ lo + p.2.2 * 2 ^ lo) ∧
          getOp t id = some { o with phase := .finished, status := 0, detail := BitVec.ofNat 64 old, result := [] }) ∧
  (∀ (s : State) (id : Nat) (o : Op) (q : Piece),
      let bs := syncArgs o
      let n := if cuef o.words 1 28 1 = 1 then 64 else 32
      let va : Word := BitVec.ofNat 64 (imgField bs 16 8)
      ∀ p ∈ [((.atadd id : Instr), 0x20), (.atmin id, 0x21), (.atmax id, 0x22), (.atand id, 0x23), (.ator id, 0x24), (.atxor id, 0x25),
          (.atswp id, 0x26), (.atcas id, 0x27)],
        Starts s id o p.2 → cuef o.words 1 29 1 = 1 →
        va.toNat % (n / 8) = 0 → pieceOf s (524 + o.home) o.crew va (n / 8) .write false = .ok q → badBlock s q.pa = false →
        q.host = false →
        let old := leNat (readPiece s q)
        ∃ t, exec p.1 s = .next t ∧
          t.mem = (writePiece s q (leBytes (n / 8) (atomicValue p.2 n old (imgField bs 0 8 % 2 ^ n) (imgField bs 8 8 % 2 ^ n)))).mem ∧
          getOp t id = some { o with phase := .finished, status := 0, detail := BitVec.ofNat 64 old, result := [] })

/-- The other sync operations on a variable: `swrite` writes it, `sread` returns it, `barinit` makes it a barrier and ends its
waiting arrivals, `alloc` takes chunks or completes NOCHUNK, `accadd` adds exactly or completes ADDEXP or ACCRANGE (11 R281,
R282; 17 R442-R445). -/
def Obligations.SyncOperations : Prop :=
  ∀ (s u : State) (id : Nat) (o : Op) (v : BitVec 128), syncGet s o.crew (syncDie o) (syncIndex o) = .ok (v, u) →
    let bs := syncArgs o
    let once := (s.eng.places.filter (isPlace o.crew (syncDie o) (syncIndex o))).length ≤ 1
    let held := fun (t : State) (w : BitVec 128) =>
      ∃ q, t.eng.places.find? (isPlace o.crew (syncDie o) (syncIndex o)) = some q ∧ q.val = w
    let ended := fun (t : State) (c : BitVec 16) (d : Word) (r : List Block) =>
      getOp t id = some { o with phase := .finished, status := c, detail := d, result := r }
    (Starts s id o 0x2C →
      ∃ t, exec (.swrite id) s = .next t ∧ held t (BitVec.ofNat 128 (imgField bs 0 16)) ∧ ended t 0 0 []) ∧
    (Starts s id o 0x2D → once →
      ∃ t, exec (.sread id) s = .next t ∧ held t v ∧ ended t 0 (v.setWidth 64) [v.setWidth 512]) ∧
    (Starts s id o 0x29 → (∀ b ∈ s.eng.waits, waitsAt o.crew (syncDie o) (syncIndex o) b = true → b.op ≠ id) →
      ∃ t, exec (.barinit id) s = .next t ∧
        held t (barValue (o.scene % 2 ^ 16) (cuef o.words 2 0 16) 0 0 (cuef o.words 2 16 16) 0) ∧ ended t 0 0 [] ∧
        ∀ b ∈ t.eng.waits, waitsAt o.crew (syncDie o) (syncIndex o) b = false) ∧
    (Starts s id o 0x2B →
      let n := cuef o.words 2 0 5
      let next := v.toNat % 2 ^ 48
      let limit := v.toNat / 2 ^ 64 % 2 ^ 48
      (next + 256 * n ≤ limit → ∃ t w, exec (.alloc id) s = .next t ∧ held t w ∧ w.toNat % 2 ^ 48 = next + 256 * n ∧
        w.toNat / 2 ^ 48 = v.toNat / 2 ^ 48 ∧ ended t 0 (BitVec.ofNat 64 next) [BitVec.ofNat 512 next]) ∧
      (limit < next + 256 * n → once → ∃ t, exec (.alloc id) s = .next t ∧ held t v ∧ ended t 0x12 (BitVec.ofNat 64 next) [0])) ∧
    (Starts s id o 0x28 →
      let a : BitVec 128 := BitVec.ofNat 128 (imgField bs 0 16)
      a.toNat / 2 ^ 127 = 0 → a.toNat / 2 ^ 112 % 32 = 0 →
      (∀ w, accaddValue v a = .ok w → ∃ t, exec (.accadd id) s = .next t ∧ held t w ∧ ended t 0 0 []) ∧
      (a.toNat / 2 ^ 96 % 2 ^ 16 ≠ v.toNat / 2 ^ 96 % 2 ^ 16 → ∃ t, exec (.accadd id) s = .next t ∧
        ended t 0x14 (BitVec.ofNat 64 (v.toNat / 2 ^ 96 % 2 ^ 16)) []))

/-- `arrive` at a barrier of its scene and phase counts the arrival, which waits; the arrival that fills the barrier flips the
phase, clears ARRIVED and completes them all OK; a wrong scene completes BARSCENE, a wrong phase BARPHASE (11 R282, 17 R443).
While arrivals wait at a barrier whose scene is placed, each 1,024 tc count one in ELAPSED, and the ticks while it is held do not;
at TIMEOUT every waiting arrival completes with BARTIMEOUT and the variable stays (11 R282, 05 R110). -/
def Obligations.Barriers : Prop :=
  (∀ (s u : State) (id : Nat) (o : Op) (v : BitVec 128), Starts s id o 0x2A → arrivalTo s o = .here →
      syncGet s o.crew (syncDie o) (syncIndex o) = .ok (v, u) →
      let held := fun (t : State) (w : BitVec 128) =>
        ∃ q, t.eng.places.find? (isPlace o.crew (syncDie o) (syncIndex o)) = some q ∧ q.val = w
      (barScene v ≠ o.scene % 2 ^ 16 → ∃ t o', exec (.arrive id) s = .next t ∧ getOp t id = some o' ∧ o'.phase = .finished ∧
        o'.status = 0x18 ∧ o'.detail = BitVec.ofNat 64 (barScene v) ∧ t.eng.waits = s.eng.waits) ∧
      (barScene v = o.scene % 2 ^ 16 → cuef o.words 2 0 1 ≠ barPhase v → ∃ t o', exec (.arrive id) s = .next t ∧
        getOp t id = some o' ∧ o'.phase = .finished ∧ o'.status = 0x16 ∧ o'.detail = BitVec.ofNat 64 (barArrived v) ∧
        t.eng.waits = s.eng.waits) ∧
      (barScene v = o.scene % 2 ^ 16 → cuef o.words 2 0 1 = barPhase v →
        (barArrived v + 1 ≠ barCount v → (s.eng.waits.filter fun b => b.die == syncDie o).length < 8192 → ∃ t o' b, exec (.arrive id) s = .next t ∧ getOp t id = some o' ∧ o'.phase = .waiting ∧
          t.eng.waits = s.eng.waits ++ [b] ∧ b.op = id ∧ waitsAt o.crew (syncDie o) (syncIndex o) b = true ∧
          held t (barValue (barScene v) (barCount v) (barArrived v + 1) (barPhase v) (barTimeout v) (barElapsed v))) ∧
        (barArrived v + 1 = barCount v → ∃ t o', exec (.arrive id) s = .next t ∧ getOp t id = some o' ∧ o'.phase = .finished ∧
          o'.status = 0 ∧ held t (barValue (barScene v) (barCount v) 0 (1 - barPhase v) (barTimeout v) 0) ∧
          ∀ b ∈ t.eng.waits, ¬ (waitsAt o.crew (syncDie o) (syncIndex o) b = true ∧ b.phase.toNat = barPhase v)))) ∧
  (∀ (s u : State) (c d n : Nat) (b : BarWait) (v : BitVec 128), s.eng.waits.find? (waitsAt c d n) = some b →
      syncGet s c d n = .ok (v, u) →
      (1024 ≤ b.ran → barArrived v ≠ 0 → (barTimeout v = 0 ∨ barElapsed v < barTimeout v) →
        ∃ t q, exec (.barrierElapsed c d n) s = .next t ∧ t.eng.places.find? (isPlace c d n) = some q ∧
          q.val = barValue (barScene v) (barCount v) (barArrived v) (barPhase v) (barTimeout v) (barElapsed v + 1)) ∧
      (barTimeout v ≠ 0 → barTimeout v ≤ barElapsed v → ∃ t, exec (.barrierTimeout c d n) s = .next t ∧
        (∀ b ∈ t.eng.waits, waitsAt c d n b = false) ∧
        (∀ o, getOp s b.op = some o → ∃ o', getOp t b.op = some o' ∧ o'.phase = .finished ∧ o'.status = 0x17 ∧
          o'.detail = BitVec.ofNat 64 (barArrived v)))) ∧
  (∀ (s : State) (tc : Nat) (b : BarWait) (o : Op), b ∈ s.eng.waits → getOp s b.op = some o →
      ((∃ p ∈ s.scenes, p.1 % 2 ^ 16 = o.scene % 2 ^ 16 ∧ p.2.holding = false ∧ p.2.isHeld = false ∧ p.2.xchip = false ∧
          ∀ m ∈ p.2.members, m.state ≠ .placed) → { b with ran := b.ran + tc } ∈ (passBarriers s tc).eng.waits) ∧
      ((∀ p ∈ s.scenes, p.1 % 2 ^ 16 = o.scene % 2 ^ 16 → p.2.holding = true ∨ p.2.isHeld = true) →
        b ∈ (passBarriers s tc).eng.waits))

/-! ## Copies, gathers, regeneration, saving (11 R267-R271, R285, R304; 17 R433-R436, R447, R448) -/

/-- `copy` moves a tile from tensor to tensor: a tile outside a tensor or of another shape completes BADSHAPE with the tensor, a
difference of format BADMATCH, a bad orientation BADORIENT; otherwise the copy begins with the plan of its destination blocks
(17 R433). `zero` writes zero to every element of its tile (17 R435). `copyad` moves a tile between a tensor and a global tensor
whose BASE it displaces: the direction bit chooses, and a tensor that is not global completes BADDEST (17 R434). The work goes on an
event at a time: the elements of a destination block are read, zeros for `zero`; then the block is written. A block of global
memory that its elements fill is written whole, and with the last block the operation is finished with the number of blocks as
DETAIL; a write into an array is asked of its square or bank (11 R269; 08 R183; 17 R449). -/
def Obligations.Copies : Prop :=
  (∀ (s : State) (id : Nat) (o : Op) (y : Tensor), Starts s id o 0x04 → cueTensor o (cuef o.words 1 10 10) = .ok y →
      let tile := tileOf y.q (cuef o.words 2 22 10) (cuef o.words 1 24 8 + 1) (cuef o.words 2 0 8 + 1) (cuef o.words 2 8 4 + 1)
      let dor := orientOf y.d (cuef o.words 1 22 2)
      (tile = none → exec (.zero id) s = .next (finishOp s id 0x05 (BitVec.ofNat 64 y.id))) ∧
      ∀ u, tile = some u →
        (orientBad y.d dor = true → exec (.zero id) s = .next (finishOp s id 0x04 (BitVec.ofNat 64 y.id))) ∧
        (orientBad y.d dor = false → exec (.zero id) s = .next (setOp s id { o with
          phase := .running, plan := ({ src := none, dst := y, tile := u, col := dor } : CopyJob).plan, mixed := false
          vals := none, kept := none, blocks := [] }))) ∧
  (∀ (s : State) (id : Nat) (o : Op) (x y : Tensor), Starts s id o 0x01 →
      cueTensor o (cuef o.words 1 0 10) = .ok x → cueTensor o (cuef o.words 1 10 10) = .ok y →
      let n0 := cuef o.words 1 24 8 + 1
      let n1 := cuef o.words 2 0 8 + 1
      let np := cuef o.words 2 8 4 + 1
      let sor := orientOf x.d (cuef o.words 1 20 2)
      let dor := orientOf y.d (cuef o.words 1 22 2)
      let ended := fun (c : BitVec 16) (d : Word) => exec (.copy id) s = .next (finishOp s id c d)
      (tileOf x.q (cuef o.words 2 12 10) n0 n1 np = none → ended 0x05 (BitVec.ofNat 64 x.id)) ∧
      (∀ u, tileOf x.q (cuef o.words 2 12 10) n0 n1 np = some u →
        (tileOf y.q (cuef o.words 2 22 10) n0 n1 np = none → ended 0x05 (BitVec.ofNat 64 y.id)) ∧
        ∀ v, tileOf y.q (cuef o.words 2 22 10) n0 n1 np = some v →
          ((u.m0 ≠ v.m0 ∨ u.m1 ≠ v.m1 ∨ u.mp ≠ v.mp) → ended 0x05 (BitVec.ofNat 64 x.id)) ∧
          (u.m0 = v.m0 → u.m1 = v.m1 → u.mp = v.mp →
            (mismatch x.d y.d = true → ended 0x06 0) ∧
            (mismatch x.d y.d = false →
              (orientBad x.d sor = true → ended 0x04 (BitVec.ofNat 64 x.id)) ∧
              (orientBad x.d sor = false →
                (orientBad y.d dor = true → ended 0x04 (BitVec.ofNat 64 y.id)) ∧
                (orientBad y.d dor = false →
                  let j : CopyJob := { src := some (x, u, sor), dst := y, tile := v, col := dor }
                  exec (.copy id) s = .next (setOp s id { o with
                    phase := .running, plan := j.plan, mixed := j.mixed, vals := none, kept := none, blocks := [] }))))))) ∧
  (∀ (s : State) (id : Nat) (o : Op) (x y : Tensor) (u : Tile), Starts s id o 0x02 →
      cueTensor o (cuef o.words 1 0 10) = .ok x → cueTensor o (cuef o.words 1 10 10) = .ok y →
      let base := y.base + (BitVec.ofNat 32 (cuef o.words 2 0 32)).signExtend 64
      let far : Tensor := { y with base, host := true }
      let whole : Tile := { a0 := 0, a1 := 0, pl := 0, m0 := u.m0, m1 := u.m1, mp := u.mp }
      let col : Bool := dOri x.d = 1 && dLoc x.d ≠ 3
      let begins := fun (j : CopyJob) => exec (.copyad id) s = .next (setOp s id { o with
        phase := .running, plan := j.plan, mixed := j.mixed, vals := none, kept := none, blocks := [] })
      (dLoc y.d ≠ 3 → exec (.copyad id) s = .next (finishOp s id 0x03 (BitVec.ofNat 64 y.id))) ∧
      (dLoc y.d = 3 → mismatch x.d y.d = false →
        base.toNat % (if perCell (dFmt y.d) = 1 then elemBytes (dFmt y.d) else 2) = 0 → base.toNat < 2 ^ 48 →
        tileOf x.q (cuef o.words 1 20 10) y.q.d0 y.q.d1 y.q.np = some u → u.m0 = y.q.d0 → u.m1 = y.q.d1 → u.mp = y.q.np →
        orientBad x.d col = false →
        (cuef o.words 1 30 1 = 0 → begins { src := some (far, whole, false), dst := x, tile := u, col }) ∧
        (cuef o.words 1 30 1 ≠ 0 → begins { src := some (x, u, col), dst := far, tile := whole, col := false }))) ∧
  (∀ (s : State) (id : Nat) (o : Op) (j : CopyJob) (unit : Nat) (es : List Nat) (rest : List (List Nat)),
     ∀ p ∈ ([(.copy id, 0x01, copyJob), (.copyad id, 0x02, copyadJob), (.zero id, 0x04, zeroJob)] :
         List (Instr × Nat × (Op → Eng CopyJob))),
       getOp s id = some o → o.phase = .running → cueOpc o.words = p.2.1 → p.2.2 o = .ok j → o.plan = (unit :: es) :: rest →
       (o.vals = none → j.src = none →
         ∃ t, exec p.1 s = .next t ∧ getOp t id = some { o with vals := some (es.map fun n => (n, 0)) } ∧ t.mem = s.mem) ∧
       (∀ (x : Tensor) (u : Tile) (col : Bool) (v : Nat → Nat), o.vals = none → j.src = some (x, u, col) → dLoc x.d = 3 →
         o.mixed = false → (∀ n ∈ es, ∀ z, j.source n = some z → readGlobal s o x.host z = .ok (v n)) →
         ∃ t, exec p.1 s = .next t ∧ getOp t id = some { o with vals := some (es.map fun n => (n, v n)) } ∧ t.mem = s.mem) ∧
       (∀ (vs : List (Nat × Nat)) (data mask touch : Block), o.vals = some vs →
         unitBits j.col unit (vs.map fun v => (j.target v.1, v.2)) = (data, mask, touch) →
         (∀ t, dLoc j.dst.d = 3 → mask = BitVec.allOnes 512 → touch = BitVec.allOnes 512 →
           vwrite s (engineCache (opEngine o)) o.crew (BitVec.ofNat 64 (64 * unit)) (blockBytes data) j.dst.host = (t, none) →
           ∃ w o', exec p.1 s = .next w ∧ w.mem = t.mem ∧ w.hostMem = t.hostMem ∧ getOp w id = some o' ∧ o'.status = o.status ∧
             (rest = [] → o'.phase = .finished ∧ (o.status = 0 →
               o'.detail = BitVec.ofNat 64 (if o.blocks.contains unit then o.blocks.length else o.blocks.length + 1))) ∧
             (rest ≠ [] → o'.phase = .running ∧ o'.plan = rest ∧ o'.vals = none)) ∧
         (dLoc j.dst.d ≠ 3 → touch ≠ 0 → touch &&& ~~~mask = 0 → agentReqs (getStage s o.stage) 7 id = [] →
           exec p.1 s = .next (modStage s o.stage fun g => { g with
             reqs := g.reqs ++ [{ array := dLoc j.dst.d, addr := unitAddr j.col unit, col := j.col, write := true, wm := touch
                                  data := (data &&& mask) ||| (o.kept.getD 0 &&& ~~~mask), rank := 7, op := id
                                  age := stageFc s o.stage }] }))))

/-- `rgather` checks its cue in order, then reads its whole index tensor before its first request (11 R270; 17 R436): an index
tensor of another format completes BADMATCH, a destination of other rows BADSHAPE, an unreachable peer BADPEER (R271). `regen` in
a step that is not a multiple of its period does nothing and completes OK with no groups; a tensor outside global memory
completes BADDEST (08 R178); a destination that is not the source's pruned shape BADSHAPE; otherwise its groups are regenerated
in turn (11 R285, 17 R447). It keeps the four of eight positions of largest magnitude, in rising order, ties to the lower
position. -/
def Obligations.RemoteAndRegeneration : Prop :=
  (∀ (s : State) (id : Nat) (o : Op) (x y : Tensor), Starts s id o 0x03 →
      cueTensor o (cuef o.words 1 0 10) = .ok x → cueTensor o (cuef o.words 1 10 10) = .ok y →
      let ended := fun (c : BitVec 16) (d : Word) => exec (.rgather id) s = .next (finishOp s id c d)
      let fits := 2 * y.q.w * ceilDiv y.q.n0 y.q.p = 64 * (cuef o.words 1 24 6 + 1) ∧
        x.q.d0 * x.q.d1 * x.q.np * x.q.dd ≤ y.q.d1 * y.q.planes
      (dFmt x.d ≠ 0x0A → ended 0x06 0) ∧
      (dFmt x.d = 0x0A → ¬ fits → ended 0x05 (BitVec.ofNat 64 y.id)) ∧
      (dFmt x.d = 0x0A → fits → orientBad x.d (ownOri x.d) = false → orientBad y.d (ownOri y.d) = false →
        ((gatherPort s o = none ∨ gatherOut s o = true) → ended 0x0C (BitVec.ofNat 64 (cuef o.words 1 20 4))) ∧
        (gatherPort s o ≠ none → gatherOut s o = false →
          ∃ t o', exec (.rgather id) s = .next t ∧ getOp t id = some o' ∧ o'.phase = .running ∧ o'.todo = [] ∧ o'.rows = 0 ∧
            t = setOp s id o'))) ∧
  (∀ (s : State) (id : Nat) (o : Op) (x y : Tensor), Starts s id o 0x40 →
      cueTensor o (cuef o.words 1 0 10) = .ok x → cueTensor o (cuef o.words 1 10 10) = .ok y →
      let ended := fun (c : BitVec 16) (d : Word) => exec (.regen id) s = .next (finishOp s id c d)
      let formats := (dFmt x.d = 2 ∨ dFmt x.d = 4) ∧ dSpf y.d = 1 ∧ 3 ≤ dFmt y.d ∧ dFmt y.d ≤ 6
      let shape := y.q.d0 = 4 * ceilDiv x.q.d0 8 ∧ y.q.d1 = x.q.d1 ∧ dDim y.d 2 = dDim x.d 2 ∧ dDim y.d 3 = dDim x.d 3
      (dLoc x.d ≠ 3 → ended 0x03 (BitVec.ofNat 64 x.id)) ∧
      (dLoc x.d = 3 → dLoc y.d ≠ 3 → ended 0x03 (BitVec.ofNat 64 y.id)) ∧
      (dLoc x.d = 3 → dLoc y.d = 3 → ¬ formats → ended 0x06 0) ∧
      (dLoc x.d = 3 → dLoc y.d = 3 → formats → dSploc y.d = 3 →
        (¬ shape → ended 0x05 (BitVec.ofNat 64 x.id)) ∧
        (shape → imgField o.args 0 8 % max 1 (imgField o.args 16 4) ≠ 0 → ended 0 0) ∧
        (shape → imgField o.args 0 8 % max 1 (imgField o.args 16 4) = 0 →
          exec (.regen id) s = .next (setOp s id { o with
            phase := .running, plan := regenGroups x, todo := [], rows := 0, vals := none, kept := none })))) ∧
  (∀ (r : Nat → Nat),
      let keep := keepFour ((List.range 8).map r)
      keep.length = 4 ∧ keep.Pairwise (· < ·) ∧
      ∀ i j, i ∈ keep → j < 8 → j ∉ keep → r j ≤ r i ∧ (r j = r i → i < j))

/-- `save` writes a stage's image, after the region's header block when it is the region's first stage, and keeps its record;
a stage with an unreadable cell is not saved as whole; `restore` brings the stage back from the bytes of its image, the record
supplying what no field of the image holds (log 27); the region's first stage reads the header block as well. The image of a context
that is still parked is written with its record, and the saved context leaves its director (12 R302-R304, 17 R448, 05 R104). -/
def Obligations.SavesAndRestores : Prop :=
  ∀ (s h t : State) (id : Nat) (o : Op) (r : Nat) (x : Region) (bs : List Byte),
    let cache := engineCache (opEngine o)
    (Starts s id o 0x50 → imgIsCtx o = false → regionOf s (imgStage o) = some (r, x) →
      (getStage s (imgStage o)).bad = [] → (getStage s (imgStage o)).soft = [] →
      (if stageOfRaster r = imgStage o then vwrite s cache o.crew (imgVA o - 0x10000) (saveHeader s x) else (s, none)) = (h, none) →
      vwrite h cache o.crew (imgVA o) (stageImage s x (imgStage o)) = (t, none) →
      ∃ u o', exec (.save id) s = .next u ∧ u.mem = t.mem ∧ getOp u id = some o' ∧ o'.phase = .finished ∧ o'.status = 0 ∧
        o'.detail = 0x120000 ∧ Sparse.find? u.images (imageKey o.crew (imgVA o)) = some (getStage t (imgStage o))) ∧
    (Starts s id o 0x50 → imgIsCtx o = true → parkedFor s o.scene (imgCtx o) = true → vwrite s cache o.crew (imgVA o) (ctxImage s (imgCtx o)) = (t, none) →
      (getCtx s (imgCtx o)).stores = [] →
      ∃ u o', exec (.save id) s = .next u ∧ u.mem = t.mem ∧ getOp u id = some o' ∧ o'.phase = .finished ∧ o'.status = 0 ∧
        o'.detail = 0x9000 ∧ u.ctxs = Sparse.erase s.ctxs (imgCtx o) ∧
        Sparse.find? u.ctxImages (imageKey o.crew (imgVA o)) = some (getCtx t (imgCtx o))) ∧
    (Starts s id o 0x51 → imgIsCtx o = false → vread s cache o.crew (imgVA o) 0x120000 = .ok bs →
      let loaded := fun (c : Nat) => match regionOf s (imgStage o) with
        | some (_, x) => (Sparse.find? x.loaded c).isSome
        | none => false
      let kept := Sparse.get {} s.images (imageKey o.crew (imgVA o))
      let v := countRead (modStage s (imgStage o) fun old => stageOfImage loaded old kept bs) cache o.crew (imgVA o) 0x120000
      (∀ r' x', regionOf s (imgStage o) = some (r', x') → stageOfRaster r' = imgStage o →
        ∃ hd, vread v cache o.crew (imgVA o - 0x10000) 64 = .ok hd) →
      ∃ u o', exec (.restore id) s = .next u ∧ getOp u id = some o' ∧ o'.phase = .finished ∧ o'.status = 0 ∧
        o'.detail = 0x120000 ∧ u.mem = s.mem ∧
        getStage u (imgStage o) = stageOfImage loaded (getStage s (imgStage o)) kept bs)

/-! ## Traversal engines (11 R272-R276; 17 R437-R439, R450-R453) -/

/-- `rsload` checks its image and `rsrel` needs none; the named engines then act one by one, each once no walk of the set is
present there: a set of another crew ends the cue with INUSE, otherwise the set is installed or dropped (11 R276, 17 R438,
R439). `walk` starts at the pointer of its argument block, under its set's version, and is handed off first if the pointer is
homed elsewhere; without the crew's set it completes RULESET (11 R273-R275, 17 R437). A walk reads the record at its pointer, a block an event, and then runs its set's rules on it: a rule that follows moves the
pointer, one that returns ends the walk OK with the record and the pointer, and one that fails ends it WALKFAIL; the step limit
and a null pointer end it before the read; another engine's pointer is handed off, and the engine that receives it checks the
set's crew and version (11 R273, R275; 09 R221). A record returned into X ends the walk once its writes are granted (08 R178).
Rules only jump forward, so within 17 rules a walk's rules follow, return or fail, and never merely go on (17 R450-R453). -/
def Obligations.Traversal : Prop :=
  (∀ (s : State) (id : Nat) (o : Op) (e : Nat) (rest : List Nat),
      let k := cuef o.words 1 0 3
      let v := BitVec.ofNat 16 (cuef o.words 1 16 16)
      (Starts s id o 0x11 →
        (parseSet o.crew v o.args = none → ∃ t o', exec (.rsload id) s = .next t ∧ getOp t id = some o' ∧ o'.phase = .finished ∧
          o'.status = 0x01 ∧ t.eng.sets = s.eng.sets) ∧
        (parseSet o.crew v o.args ≠ none → ∃ t o', exec (.rsload id) s = .next t ∧ getOp t id = some o' ∧ o'.phase = .running ∧
          o'.todo = setEngines o ∧ t.eng.sets = s.eng.sets)) ∧
      (Starts s id o 0x12 → ∃ t o', exec (.rsrel id) s = .next t ∧ getOp t id = some o' ∧ o'.phase = .running ∧
        o'.todo = setEngines o ∧ t.eng.sets = s.eng.sets) ∧
      (getOp s id = some o → o.phase = .running → o.todo = e :: rest → walkPresent s e k = false →
        (∀ q, getSet s e k = some q → q.crew ≠ o.crew → cueOpc o.words = 0x11 ∨ cueOpc o.words = 0x12 →
          ∃ t o', exec (.rulesetInstall id e) s = .next t ∧ getOp t id = some o' ∧ o'.phase = .finished ∧ o'.status = 0x11 ∧
            o'.detail = BitVec.ofNat 64 e ∧ t.eng.sets = s.eng.sets) ∧
        (∀ q, cueOpc o.words = 0x11 → (∀ q', getSet s e k = some q' → q'.crew = o.crew) → parseSet o.crew v o.args = some q →
          ∃ t o', exec (.rulesetInstall id e) s = .next t ∧ getSet t e k = some q ∧ getOp t id = some o' ∧
            (rest = [] → o'.phase = .finished ∧ o'.status = 0) ∧ (rest ≠ [] → o'.phase = .running ∧ o'.todo = rest)) ∧
        (cueOpc o.words = 0x12 → (∀ q', getSet s e k = some q' → q'.crew = o.crew) →
          ∃ t o', exec (.rulesetInstall id e) s = .next t ∧ t.eng.sets = Sparse.erase s.eng.sets (8 * e + k) ∧
            getOp t id = some o' ∧
            (rest = [] → o'.phase = .finished ∧ o'.status = 0) ∧ (rest ≠ [] → o'.phase = .running ∧ o'.todo = rest)))) ∧
  (∀ (s : State) (id : Nat) (o : Op), Starts s id o 0x10 → cuef o.words 1 4 1 = 0 →
      let e := 8 + dieOf o.stage
      let k := cuef o.words 1 0 3
      setChanging s e k = false → walkSlots s e false + walkSlots s e true < 256 →
      (∀ q, getSet s e k = some q → q.crew = o.crew →
        ∃ t o' w, exec (.walk id) s = .next t ∧ getOp t id = some o' ∧ o'.phase = .running ∧ o'.walk = some w ∧
          w.ptr.toNat = imgField o.args 0 6 ∧ w.key.toNat = imgField o.args 8 16 ∧ w.rset = k ∧ w.version = q.version ∧
          w.steps = 0 ∧ w.limit = (if cuef o.words 1 16 16 = 0 then 65535 else cuef o.words 1 16 16) ∧ w.retlen = q.retlen ∧
          (w.handoff = true ↔ w.engine ≠ e) ∧ (w.ptr = 0 → w.engine = e) ∧
          (∀ d, w.ptr ≠ 0 → pointerHome s e o.crew w.ptr = some d → w.engine = d)) ∧
      ((getSet s e k).filter (·.crew == o.crew) = none →
        ∃ t o', exec (.walk id) s = .next t ∧ getOp t id = some o' ∧ o'.phase = .finished ∧ o'.status = 0x10)) ∧
  (∀ (s : State) (id : Nat) (o : Op) (w : WalkState), getOp s id = some o → o.walk = some w → o.phase = .running →
      let ended := fun (c : BitVec 16) (d : Word) =>
        ∃ t o', exec (.walkStep id) s = .next t ∧ getOp t id = some o' ∧ o'.phase = .finished ∧ o'.status = c ∧ o'.detail = d
      (w.handoff = false → w.replying = false →
        (getSet s w.engine w.rset = none → ended 0x10 (BitVec.ofNat 64 (w.rset * 2 ^ 16 + w.version.toNat))) ∧
        (∀ q, getSet s w.engine w.rset = some q →
          (w.steps = w.limit → ended 0x0D (w.ptr.setWidth 64)) ∧
          (w.steps ≠ w.limit → w.ptr = 0 → ended 0x0F 0) ∧
          (∀ rec w' p, w.steps ≠ w.limit → w.ptr ≠ 0 → readRecord s o w q.rlen = .ok rec →
            let v := { w with steps := w.steps + 1, hasRec := true, lastRec := rec, read := [] }
            (rec.length < q.rlen → ∃ t, exec (.walkStep id) s = .next t ∧
              getOp t id = some { o with walk := some { w with read := rec } }) ∧
            (q.rlen ≤ rec.length → runRules 17 q.rules 0 v rec = (.fail, w') → ended 0x0E (w'.ptr.setWidth 64)) ∧
            (q.rlen ≤ rec.length → runRules 17 q.rules 0 v rec = (.ret, w') → cuef o.words 1 4 1 = 0 →
              ended 0 (w'.ptr.setWidth 64)) ∧
            (q.rlen ≤ rec.length → runRules 17 q.rules 0 v rec = (.follow p, w') → ∃ t o' z, exec (.walkStep id) s = .next t ∧
              getOp t id = some o' ∧ o'.phase = .running ∧ o'.walk = some z ∧ z.ptr = p ∧ z.w0 = w'.w0 ∧ z.w1 = w'.w1 ∧
              z.steps = w'.steps ∧ (z.handoff = true ↔ z.engine ≠ w'.engine))))) ∧
      (w.handoff = false → w.replying = true → agentReqs (getStage s o.stage) 6 id ≠ [] →
        (agentReqs (getStage s o.stage) 6 id).all (·.done) = true → ended 0 (w.ptr.setWidth 64)) ∧
      (∀ q, w.handoff = true → getSet s w.engine w.rset = some q → setChanging s w.engine w.rset = false →
        walkSlots s w.engine false < 256 →
        (q.crew = o.crew → q.version = w.version → ∃ t o', exec (.walkHandoff id) s = .next t ∧ getOp t id = some o' ∧
          o'.phase = .running ∧ o'.walk = some { w with handoff := false, retlen := q.retlen }) ∧
        (q.crew ≠ o.crew ∨ q.version ≠ w.version → ∃ t o', exec (.walkHandoff id) s = .next t ∧ getOp t id = some o' ∧
          o'.phase = .finished ∧ o'.status = 0x10))) ∧
  (∀ (rules : List Word) (w w' : WalkState) (rec : List Byte) (i n : Nat) (out : RuleOut),
      runRules n rules i w rec = (out, w') → out ≠ .next ∧ ∀ t, out ≠ .jump t)

/-! ## Port adders (01 R26, R27; 11 R284; 17 R446) -/

/-- `cbind` binds a free adder, or rebinds the scene's own drained one; another scene's completes INUSE; tokens that wait for the
adder count as arriving with the binding (log 36); `crel` frees a drained
adder, and one that holds unpaired tokens goes on pairing until it is drained (17 R446). An adder pairs the heads of its two
inputs when its output has room: equal ranks of cuts pass as one, data tokens are combined, and a pair that does not match
becomes an error token with ADDSKEW (01 R27). -/
def Obligations.Adders : Prop :=
  (∀ (s : State) (id : Nat) (o : Op) (b : Adder),
      let w := o.words
      let n := collAdder w
      let a : Adder := { scene := o.scene, mode := BitVec.ofNat 2 (cuef w 1 10 2), remote := cuef w 1 12 12, locl := cuef w 2 0 12,
                         out := cuef w 2 12 12, rAt := waitingSince s o.scene (cuef w 1 12 12)
                         lAt := waitingSince s o.scene (cuef w 2 0 12) }
      let ended := fun (t : State) (c : BitVec 16) =>
        ∃ o', getOp t id = some o' ∧ o'.phase = .finished ∧ o'.status = c ∧ o'.detail = BitVec.ofNat 64 (cuef w 1 6 4)
      (Starts s id o 0x30 →
        (cuef w 1 10 2 = 3 → ∃ t, exec (.cbind id) s = .next t ∧ t.eng.adders = s.eng.adders ∧ ended t 0x07) ∧
        (cuef w 1 10 2 ≠ 3 → collOk s o.scene n a.remote a.locl a.out = true →
          (Sparse.find? s.eng.adders n = none → ∃ t, exec (.cbind id) s = .next t ∧ Sparse.find? t.eng.adders n = some a ∧ ended t 0) ∧
          (Sparse.find? s.eng.adders n = some b → b.scene ≠ o.scene →
            ∃ t, exec (.cbind id) s = .next t ∧ t.eng.adders = s.eng.adders ∧ ended t 0x11) ∧
          (Sparse.find? s.eng.adders n = some b → b.scene = o.scene → b.draining = false → adderDrained s b = true →
            ∃ t, exec (.cbind id) s = .next t ∧ Sparse.find? t.eng.adders n = some a ∧ ended t 0))) ∧
      (Starts s id o 0x31 →
        (Sparse.find? s.eng.adders n = some b → b.scene = o.scene → adderDrained s b = true →
          ∃ t, exec (.crel id) s = .next t ∧ t.eng.adders = Sparse.erase s.eng.adders n ∧ ended t 0) ∧
        (Sparse.find? s.eng.adders n = some b → b.scene = o.scene → adderDrained s b = false →
          ∃ t, exec (.crel id) s = .next t ∧ Sparse.find? t.eng.adders n = some { b with draining := true } ∧ getOp t id = some o))) ∧
  (∀ (s : State) (n : Nat) (a : Adder) (k : Scene) (rq lq oq : SceneCircuit) (r l : Token) (rs ls : List Token),
      Sparse.find? s.eng.adders n = some a → n < 128 → getScene s a.scene = some k →
      getCircuit s a.scene a.remote = some rq → getCircuit s a.scene a.locl = some lq → getCircuit s a.scene a.out = some oq →
      a.remote ≠ a.locl → a.remote ≠ a.out → a.locl ≠ a.out → rq.via = none → lq.via = none → oq.via = none →
      rq.q = r :: rs → lq.q = l :: ls → isBubble r = false → isBubble l = false → circuitRoom oq = true →
      ∃ t p, exec (.adderPair n) s = .next t ∧ p = (pairTokens s.freeCtr n a.mode.toNat r l).1 ∧
        (getCircuit t a.scene a.remote).map (·.q) = some rs ∧ (getCircuit t a.scene a.locl).map (·.q) = some ls ∧
        (getCircuit t a.scene a.out).map (·.q) = some (oq.q ++ [p]) ∧
        (isCut r = true → isCut l = true → (cutRank r = cutRank l → p = r) ∧
          (cutRank r ≠ cutRank l → p.tag = 7 ∧ p.data.toNat % 2 ^ 16 = fADDSKEW.toNat)))

/-! ## Fabric units (07, 14, 15, 16) -/

/-- An element whose rule fires with its continuity token there and credit for its first tokens consumes what the rule took,
keeps the state the rule leaves, sends those tokens and holds the rest for the next fc; a start token it does not accept marks
it with TOKTAG (15 R374-R379). ELB's two operations: a token enters the FIFO, and its head leaves where there is credit (R398). -/
def Obligations.ElementsFire : Prop :=
  (∀ (s : State) (stage slot r : Nat) (x : Region) (c : UnitCfg) (f : Fired) (i : Instr) (kind op : Nat)
      (rule : Rule), ElementRule s stage slot i kind op rule →
      let u := getUnit s stage slot
      let gs := (f.groups.map (finishGroup c)).filter fun l => !l.isEmpty
      liveElement s kind op stage slot = some (r, x, c) →
      (elemTagFault c u = true → exec i s = .next (markFault s r { stage, slot } 0x0001 0 false)) ∧
      (elemTagFault c u = false → u.out = [] → rule { stage, slot } c u (elemHeads c u) = some f → contReady c u f = true →
        (∀ l ∈ f.groups, reportRank c l = none) → groupRoom (getStage s stage) x slot (gs.headD []) = true →
        (cfgSrc c = true → slotBubble f.st.slot (bubbleLevel s r x) = false) →
        ∃ t, exec i s = .next t ∧ Sends s t x stage slot (gs.headD []) ∧ OnlyStage s t stage ∧
          getUnit t stage slot = { (consume c f) with
            out := gs.drop 1, slot := if cfgSrc c = true ∧ gs ≠ [] then f.st.slot + 1 else f.st.slot })) ∧
  (∀ (s : State) (stage slot r : Nat) (x : Region) (c : UnitCfg) (t : Token) (ts : List Token) (l : List (Nat × Token)),
      ∀ p ∈ [((.elbSlack stage slot : Instr), 0), (.elbWatch stage slot, 1)],
      let u := getUnit s stage slot
      liveElement s 10 p.2 stage slot = some (r, x, c) →
      (u.toks = [] → u.a = t :: ts → cfgIn c 0 = true → cfgIn c 3 = false →
        ∃ v, exec p.1 s = .next v ∧ (getUnit v stage slot).toks = [t] ∧ (getUnit v stage slot).a = ts ∧ Sends s v x stage slot []) ∧
      (u.toks = t :: ts → u.a = [] → elbHead p.2 c (elbCount x.fc u) = some l → groupRoom (getStage s stage) x slot l = true →
        ∃ v, exec p.1 s = .next v ∧ (getUnit v stage slot).toks = ts ∧ Sends s v x stage slot l))

/-- The integer operations of the ALU on one slot of `w` bits (15 R380-R382), and its rule on two streams of full data tokens:
both are consumed, and one token carries the slots' results. What some stream rules do with data: a transposed block has slot
`i` of token `j` as slot `j` of token `i` (R399); `keep` and `drop` share a token's slots between them (R395); `tag` numbers the
tokens of its stream (R397); an integer `sumc` adds its fibre's slots modulo the width (R388). -/
def Obligations.ElementResults : Prop :=
  ((∀ (ty w : Nat) (z : Bool) (a b c : BitVec w), tyFloat ty = none → tyWidth ty = w →
        let v := fun op => aluSlot ty z op a.toNat b.toNat c.toNat
        let sat := fun (i : Int) => if 2 ^ (w - 1) ≤ i then (2 ^ (w - 1) - 1, 2) else if i < -2 ^ (w - 1) then (2 ^ (w - 1), 2)
          else ((BitVec.ofInt w i).toNat, 0)
        let all := fun (q : Bool) => (if q then 2 ^ w - 1 else 0, 0)
        v 0x00 = ((a + b).toNat, 0) ∧ v 0x01 = ((a - b).toNat, 0) ∧ v 0x02 = ((a * b).toNat, 0) ∧ v 0x03 = ((a * b + c).toNat, 0) ∧
        v 0x04 = ((if a.toInt ≤ b.toInt then a else b).toNat, 0) ∧ v 0x05 = ((if a.toInt ≤ b.toInt then b else a).toNat, 0) ∧
        v 0x06 = (a.abs.toNat, 0) ∧ v 0x07 = ((-a).toNat, 0) ∧ v 0x0A = sat (a.toInt + b.toInt) ∧ v 0x0B = sat (a.toInt - b.toInt) ∧
        v 0x0C = all (a = b) ∧ v 0x0D = all (a ≠ b) ∧ v 0x0E = all (a.toInt < b.toInt) ∧ v 0x0F = all (a.toInt ≤ b.toInt) ∧
        v 0x10 = ((if c ≠ 0 then a else b).toNat, 0) ∧ v 0x11 = ((a &&& b).toNat, 0) ∧ v 0x12 = ((a ||| b).toNat, 0) ∧
        v 0x13 = ((a ^^^ b).toNat, 0) ∧ v 0x14 = ((~~~a).toNat, 0) ∧ v 0x15 = ((a <<< b.toNat).toNat, 0) ∧
        v 0x16 = ((a >>> b.toNat).toNat, 0) ∧ v 0x17 = ((a.sshiftRight b.toNat).toNat, 0) ∧
        (∃ n ≤ w, v 0x18 = (n, 0) ∧ a.toNat < 2 ^ (w - n) ∧ (n < w → 2 ^ (w - n - 1) ≤ a.toNat)) ∧
        v 0x19 = ((List.range w).countP (a.getLsbD ·), 0) ∧ v 0x1A = (a.toNat, 0)) ∧
    (∀ (ref : UnitRef) (c : UnitCfg) (u : UnitState) (x y : Token) (ty : Nat),
        ∀ op ∈ [0x00, 0x01, 0x02, 0x04, 0x05, 0x0A, 0x0B, 0x0C, 0x0D, 0x0E, 0x0F, 0x11, 0x12, 0x13, 0x15, 0x16, 0x17],
        cfgMod c = 32 * ty → ty < 8 → x.tag = 0 → y.tag = 0 → x.mask = 0xFFFF → y.mask = 0xFFFF →
        let w := tyWidth ty
        let v := fun i => aluSlot ty false op (slotBits w x.data i) (slotBits w y.data i) 0
        ∃ f, ruleAlu op ref c u { a := some x, b := some y } = some f ∧ f.ca = true ∧ f.cb = true ∧ f.cc = false ∧
          f.groups = [[(0, slotTok w ((List.range (slotCount w)).map fun i => some (v i).1))]] ∧ f.st.q0 = u.q0)) ∧
  ((∀ (w i j : Nat) (ts : List Token), (w = 32 ∨ w = 64) → ts.length = 512 / w → (∀ t ∈ ts, t.tag = 0 ∧ t.mask = 0xFFFF) →
        i < 512 / w → j < 512 / w →
        slotBits w ((turnBlock w ts).getD i { tag := 0 }).data j = slotBits w (ts.getD j { tag := 0 }).data i) ∧
    (∀ (c : UnitCfg) (a : Token) (b : Option Token) (i : Nat),
        let w := tyWidth (cfgMod c / 32)
        i < slotCount w →
        let v := (slotsOf w a).getD i none
        let k := (fltKept c false a b).getD i none
        let d := (fltKept c true a b).getD i none
        (k = v ∧ d = none) ∨ (k = none ∧ d = v)) ∧
    (∀ (ref : UnitRef) (c : UnitCfg) (u : UnitState) (t : Token), isCut t = false →
        ∃ f o, ruleTag ref c u { a := some t } = some f ∧ f.groups = [[(0, o)]] ∧ tagOf o = u.n0 % 2 ^ 32 ∧ tagged o = true ∧
          f.st.n0 = (u.n0 + 1) % 2 ^ 32 ∧ ∀ j < 15, lane o.data j = lane t.data j ∧ o.mask.getLsbD j = t.mask.getLsbD j) ∧
    (∀ (c : UnitCfg) (u v : UnitState) (t : Token), tyFloat (rdcTy c) = none → rdcLane c = false → t.tag = 0 →
        u.entries = [] → u.err = none → v = (rdcToken 0 c u t) →
        let w := tyWidth (rdcTy c)
        (rdcResult 0 c v.entries 0).1 = some (((slotsOf w t).filterMap id).sum % 2 ^ w)))

/-- A router operator that is not held, with no bubble and no refused tag at its inputs, whose rule fires with credit, takes the
heads the rule eats, sends its tokens into the buffers of its outputs, and keeps the state the rule leaves; no
other stage changes (14 R355-R371). A carry that collects residue and meets a token with its 64 places and its spill area full is
marked with RESIDUE and takes nothing (12 R301, 14 R366). -/
def Obligations.OperatorsFire : Prop :=
  ∀ (s : State) (stage tile oslot r : Nat) (x : Region) (f : SlotFire),
    let g := getStage s stage
    let st := getSlot s stage tile oslot
    let ref := slotRef stage tile oslot
    let ins := (List.range 4).filter fun p => (inKey g x tile (slotEnd oslot p)).isSome
    let rules : List (Instr × Nat × (Nat → SlotHeads → SlotState → Option SlotFire)) :=
      [(.pass stage tile oslot, 0, rulePass), (.steer stage tile oslot, 1, ruleSteer ref), (.merge stage tile oslot, 2, ruleMerge ref),
       (.carry stage tile oslot, 3, ruleCarry), (.invar stage tile oslot, 4, ruleInvar),
       (.fork stage tile oslot, 5, ruleFork (forkOutputs g x tile oslot) fun b t => sendsRoom g x tile oslot [(b, t)]),
       (.joinOperator stage tile oslot, 6, ruleJoin ins), (.permit stage tile oslot, 7, rulePermit)]
    (regionOf s stage = some (r, x) → regionLive x = true → slotRop g x tile oslot = 3 → residueFull g x tile oslot st = true →
      exec (.carry stage tile oslot) s = .next (markFault s r ref 0x0017 0 false)) ∧
    ∀ p ∈ rules,
      regionOf s stage = some (r, x) → regionLive x = true → slotRop g x tile oslot = p.2.1 → st.held = false → tile < 4 →
      oslot < 4 → Sparse.wf [] g.bufs = true →
      (∀ k < 4, ∀ a, slotHead g x tile oslot k = some a → isBubble a.tok = false ∧ slotTagFault p.2.1 a.tok = false) →
      (p.2.1 = 7 → permitMisuse g x tile oslot = false) →
      p.2.2 ((slotWord g x tile oslot).getD 0).toNat (slotHeads g x tile oslot) st = some f →
      sendsRoom g x tile oslot f.sends = true →
      (p.2.1 = 3 → f.st.residue.length ≤ 64 ∧ f.st.spilled = 0 ∧ residueFull g x tile oslot st = false) →
      ∃ t, exec p.1 s = .next t ∧ getSlot t stage tile oslot = f.st ∧ OnlyStage s t stage ∧
        ∀ k, getBuf (getStage t stage) k =
          (getBuf g k).drop (f.eat.countP fun q => inKey g x tile (slotEnd oslot q) == some k) ++
          f.sends.filterMap fun q => if outKey g x tile (slotEnd oslot q.1) = some k then some { tok := q.2, at_ := x.fc } else none

/-- The matrix node's control tokens (16 R402-R411). One that passes the checks of R413 has its effect and leaves: `clear` empties
its slot or all four, `nop` does nothing, `stat` sends the slot's status, a drain to output 0 sends the rows of the slot and
leaves it as it was but for SAT; its control token stays at the head until its last token has gone (R428). An accumulating form whose operand tokens are there asks the squares for what it fetches (08
R183); with its accesses granted and correct it adds every cell's terms to its slots, after clearing them where ACC is 0. -/
def Obligations.MatrixNode : Prop :=
  ∀ (s : State) (stage r : Nat) (x : Region) (c : UnitCfg) (t : Token) (rest : List Token),
    let u := getUnit s stage 8
    let g := getStage s stage
    let w : Word := BitVec.ofNat 64 (t.data.toNat % 2 ^ 64)
    let k := cwSlot w
    let opc := wbits w 60 4
    liveNode s 12 0 stage 8 = some (r, x, c) → u.out = [] → u.c = t :: rest → isData t = true → cwBad c x.algs t w = false →
    cfgSrc c = false →
    (opc = 4 → risingKeys g.acc = true → ∃ v, exec (.accClear stage) s = .next v ∧ (getUnit v stage 8).c = rest ∧
      ∀ n < 4, Sparse.get {} (getStage v stage).acc n = if cwAcc w = true ∨ n = k then {} else Sparse.get {} g.acc n) ∧
    (opc = 8 → ∃ v, exec (.mtxNop stage) s = .next v ∧ (getUnit v stage 8).c = rest ∧ (getStage v stage).acc = g.acc) ∧
    (∀ p ∈ [((.stat stage : Instr), 7, [[(0, statTok (Sparse.get {} g.acc k))]], Sparse.get {} g.acc k),
        (.drainp stage, 5, drainGroups false (Sparse.get {} g.acc k) (cwM w) (cwN w), Sparse.get {} g.acc k),
        (.drainf stage, 6, drainGroups true (drainSat (Sparse.get {} g.acc k) (cwM w) (cwN w)) (cwM w) (cwN w),
          drainSat (Sparse.get {} g.acc k) (cwM w) (cwN w))],
      let gs := nodeGroups c p.2.2.1
      opc = p.2.1 → (opc = 7 ∨ cwAcc w = false) → groupRoom g x 8 (gs.headD []) = true →
      ∃ v, exec p.1 s = .next v ∧
        (getUnit v stage 8).c = (if opc ≠ 7 ∧ gs.drop 1 ≠ [] then t :: rest else rest) ∧ (getUnit v stage 8).out = gs.drop 1 ∧
        Sends s v x stage 8 (gs.headD []) ∧ Sparse.get {} (getStage v stage).acc k = p.2.2.2) ∧
    (∀ p ∈ [((.mma stage : Instr), 0), (.mmaa stage, 1), (.mmas stage, 2), (.mmab stage, 3)], ∀ fa fb P ds s₁,
      let useA := cwAsrc w = 0 || opc = 2 || opc = 3
      let useB := cwBsrc w = 0 || opc = 3
      let da := if useA then ds[0]? else none
      let db := if useB then ds[if useA then 1 else 0]? else none
      let m := macIn x c u opc w t fa fb P da db (if t.mask = 7 then none else ds.getLast?)
      let qs := agentReqs g 1 0
      let h := readView { g with reqs := g.reqs.filter fun q => !(q.rank == 1 && q.op == 0) } qs
      opc = p.2 → cwPair (cwFp w) = some (fa, fb, P) → takeDescs s r x stage (macTensors c opc w t) = .ok (ds, s₁) →
      macDescBad opc w fa fb da db = false → (mtxNeeds c opc w).1 ≤ u.toks.length → (mtxNeeds c opc w).2 ≤ u.toks2.length →
      badOperand stage u = none → contState c u = (true, none) → macFail m = none →
      (qs = [] → macReqs m ≠ [] → ∃ v, exec p.1 s = .next v ∧ getUnit v stage 8 = u ∧ (getStage v stage).acc = g.acc ∧
        (getStage v stage).reqs = g.reqs ++ (macReqs m).map fun q => { q with rank := 1, op := 0, age := x.fc }) ∧
      ((qs ≠ [] ∨ macReqs m = []) → qs.all (·.done) = true → qs.all (·.bad.isEmpty) = true → macFault h m = none →
        (opc = 2 → cwTrap w = true → metaBad h m = false) → (∀ n, Sparse.wf 0 (Sparse.get {} g.acc n).sums = true) →
        ∃ v, exec p.1 s = .next v ∧ (getUnit v stage 8).c = rest ∧ ∀ n < m.dim,
          let a := if cwAcc w then Sparse.get {} g.acc (k + n) else {}
          let b := Sparse.get {} (getStage v stage).acc (k + n)
          b.terms = a.terms + macTerms m ∧ (∀ i < cwM w, ∀ j < cwN w,
            Sparse.get 0 b.sums (16 * i + j) = Sparse.get 0 a.sums (16 * i + j) + ((macCell h m i j).getD n {}).sum)))

/-- A memory node that is free begins a token operation: with its operands, its continuity token and its descriptor there, and
every check passed, it holds the planned accesses; its operands stay in their latches (16 R416-R421, R424; 08 R203). Its next
global access goes to the stream port, or waits in the port's combining buffer (09 R210, R218); once the port has accepted its last,
the next operation may begin, unless the node's accesses are acquire-marked (R423). An `ecue` token becomes an engine
operation that the take counts (R422); the gather unit asks the squares for its next rows, and fills a latch with them, or, where
they are packed along the other axis, one that the matrix node refuses with BADPACK (16 R425, R426; 08 R192). -/
def Obligations.MemoryNodes : Prop :=
  (∀ (s : State) (stage slot r : Nat) (x : Region) (c : UnitCfg),
      ∀ p ∈ [((.memLd stage slot : Instr), 0x00), (.memSt stage slot, 0x01), (.memLdx stage slot, 0x02), (.memStx stage slot, 0x03),
          (.memGld stage slot, 0x04), (.memGst stage slot, 0x05), (.memGldx stage slot, 0x06), (.memGstx stage slot, 0x07),
          (.memTas stage slot, 0x08), (.memRadd stage slot, 0x09), (.memRmin stage slot, 0x0A), (.memRmax stage slot, 0x0B),
          (.memRor stage slot, 0x0C), (.memRand stage slot, 0x0D), (.memRxor stage slot, 0x0E)],
      let u := getUnit s stage slot
      (slot = 9 ∨ slot = 10) → liveNode s 13 p.2 stage slot = some (r, x, c) → u.out = [] → u.owed = 0 →
      (∀ n, u.past.head? = some n → n.events ≠ []) →
      (∀ (a : Token) (m : MemOp),
        let d := if memNamesTensor p.2 then Sparse.find? x.descs (memTen c) else none
        let b := if memPairsB c then elemHead c u 1 else none
        u.op = none → memSource c = false → elemHead c u 0 = some a → isData a = true →
        (memPairsB c = true → ∃ e, b = some e ∧ isData e = true) → (∀ e, elemHead c u 1 = some e → isStart e = false) →
        (memNamesTensor p.2 = true → d ≠ none) → contState c u = (true, none) → planOp s x c stage d a b = .ok m →
        memRel c = false → memWaits s c stage slot m = false → m.events ≠ [] →
        ∃ t v, exec p.1 s = .next t ∧ UsedCache s v ∧ OnlyStage v t stage ∧
          getUnit t stage slot = { u with op := some { m with poison := memPoison c d, useB := memPairsB c } }) ∧
      (∀ (m : MemOp) (e : MemEvent) (rest : List MemEvent), u.op = some m → m.events = e :: rest → rest ≠ [] → e.rmw ≠ 8 →
        e.array = 3 → e.stamp = 0 → e.kind ≠ 1 → (getStage s stage).comb = [] →
        ∃ t o, exec p.1 s = .next t ∧ (getUnit t stage slot).op = some o ∧ t.mem = s.mem ∧
          (combines s c stage e = true → o.events = rest ∧
            (getStage t stage).comb = [{ agent := slot, va := e.va, pa := e.addr, key := e.key, bytes := leBytes e.len e.data.toNat }]) ∧
          (combines s c stage e = false → (getStage t stage).comb = [] ∧
            o.events = { e with stamp := (acceptNext s stage).1 } :: rest)) ∧
      (∀ (m : MemOp) (e : MemEvent), u.op = some m → m.events = [e] → e.rmw ≠ 8 →
        e.array = 3 → e.stamp = 0 → e.kind ≠ 1 → (getStage s stage).comb = [] → combines s c stage e = false →
        ∃ t o, exec p.1 s = .next t ∧ o.events = [{ e with stamp := (acceptNext s stage).1 }] ∧
          (memAcq c = false → (getUnit t stage slot).op = none ∧ (getUnit t stage slot).past = u.past ++ [o]) ∧
          (memAcq c = true → (getUnit t stage slot).op = some o ∧ (getUnit t stage slot).past = u.past))) ∧
  (∀ (s : State) (stage slot r : Nat) (x : Region) (c : UnitCfg) (a : Token) (as : List Token) (o : Op),
      let u := getUnit s stage slot
      let w := tokenCue a
      (slot = 9 ∨ slot = 10) → liveNode s 13 0x0F stage slot = some (r, x, c) → u.out = [] → u.a = a :: as → elemHead c u 0 = some a →
      isData a = true → cfgSrc c = false → contState c u = (true, none) → cueMalformed w = false → ecueWaits s c stage slot = false →
      captureOp s { words := w, crew := x.crew, scene := x.scene, stage, ctx := none, sheet := x.sheet, unit := some slot
                    sent := s.timecode } = some o →
      inboxRoom s (opEngine o) = true → (cueOpc w = 0x2A → stageArrivals s stage < 64) →
      ∃ t, exec (.memEcue stage slot) s = .next t ∧ getOp t s.eng.nextOp = some o ∧ o.words = w ∧ o.unit = some slot ∧
        o.phase = .inbox ∧ (getUnit t stage slot).a = as) ∧
  (∀ (s : State) (stage r : Nat) (x : Region) (c : UnitCfg) (a : Token) (d : Desc) (es : List (Option Int))
      (rows : List (Option Token)),
      ∀ p ∈ [((.gath stage : Instr), 0), (.gseq stage, 1)],
      let u := getUnit s stage 11
      let g := getStage s stage
      let vs := gthVecs c d (takeGeo x d) u.n0 es
      let qs := agentReqs g 3 0
      liveNode s 14 p.2 stage 11 = some (r, x, c) → u.out = [] → elemHead c u 0 = some a → isData a = true →
      Sparse.find? x.descs (memTen c) = some d → contState c u = (true, none) → g.latches.length < 2 →
      gthEntries p.2 a = some es →
      (qs = [] → gthReqs vs ≠ [] → (gthLatch vs []).2 = none →
        ∃ t, exec p.1 s = .next t ∧ getUnit t stage 11 = u ∧ (getStage t stage).latches = g.latches ∧
          (getStage t stage).reqs = g.reqs ++ (gthReqs vs).map fun q => { q with rank := 3, op := 0, age := x.fc }) ∧
      ((qs ≠ [] ∨ gthReqs vs = []) → qs.all (·.done) = true → gthLatch vs qs = (rows, none) →
        ∃ t, exec p.1 s = .next t ∧ (getStage t stage).latches = g.latches ++
            [if 1 < (takeGeo x d).p && ((takeGeo x d).pax = 1) != memOri c then mispackedLatch stage (memPoison c (some d))
             else { rows := rows }] ∧
          (u.n0 + 1 < gthChunks c → (getUnit t stage 11).a = u.a ∧ (getUnit t stage 11).n0 = u.n0 + 1) ∧
          (gthChunks c ≤ u.n0 + 1 → (getUnit t stage 11).a = u.a.drop 1 ∧ (getUnit t stage 11).n0 = 0)))

/-- The oldest request of a square or bank is granted, and reads, writes or modifies the cells it names (08 R183-R186, 16
R418-R421). A global access of a memory node that the stream port has accepted, and a write that has left the combining buffer,
reads or writes the bytes of its piece once no earlier access of the port to the same controller is left, the accesses of a node's
earlier operations first (09 R208, R210, R218). -/
def Obligations.AccessesPerform : Prop :=
  (∀ (s : State) (stage array square r : Nat) (x : Region) (w : Want),
      let g := getStage s stage
      regionOf s stage = some (r, x) → firstWant (squareWants s x stage array square) = some w →
      squareFree (Sparse.get {} g.squares (squareKey array square)) x.fc array w.col = true →
      (∀ q, w = .agent q → ∃ t, exec (.squareGrant stage array square) s = .next t ∧
        (q.write = true → ∀ n < 3, getArray (getStage t stage) n = getArray (putCells g q.array q.addr q.col q.wm q.data) n) ∧
        (q.write = false → (∀ n < 3, getArray (getStage t stage) n = getArray g n) ∧ ∃ v ∈ (getStage t stage).reqs,
          v.done = true ∧ v.rank = q.rank ∧ v.op = q.op ∧ v.part = q.part ∧ v.data = readCells g q.array q.addr q.col)) ∧
      (∀ slot m e rest c, w = .node slot m e rest → unitCfg g x slot = some c → eventBad g e = false → rest ≠ [] →
        ∃ t, exec (.squareGrant stage array square) s = .next t ∧ (g.soft = [] → OnlyStage s t stage) ∧
          (e.rmw = 0 → e.write = true → (getUnit t stage slot).op = some { m with events := rest } ∧
            ∀ n < 3, getArray (getStage t stage) n = getArray (writeCells g e.array e.addr e.col e.mask e.data e.ext e.full e.last) n) ∧
          (e.rmw = 0 → e.write = false → e.emits = false → (∀ n < 3, getArray (getStage t stage) n = getArray g n) ∧
            ∃ o, (getUnit t stage slot).op = some o ∧ o.events = rest ∧ o.outMask = extentMask e.ext ∧
              o.outData = readCells g e.array e.addr e.col &&& laneBits (extentMask e.ext)) ∧
          (2 ≤ e.rmw → e.rmw ≤ 7 → getArray (getStage t stage) e.array = putBytes (getArray g e.array) e.addr
            (leBytes e.len (rmwValue e.rmw (8 * e.len) (leNat (rawBytes (getArray g e.array) e.addr e.len)) e.data.toNat))))) ∧
  (∀ (s : State) (stage index r : Nat) (x : Region), index < 2 → regionOf s stage = some (r, x) →
      let g := getStage s stage
      let slot := 9 + index
      (∀ (c : UnitCfg) (m : MemOp) (e : MemEvent) (rest : List MemEvent), g.port = [] → (getUnit s stage slot).op = some m →
        m.events = e :: rest → (getUnit s stage slot).past = [] → unitCfg g x slot = some c → e.array = 3 → e.stamp ≠ 0 →
        portWaits s stage e.stamp e.addr = false → rest ≠ [] →
        (∀ v, e.write = true → eventWrite s e = some v → ∃ t o, exec (.accessPerform stage index) s = .next t ∧
          (getUnit t stage slot).op = some o ∧ o.events = rest ∧ t.mem = v.mem) ∧
        (e.write = false → pieceBad s (eventPiece e) false = false → ∃ t o, exec (.accessPerform stage index) s = .next t ∧
          (getUnit t stage slot).op = some o ∧ o.events = rest ∧ t.mem = s.mem ∧
          o.outData = placeBytes m.outData e.slot e.len
            (leNat (plainBytes s stage x.crew e.va.toNat (readPiece s (eventPiece e)))))) ∧
      (∀ (c : UnitCfg) (m : MemOp) (e : MemEvent) (ms : List MemOp) (v : State), g.port = [] →
        (getUnit s stage slot).past = m :: ms → (getUnit s stage slot).op ≠ some m → m.events = [e] → unitCfg g x slot = some c →
        e.array = 3 → e.stamp ≠ 0 → portWaits s stage e.stamp e.addr = false → e.write = true → eventWrite s e = some v →
        ∃ t, exec (.accessPerform stage index) s = .next t ∧ t.mem = v.mem ∧
          (getUnit t stage slot).past = { m with events := [] } :: ms) ∧
      (∀ (p : Nat × MemEvent) (v : State), g.port.find? (·.1 == slot) = some p → p.2.array = 3 → p.2.stamp ≠ 0 →
        portWaits s stage p.2.stamp p.2.addr = false → eventWrite s p.2 = some v → ∃ t, exec (.accessPerform stage index) s = .next t ∧ t.mem = v.mem ∧
          (getStage t stage).port = g.port.erase p)) ∧
  (∀ (s : State) (stage : Nat) (w : Combined), (getStage s stage).comb = [w] →
      ∃ t n, exec (.combiningBufferRelease stage 0) s = .next t ∧ (getStage t stage).comb = [] ∧ t.mem = s.mem ∧
        (getStage t stage).port = (getStage s stage).port ++ [(w.agent, { combinedEvent w with stamp := n })])

/-- A link output moves the head it chooses to the input of the router it leads to, and a unit's latch takes the token of the
circuit that ends there, dropping a bubble; a tag the input does not accept marks the unit (07 R153, R162, 04 R88). -/
def Obligations.TokensMove : Prop :=
  ∀ (s : State) (stage tile r : Nat) (x : Region), regionOf s stage = some (r, x) → regionLive x = true →
    let g := getStage s stage
    (∀ (o : BitVec 6) (q : Route) (t : Token), o.toNat < 4 → Sparse.wf [] g.bufs = true →
      let far := linkTo stage tile o.toNat
      let near := bufKey tile q.frm q.circ
      let key := bufKey far.2.1 far.2.2 q.circ
      pickHead g ((activeRoutes g x tile).filter (·.out == o.toNat))
        (fun q t => hasRoom (getStage s far.1) (bufKey far.2.1 far.2.2 q.circ) t) = some (q, t) → (far.1, key) ≠ (stage, near) →
      ∃ v, exec (.tokenForward stage tile o) s = .next v ∧
        getBuf (getStage v far.1) key = getBuf (getStage s far.1) key ++ [{ tok := t, at_ := x.fc }] ∧
        getBuf (getStage v stage) near = (getBuf g near).drop 1 ∧
        v = { s with stages := v.stages }) ∧
    (∀ (idx port slot key : Nat) (h : Arrived), idx < 4 → port < 4 → tileSlot tile idx = some slot →
      inKey g x tile (0x20 + 4 * idx + port) = some key → headBuf g key = some h →
      let o := BitVec.ofNat 6 (0x20 + 4 * idx + port)
      (isBubble h.tok = true → ∃ v, exec (.tokenForward stage tile o) s = .next v ∧ getUnit v stage slot = getUnit s stage slot) ∧
      (isBubble h.tok = false → (latchTagFault slot port h.tok = true ∨ startFault (unitCfg g x slot) port h.tok = true) →
        exec (.tokenForward stage tile o) s = .next (markFault s r { stage, slot } 0x0001 0 false)) ∧
      (isBubble h.tok = false → latchTagFault slot port h.tok = false → startFault (unitCfg g x slot) port h.tok = false →
        (latchOf (getUnit s stage slot) port).length < latchSize slot port →
        ∃ v, exec (.tokenForward stage tile o) s = .next v ∧
          latchOf (getUnit v stage slot) port = latchOf (getUnit s stage slot) port ++ [h.tok]))

/-! ## Regions: loads, starts and wraps (07 R167, R168, R170, R171, R174; 14 R344; 18 R464-R467) -/

/-- A CONFIGURATION_LOAD reads its image a 64-byte block an event (13 R343). One whose image has been read, has its region's shape, has an admitted mapping and passes the checks keeps the
words and the scene's algebra tables, and the contexts it will write are empty; an image that cannot be used, of another shape, without an admitted mapping or
with a bad word fails the load with its code. The CONFIGURATION_COMPLETE_WAVE of a load without a start ends it, and its
director step returns OK; with a start it makes the context active, or fails with NOCTX. START_INJECTION starts every marked
source, one that forwards its start token sending it first, with its continuity token (15 R376), and an ELB counts its fc from the
start (15 R398). A WRAP_SAMPLE that meets the four conditions ends the take, one that does not changes
nothing. -/
def Obligations.RegionEvents : Prop :=
  (∀ (s : State) (r : Nat) (x : Region) (l : LoadReq), getRegion s r = some x → x.load = some l → l.words = none →
      x.frozen = none → levelsAgree s r x = true →
      (∀ f, nextBlock s (stageOfRaster r) x.crew l.image l.got = .error (some f) →
        exec (.configurationLoad r) s = .next (failLoad s r l f)) ∧
      (∀ bs, nextBlock s (stageOfRaster r) x.crew l.image l.got = .ok (.more bs) → ∃ t u, exec (.configurationLoad r) s = .next t ∧
        UsedCache s u ∧ t = setRegion u r { x with load := some { l with got := bs } }) ∧
      (∀ im, nextBlock s (stageOfRaster r) x.crew l.image l.got = .ok (.whole im) →
        let ceiling := if l.resume then 3 else (s.power.crews.getD x.crew {}).ceiling
        ((im.w ≠ x.w ∨ im.h ≠ x.h) → exec (.configurationLoad r) s = .next (failLoad s r l { code := 0x0A })) ∧
        (im.w = x.w → im.h = x.h →
          (pickMapping im l.map.toNat ceiling = none →
            exec (.configurationLoad r) s = .next (failLoad s r l { code := 0x08 })) ∧
          ∀ n ws, pickMapping im l.map.toNat ceiling = some (n, ws) →
            (∀ f, checkWords ws l.wmask.toNat x.w x.h = some f → exec (.configurationLoad r) s = .next (failLoad s r l f)) ∧
            (checkWords ws l.wmask.toNat x.w x.h = none →
              ∃ t y, exec (.configurationLoad r) s = .next t ∧ getRegion t r = some y ∧
                y.load = some { l with words := some ws, algs := takeAlgs s x } ∧ y.reel = l.image ∧ y.phase = x.phase ∧
                (∀ p ∈ y.loaded, inMask l.wmask.toNat p.1 = false) ∧
                t.mem = s.mem ∧ t.ctxs = s.ctxs ∧ t.scenes = s.scenes)))) ∧
  (∀ (s : State) (r : Nat) (x : Region) (l : LoadReq) (ws : List Word), getRegion s r = some x → x.load = some l →
      l.words = some ws → x.phase ≠ .waved → x.frozen = none →
      (l.act = none → ∃ t y, exec (.configurationCompleteWave r) s = .next t ∧ getRegion t r = some y ∧ y.load = none ∧
        y.active = x.active ∧ t.mem = s.mem ∧
        ∀ c d, l.ctx = some c → (getCtx s c).wait = .ctxLoad d →
          (getCtx t c).wait = .none ∧ readG (getCtx t c) d = 0 ∧ (getCtx t c).pc = (getCtx s c).pc + 4) ∧
      (∀ c, l.act = some c → inMask l.wmask.toNat c.toNat = true →
        (c.toNat ∉ mapContexts (indexWords 0 none ws) → Sparse.find? x.loaded c.toNat = none →
          ∀ d k, l.ctx = some d → (getCtx s d).wait = .take k → k ≠ 0 →
            ∃ t y, exec (.configurationCompleteWave r) s = .next t ∧ getRegion t r = some y ∧ y.load = none ∧ y.phase = .idle ∧
              (getCtx t d).wait = .none ∧ readG (getCtx t d) k = 0x30) ∧
        (c.toNat ∈ mapContexts (indexWords 0 none ws) → l.ctx = none →
          ∃ t y, exec (.configurationCompleteWave r) s = .next t ∧ getRegion t r = some y ∧ y.phase = .waved ∧ y.active = c ∧
            y.sheet = l.sheet ∧ y.descs = [] ∧ y.pacing = 15 ∧ y.load = x.load))) ∧
  (∀ (s : State) (r : Nat) (x : Region) (l : LoadReq) (c : Nat), getRegion s r = some x → x.phase = .waved → x.load = some l →
      x.frozen = none → l.ctx = some c → (regionStages r x).Nodup →
      ∃ t y, exec (.startInjection r) s = .next t ∧ getRegion t r = some y ∧ y.phase = .started ∧ y.load = none ∧
        y.takeCtx = some c ∧ y.fc = x.fc ∧ y.pendOps = 0 ∧ y.active = x.active ∧
        (∀ d, (getCtx s c).wait = .take d → (getCtx t c).wait = .none ∧ readG (getCtx t c) d = 0 ∧
          (getCtx t c).pc = (getCtx s c).pc + 4 ∧ (getCtx t c).tiles = (getCtx s c).tiles) ∧
        ∀ st ∈ regionStages r x, ∀ k, k < 13 → ∀ u, unitCfg (getStage s st) x k = some u → cfgSrc u = true →
          (getUnit t st k).started = true ∧ (getUnit t st k).exhausted = false ∧
          (cfgFwdst u = true → (getUnit t st k).out = (getUnit s st k).out ++
            [if cfgKind u < 12 then finishGroup u [(0, startTok)] else [(0, startTok)]])) ∧
  (∀ (s : State) (r : Nat) (x : Region) (l : LoadReq) (c st k : Nat) (u : UnitCfg) (v : UnitState), getRegion s r = some x →
      x.phase = .waved → x.load = some l → x.frozen = none → l.ctx = some c → st ∈ regionStages r x → k < 8 →
      unitCfg (getStage s st) x k = some u → cfgKind u = 10 → cfgSrc u = false → Sparse.find? (getStage s st).units k = some v →
      ∃ t, exec (.startInjection r) s = .next t ∧ getUnit t st k = { v with n3 := x.fc }) ∧
  (∀ (s : State) (r : Nat) (x : Region), getRegion s r = some x →
      (canWrap s r x = false → exec (.wrapSample r) s = .next s) ∧
      (canWrap s r x = true → regionLaunch s x = none →
        ∃ t y, exec (.wrapSample r) s = .next t ∧ getRegion t r = some y ∧ y.phase = .idle ∧ y.takeCtx = none ∧ y.last = 0 ∧
          y.lastOvf = takeOverflow s x ∧ y.loaded = x.loaded ∧ y.active = x.active ∧ t.mem = s.mem ∧
          (∀ c, x.takeCtx = some c → (getCtx t c).tiles = (getCtx s c).tiles - 1) ∧
          ∀ st ∈ regionStages r x, (getStage t st).bufs = []))

/-! ## Freezes, holds and the ends of members (12 R292-R302, R312; 14 R353; 05 R107; 02 R55, R60) -/

/-- A FREEZE records the marks in drain-chain order, with the first mark's cause; the member's context has a FABRIC trap whose
value is `frz`. A FREEZE_ORDER freezes a member's region with the order's cause. A replay is accepted if the freeze record
allows it and clears the record, and a marked unit whose access faults again is marked again (R312); a release ends the take as
FAULTED and discards the tokens, while the writes that the ports have accepted still perform (09 R223); a report halts the context and
makes the member FROZEN; the host's release of a FROZEN member's region ends the member, once nothing that it has begun is still to act on memory (05 R111). -/
def Obligations.FreezesAndReleases : Prop :=
  (∀ (s : State) (r : Nat) (soft : List UnitRef) (x : Region) (m : Mark) (ms : List Mark), getRegion s r = some x →
      x.frozen = none → regionLaunch s x = none →
      sortMarks s r x (x.faults ++ ((soft.filter (unitIn r x)).map fun u => { unit := u, cause := fUECC })) = m :: ms →
      (∀ q ∈ m :: ms, q.cause ≠ 0x0017) →
      ∃ t y f, exec (.freeze r soft) s = .next t ∧ getRegion t r = some y ∧ y.frozen = some f ∧ f.cause = m.cause ∧
        f.marks = m :: ms ∧ y.faults = [] ∧ y.load = none ∧ t.mem = s.mem ∧
        ∀ c, x.ctx = some c → (getCtx t c).pend = (getCtx s c).pend ++ [{ cause := tFABRIC, val := frzWord t r }]) ∧
  (∀ (s : State) (r : Nat) (cause : BitVec 16) (x : Region) (k : Scene), getRegion s r = some x → x.frozen = none →
      getScene s x.scene = some k → (k.orders.contains (r, cause) = true ∨ k.xchip = true) →
      ∃ t y f, exec (.freezeOrder r cause) s = .next t ∧ getRegion t r = some y ∧ y.frozen = some f ∧ f.cause = cause ∧
        f.replay = false ∧ f.marks = []) ∧
  (∀ (s : State) (r : Nat) (x : Region) (f : Frozen), getRegion s r = some x → x.frozen = some f →
      (f.replay = false → exec (.regionReplay r) s = .next s) ∧
      (f.replay = true → ∃ t fs, exec (.regionReplay r) s = .next t ∧
        getRegion t r = some { x with frozen := none, faults := fs } ∧ t.mem = s.mem ∧ t.ctxs = s.ctxs ∧
        (∀ q ∈ fs, ∃ p ∈ f.marks, p.unit = q.unit) ∧
        ((∀ p ∈ f.marks, (getStage s p.unit.stage).port = [] ∧ nodeOps (getUnit s p.unit.stage p.unit.slot) = []) → fs = [])) ∧
      (∃ t y, exec (.regionRelease r) s = .next t ∧ getRegion t r = some y ∧ y.frozen = none ∧ y.phase = .idle ∧ y.load = none ∧
        y.takeCtx = none ∧ (x.phase ≠ .idle → y.last = 0x35) ∧ (x.phase = .idle → y.last = x.last) ∧ t.mem = s.mem ∧
        ∀ st ∈ regionStages r x, (getStage t st).bufs = [] ∧ (getStage t st).latches = [] ∧ (getStage t st).rslots = [] ∧
          ∀ p ∈ (getStage s st).port ++ acceptedWrites (getStage s st), eventStuck s p.2 = false → p ∈ (getStage t st).port) ∧
      (∀ m, getMember s x.scene x.member = some m →
        ∃ t y, exec (.regionReport r) s = .next t ∧ (getMember t x.scene x.member).map (·.state) = some .frozen ∧
          getRegion t r = some y ∧ y = { x with holding := y.holding, heldUnits := y.heldUnits } ∧
          ((∀ k, getScene s x.scene = some k → k.holding = false) → y = x) ∧
          ∀ c, x.ctx = some c → (getCtx t c).state = .halted ∧ (getCtx t c).wait = .none ∧ (getCtx t c).rushes = [])) ∧
  (∀ (s : State) (r : Nat), (∀ x, getRegion s r = some x → x.frozen = none) →
      exec (.regionReplay r) s = .next s ∧ exec (.regionRelease r) s = .next s ∧ exec (.regionReport r) s = .next s) ∧
  (∀ (s : State) (n r : Nat) (x : Region) (m : Member), (getCrew s n).en = true → dcRegion s n = some r →
      getRegion s r = some x → getMember s x.scene x.member = some m → m.state = .frozen →
      (memberQuiet s x.scene m standsStill = true →
        exec (.hostRegionRelease n) s = .next (endMember (cancelHold s x.scene) x.scene x.member)) ∧
      (memberQuiet s x.scene m standsStill = false → exec (.hostRegionRelease n) s =
        .next (modMember (cancelHold s x.scene) x.scene x.member fun m => { m with release := true })))

/-- A hold begins once no member loads or is frozen: every running context parks at its instruction boundary with its combined
stores on their way. A unit whose input channels' markers have all arrived and that cannot fire becomes held with HOLD_MARKER, an ELB once its marker is at the head of its FIFO (15 R398). When
everything is held, HOLD_COMPLETE begins the saves; a REGION_SAVE_COMPLETE makes its member HELD, and the last one the
scene. MEMBER_END ends a member whose context has exited once no take is in progress, its counters are zero and the cue tables are
empty (05 R107), and nothing before; so it does a FROZEN one that the host has released, and a scene that waited for its operations
(05 R111). -/
def Obligations.HoldsAndEnds : Prop :=
  (∀ (s : State) (n : Nat) (k : Scene), getScene s n = some k → k.wanted = true → k.holding = false → k.isHeld = false →
      k.started = true → k.members.all (memberCanHold s) = true →
      ∃ t k', exec (.holdBegin n) s = .next t ∧ getScene t n = some k' ∧ k'.holding = true ∧ k'.wanted = false ∧ t.mem = s.mem ∧
        ∀ m ∈ k.members, m.state ≠ .ended → ∀ c, m.ctx = some c → (getCtx s c).state = .running →
          (getCtx t c).state = .parked ∧ ∀ e ∈ (getCtx t c).stores, e.buffered = false) ∧
  (∀ (s : State) (n : Nat) (k : Scene), getScene s n = some k →
      (k.wanted = false ∨ k.members.all (memberCanHold s) = false) → exec (.holdBegin n) s = .next s) ∧
  (∀ (s : State) (u : UnitRef) (r : Nat) (x : Region) (c : UnitCfg), regionOf s u.stage = some (r, x) → x.holding = true →
      regionLive x = true → x.heldUnits.contains u = false → x.faults.any (·.unit == u) = false → u.slot < 13 →
      unitCfg (getStage s u.stage) x u.slot = some c → cfgKind c ≠ 13 →
      (cfgKind c = 10 → ∃ t l, (getUnit s u.stage u.slot).toks = t :: l ∧ isHold t = true) →
      (∀ p ∈ unitInputs c, inputMarker s x u.stage u.slot c p ≠ .none) →
      (∀ q ∈ (getStage s u.stage).reqs, (u.slot = 8 → q.rank ≠ 1 ∧ q.rank ≠ 2) ∧ (u.slot = 11 → q.rank ≠ 3)) →
      acted s (fireUnit s u.stage u.slot c) r x u.stage = false →
      ∃ t y, exec (.holdMarker u) s = .next t ∧ getRegion t r = some y ∧ u ∈ y.heldUnits ∧ t.mem = s.mem ∧ t.ctxs = s.ctxs) ∧
  (∀ (s : State) (n : Nat) (k : Scene), getScene s n = some k → k.holding = true → k.saving = false →
      (liveMembers k).all (fun p => memberHeld s p.2) = true →
      (∀ p ∈ s.eng.ops, p.2.scene = n → mayStand s p.2 = true) → (k.areas = [] → holdAreas s k ≠ none) →
      ∃ t k', exec (.holdComplete n) s = .next t ∧ getScene t n = some k' ∧ k'.saving = true ∧ k'.holding = true ∧
        t.mem = s.mem) ∧
  (∀ (s : State) (n i : Nat) (k : Scene) (m : Member) (x : Region), getScene s n = some k → k.members[i]? = some m →
      getRegion s m.region = some x → k.saving = true → m.saved = false → m.state ≠ .ended → x.frozen = none →
      (∀ p ∈ s.eng.ops, p.2.scene = n → cueClass p.2.words = 5 → imgStage p.2 ∉ regionStages m.region x) →
      ∃ t, exec (.regionSaveComplete n i) s = .next t ∧
        ((∃ p ∈ liveMembers k, p.1 ≠ i ∧ p.2.saved = false) →
          t = modMember s n i fun m => { m with saved := true, state := .held }) ∧
        ((∀ p ∈ liveMembers k, p.1 ≠ i → p.2.saved = true) →
          t = sceneHeld (modMember s n i fun m => { m with saved := true, state := .held }) n)) ∧
  (∀ (s : State) (n i c : Nat) (k : Scene) (m : Member) (x : Region), getScene s n = some k → k.members[i]? = some m →
      m.ctx = some c → getRegion s m.region = some x →
      let y := getCtx s c
      ((m.release = false ∨ m.state ≠ .frozen) → m.state ≠ .ended →
        ¬ (k.saving = false ∧ m.state = .running ∧ (y.state = .running ∨ y.state = .parked) ∧ y.wait = .exit ∧ x.phase = .idle ∧
          x.load = none ∧ x.frozen = none ∧ y.copies = 0 ∧ y.tiles = 0 ∧ allPerformed y = true ∧
          ∀ j ∈ regionStages m.region x, (getStage s j).table = []) → exec (.memberEnd n i) s = .next s) ∧
      (k.saving = false → m.state = .running → (y.state = .running ∨ y.state = .parked) → y.wait = .exit → x.phase = .idle →
        x.load = none → x.frozen = none → y.copies = 0 → y.tiles = 0 → allPerformed y = true →
        (∀ j ∈ regionStages m.region x, (getStage s j).table = []) →
        ∃ t, exec (.memberEnd n i) s = .next t ∧ t = endMember s n i ∧ t.regions = Sparse.erase s.regions m.region) ∧
      (m.release = true → m.state = .frozen → memberQuiet s n m (mayStand s) = true →
        exec (.memberEnd n i) s = .next (endMember s n i)) ∧
      (m.release = true → m.state = .frozen → memberQuiet s n m (mayStand s) = false → exec (.memberEnd n i) s = .next s)) ∧
  (∀ (s : State) (n i : Nat) (k : Scene) (m : Member), getScene s n = some k → k.members[i]? = some m → m.state = .ended →
      exec (.memberEnd n i) s = .next (if allEnded k = true ∧ sceneActs s n = false then endScene s n else s))

/-! ## The scheduler (02 R47, R50; 05 R106, R108; 06 R126-R141) -/

/-- A host push that completes its staging block and finds room in a window whose ring is empty joins its queue, with the next
submission number; with no room in the window, or a ring that is not empty, its slate is on its way to the ring's tail. An
incomplete block is INCOMPLETE, a queue without credit is FULL and keeps its mask, a sealed queue is SEALED. A spill write places
the slate at the ring's tail, or seals the queue and keeps the slate; a refill read brings the ring's head into the window; an
unseal makes the failed access again: a held slate is stored and accepted, the ring's head is read; while a changing key slot
makes that access wait the queue stays sealed. A crew's next slate is
refused with the cause of the first failing check, each chip's own members counted against QUOTA, or enters the dependency table
once it has room. That a queue both sealed and full answers SEALED is the model's choice (log 37). -/
def Obligations.SlatesEnter : Prop :=
  (∀ (s : State) (n p : Nat) (val : Word) (en : BitVec 8) (b : PushBlock) (y : Queue), hostActs s = true → s.hostWait = [] →
      n < 8 → p < 8 → (getCrew s n).en = true → en.getLsbD 7 = true → (∀ j, j < 8 → (getQueue s (8 * n + j)).spill = none) →
      (getCrew s n).push[p]? = some b → s.sched.queues[8 * n + p]? = some y →
      let old := BitVec.ofNat 64 (bits b.staging.toNat 448 64)
      let staging := BitVec.ofNat 512 (b.staging.toNat % 2 ^ 448 + (mergeBytes old val en).toNat * 2 ^ 448)
      let mask := b.mask ||| BitVec.ofNat 64 (en.toNat * 2 ^ 56)
      let x : Slate := { newSlate n p (stagedWords staging) with order := s.sched.nextOrder }
      ∃ t, exec (.slatePush n p val en) s = .next t ∧ t.mem = s.mem ∧
        (mask ≠ BitVec.allOnes 64 → (getCrew t n).push[p]? = some { staging, mask := 0, result := 3 } ∧ t.sched = s.sched) ∧
        (mask = BitVec.allOnes 64 →
          (y.sealed = true → (getCrew t n).push[p]? = some { staging, mask := 0, result := 2 } ∧ t.sched = s.sched) ∧
          (y.sealed = false → qcredit s (8 * n + p) = 0 →
            (getCrew t n).push[p]? = some { staging, mask, result := 1 } ∧ t.sched = s.sched) ∧
          (y.sealed = false → qcredit s (8 * n + p) ≠ 0 → windowCount s (8 * n + p) < 64 → y.ringLen = 0 →
            (getCrew t n).push[p]? = some { staging, mask := 0, result := 0 } ∧
            t.sched.slates = insertSlate { x with sub := (y.subs + 1) % 2 ^ 32 % 2 ^ 24, ringPos := none } s.sched.slates ∧
            t.sched.nextOrder = s.sched.nextOrder + 1) ∧
          (y.sealed = false → qcredit s (8 * n + p) ≠ 0 → (64 ≤ windowCount s (8 * n + p) ∨ y.ringLen ≠ 0) →
            y.ringLen < ringCap (getCrew s n) →
            (getCrew t n).push[p]? = some { staging, mask := 0, result := b.result } ∧
            getQueue t (8 * n + p) = { y with spill := some x } ∧ t.sched.slates = s.sched.slates ∧
            t.sched.nextOrder = s.sched.nextOrder + 1))) ∧
  (∀ (s : State) (q : Nat) (sl : Slate) (c : Crew) (b : PushBlock), q < 64 → (getQueue s q).spill = some sl →
      (getQueue s q).retry = false → (getQueue s q).sealed = false → (getQueue s q).ringLen < ringCap (getCrew s (q / 8)) →
      8 * sl.crew + sl.prio = q → s.crews[q / 8]? = some c → c.push[q % 8]? = some b →
      let tail := (getQueue s q).ringHead + (getQueue s q).ringLen
      let va := ringVA c (q % 8) tail
      (∀ u, vwrite s hostCache (q / 8) va (slateBytes sl.words) = (u, none) →
        ∃ t, exec (.spillWrite q) s = .next t ∧ t.mem = u.mem ∧ (getQueue t q).spill = none ∧
          (getQueue t q).ringLen = (getQueue s q).ringLen + 1 ∧ (getCrew t (q / 8)).push[q % 8]? = some { b with result := 0 } ∧
          ∃ y ∈ t.sched.slates, y.ringPos = some tail ∧ y.words = sl.words ∧ y.order = sl.order) ∧
      (∀ u e, vwrite s hostCache (q / 8) va (slateBytes sl.words) = (u, some e) → e ≠ .wait →
        ∃ t, exec (.spillWrite q) s = .next t ∧ t.mem = s.mem ∧ (getQueue t q).sealed = true ∧ (getQueue t q).held = some sl ∧
          (getQueue t q).sealVA = va ∧ (getQueue t q).spill = none ∧
          (getCrew t (q / 8)).push[q % 8]? = some { b with result := 2 })) ∧
  (∀ (s : State) (q : Nat) (sl : Slate), q < 64 → (getQueue s q).sealed = false → (getQueue s q).retry = false →
      (getQueue s q).ringLen ≠ 0 → windowCount s q < 64 → ringSlate s q (getQueue s q).ringHead = some sl →
      let va := ringVA (getCrew s (q / 8)) (q % 8) (getQueue s q).ringHead
      (∀ bs, vread s hostCache (q / 8) va 64 = .ok bs →
        ∃ t, exec (.refillRead q) s = .next t ∧ (getQueue t q).ringHead = (getQueue s q).ringHead + 1 ∧
          (getQueue t q).ringLen = (getQueue s q).ringLen - 1 ∧ t.mem = s.mem ∧
          ∃ y ∈ t.sched.slates, y.order = sl.order ∧ y.ringPos = none ∧
            y.words = stampWords sl.crew sl.prio (wordsOfBytes bs)) ∧
      (∀ e, vread s hostCache (q / 8) va 64 = .error e → e ≠ .wait →
        ∃ t, exec (.refillRead q) s = .next t ∧ (getQueue t q).sealed = true ∧ (getQueue t q).sealVA = va ∧
          (getQueue t q).sealKind = 1)) ∧
  (∀ (s : State) (n p : Nat) (y : Queue), hostActs s = true → n < 8 → p < 8 → (getCrew s n).en = true →
      s.sched.queues[8 * n + p]? = some y →
      (y.sealed = false → exec (.queueUnseal n p) s = .next s) ∧
      (y.sealed = true → y.held = none →
        let u := modQueue s (8 * n + p) fun z => { z with sealed := false, sealVA := 0, sealKind := 0, held := none, retry := false }
        (∀ t, tryRefill u (8 * n + p) = some t →
          exec (.queueUnseal n p) s = .next t ∧ exec (.refillRead (8 * n + p)) u = .next t) ∧
        (tryRefill u (8 * n + p) = none →
          exec (.queueUnseal n p) s = .next (modQueue s (8 * n + p) fun z => { z with retry := true }))) ∧
      (y.sealed = true → y.held = none → y.ringLen = 0 →
        ∃ t, exec (.queueUnseal n p) s = .next t ∧
          getQueue t (8 * n + p) = { y with sealed := false, sealVA := 0, sealKind := 0, retry := false } ∧ t.mem = s.mem) ∧
      (y.sealed = true → y.held = none → y.ringLen ≠ 0 → windowCount s (8 * n + p) < 64 →
        ringSlate s (8 * n + p) y.ringHead = none →
        ∃ t, exec (.queueUnseal n p) s = .next t ∧ (getQueue t (8 * n + p)).sealed = false ∧
          (getQueue t (8 * n + p)).ringHead = y.ringHead + 1 ∧ t.mem = s.mem) ∧
      (∀ sl, y.sealed = true → y.held = some sl → sl.crew = n → sl.prio = p → y.spill = none →
        (windowCount s (8 * n + p) < 64 → y.ringLen = 0 →
          ∃ t, exec (.queueUnseal n p) s = .next t ∧ (getQueue t (8 * n + p)).sealed = false ∧
            (getQueue t (8 * n + p)).held = none ∧
            ∃ x ∈ t.sched.slates, x.words = sl.words ∧ x.order = s.sched.nextOrder ∧ x.ringPos = none) ∧
        ((64 ≤ windowCount s (8 * n + p) ∨ y.ringLen ≠ 0) → y.ringLen < ringCap (getCrew s n) →
          let f := fun (z : Queue) =>
            { z with sealed := false, sealVA := 0, sealKind := 0, held := none, retry := false,
                     spill := some { sl with order := s.sched.nextOrder } }
          let w := { s with sched := { s.sched with nextOrder := s.sched.nextOrder + 1, queues := modAt s.sched.queues (8 * n + p) f } }
          ∀ u, vwrite w hostCache n (ringVA (getCrew s n) p (y.ringHead + y.ringLen)) (slateBytes sl.words) = (u, none) →
            ∃ t, exec (.queueUnseal n p) s = .next t ∧ (getQueue t (8 * n + p)).sealed = false ∧
              (getQueue t (8 * n + p)).held = none ∧ (getQueue t (8 * n + p)).ringLen = y.ringLen + 1 ∧ t.mem = u.mem ∧
              ∃ x ∈ t.sched.slates, x.words = sl.words ∧ x.order = s.sched.nextOrder ∧ x.ringPos = some (y.ringHead + y.ringLen)))) ∧
  (∀ (s : State) (n : Nat) (x : Slate), nextToEnter s n = some x →
      let ws := x.words
      (slateBad ws = true → exec (.slateEnter n) s = .next (refuseSlate s x 1)) ∧
      (slateBad ws = false → slateXchip ws = false → membersHere s x = some (slateN ws)) ∧
      (slateBad ws = false → membersHere s x = none → exec (.slateEnter n) s = .next s) ∧
      (∀ m, slateBad ws = false → membersHere s x = some m →
        (quotaOf (getCrew s n) < m * slateH ws * slateW ws → exec (.slateEnter n) s = .next (refuseSlate s x 2)) ∧
        (m * slateH ws * slateW ws ≤ quotaOf (getCrew s n) →
          (placeable s ws m = false → exec (.slateEnter n) s = .next (refuseSlate s x 3)) ∧
          (placeable s ws m = true →
            (readRanges s x = none → exec (.slateEnter n) s = .next s) ∧
            (∀ cause, readRanges s x = some (.error cause) → exec (.slateEnter n) s = .next (refuseSlate s x cause)) ∧
            ∀ ds, readRanges s x = some (.ok ds) →
              (depRoom s n ds.length = false → exec (.slateEnter n) s = .next s) ∧
              (depRoom s n ds.length = true → ∃ t, exec (.slateEnter n) s = .next t ∧ t.sched.deps = s.sched.deps ++ ds ∧
                t.mem = s.mem ∧ ∃ y ∈ t.sched.slates, y.order = x.order ∧ y.entered = true ∧ y.words = x.words ∧
                  ∀ o, o ∈ y.preds ↔ ∃ e ∈ s.sched.deps, e.order = o ∧ e.crew = x.crew ∧ ds.any (depConflict e) = true)))))

/-- A scheduling pass runs after an event or 100 us after the last one, and not otherwise; one with no candidate places nothing;
one whose only candidate is a slate of one chip that fits, with a good circuit table whose circuits find their through places
and a free context on each origin stage, makes its scene with a member for each region of the slate, which has not started. At
its start tick every member of a placed scene has the context that 05 R106 describes, an opening reel that has loaded starts,
and the scene has started; a held scene goes on once its restores are made and its clusters run at one level, and no scene
starts before all its members are PLACED and loaded. -/
def Obligations.PlacementAndStart : Prop :=
  (∀ (s : State), s.chip.ready = true → partStopped s = false →
      ((s.sched.due = false ∧ now s < s.sched.lastPass + 100000) → exec .schedulingPass s = .next s) ∧
      ((s.sched.due = true ∨ s.sched.lastPass + 100000 ≤ now s) →
        let u := { noteReady s with sched := { (noteReady s).sched with due := false, lastPass := now s, taken := [] } }
        (candidates u = [] → ∃ t, exec .schedulingPass s = .next t ∧ t.scenes = s.scenes ∧ t.regions = s.regions ∧
          t.ctxs = s.ctxs ∧ t.mem = s.mem ∧ t.sched.lastPass = now s ∧ t.sched.due = false) ∧
        ∀ x os cs, x.prio < 8 → candidates u = [x] → findSlate u x.order = some x → slateScene u x = none → x.launch = none →
          slateXchip x.words = false → fitOrigins u x (slateN x.words) [] 0 = some os →
          readCircuits u x.crew (BitVec.ofNat 64 (slateField x.words 1 0 48)) (slateN x.words) = some (.ok cs) →
          fullDirectors u os = [] →
          circuitsFit u (freshSerial u) none (spotsOf (slateW x.words) (slateH x.words) (List.range (slateN x.words)) os) cs = true →
          ∃ t k, exec .schedulingPass s = .next t ∧ getScene t (freshSerial u) = some k ∧ k.order = x.order ∧ k.crew = x.crew ∧
            k.started = false ∧ k.members.length = slateN x.words ∧ t.mem = s.mem ∧ t.sched.lastPass = now s)) ∧
  (∀ (s : State) (n : Nat) (k : Scene), getScene s n = some k → liveMembers k ≠ [] → tickCome s k = true → k.started = false →
      (∀ p ∈ liveMembers k, p.2.state = .placed ∧ memberReady s p.2 = true) →
      ((liveMembers k).filterMap (·.2.ctx)).Nodup → ((liveMembers k).map (·.2.region)).Nodup →
      ∃ t k', exec (.startTick n) s = .next t ∧ getScene t n = some k' ∧ k'.started = true ∧ k'.lastStart = now s ∧
        ∀ p ∈ liveMembers k, ∀ x, getRegion s p.2.region = some x →
          (x.load = none → getRegion t p.2.region = some x) ∧
          (x.load.isSome = true → x.phase = .waved → ∃ y, getRegion t p.2.region = some y ∧ y.phase = .started ∧ y.load = none) ∧
          ∀ c, p.2.ctx = some c →
            ∃ e, getCtx t c = { entryCtx k n p.1 p.2 (x.load.isSome && x.phase == .waved) e with pend := (getCtx s c).pend }) ∧
  (∀ (s : State) (n : Nat) (k : Scene), getScene s n = some k →
      ((∃ p ∈ liveMembers k, p.2.state ≠ .placed) → exec (.startTick n) s = .next s) ∧
      (liveMembers k ≠ [] → (∀ p ∈ liveMembers k, p.2.state = .placed) → tickCome s k = true → k.started = true →
        (restored s n k = false → exec (.startTick n) s = .next s) ∧
        ((∃ p ∈ liveMembers k, memberLevels s p.2 = false) → exec (.startTick n) s = .next s) ∧
        (restored s n k = true → (∀ p ∈ liveMembers k, memberLevels s p.2 = true) →
          exec (.startTick n) s = .next (wakeScene s n k))) ∧
      (tickCome s k = false → untold k = false → exec (.startTick n) s = .next s) ∧
      (k.started = false → (∃ p ∈ liveMembers k, memberReady s p.2 = false) → exec (.startTick n) s = .next s))

/-- A cross-chip scene is announced once its members on this chip stand PLACED, with their reels loaded or their images restored:
its home chip asks every peer and awaits the replies for 200 us, or commits where it has none; a peer answers FIT. A peer's FIT is
counted, and with the last one the start tick of a scene that stands on its home chip is 20 us ahead; a NOFIT, a reply after 200 us and
the end of 200 us cancel the placement, and a BADPEER refuses the slate too; a request of a crew that is not enabled is answered BADPEER,
one that finds this chip out of step NOFIT; a COMMIT sets the start tick, or freezes the members with LINKFAIL when it has passed; a
CANCEL frees what was placed: a new scene is gone, a held one is held again; a TEARDOWN freezes every member of a committed scene with
PEERLOST, and cancels a placement that is not. The payloads are the model's (logs 16, 17). -/
def Obligations.ScenesAcrossChips : Prop :=
  (∀ (s : State) (n : Nat) (k : Scene), getScene s n = some k → untold k = true → (∀ p ∈ liveMembers k, p.2.state = .placed) →
      (liveMembers k ≠ [] ∨ k.started = false) →
      ((scenePlaced s n k = false ∨ ∃ p ∈ liveMembers k, memberLevels s p.2 = false) → exec (.startTick n) s = .next s) ∧
      (scenePlaced s n k = true → (∀ p ∈ liveMembers k, memberLevels s p.2 = true) →
        (k.home = true → ∀ x, findSlate s k.order = some x →
          (otherChips s k ≠ [] → ∃ t, exec (.startTick n) s = .next t ∧ getScene t n = some { k with told := true } ∧ t.mem = s.mem ∧
            ∃ r ∈ t.sched.xreqs, r.serial = n ∧ r.waiting = otherChips s k ∧ r.deadline = now s + 200000) ∧
          (otherChips s k = [] → ∃ t, exec (.startTick n) s = .next t ∧
            getScene t n = some { k with told := true, tick := some (now s + 20000) })) ∧
        (k.home = false → (portTowards s (sceneName s n).1).isSome = true →
          exec (.startTick n) s = .next (sendPlace (modScene s n fun k => { k with told := true }) n k.crew k.chips (sceneName s n).1
            pFIT s.chip.serial.toNat)))) ∧
  (∀ (s : State) (n peer : Nat) (q : XReq), s.sched.xreqs.find? (·.serial == n) = some q → q.waiting.contains peer = true →
      (∀ k, now s ≤ q.deadline → q.waiting.erase peer = [] → getScene s n = some k → scenePlaced s n k = true →
        ∃ t, exec (.placementReply n peer .fit) s = .next t ∧ getScene t n = some { k with tick := some (now s + 20000) } ∧
          (∀ r ∈ t.sched.xreqs, r.serial ≠ n) ∧ t.mem = s.mem) ∧
      (now s ≤ q.deadline → q.waiting.erase peer ≠ [] →
        ∃ t, exec (.placementReply n peer .fit) s = .next t ∧ t.scenes = s.scenes ∧
          ∃ r ∈ t.sched.xreqs, r.serial = n ∧ r.waiting = q.waiting.erase peer) ∧
      exec (.placementReply n peer .nofit) s = .next (cancelPlacement s n) ∧
      (∀ x, now s ≤ q.deadline → findSlate (cancelPlacement s n) q.order = some x → slateScene (cancelPlacement s n) x = none →
        exec (.placementReply n peer .badpeer) s = .next (refuseSlate (cancelPlacement s n) x 7)) ∧
      (q.deadline < now s → ∀ r, exec (.placementReply n peer r) s = .next (cancelPlacement s n)) ∧
      (now s < q.deadline → exec (.placementTimeout n) s = .next s) ∧
      (q.deadline ≤ now s → exec (.placementTimeout n) s = .next (cancelPlacement s n))) ∧
  (∀ (s : State) (req : PlaceRequest), 65536 ≤ req.serial →
      let answer := fun (u : State) (chips : List Nat) (op : Nat) =>
        exec (.placementRequest req) s =
          .next (sendPlace u req.serial req.crew chips (sceneName u req.serial).1 op u.chip.serial.toNat)
      ((8 ≤ req.crew ∨ (getCrew s req.crew).en = false) → answer s [] pBADPEER) ∧
      (req.crew < 8 → (getCrew s req.crew).en = true →
        (s.links.outOfStep = true → answer s [] pNOFIT) ∧
        (s.links.outOfStep = false →
          let map := readChipMap s req.crew (BitVec.ofNat 64 (slateField req.words 1 0 48)) (slateN req.words)
          (∀ c, map = some (.error c) → answer s [] pBADPEER) ∧
          (map = none → answer s [] pNOFIT) ∧
          ∀ cm, map = some (.ok cm) →
            (getScene s req.serial = none →
              (∀ u op, placePeer s req cm = (u, some op) → answer u cm.chips op) ∧
              (∀ u, placePeer s req cm = (u, none) → exec (.placementRequest req) s = .next u)) ∧
            ∀ k, getScene s req.serial = some k →
              (∀ u op, reservePeer s req k = (u, some op) → answer u cm.chips op) ∧
              (∀ u, reservePeer s req k = (u, none) → exec (.placementRequest req) s = .next u)))) ∧
  (∀ (s : State) (n : Nat) (tick : Word) (k : Scene), getScene s n = some k → k.home = false → k.xchip = true →
      (k.tick = none → now s < tick.toNat →
        ∃ t, exec (.placementCommit n tick) s = .next t ∧ getScene t n = some { k with tick := some tick.toNat } ∧
          t.sched = s.sched ∧ t.mem = s.mem ∧ t.ctxs = s.ctxs) ∧
      (k.tick = none → tick.toNat ≤ now s →
        ∃ t, exec (.placementCommit n tick) s = .next t ∧
          ∀ p ∈ liveMembers k, ∀ x, getRegion s p.2.region = some x → x.frozen = none →
            ∃ y f, getRegion t p.2.region = some y ∧ y.frozen = some f ∧ f.cause = fLINKFAIL) ∧
      (k.tick ≠ none → exec (.placementCommit n tick) s = .next s) ∧
      (k.tick = none → k.started = false → exec (.placementCancel n) s = .next (dropScene s n)) ∧
      (k.tick = none → k.started = true → (∃ p ∈ liveMembers k, p.2.state = .placed) →
        ∃ t y, exec (.placementCancel n) s = .next t ∧ getScene t n = some y ∧ y.isHeld = true ∧
          ∀ p ∈ liveMembers k, p.2.state = .placed → (y.members[p.1]?).map (·.state) = some .held) ∧
      (k.tick = none → k.started = true → (∀ p ∈ liveMembers k, p.2.state ≠ .placed) → exec (.placementCancel n) s = .next s) ∧
      (k.tick ≠ none → exec (.placementCancel n) s = .next s)) ∧
  (∀ (s : State) (n : Nat) (k : Scene), getScene s n = some k →
      (k.xchip = false → exec (.peerTeardown n) s = .next s) ∧
      (k.xchip = true → k.started = false → k.tick = none →
        (k.home = true → exec (.peerTeardown n) s = .next (cancelPlacement s n)) ∧
        (k.home = false → exec (.peerTeardown n) s = .next (dropScene s n))) ∧
      (k.xchip = true → (k.started = true ∨ k.tick ≠ none) → ∃ t, exec (.peerTeardown n) s = .next t ∧
        ∀ p ∈ liveMembers k, ∀ x, getRegion s p.2.region = some x → x.frozen = none →
          ∃ y f, getRegion t p.2.region = some y ∧ y.frozen = some f ∧ f.cause = fPEERLOST))

/-! ## The host (02 R42-R60; 04 R78; 12 R311) -/

/-- A full write of a register keeps the bits of its fields: the event rings, a crew's set-up block while it is not enabled, the
memory window, the firmware and table addresses, PW_CTL, whose reserved codes change nothing. A write of a read-only register
changes nothing, and so does any access while the part is off or halted. CONS is written, and a ring that still has records
signals again. A read with an effect has it: DC_HI advances DC_IDX, CECNT and PW_STAT clear their counts. An access through the memory window
performs its first 64-byte block and leaves the others to come in order; one that must wait, or finds others waiting, joins them with
the address that it has as it arrives, a window that does not answer reads zeros and drops writes, and a write to a crew's registers
does not overtake a waiting commit; a fault in translation reads zeros or drops the write, and writes
HOSTMEM_FAULT (02 R42, R46, R49, R52, R58, R60; 04 R78; 12 R311). The MSI-X table's layout is the family's (log 38). -/
def Obligations.HostInterface : Prop :=
  (∀ (s : State) (val : Word) (en : BitVec 8) (off : Nat), hostActs s = false → exec (.registerWrite off val en) s = .next s) ∧
  (∀ (s : State) (val : Word), hostActs s = true →
      (∃ t, exec (.registerWrite 0x100 val 0xFF) s = .next t ∧
        t = { s with devRing := { s.devRing with base := val &&& 0xFFFFFFFFFFFFF000 } }) ∧
      (∃ t, exec (.registerWrite 0x6000 val 0xFF) s = .next t ∧ t = { s with power := { s.power with
        modeReg := if wbits val 8 3 < 4 then BitVec.ofNat 3 (wbits val 8 3) else s.power.modeReg
        capReg := if wbits val 0 2 < 3 then BitVec.ofNat 2 (wbits val 0 2) else s.power.capReg } }) ∧
      (∃ t, exec (.registerWrite 0x4020 val 0xFF) s = .next t ∧
        t = { s with chip := { s.chip with fwAddr := val &&& 0xFFFFFFFFFFFFF000 } }) ∧
      (∃ t, exec (.registerWrite 0x7000 val 0xFF) s = .next t ∧
        t = { s with xl := { s.xl with ptwAddr := val &&& 0x00003FFFFFFFFFC0 } }) ∧
      (∀ off ∈ [0, 8, 0x10, 0x20, 0x110, 0x120, 0x4008, 0x6008, 0x8108, 0x20000], ∀ en,
        exec (.registerWrite off val en) s = .next s) ∧
      (∀ k, k < 18 → s.msixPend.contains (k / 2) = false →
        exec (.registerWrite (0x80000 + 8 * k) val 0xFF) s =
          .next { s with msixTable := s.msixTable.set k (if k % 2 = 1 then val &&& 0x1FFFFFFFF else val) }) ∧
      ∀ n, n < 8 → ∀ c, s.crews[n]? = some c →
        (c.en = true → ∀ en, exec (.registerWrite (0x1008 + 0x100 * n) val en) s = .next s) ∧
        (c.en = false → ∃ t, exec (.registerWrite (0x1008 + 0x100 * n) val 0xFF) s = .next t ∧
          t.crews[n]? = some { c with ptroot := val &&& 0x00003FFFFFFFF000 } ∧ t.mem = s.mem) ∧
        (c.en = true →
          (commitsWait s = true → exec (.registerWrite (0x1000030 + 0x1000000 * n) val 0xFF) s =
            .next { s with hostWait := s.hostWait ++ [.start (.registerWrite (0x1000030 + 0x1000000 * n) val 0xFF)] }) ∧
          (commitsWait s = false → ∃ t, exec (.registerWrite (0x1000030 + 0x1000000 * n) val 0xFF) s = .next t ∧
            t.crews[n]? = some { c with membase := val &&& 0x0000FFFF00000000 } ∧ t.mem = s.mem))) ∧
  (∀ (s : State) (n : Nat) (val : Word), hostActs s = true → (n = 8 ∨ n < 8 ∧ (getCrew s n).en = true) →
      let v := if n = 8 then 0 else 1 + n
      let signals := (wbit (getRing s n).ctl 0 && (getRing s n).prod != val.setWidth 32) = true
      ∃ t, exec (.eventRingConsume n val) s = .next t ∧ getRing t n = { getRing s n with cons := val.setWidth 32 } ∧
        t.mem = s.mem ∧ t.hostMem = s.hostMem ∧ (¬ signals → t.msix = s.msix ∧ t.msixPend = s.msixPend) ∧
        (signals → vectorMasked s v = false → t.msix = s.msix ++ [v] ∧ t.msixPend = s.msixPend) ∧
        (signals → vectorMasked s v = true → t.msix = s.msix ∧ v ∈ t.msixPend)) ∧
  (∀ (s : State) (n : Nat), hostActs s = true → (getCrew s n).en = true →
      ∃ t, exec (.dcHiRead n) s = .next t ∧ (getCrew t n).dcIdx = (getCrew s n).dcIdx + 1 ∧
        (dcRegion s n = none → t.hostRead = leBytes 8 0) ∧
        ∀ r, dcRegion s n = some r → t.hostRead = leBytes 8 ((drainAt s r (getCrew s n).dcIdx.toNat).toNat / 2 ^ 64)) ∧
  (∀ (s : State) (n off len : Nat) (bs : List Byte),
      (windowActs s n = false →
        exec (.hostMemoryRead n off len) s = .next { s with hostRead := List.replicate len 0 } ∧
        exec (.hostMemoryWrite n off bs) s = .next s) ∧
      (windowActs s n = true → s.hostWait ≠ [] →
        exec (.hostMemoryRead n off len) s = .next { s with hostWait := s.hostWait ++ [.read n (hostVA s n off) len none] } ∧
        exec (.hostMemoryWrite n off bs) s = .next { s with hostWait := s.hostWait ++ [.write n (hostVA s n off) bs none] })) ∧
  (∀ (s : State) (n off len : Nat) (bs : List Byte), hostActs s = true → s.hostWait = [] → n < 8 → (getCrew s n).en = true →
      let reads := pieces s hostCache n .read false (len / 64 + 2) (hostVA s n off) len
      let writes := pieces s hostCache n .write false (bs.length / 64 + 2) (hostVA s n off) bs.length
      (∀ p ps, reads = .ok (p :: ps) → ∃ t, exec (.hostMemoryRead n off len) s = .next t ∧ t.mem = s.mem ∧
        t.hostWait = (if ps = [] then [] else [.fetch n ps]) ∧
        (pieceBad s p false = false → t.hostRead = plainBytes s hostCache n p.va.toNat (readPiece s p)) ∧
        (pieceBad s p false = true → t.hostRead = (blockBytes (Config.freeBlock s.freeCtr)).take p.len)) ∧
      (∀ c va, reads = .error (.xlate c va) → ∃ t, exec (.hostMemoryRead n off len) s = .next t ∧
        t.hostRead = List.replicate len 0 ∧ t.mem = s.mem ∧ t.hostMem = (writeEvent s n 0x30 0 0 va (c.setWidth 64)).hostMem) ∧
      (reads = .error .wait →
        exec (.hostMemoryRead n off len) s = .next { s with hostWait := [.read n (hostVA s n off) len none] }) ∧
      (∀ p ps, writes = .ok (p :: ps) → ∃ t, exec (.hostMemoryWrite n off bs) s = .next t ∧
        t.hostWait = (if ps = [] then [] else [.store n ps (bs.drop p.len)]) ∧
        (pieceBad s p true = false → t.mem = (writePiece s p (bs.take p.len)).mem) ∧
        (pieceBad s p true = true → t.mem = s.mem)) ∧
      (∀ c va, writes = .error (.xlate c va) →
        exec (.hostMemoryWrite n off bs) s = .next (writeEvent s n 0x30 0 0 va (c.setWidth 64))) ∧
      (writes = .error .wait →
        exec (.hostMemoryWrite n off bs) s = .next { s with hostWait := [.write n (hostVA s n off) bs none] })) ∧
  (∀ (s : State) (d : Nat), hostActs s = true → d < 4 →
      (∃ t, exec (.cecntRead d) s = .next t ∧ t.hostRead = leBytes 8 (s.chip.cecnt.getD d 0).toNat ∧ t.chip.cecnt.getD d 0 = 0 ∧
        ∀ e, e ≠ d → t.chip.cecnt.getD e 0 = s.chip.cecnt.getD e 0) ∧
      exec .pwStatRead s = .next { s with hostRead := leBytes 8 (pwStat s).toNat, power := { s.power with overs := 0 } })

/-- An enable takes effect only if its checks pass, else it records the first failing check; a teardown leaves nothing of the
crew. GO copies the record into a slot that is IDLE and gives the take to the scheduler, or rejects it; an abort or release sets
the slot's state. A seed is committed to its port's FIFO, or is refused with EARLY, LATE, BADTAG or FULL; one for an entry that is
no seed port has no effect while the take runs (the model's choice, log 37). A GO, and what follows one, waits for the host accesses
that came before it (02 R46, R47, R52-R57). -/
def Obligations.CrewsAndLaunches : Prop :=
  (∀ (s : State) (n : Nat) (c : Crew) (val : Word), hostActs s = true → n < 8 → s.crews[n]? = some c → s.chip.ready = true →
      c.en = false → wbit val 63 = true → crewBusy (modCrew s n fun c => crewFields c val) n = false →
      wbits c.keys 0 13 ≠ 0 → wbits c.keys 16 13 ≠ 0 → wbits c.keys 0 13 + wbits c.keys 16 13 ≤ 8192 →
      (∀ k, k < 8 → k ≠ n → (getCrew s k).en = true → keysOverlap c.keys (getCrew s k).keys = false) →
      wbits val 40 8 + ((List.range 8).map fun k =>
        if k ≠ n ∧ (getCrew s k).en = true then (getCrew s k).power.toNat else 0).sum ≤ 256 →
      populated s (wbits c.ptroot 12 34 * 4096) = true →
      ∃ t, exec (.crewEnable n val) s = .next t ∧ (getCrew t n).en = true ∧ (getCrew t n).err = 0 ∧
        (getCrew t n).quota = BitVec.ofNat 10 (wbits val 0 10) ∧ (getCrew t n).power = BitVec.ofNat 8 (wbits val 40 8) ∧
        (getCrew t n).weight = BitVec.ofNat 8 (wbits val 48 8) ∧ (getCrew t n).quantum = BitVec.ofNat 16 (wbits val 16 16) ∧
        (∀ x ∈ t.sched.slates, x.crew ≠ n) ∧ t.mem = s.mem) ∧
  (∀ (s : State) (n : Nat) (c : Crew) (val : Word), hostActs s = true → n < 8 → s.crews[n]? = some c →
      (s.chip.ready = true → c.en = false → wbit val 63 = true →
        let u := modCrew s n fun c => crewFields c val
        ∃ t, exec (.crewEnable n val) s = .next t ∧ t.mem = s.mem ∧
          (enableError u n = 0 → (getCrew t n).en = true ∧ (getCrew t n).err = 0 ∧ (getCrew t n).ptroot = c.ptroot ∧
            (getCrew t n).ring = {} ∧ (∀ x ∈ t.sched.slates, x.crew ≠ n) ∧
            ∀ q, s.power.crews[n]? = some q →
              t.power.crews[n]? = some { q with ceiling := modeCeiling s.power.mode.toNat }) ∧
          (enableError u n ≠ 0 → getCrew t n = { crewFields c val with err := enableError u n })) ∧
      ((s.chip.ready = false ∨ c.en = true ∨ wbit val 63 = false) → exec (.crewEnable n val) s = .next s) ∧
      (c.en = true → ∃ t, exec (.crewTeardown n) s = .next t ∧ (getCrew t n).en = false ∧ (∀ x ∈ t.sched.slates, x.crew ≠ n) ∧
        (∀ p ∈ t.eng.ops, p.2.crew ≠ n) ∧ (∀ e ∈ t.xl.tlb, e.crew ≠ n) ∧
        ∀ l ∈ (getCrew t n).slots, l.state = lIDLE ∨ l.state = lABORTED)) ∧
  (∀ (s : State) (n k : Nat) (l : Launch), hostActs s = true → n < 8 → k < 8 → (getCrew s n).en = true →
      (getCrew s n).slots[k]? = some l →
      (s.hostWait ≠ [] →
        exec (.launchGo n k) s = .next { s with hostWait := s.hostWait ++ [.start (.launchGo n k)] }) ∧
      (commitsWait s = true →
        exec (.launchAbort n k) s = .next { s with hostWait := s.hostWait ++ [.start (.launchAbort n k)] } ∧
        exec (.launchRelease n k) s = .next { s with hostWait := s.hostWait ++ [.start (.launchRelease n k)] }) ∧
      (s.hostWait = [] → l.state = lIDLE → launchCheck s n l.record = none →
        exec (.launchGo n k) s = .next { s with hostWait := [.start (.launchGo n k)] }) ∧
      (s.hostWait = [] → l.state = lIDLE → launchCheck s n l.record = some none →
        ∃ t l', exec (.launchGo n k) s = .next t ∧ (getCrew t n).slots[k]? = some l' ∧ l'.state = lPLACING ∧ l'.taken = l.record ∧
          l'.count = l.count + 1 ∧ ∃ x ∈ t.sched.slates, x.launch = some (n, k) ∧ x.words = launchWords l.record) ∧
      (∀ code, s.hostWait = [] → l.state = lIDLE → launchCheck s n l.record = some (some code) →
        ∃ t l', exec (.launchGo n k) s = .next t ∧ (getCrew t n).slots[k]? = some l' ∧ l'.state = lREJECTED ∧ l'.code = code ∧
          l'.count = l.count + 1 ∧ t.sched = s.sched) ∧
      (s.hostWait = [] → l.state ≠ lIDLE → exec (.launchGo n k) s = .next s) ∧
      (commitsWait s = false → slotBusy l = true → ∃ t l', exec (.launchAbort n k) s = .next t ∧ (getCrew t n).slots[k]? = some l' ∧
        l'.state = lABORTED ∧ l'.scene = none ∧ l'.lres = (viewLaunch s l).lres) ∧
      (commitsWait s = false → slotBusy l = false → exec (.launchAbort n k) s = .next s) ∧
      (commitsWait s = false → 5 ≤ l.state.toNat → ∃ t l', exec (.launchRelease n k) s = .next t ∧ (getCrew t n).slots[k]? = some l' ∧
        l'.state = lIDLE ∧ l'.count = l.count) ∧
      (commitsWait s = false → l.state.toNat < 5 → exec (.launchRelease n k) s = .next s)) ∧
  (∀ (s : State) (n k e : Nat) (l : Launch) (val : Word), hostActs s = true → s.hostWait = [] → n < 8 → k < 8 → e < 12 →
      (getCrew s n).en = true → (getCrew s n).slots[k]? = some l →
      let fails := fun (bit : BitVec 4) => exec (.seedCommit n k e val) s = .next (modLaunch s n k fun l =>
        { l with pages := modAt l.pages e fun p => { p with err := p.err ||| bit } })
      (l.state ∈ [lIDLE, lPLACING, lLOADING, lREJECTED] → fails 8) ∧
      (l.state ∈ [lDONE, lFAULTED, lABORTED] → fails 4) ∧
      (l.state ∈ [lRUNNING, lHELD] → ∀ p j, entryEnd s l e = some p → l.scene = some j →
        (entryKind l.taken e ≠ 1 → exec (.seedCommit n k e val) s = .next s) ∧
        (entryKind l.taken e = 1 → p.exhausted = true → fails 4) ∧
        (entryKind l.taken e = 1 → p.exhausted = false →
          (badSeedTag (wbits val 16 4) = true → fails 2) ∧
          (badSeedTag (wbits val 16 4) = false → 64 ≤ p.fifo.length → fails 1) ∧
          (badSeedTag (wbits val 16 4) = false → p.fifo.length < 64 →
            exec (.seedCommit n k e val) s =
              .next (modPort s j 0 (entryPort l.taken e) fun p => commitSeed p val (l.pages.getD e {}).data)))))

/-! ## Trust, keys and tables (03 R69-R75; 12 R307-R309) -/

/-- A signature uses the next index and advances it; an exhausted index ends with its result, one that the flash does not keep
with FLASH and no signature, and a command written while BUSY is dropped. An update that fails its checks leaves both banks, one
that passes and reads back goes to the inactive bank. A key load or retirement is checked in the order the spec gives, and changes
its slots only at its completion. That a refused load leaves KS_DATA is the model's choice (log 37). An invalidation drops the matching entries, and a walk caches a leaf in a cache of 64 entries; PTW writes and reads a block under slot 0, and a corrected read is counted. -/
def Obligations.TrustAndKeys : Prop :=
  (∀ (s : State), hostActs s = true →
      let kept := s.chip.flashTakes && s.chip.flashReads
      (s.chip.trCmd ≠ 0 → exec .sign s = .next { s with chip := { s.chip with trResult := 1 } } ∧
        exec .update s = .next { s with chip := { s.chip with trResult := 1 } }) ∧
      (s.chip.trCmd = 0 → s.chip.index = 2 ^ 20 → ∃ t, exec .sign s = .next t ∧ t.chip.trResult = 2 ∧
        t.chip.index = s.chip.index ∧ t.chip.sig = s.chip.sig) ∧
      (s.chip.trCmd = 0 → s.chip.index ≠ 2 ^ 20 →
        (kept = false → ∃ t, exec .sign s = .next t ∧ t.chip.trCmd = 0 ∧ t.chip.trResult = 3 ∧
          t.chip.index = (if s.chip.flashTakes then s.chip.index + 1 else s.chip.index) ∧ t.chip.sig = s.chip.sig) ∧
        (kept = true → ∃ t, exec .sign s = .next t ∧ t.chip.trCmd = 1 ∧
          t.chip.trIndex = s.chip.index ∧ t.chip.index = s.chip.index + 1 ∧ t.chip.sigTime = s.timecode ∧
          t.chip.trImage = leBytes 8 (devId s).toNat ++ leBytes 8 s.timecode.toNat ++ leBytes 32 s.chip.msg.toNat)) ∧
      (s.chip.trCmd = 0 → ∃ t, exec .update s = .next t ∧ t.chip.trCmd = 2 ∧
        let im := rawBytes s.hostMem s.chip.fwAddr.toNat s.chip.fwLen.toNat
        ((s.chip.fwLen = 0 ∨ 0x2000000 < s.chip.fwLen.toNat) → t.chip.trPending = 6) ∧
        (s.chip.fwLen ≠ 0 → s.chip.fwLen.toNat ≤ 0x2000000 →
          t.chip.trPending = if updateResult s.chip im = 0 ∧ kept = false then 3 else updateResult s.chip im) ∧
        (t.chip.trPending ≠ 0 → t.chip.bankA = s.chip.bankA ∧ t.chip.bankB = s.chip.bankB ∧ t.chip.activeB = s.chip.activeB) ∧
        (t.chip.trPending = 0 → t.chip.activeB = !s.chip.activeB ∧ activeBank t.chip = im))) ∧
  (∀ (s : State),
      (s.chip.trCmd = 1 → ∃ t, exec .signComplete s = .next t ∧
        t.chip.sig = xmssSign (identityKey s.chip.secret) s.chip.trIndex s.chip.trImage ∧ t.chip.trCmd = 0 ∧ t.chip.trResult = 0 ∧
        t.chip.trCount = s.chip.trCount + 1 ∧ t.chip.index = s.chip.index) ∧
      (s.chip.trCmd ≠ 1 → exec .signComplete s = .next s) ∧
      (s.chip.trCmd = 2 → ∃ t, exec .updateComplete s = .next t ∧ t.chip.trCmd = 0 ∧ t.chip.trResult = s.chip.trPending ∧
        t.chip.trCount = s.chip.trCount + 1)) ∧
  (∀ (s : State) (n : BitVec 13) (m : BitVec 13), hostActs s = true →
      (s.keys.pend ≠ none → exec (.keyLoad n) s = .next { s with keys := { s.keys with dropped := true } } ∧
        exec (.keyRetire n m) s = .next { s with keys := { s.keys with dropped := true } }) ∧
      (s.keys.pend = none →
        let ends := fun (i : Instr) (r : BitVec 8) => ∃ t, exec i s = .next t ∧ t.keys.result = r ∧ t.keys.pend = none ∧
          t.keys.count = s.keys.count + 1 ∧ t.keys.slots = s.keys.slots ∧ t.keys.data = s.keys.data
        (n = 0 → ends (.keyLoad n) 2 ∧ ends (.keyRetire n m) 2) ∧
        (n ≠ 0 → (keyValue s n.toNat).isSome = true → ends (.keyLoad n) 4) ∧
        (n ≠ 0 → keyValue s n.toNat = none → weakKey s.keys.data = true → ends (.keyLoad n) 5) ∧
        (n ≠ 0 → keyValue s n.toNat = none → weakKey s.keys.data = false → ∃ t, exec (.keyLoad n) s = .next t ∧
          t.keys.pend = some { retire := false, slot := n.toNat, count := 1, key := s.keys.data } ∧ t.keys.data = 0 ∧
          t.keys.changing = [n.toNat] ∧ t.keys.slots = s.keys.slots) ∧
        (n ≠ 0 → 8192 < n.toNat + max 1 m.toNat → ends (.keyRetire n m) 3) ∧
        (n ≠ 0 → n.toNat + max 1 m.toNat ≤ 8192 → ∃ t, exec (.keyRetire n m) s = .next t ∧
          t.keys.pend = some { retire := true, slot := n.toNat, count := max 1 m.toNat } ∧ t.keys.slots = s.keys.slots ∧
          t.keys.changing = (List.range (max 1 m.toNat)).map (n.toNat + ·)))) ∧
  (∀ (s : State) (p : KeyCmd), s.keys.pend = some p →
      (p.retire = false → ∃ t, exec .keyLoadComplete s = .next t ∧ Sparse.find? t.keys.slots p.slot = some p.key ∧
        keyValue t p.slot = some p.key ∧ t.keys.pend = none ∧ t.keys.result = 0 ∧ t.keys.dropped = s.keys.dropped ∧
        t.keys.changing = [] ∧ ∀ j, j ≠ p.slot → Sparse.find? t.keys.slots j = Sparse.find? s.keys.slots j) ∧
      (p.retire = true →
        ((∃ a ∈ openAccesses s, p.slot ≤ a.2.1 ∧ a.2.1 < p.slot + p.count) → exec .keyRetireComplete s = .next s) ∧
        ((∀ a ∈ openAccesses s, a.2.1 < p.slot ∨ p.slot + p.count ≤ a.2.1) → ∃ t, exec .keyRetireComplete s = .next t ∧
          t.keys.pend = none ∧ t.keys.result = 0 ∧ ∀ q, q ∈ t.keys.slots ↔ q ∈ s.keys.slots ∧ (q.1 < p.slot ∨ p.slot + p.count ≤ q.1)))) ∧
  (∀ (s : State) (val : Word), hostActs s = true →
      (∀ en : BitVec 8, en.getLsbD 7 = true → populated s (wbits s.xl.ptwAddr 6 40 * 64) = false →
        ∃ t, exec (.ptwWrite val en) s = .next t ∧ t.xl.ptwData = putBlock s.xl.ptwData 56 val en ∧ t.mem = s.mem) ∧
      (∀ en : BitVec 8, en.getLsbD 7 = true → populated s (wbits s.xl.ptwAddr 6 40 * 64) = true →
        ∃ t, exec (.ptwWrite val en) s = .next t ∧ t.xl.ptwData = putBlock s.xl.ptwData 56 val en ∧
          t = writePiece { s with xl := { s.xl with ptwData := putBlock s.xl.ptwData 56 val en } }
            { va := 0, pa := wbits s.xl.ptwAddr 6 40 * 64, len := 64, key := 0, kind := 0 }
            (blockBytes (putBlock s.xl.ptwData 56 val en))) ∧
      (badBlock s (wbits s.xl.ptwAddr 6 40 * 64) = true → populated s (wbits s.xl.ptwAddr 6 40 * 64) = true →
        exec .ptwRead s = .next { s with hostRead := blockBytes (Config.freeBlock s.freeCtr), freeCtr := s.freeCtr + 1 }) ∧
      ((badBlock s (wbits s.xl.ptwAddr 6 40 * 64) = false ∨ populated s (wbits s.xl.ptwAddr 6 40 * 64) = false) →
        exec .ptwRead s = .next
          (if populated s (wbits s.xl.ptwAddr 6 40 * 64) = true ∧ s.soft.contains (wbits s.xl.ptwAddr 6 40) = true then
            { (countSoft s (homeDie (wbits s.xl.ptwAddr 6 40 * 64)) 1) with hostRead := blockBytes (ptwBlock s) }
          else { s with hostRead := blockBytes (ptwBlock s) })) ∧
      (s.xl.inv ≠ none → exec (.xlInv val) s = .next { s with xl := { s.xl with dropped := true } }) ∧
      (s.xl.inv = none → ∃ t, exec (.xlInv val) s = .next t ∧ t.xl.inv = some val ∧
        ∀ e, e ∈ t.xl.tlb ↔ e ∈ s.xl.tlb ∧ invMatches val e = false)) ∧
  (∀ (s : State) (v : Word), s.xl.inv = some v →
      let hit := fun (a : Nat × Nat × Word) => a.1 = invCrew v ∧ (invWhole v = true ∨ a.2.2.toNat / 2 ^ 30 = invVA v / 2 ^ 30)
      ((∀ a ∈ openAccesses s, ¬ hit a) →
        ∃ t, exec .xlInvComplete s = .next t ∧ t.xl.inv = none ∧ t.xl.count = s.xl.count + 1 ∧ t.xl.tlb = s.xl.tlb) ∧
      ((∃ a ∈ openAccesses s, hit a) → exec .xlInvComplete s = .next s)) ∧
  (∀ (s : State) (cache n : Nat) (va : Word) (a : Access), n < 8 → (getCrew s n).en = true →
      ((∃ e, tlbEntry s cache n va = some e) → exec (.translationWalk cache n va a) s = .next s) ∧
      ((∀ e ∈ s.xl.tlb, e.cache = cache → e.crew = n → e.page ≠ va.toNat / 2 ^ e.bits) →
      (wbits va 48 16 ≠ 0 → exec (.translationWalk cache n va a) s = .next s) ∧
      (∀ e, wbits va 48 16 = 0 → tableWalk s n va a = .error e →
        exec (.translationWalk cache n va a) s = .next (countWalk s n va)) ∧
      (∀ l, tableWalk s n va a = .ok l → s.xl.inv = none → ∃ t, exec (.translationWalk cache n va a) s = .next t ∧
        { cache, crew := n, bits := l.bits, page := va.toNat / 2 ^ l.bits, entry := l.entry : TlbEntry } ∈ t.xl.tlb ∧
        (t.xl.tlb.filter fun e => e.cache == cache).length ≤ 64 ∧ t.mem = s.mem)))

/-! ## Chip ports and the timecode mesh (01 R29-R40; 03 R76) -/

/-- A sender picks its next beat by priority, timecode and link control first, the other types in turn, the oldest of a type
first. A beat that arrives in order advances the expected SEQ and is delivered: a token to its circuit, credits to theirs, a request
or block of rows, a packet of a message; one after a gap asks for a replay once and is dropped, and a reserved TYPE is as an
uncorrectable codeword. A beat of an untrained port changes nothing. A port fails with LINK_FAIL; one that loses lanes trains
anew, goes on at half width and replays what was in flight. Training makes a port carry traffic, unless its round trip is too long; a
port that self-test left untrained trains once it is told to. A timecode beat
of the upstream port gives the offset and the rate; beyond 64 tc the chip is out of step. Beats are due every 1,024 tc. A
re-acquisition steps a follower's timecode forward, or slews it back. The root is the chip of the lowest serial. The body of a timecode beat
and the meaning of the rate's magnitude are the model's own (logs 15, 16). -/
def Obligations.Links : Prop :=
  (∀ (q : Port) (k : Nat) (w : Beat), nextDue q = some k → q.due[k]? = some w →
      (w.typ ≠ 4 → ∀ b ∈ q.due, b.typ ≠ 4) ∧
      (w.typ ≠ 4 → w.typ ≠ 5 → ∀ b ∈ q.due, b.typ ≠ 5) ∧
      (w.typ = q.lastType → w.typ ∈ ([1, 2, 3, 6] : List (BitVec 4)) →
        ∀ b ∈ q.due, b.typ ∈ ([1, 2, 3, 6] : List (BitVec 4)) → b.typ ≠ w.typ → mayGo q b = false) ∧
      ∀ j b, j < k → q.due[j]? = some b → b.typ = w.typ → mayGo q b = false) ∧
  (∀ (s : State) (p : Nat) (b : Beat), portUp s p = true →
      let next := modChipPort s p fun q => { q with rxSeq := q.rxSeq + 1, dropping := false, tries := 0, acked := b.ack }
      let all : List (Instr × BitVec 4) := [(.tokenBeat p b, 1), (.reductionBeat p b, 2), (.commandBeat p b, 3),
        (.timecodeBeat p { beat := b, trip := 0 }, 4), (.linkControlBeat p b, 5), (.memoryBeat p b, 6)]
      (b.seq = (getChipPort s p).rxSeq →
        (b.typ = 1 → exec (.tokenBeat p b) s = .next (landToken p b next)) ∧
        (b.typ = 2 → exec (.reductionBeat p b) s = .next (landToken p b next)) ∧
        (b.typ = 5 → exec (.linkControlBeat p b) s = .next (landStatus p b.ack (bits b.body.toNat 24 8)
          ((List.range 16).foldl (fun s k => landCredit p s (bits b.body.toNat (32 * k) 24)) next))) ∧
        (b.typ = 6 → b.circ.toNat < 2048 →
          exec (.memoryBeat p b) s = .next (freeBuffers p 6 1 (serveRequest next (p, b.circ.toNat, b.body)))) ∧
        (b.typ = 6 → 2048 ≤ b.circ.toNat → ∀ id, gatherOf next b.circ.toNat = some id →
          exec (.memoryBeat p b) s = .next (freeBuffers p 6 1 (gatherData next id b.body))) ∧
        (b.typ = 6 → 2048 ≤ b.circ.toNat → gatherOf next b.circ.toNat = none →
          exec (.memoryBeat p b) s = .next (freeBuffers p 6 1 next)) ∧
        (b.typ = 3 → exec (.commandBeat p b) s = .next (landPacket p b.body next))) ∧
      (7 ≤ b.typ.toNat → ∀ i ∈ all, exec i.1 s = .next (askReplay s p)) ∧
      (b.seq ≠ (getChipPort s p).rxSeq → (getChipPort s p).dropping = false → (getChipPort s p).tries < 3 →
        ∀ i ∈ all, b.typ = i.2 →
          ∃ t c, exec i.1 s = .next t ∧ (getChipPort t p).dropping = true ∧ (getChipPort t p).rxSeq = (getChipPort s p).rxSeq ∧
            (getChipPort t p).tries = (getChipPort s p).tries + 1 ∧
            (getChipPort t p).due = (getChipPort s p).due ++ [c] ∧ c.typ = 5 ∧ c.body.getLsbD 24 = true) ∧
      (b.seq ≠ (getChipPort s p).rxSeq → (getChipPort s p).dropping = true → b.typ.toNat < 7 →
        ∀ i ∈ all, exec i.1 s = .next s)) ∧
  (∀ (s : State) (p trip : Nat) (b : Beat) (w : LaneRetrain), portUp s p = false →
      ∀ i ∈ ([.tokenBeat p b, .reductionBeat p b, .commandBeat p b, .timecodeBeat p { beat := b, trip }, .linkControlBeat p b, .memoryBeat p b,
        .codewordUncorrectable p, .laneFailure p w] : List Instr), exec i s = .next s) ∧
  (∀ (s : State) (p c : Nat) (b : Beat) (k : Scene) (q : SceneCircuit) (t0 : Nat × Nat × SceneCircuit), portUp s p = true → b.typ = 1 →
      b.seq = (getChipPort s p).rxSeq → (portCircuits s p).find? (fun c => c.2.2.via == some (p, b.circ.toNat) && !c.2.2.outward) = some t0 →
      t0.2.1 = c → getScene s t0.1 = some k → k.circuits[c]? = some q → q.outward = false →
      ∃ t k', exec (.tokenBeat p b) s = .next t ∧ getScene t t0.1 = some k' ∧
        k'.circuits[c]? = some { q with q := q.q ++ [cleanTok { tag := b.tag, mask := b.mask, data := b.body }] } ∧
        (getChipPort t p).rxSeq = (getChipPort s p).rxSeq + 1 ∧ t.ctxs = s.ctxs ∧ t.mem = s.mem) ∧
  (∀ (s : State) (p : Nat), portUp s p = true →
      ((getChipPort s p).tries < 3 → ∃ t, exec (.codewordUncorrectable p) s = .next t ∧ (getChipPort t p).dropping = true ∧
        (getChipPort t p).replays = (if (getChipPort s p).replays = BitVec.allOnes 32 then (getChipPort s p).replays
          else (getChipPort s p).replays + 1) ∧ t.ctxs = s.ctxs ∧ t.mem = s.mem) ∧
      (3 ≤ (getChipPort s p).tries → exec (.codewordUncorrectable p) s = .next (failPort s p 3)) ∧
      (∀ rtt, rtt ≤ 700 → ∃ t, exec (.laneFailure p { halfWhole := true, rtt }) s = .next t ∧ (getChipPort t p).state = 2 ∧
        (getChipPort t p).rtt = BitVec.ofNat 16 rtt ∧ (getChipPort t p).sent = (getChipPort s p).sent ∧
        (getChipPort t p).replay = inFlight (getChipPort s p) (getChipPort s p).acked) ∧
      (∀ rtt, 700 < rtt → ∃ t, exec (.laneFailure p { halfWhole := true, rtt }) s = .next t ∧ (getChipPort t p).state = 3) ∧
      (∀ rtt, exec (.laneFailure p { halfWhole := false, rtt }) s = .next (failPort s p 3)) ∧
      (∀ state, (getChipPort (failPort s p state) p).state = state)) ∧
  (∀ (s : State) (p : Nat) (q : Port), hostActs s = true → p < 12 → s.links.ports[p]? = some q →
      (∃ t, exec (.portDisable p) s = .next t ∧ (getChipPort t p).disable = true ∧ (getChipPort t p).state = 4) ∧
      (q.disable = true → exec (.portRetrain p) s = .next s) ∧
      (q.disable = false → ∃ t, exec (.portRetrain p) s = .next t ∧ (getChipPort t p).state = 0 ∧ (getChipPort t p).circuits = [] ∧
        t.chip.deadPorts.contains p = false) ∧
      (q.state = 0 → q.disable = false → s.chip.deadPorts.contains p = false → ∀ rtt half other, rtt ≤ 700 →
        ∃ t, exec (.portTrainingComplete p rtt half other) s = .next t ∧ (getChipPort t p).state = (if half then 2 else 1) ∧
          (getChipPort t p).rtt = BitVec.ofNat 16 rtt ∧ (getChipPort t p).txSeq = 0 ∧ (getChipPort t p).rxSeq = 0 ∧
          (other = true → t.links.outOfStep = true)) ∧
      (q.state = 0 → q.disable = false → s.chip.deadPorts.contains p = false → ∀ rtt half other, 700 < rtt →
        ∃ t, exec (.portTrainingComplete p rtt half other) s = .next t ∧ (getChipPort t p).state = 3) ∧
      ((q.state ≠ 0 ∨ s.chip.deadPorts.contains p = true) → ∀ rtt half other, exec (.portTrainingComplete p rtt half other) s = .next s)) ∧
  (∀ (s : State) (p trip : Nat) (b : Beat), portUp s p = true → b.typ = 4 → b.seq = (getChipPort s p).rxSeq →
      let d : Int := (now s : Int) - (bits b.body.toNat 0 64 + trip / 2 : Nat)
      (upstreamPort s ≠ some p ∨ (getChipPort s p).tcOn = false → ∃ t, exec (.timecodeBeat p { beat := b, trip }) s = .next t ∧
        t.links.offset = s.links.offset ∧ t.links.outOfStep = s.links.outOfStep ∧
        (getChipPort t p).echo = BitVec.ofNat 64 (bits b.body.toNat 0 64)) ∧
      (upstreamPort s = some p → (getChipPort s p).tcOn = true →
        ∃ t, exec (.timecodeBeat p { beat := b, trip }) s = .next t ∧ t.links.offset = BitVec.ofInt 32 d ∧ t.timecode = s.timecode ∧
          (s.links.slewing = true → 64 < d → t.links.rate = s.links.rate ∧ t.links.outOfStep = s.links.outOfStep) ∧
          ((s.links.slewing = false ∨ d ≤ 64) → t.links.rate = max (-100) (min 100 (-d)) ∧
            t.links.outOfStep = (decide (64 < d.natAbs) || (s.links.outOfStep && !s.links.slewing))))) ∧
  (∀ (s : State),
      (partStopped s = false → s.links.lastBeat + 1024 ≤ now s → ∃ t, exec .timecodeBeatSend s = .next t ∧
        t.links.lastBeat = now s ∧ t.mem = s.mem ∧ t.ctxs = s.ctxs ∧
        ∀ p, p < 12 → (getChipPort s p).tcOn = true → portUp s p = true →
          (getChipPort t p).due = (getChipPort s p).due ++ [{ typ := 4, circ := 0, seq := 0, ack := 0, tag := 0, mask := 0, body := 0 }]) ∧
      (∀ (q : Port) (time : Word) (w : Beat), q.replay = [] → nextDue q = some 0 → q.due[0]? = some w → w.typ = 4 →
        ∃ b, (sendOne time q).sent = keepLast 2048 (q.sent ++ [b]) ∧ (sendOne time q).due = q.due.tail ∧
          (sendOne time q).txSeq = q.txSeq + 1 ∧ b.typ = 4 ∧ b.seq = q.txSeq ∧ b.ack = q.rxSeq - 1 ∧
          b.body = BitVec.ofNat 512 (time.toNat + q.echo.toNat * 2 ^ 64)) ∧
      (now s < s.links.lastBeat + 1024 → exec .timecodeBeatSend s = .next s) ∧
      (hostActs s = true → exec .timecodeReacquire s = .next { s with links := { s.links with reacq := true } }) ∧
      (s.links.reacq = false → exec .reacquisition s = .next s) ∧
      ((∃ p ∈ s.scenes, p.2.xchip = true ∧ p.2.isHeld = false) → exec .reacquisition s = .next s) ∧
      (s.links.reacq = true → (∀ p ∈ s.scenes, p.2.xchip = false ∨ p.2.isHeld = true) → ∃ t, exec .reacquisition s = .next t ∧
        t.links.reacq = false ∧ (∀ p q, s.links.ports[p]? = some q → (getChipPort t p).tcOn = q.tcen) ∧
        (upstreamPort s = none → t.timecode = s.timecode ∧ t.links.rate = 0 ∧ t.links.outOfStep = false) ∧
        ((upstreamPort s).isSome = true →
          (64 < s.links.offset.toInt → t.links.rate = -1000 ∧ t.links.slewing = true ∧ t.timecode = s.timecode) ∧
          (s.links.offset.toInt < 0 → t.timecode = s.timecode + BitVec.ofNat 64 s.links.offset.toInt.natAbs) ∧
          (0 ≤ s.links.offset.toInt → t.timecode = s.timecode) ∧
          (s.links.offset.toInt ≤ 64 → t.links.outOfStep = false ∧ t.links.rate = 0))) ∧
      ∀ serials ports hops : List Nat, ∃ t, exec (.rootLost serials ports hops) s = .next t ∧
        let reach := reachOf serials ports hops
        t.timecode = s.timecode ∧
        t.links.routes = reach.map (fun r => (r.serial, r.port)) ∧
        ((∀ r ∈ reach, s.chip.serial.toNat < r.serial) → t.links.root = true ∧ t.links.rootSerial = s.chip.serial.toNat) ∧
        ((∃ r ∈ reach, r.serial ≤ s.chip.serial.toNat) → t.links.root = false ∧ (∃ r ∈ reach, r.serial = t.links.rootSerial) ∧
          ∀ r ∈ reach, t.links.rootSerial ≤ r.serial) ∧
        t.links.outOfStep = (s.links.outOfStep || reach.isEmpty))

/-! ## Power, starts and resets (02 R43; 03 R61-R66, R77; 04 R78-R94) -/

/-- A base-level change moves its cluster to the new generator only at the switch, and the rail holds what its clusters need
throughout; a rise waits for the rail budget. A reading of 125 degrees stops the part, one of 110 sets its die's thermal levels to
15; a cooler one steps each cluster's thermal level, a fall that adds current once the rails grant it. The cap window records the
average, ballast among it, and counts one above the cap. Pacing steps fall one by one as the rails grant them, and ballast older
than 2 us is cut while the running average is above the cap. A cold start of a good report sets READY and changes memory only in
the areas of the write test; a failed step leaves the part not READY with the step's code; a warm start and a function-level
reset discard every scene; a power removal leaves the fuses and the flash. The readings of log 19 are the model's. -/
def Obligations.PowerAndStarts : Prop :=
  (∀ (s : State) (c level : Nat) (x : Cluster), c < 32 → s.power.clusters[c]? = some x →
      (level < 8 → x.queued = some level → x.target = none → level ≠ x.level →
        (level < x.level ∨ riseGranted s (.base c) = true) → ∃ t, exec (.baseLevelChange c level) s = .next t ∧
        getCluster t c = { x with queued := none, target := some level } ∧
        t.power.rails = modAt s.power.rails (c / 8) (fun r => { r with mv := railNeed t (c / 8) }) ∧ t.mem = s.mem) ∧
      (x.queued ≠ some level → exec (.baseLevelChange c level) s = .next s) ∧
      (x.level < level → riseGranted s (.base c) = false → exec (.baseLevelChange c level) s = .next s) ∧
      (x.target = some level → ∃ t, exec (.generatorSwitch c) s = .next t ∧ getCluster t c = { x with level, target := none } ∧
        t.power.rails = modAt s.power.rails (c / 8) (fun r => { r with mv := railNeed t (c / 8) }) ∧ t.mem = s.mem) ∧
      (x.target = none → exec (.generatorSwitch c) s = .next s)) ∧
  (∀ (s : State) (rs : List Nat), partStopped s = false →
      (rs.any (125 ≤ ·) = true → ∃ t, exec (.thermalReading rs) s = .next t ∧ t.chip.halt = some 0xF1 ∧ t.chip.ready = false ∧
        t.chip.thermalMarker = true ∧ t.mem = s.mem) ∧
      (rs.any (125 ≤ ·) = false → ∀ (c e v : Nat) (x : Cluster), c < 32 → e < 32 → c / 8 = e / 8 → rs[e]? = some v → 110 ≤ v →
        s.power.clusters[c]? = some x → ∃ t, exec (.thermalReading rs) s = .next t ∧ (getCluster t c).thermal = 15 ∧ t.mem = s.mem) ∧
      (rs.any (110 ≤ ·) = false → ∃ t, exec (.thermalReading rs) s = .next t ∧ t.chip = s.chip ∧ t.mem = s.mem ∧
        ∀ (c v : Nat) (x : Cluster), c < 32 → rs[c]? = some v → s.power.clusters[c]? = some x →
          (getCluster t c).temp = v ∧ (getCluster t c).level = x.level ∧
          (thermalStep x.thermal v < x.thermal →
            (getCluster t c).thermal = if riseGranted s (.cool c) then thermalStep x.thermal v else x.thermal) ∧
          (x.thermal ≤ thermalStep x.thermal v → (∀ w ∈ s.power.waits, w.rise ≠ .cool c) →
            (getCluster t c).thermal = thermalStep x.thermal v))) ∧
  (∀ (s : State) (m : Nat) (cs : List Nat), partStopped s = false →
      let all := m + ((List.range 8).map (ballastPower s)).sum
      (now s / 1000000 ≤ s.power.window → exec (.capWindow m cs) s = .next s) ∧
      (s.power.window < now s / 1000000 → ∃ t, exec (.capWindow m cs) s = .next t ∧ t.power.window = now s / 1000000 ∧
        t.power.lastAvg = all ∧ t.power.mode = s.power.modeReg ∧ t.power.cap = s.power.capReg ∧ t.mem = s.mem ∧
        (selectedCap s.power.mode.toNat s.power.cap.toNat < all → s.power.overs ≠ BitVec.allOnes 16 →
          t.power.overs = s.power.overs + 1) ∧
        (all ≤ selectedCap s.power.mode.toNat s.power.cap.toNat → t.power.overs = s.power.overs ∧ t.power.overRun = 0))) ∧
  (∀ (s : State) (r : Nat) (x : Region), getRegion s r = some x →
      ((x.pacing = 0 ∨ riseGranted s (.pace r) = false) → exec (.pacingStep r) s = .next s) ∧
      (x.pacing ≠ 0 → riseGranted s (.pace r) = true → ∃ t, exec (.pacingStep r) s = .next t ∧
        getRegion t r = some { x with pacing := x.pacing - 1 } ∧ t.mem = s.mem ∧ t.ctxs = s.ctxs ∧
        (x.pacing = 1 → ∀ w ∈ t.power.waits, w.rise ≠ .pace r))) ∧
  (∀ (s : State),
      let old := s.power.ballast.filter fun b => b.began + 2000 ≤ now s
      ((s.power.running ≤ selectedCap s.power.mode.toNat s.power.cap.toNat ∨ old = []) → exec .ballastCut s = .next s) ∧
      (selectedCap s.power.mode.toNat s.power.cap.toNat < s.power.running → old ≠ [] → ∃ t, exec .ballastCut s = .next t ∧
        (∀ b, b ∈ t.power.ballast ↔ b ∈ s.power.ballast ∧ now s < b.began + 2000) ∧
        t.power.cut = s.power.cut + BitVec.ofNat 32 old.length ∧ t.mem = s.mem)) ∧
  (∀ (s : State) (r : StartReport),
      (s.chip.powered = true → exec (.coldStart r) s = .next s) ∧
      (s.chip.powered = false → ∃ t, exec (.coldStart r) s = .next t ∧ t.chip.powered = true ∧
        (∀ a, (∀ q ∈ testAreas s, a < q.1 ∨ q.1 + q.2 ≤ a) → Sparse.find? t.mem a = Sparse.find? s.mem a) ∧
        ((runSteps true r [1, 2, 3, 4, 5, 6] (coldBegin { s with chip := { s.chip with powered := true } })).2 = none →
          t.chip.ready = true ∧ t.chip.stepCode = 0x70 ∧ t.chip.halt = none ∧ t.chip.thermalMarker = false)) ∧
      (s.chip.powered = false → ∀ n cause,
        (runSteps true r [1, 2, 3, 4, 5, 6] (coldBegin { s with chip := { s.chip with powered := true } })).2 = some (n, cause) →
        ∃ t, exec (.coldStart r) s = .next t ∧ t.chip.ready = false ∧ t.chip.stepCode = startCode n cause ∧
          t.chip.bootCode = startCode n cause ∧ t.chip.retryStep = some n) ∧
      (∀ n, hostActs s = true → s.chip.retryStep = some n → exec (.startStepRetry r) s = .next (coldFrom s r n)) ∧
      (s.chip.retryStep = none → exec (.startStepRetry r) s = .next s) ∧
      (hostActs s = true → ∀ i ∈ ([.warmStart r, .functionLevelReset r] : List Instr),
        (runSteps false r [1, 2, 3, 4, 5, 6] { resetHost s with
            chip := { (resetHost s).chip with ready := false, stepCode := 0x10, bootThermal := (resetHost s).chip.thermalMarker }
            links := { (resetHost s).links with
              ports := (resetHost s).links.ports.map fun (q : Port) => { q with replays := 0 } } }).2 = none →
        ∃ t, exec i s = .next t ∧ t.scenes = [] ∧ t.regions = [] ∧ t.ctxs = [] ∧ t.sched.slates = [] ∧ t.chip.ready = true ∧
          (∀ n, (getCrew t n).en = false) ∧ t.timecode = s.timecode ∧ t.chip.fence = s.chip.fence ∧
          t.chip.index = s.chip.index ∧ t.chip.bankA = s.chip.bankA ∧ t.chip.bankB = s.chip.bankB) ∧
      (hostActs s = true → s.chip.trCmd ≠ 0 → exec (.restart r) s = .next { s with chip := { s.chip with trResult := 1 } }) ∧
      (hostActs s = true → s.chip.trCmd = 0 → ∃ t, exec (.restart r) s = .next t ∧ t.scenes = [] ∧ t.regions = [] ∧
        t.chip.trResult = 0 ∧ t.chip.trCount = s.chip.trCount + 1 ∧ t.chip.powered = true) ∧
      (∃ t, exec .powerRemoval s = .next t ∧ t.chip.powered = false ∧ t.chip.ready = false ∧ t.mem = [] ∧ t.scenes = [] ∧
        t.regions = [] ∧ t.ctxs = [] ∧ t.hostMem = s.hostMem ∧ t.chip.bankA = s.chip.bankA ∧ t.chip.bankB = s.chip.bankB ∧
        t.chip.activeB = s.chip.activeB ∧ t.chip.index = s.chip.index ∧ t.chip.fusedFence = s.chip.fusedFence ∧
        t.chip.minVersion = s.chip.minVersion ∧ t.chip.serial = s.chip.serial ∧ (∀ k, keyValue t k = none)))
end

