-- ==== Sys2Proof/Laws/Sparse.lean ====
section
/-! SUPPORT. Laws of sparse maps: a read after a write, and the canonical form. -/
namespace Sys2Proof.Machine.Sparse

variable {α : Type}

theorem get_insert_same (d : α) (m : List (Nat × α)) (a : Nat) (x : α) : get d (insert m a x) a = x := by
  induction m with
  | nil => simp [insert, get]
  | cons p rest ih =>
    obtain ⟨k, v⟩ := p
    simp only [insert]
    split
    · simp [get]
    · split
      · simp [get]
      · first
        | (simp_all [get]; done)
        | (simp_all [get]; omega)

theorem get_insert_other (d : α) (m : List (Nat × α)) (a b : Nat) (x : α) (h : b ≠ a) :
    get d (insert m a x) b = get d m b := by
  induction m with
  | nil => simp [insert, get, h]
  | cons p rest ih =>
    obtain ⟨k, v⟩ := p
    simp only [insert]
    split
    · subst_vars; simp [get, h]
    · split
      · simp only [get, h, if_false]
        split
        · have h1 : b ≠ k := by omega
          have h2 : b < k := by omega
          simp [h1, h2]
        · rfl
      · simp [get, ih]

theorem find_insert_same (m : List (Nat × α)) (a : Nat) (x : α) : find? (insert m a x) a = some x := by
  induction m with
  | nil => simp [insert, find?]
  | cons p rest ih =>
    obtain ⟨k, v⟩ := p
    simp only [insert]
    split
    · simp [find?]
    · split
      · simp [find?]
      · simp_all [find?]

theorem find_insert_other (m : List (Nat × α)) (a b : Nat) (x : α) (h : b ≠ a) :
    find? (insert m a x) b = find? m b := by
  induction m with
  | nil => simp [insert, find?, h]
  | cons p rest ih =>
    obtain ⟨k, v⟩ := p
    simp only [insert]
    split
    · subst_vars; simp [find?, h]
    · split
      · simp only [find?, h, if_false]
        split
        · have h1 : b ≠ k := by omega
          have h2 : b < k := by omega
          simp [h1, h2]
        · rfl
      · simp [find?, ih]

variable [DecidableEq α]

omit [DecidableEq α] in
/-- Of two writes to a key the later stands. -/
theorem insert_insert (m : List (Nat × α)) (a : Nat) (x y : α) : insert (insert m a x) a y = insert m a y := by
  induction m with
  | nil => simp [insert]
  | cons p rest ih =>
    obtain ⟨k, v⟩ := p
    simp only [insert]
    split
    · simp [insert]
    · split
      · simp [insert]
      · rename_i h1 h2; simp only [insert, if_neg h1, if_neg h2, ih]

theorem wfFrom_mono (d : α) {lo lo' : Nat} {m : List (Nat × α)} (h : wfFrom d lo m = true) (hl : lo' ≤ lo) :
    wfFrom d lo' m = true := by
  cases m with
  | nil => rfl
  | cons p rest =>
    obtain ⟨k, v⟩ := p
    simp only [wfFrom, Bool.and_eq_true, decide_eq_true_eq] at *
    exact ⟨⟨by omega, h.1.2⟩, h.2⟩

theorem wfFrom_insert (d : α) (lo : Nat) (m : List (Nat × α)) (a : Nat) (x : α) (h : wfFrom d lo m = true) (ha : lo ≤ a)
    (hx : x ≠ d) : wfFrom d lo (insert m a x) = true := by
  induction m generalizing lo with
  | nil => simp [insert, wfFrom, ha, hx]
  | cons p rest ih =>
    obtain ⟨k, v⟩ := p
    simp only [wfFrom, Bool.and_eq_true, decide_eq_true_eq] at h
    obtain ⟨⟨h1, h2⟩, h3⟩ := h
    simp only [insert]
    split
    · subst_vars; simp [wfFrom, ha, hx, h3]
    · split
      · simp [wfFrom, ha, hx, h2, h3]; omega
      · simp only [wfFrom, Bool.and_eq_true, decide_eq_true_eq]
        exact ⟨⟨h1, h2⟩, ih (k + 1) h3 (by omega)⟩

theorem wfFrom_filter (d : α) (lo : Nat) (m : List (Nat × α)) (f : Nat × α → Bool) (h : wfFrom d lo m = true) :
    wfFrom d lo (m.filter f) = true := by
  induction m generalizing lo with
  | nil => rfl
  | cons p rest ih =>
    obtain ⟨k, v⟩ := p
    simp only [wfFrom, Bool.and_eq_true, decide_eq_true_eq] at h
    obtain ⟨⟨h1, h2⟩, h3⟩ := h
    simp only [List.filter_cons]
    split
    · simp only [wfFrom, Bool.and_eq_true, decide_eq_true_eq]
      exact ⟨⟨h1, h2⟩, ih _ h3⟩
    · exact wfFrom_mono d (ih _ h3) (by omega)

/-- Removing a range keeps the canonical form. -/
theorem wf_clear (d : α) (m : List (Nat × α)) (lo hi : Nat) (h : wf d m = true) : wf d (clear m lo hi) = true :=
  wfFrom_filter d 0 m _ h

theorem wf_insert (d : α) (m : List (Nat × α)) (a : Nat) (x : α) (h : wf d m = true) (hx : x ≠ d) :
    wf d (insert m a x) = true := wfFrom_insert d 0 m a x h (Nat.zero_le _) hx

theorem wfFrom_erase (d : α) (lo : Nat) (m : List (Nat × α)) (a : Nat) (h : wfFrom d lo m = true) :
    wfFrom d lo (erase m a) = true := by
  induction m generalizing lo with
  | nil => rfl
  | cons p rest ih =>
    obtain ⟨k, v⟩ := p
    have h' := h
    simp only [wfFrom, Bool.and_eq_true, decide_eq_true_eq] at h
    obtain ⟨⟨h1, h2⟩, h3⟩ := h
    simp only [erase]
    split
    · exact wfFrom_mono d h3 (by omega)
    · split
      · exact h'
      · simp only [wfFrom, Bool.and_eq_true, decide_eq_true_eq]
        exact ⟨⟨h1, h2⟩, ih _ h3⟩

theorem wf_set (d : α) (m : List (Nat × α)) (a : Nat) (x : α) (h : wf d m = true) : wf d (set d m a x) = true := by
  unfold set
  split
  · exact wfFrom_erase d 0 m a h
  · exact wf_insert d m a x h ‹_›

end Sys2Proof.Machine.Sparse
end

