-- ==== Sys2Proof/Laws/Memory.lean ====
section
/-! SUPPORT. Laws of memory: bytes written read back, other bytes are unchanged, and every write keeps the canonical form. -/
namespace Sys2Proof.Machine

@[simp] theorem leBytes_length (n v : Nat) : (leBytes n v).length = n := by
  induction n generalizing v with
  | zero => rfl
  | succ n ih => simp [leBytes, ih]

/-! ## The canonical form -/

/-- Keys at or above `hi` are absent. -/
theorem wfFrom_append (lo mid : Nat) (m n : Memory) (hm : Sparse.wfFrom 0 lo m = true) (hk : ∀ p ∈ m, p.1 < mid)
    (hn : Sparse.wfFrom 0 mid n = true) (hl : lo ≤ mid) : Sparse.wfFrom 0 lo (m ++ n) = true := by
  induction m generalizing lo with
  | nil => exact Sparse.wfFrom_mono 0 hn hl
  | cons p rest ih =>
    obtain ⟨k, v⟩ := p
    simp only [Sparse.wfFrom, Bool.and_eq_true, decide_eq_true_eq, List.cons_append] at *
    have hk' : k < mid := hk (k, v) (by simp)
    exact ⟨hm.1, ih (k + 1) hm.2 (fun p hp => hk p (by simp [hp])) (by omega)⟩

theorem listedBytes_keys (a : Nat) (bs : List Byte) : ∀ p ∈ listedBytes a bs, a ≤ p.1 ∧ p.1 < a + bs.length := by
  induction bs generalizing a with
  | nil => simp [listedBytes]
  | cons b bs ih =>
    intro p hp
    simp only [listedBytes] at hp
    split at hp
    · have := ih (a + 1) p hp; simp; omega
    · rcases List.mem_cons.1 hp with rfl | hp
      · simp
      · have := ih (a + 1) p hp; simp; omega

theorem listedBytes_wf (a : Nat) (bs : List Byte) : Sparse.wfFrom 0 a (listedBytes a bs) = true := by
  induction bs generalizing a with
  | nil => rfl
  | cons b bs ih =>
    simp only [listedBytes]
    split
    · exact Sparse.wfFrom_mono 0 (ih (a + 1)) (by omega)
    · simp only [Sparse.wfFrom, Bool.and_eq_true, decide_eq_true_eq]
      exact ⟨⟨Nat.le_refl a, ‹_›⟩, ih (a + 1)⟩

theorem wfFrom_takeWhile (lo : Nat) (m : Memory) (f : Host.Cell → Bool) (h : Sparse.wfFrom 0 lo m = true) :
    Sparse.wfFrom 0 lo (m.takeWhile f) = true := by
  induction m generalizing lo with
  | nil => rfl
  | cons p rest ih =>
    obtain ⟨k, v⟩ := p
    simp only [Sparse.wfFrom, Bool.and_eq_true, decide_eq_true_eq] at h
    simp only [List.takeWhile_cons]
    split
    · simp only [Sparse.wfFrom, Bool.and_eq_true, decide_eq_true_eq]
      exact ⟨h.1, ih _ h.2⟩
    · rfl

theorem wfFrom_dropWhile (lo hi : Nat) (m : Memory) (h : Sparse.wfFrom 0 lo m = true) :
    Sparse.wfFrom 0 hi (m.dropWhile fun p => p.1 < hi) = true := by
  induction m generalizing lo with
  | nil => rfl
  | cons p rest ih =>
    obtain ⟨k, v⟩ := p
    have h' := h
    simp only [Sparse.wfFrom, Bool.and_eq_true, decide_eq_true_eq] at h
    simp only [List.dropWhile_cons]
    split
    · exact ih _ h.2
    · simp only [decide_eq_true_eq, Nat.not_lt] at *
      simp only [Sparse.wfFrom, Bool.and_eq_true, decide_eq_true_eq]
      exact ⟨⟨by assumption, h.1.2⟩, h.2⟩

theorem takeWhile_keys (a : Nat) (m : Memory) : ∀ p ∈ m.takeWhile (fun p => p.1 < a), p.1 < a := by
  induction m with
  | nil => simp
  | cons q rest ih =>
    intro p hp
    simp only [List.takeWhile_cons] at hp
    split at hp
    · rcases List.mem_cons.1 hp with rfl | hp
      · exact of_decide_eq_true ‹_›
      · exact ih p hp
    · simp at hp

/-- A write keeps the canonical form. -/
theorem putBytes_wf (m : Memory) (a : Nat) (bs : List Byte) (h : Memory.wf m = true) : Memory.wf (putBytes m a bs) = true := by
  unfold Memory.wf Sparse.wf putBytes at *
  refine wfFrom_append 0 (a + bs.length) _ _ (wfFrom_append 0 a _ _ (wfFrom_takeWhile 0 m _ h) ?_ (listedBytes_wf a bs) (by omega))
    ?_ (wfFrom_dropWhile 0 _ m h) (by omega)
  · exact takeWhile_keys a m
  · intro p hp
    rcases List.mem_append.1 hp with hp | hp
    · have := takeWhile_keys a m p hp
      omega
    · exact (listedBytes_keys a bs p hp).2

/-- Clearing a range keeps the canonical form. -/
theorem clearBytes_wf (m : Memory) (a n : Nat) (h : Memory.wf m = true) : Memory.wf (clearBytes m a n) = true :=
  Sparse.wf_clear 0 m a (a + n) h

/-! ## A read after a write -/

theorem get_lt (lo b : Nat) (m : Memory) (h : Sparse.wfFrom 0 lo m = true) (hb : b < lo) : Sparse.get 0 m b = 0 := by
  cases m with
  | nil => rfl
  | cons p rest =>
    obtain ⟨k, v⟩ := p
    simp only [Sparse.wfFrom, Bool.and_eq_true, decide_eq_true_eq] at h
    simp only [Sparse.get]
    rw [if_neg (by omega), if_pos (by omega)]

theorem readFrom_get (lo a n : Nat) (m : Memory) (h : Sparse.wfFrom 0 lo m = true) (ha : a ≤ lo) :
    readFrom m a n = (List.range n).map fun i => Sparse.get 0 m (a + i) := by
  induction n generalizing lo a m with
  | zero => cases m <;> rfl
  | succ n ih =>
    rw [List.range_succ_eq_map]
    cases m with
    | nil =>
      simp only [readFrom, List.map_cons, List.map_map]
      rw [ih (a + 1) (a + 1) [] rfl (by omega)]
      simp [Sparse.get, Function.comp_def]
    | cons p rest =>
      obtain ⟨k, v⟩ := p
      have h' := h
      simp only [Sparse.wfFrom, Bool.and_eq_true, decide_eq_true_eq] at h
      simp only [readFrom, List.map_cons, List.map_map]
      split
      · subst_vars
        rw [ih (k + 1) (k + 1) rest h.2 (by omega)]
        simp only [List.cons.injEq, Nat.add_zero, Sparse.get, if_true, true_and]
        refine List.map_congr_left fun i _ => ?_
        simp only [Function.comp]
        rw [if_neg (by omega), if_neg (by omega)]
        congr 1
        omega
      · rw [ih k (a + 1) ((k, v) :: rest) (by simp only [Sparse.wfFrom, Bool.and_eq_true, decide_eq_true_eq]; exact ⟨⟨Nat.le_refl k, h.1.2⟩, h.2⟩) (by omega)]
        simp only [List.cons.injEq, Nat.add_zero, Sparse.get]
        refine ⟨by rw [if_neg (by omega), if_pos (by omega)], List.map_congr_left fun i _ => ?_⟩
        simp only [Function.comp, Nat.succ_eq_add_one]
        rw [show a + 1 + i = a + (i + 1) by omega]

theorem get_dropWhile (lo a b : Nat) (m : Memory) (h : Sparse.wfFrom 0 lo m = true) (hb : a ≤ b) :
    Sparse.get 0 (m.dropWhile fun p => p.1 < a) b = Sparse.get 0 m b := by
  induction m generalizing lo with
  | nil => rfl
  | cons p rest ih =>
    obtain ⟨k, v⟩ := p
    simp only [Sparse.wfFrom, Bool.and_eq_true, decide_eq_true_eq] at h
    simp only [List.dropWhile_cons]
    split
    · have hk : k < a := of_decide_eq_true ‹_›
      rw [ih _ h.2]
      simp only [Sparse.get]
      rw [if_neg (by omega), if_neg (by omega)]
    · rfl

/-- Reading bytes is reading each byte. -/
theorem rawBytes_get (m : Memory) (a n : Nat) (h : Memory.wf m = true) :
    rawBytes m a n = (List.range n).map fun i => Sparse.get 0 m (a + i) := by
  unfold rawBytes
  rw [readFrom_get a a n _ (wfFrom_dropWhile 0 a m h) (Nat.le_refl a)]
  refine List.map_congr_left fun i _ => ?_
  exact get_dropWhile 0 a (a + i) m h (by omega)

theorem get_append (lo mid b : Nat) (m n : Memory) (hm : Sparse.wfFrom 0 lo m = true) (hk : ∀ p ∈ m, p.1 < mid)
    (hn : Sparse.wfFrom 0 mid n = true) :
    Sparse.get 0 (m ++ n) b = if b < mid then Sparse.get 0 m b else Sparse.get 0 n b := by
  induction m generalizing lo with
  | nil =>
    simp only [List.nil_append]
    split
    · rw [get_lt mid b n hn ‹_›]; rfl
    · rfl
  | cons p rest ih =>
    obtain ⟨k, v⟩ := p
    simp only [Sparse.wfFrom, Bool.and_eq_true, decide_eq_true_eq] at hm
    have hk' : k < mid := hk (k, v) (by simp)
    simp only [List.cons_append, Sparse.get]
    rw [ih (k + 1) hm.2 fun p hp => hk p (by simp [hp])]
    split
    · rw [if_pos (by omega)]
    · split
      · rw [if_pos (by omega)]
      · split <;> rfl

theorem get_listedBytes (a b : Nat) (bs : List Byte) :
    Sparse.get 0 (listedBytes a bs) b = if a ≤ b ∧ b < a + bs.length then bs.getD (b - a) 0 else 0 := by
  induction bs generalizing a with
  | nil => simp [listedBytes, Sparse.get]
  | cons x bs ih =>
    simp only [listedBytes]
    split
    · rw [ih]
      by_cases hb : b = a
      · subst_vars; rw [if_neg (by omega)]; simp
      · simp only [List.length_cons]
        by_cases h2 : a + 1 ≤ b ∧ b < a + 1 + bs.length
        · rw [if_pos h2, if_pos (by omega)]
          rw [show b - a = (b - (a + 1)) + 1 by omega]; rfl
        · rw [if_neg h2, if_neg (by omega)]
    · simp only [Sparse.get, List.length_cons]
      by_cases hb : b = a
      · subst_vars; simp
      · rw [if_neg hb]
        by_cases h2 : b < a
        · rw [if_pos h2, if_neg (by omega)]
        · rw [if_neg h2, ih]
          by_cases h3 : b < a + 1 + bs.length
          · rw [if_pos (by omega), if_pos (by omega)]
            rw [show b - a = (b - (a + 1)) + 1 by omega]; rfl
          · rw [if_neg (by omega), if_neg (by omega)]

theorem get_takeWhile (lo a b : Nat) (m : Memory) (h : Sparse.wfFrom 0 lo m = true) (hb : b < a) :
    Sparse.get 0 (m.takeWhile fun p => p.1 < a) b = Sparse.get 0 m b := by
  induction m generalizing lo with
  | nil => rfl
  | cons p rest ih =>
    obtain ⟨k, v⟩ := p
    simp only [Sparse.wfFrom, Bool.and_eq_true, decide_eq_true_eq] at h
    simp only [List.takeWhile_cons]
    split
    · simp only [Sparse.get, ih _ h.2]
    · have hn : ¬ decide (k < a) = true := ‹_›
      have hk : a ≤ k := by simpa using hn
      simp only [Sparse.get]
      rw [if_neg (by omega), if_pos (by omega)]

/-- What a byte reads as after a write. -/
theorem get_putBytes (m : Memory) (a b : Nat) (bs : List Byte) (h : Memory.wf m = true) :
    Sparse.get 0 (putBytes m a bs) b = if a ≤ b ∧ b < a + bs.length then bs.getD (b - a) 0 else Sparse.get 0 m b := by
  unfold Memory.wf Sparse.wf at h
  have hk1 : ∀ p ∈ m.takeWhile (fun p => p.1 < a), p.1 < a := takeWhile_keys a m
  have hm1 := wfFrom_append 0 a _ _ (wfFrom_takeWhile 0 m (fun p => p.1 < a) h) hk1 (listedBytes_wf a bs) (by omega)
  have hk2 : ∀ p ∈ m.takeWhile (fun p => p.1 < a) ++ listedBytes a bs, p.1 < a + bs.length := by
    intro p hp
    rcases List.mem_append.1 hp with hp | hp
    · have := hk1 p hp; omega
    · exact (listedBytes_keys a bs p hp).2
  unfold putBytes
  rw [get_append 0 (a + bs.length) b _ _ hm1 hk2 (wfFrom_dropWhile 0 _ m h),
    get_append 0 a b _ _ (wfFrom_takeWhile 0 m _ h) hk1 (listedBytes_wf a bs)]
  by_cases h1 : b < a
  · rw [if_pos (by omega), if_pos h1, if_neg (by omega), get_takeWhile 0 a b m h h1]
  · by_cases h2 : b < a + bs.length
    · rw [if_pos h2, if_neg h1, get_listedBytes, if_pos (by omega), if_pos (by omega)]
    · rw [if_neg h2, if_neg (by omega), get_dropWhile 0 _ b m h (by omega)]

/-- Bytes outside a write read as before. -/
theorem rawBytes_putBytes_other (m : Memory) (a n b k : Nat) (bs : List Byte) (h : Memory.wf m = true) (hn : bs.length = n)
    (hd : b + k ≤ a ∨ a + n ≤ b) : rawBytes (putBytes m a bs) b k = rawBytes m b k := by
  rw [rawBytes_get _ _ _ (putBytes_wf m a bs h), rawBytes_get _ _ _ h]
  refine List.map_congr_left fun i hi => ?_
  have hi := List.mem_range.1 hi
  rw [get_putBytes m a _ bs h, if_neg (by omega)]

/-- The bytes written read back. -/
theorem rawBytes_putBytes_same (m : Memory) (a : Nat) (bs : List Byte) (h : Memory.wf m = true) :
    rawBytes (putBytes m a bs) a bs.length = bs := by
  rw [rawBytes_get _ _ _ (putBytes_wf m a bs h)]
  refine List.ext_getElem (by simp) fun i h1 h2 => ?_
  have hi : i < bs.length := h2
  simp only [List.getElem_map, List.getElem_range]
  rw [get_putBytes m a _ bs h, if_pos (by omega), show a + i - a = i by omega]
  simp [hi]

/-! ## Private memory (08 R200) -/

/-- A word that has been written reads as it was written. -/
theorem privWord_insert_same (x : Ctx) (n : Nat) (v : Word) :
    privWord { x with priv := Sparse.insert x.priv n v } n = v := by
  simp [privWord, Sparse.find_insert_same]

/-- A write leaves every other word as it was. -/
theorem privWord_insert_other (x : Ctx) (n m : Nat) (v : Word) (h : m ≠ n) :
    privWord { x with priv := Sparse.insert x.priv n v } m = privWord x m := by
  simp [privWord, Sparse.find_insert_other _ _ _ _ h]

/-! ## Plain reads (11 R279) -/

/-- A crew without sync space reads what memory holds. -/
theorem plainBytes_of_none (s : State) (reader crew va : Nat) (bs : List Byte) (h : backingSize s crew = 0) :
    plainBytes s reader crew va bs = bs := by
  simp [plainBytes, h]

/-- A plain read has the length of what it read. -/
@[simp] theorem plainBytes_length (s : State) (reader crew va : Nat) (bs : List Byte) :
    (plainBytes s reader crew va bs).length = bs.length := by
  unfold plainBytes; split <;> simp

/-- Outside the backing area a plain read returns what memory holds. -/
theorem plainBytes_outside (s : State) (reader crew va : Nat) (bs : List Byte)
    (h : ∀ i < bs.length, inBacking s crew (va + i) = false) : plainBytes s reader crew va bs = bs := by
  unfold plainBytes
  split
  · rfl
  · apply List.ext_getElem <;> simp
    intro i hi
    simp [h i hi]

end Sys2Proof.Machine
end

