-- ==== Sys2Proof/Laws/Block.lean ====
section
/-! SUPPORT. Reading after a write within one 64-byte block, under the key of the write and under any other, and the form that
block writes keep. -/
namespace Sys2Proof.Machine

@[simp] theorem maskBytes_length (a b : List Byte) : (maskBytes a b).length = b.length := by simp [maskBytes]

theorem xtsBlocks_length (f : List Byte → List Byte) (n t : Nat) (bs : List Byte) : (xtsBlocks f n t bs).length = 16 * n := by
  induction n generalizing t bs with
  | zero => rfl
  | succ n ih => simp [xtsBlocks, ih]; omega

@[simp] theorem recipher_length (k1 k2 : BitVec 512) (blk : Nat) (bs : List Byte) : (recipher k1 k2 blk bs).length = 64 :=
  xtsBlocks_length _ _ _ _

theorem readBlockKey_other_length (s : State) (key k : BitVec 512) (b : Nat) (h : Sparse.find? s.ciph b = some k) (hk : ¬ k = key) :
    (readBlockKey s key b).length = 64 := by
  simp only [readBlockKey, h, if_neg hk, recipher_length]

/-- The bytes just written read back under their key. -/
theorem readInBlock_put_same (s : State) (key : BitVec 512) (pa : Nat) (bs : List Byte) (h : Memory.wf s.mem = true) :
    readInBlock (putInBlock s key pa bs) key pa bs.length = bs := by
  unfold putInBlock
  split
  · simp only [readInBlock, Sparse.find_insert_same, if_true]
    exact rawBytes_putBytes_same _ _ _ h
  · rename_i k hk
    split
    · rename_i e; simp only [readInBlock, hk, e, if_true]; exact rawBytes_putBytes_same _ _ _ h
    · simp only [readInBlock, Sparse.find_insert_same, if_true]
      exact rawBytes_putBytes_same _ _ _ (putBytes_wf _ _ _ h)

/-- Every other byte of the block reads under the write's key as it did. -/
theorem readInBlock_put_block (s : State) (key : BitVec 512) (pa a : Nat) (bs : List Byte) (h : Memory.wf s.mem = true)
    (hb : a / 64 = pa / 64) (ho : a < pa ∨ pa + bs.length ≤ a) :
    readInBlock (putInBlock s key pa bs) key a 1 = readInBlock s key a 1 := by
  have o : ∀ m : Memory, Memory.wf m = true → rawBytes (putBytes m pa bs) a 1 = rawBytes m a 1 := fun m hm =>
    rawBytes_putBytes_other m pa bs.length a 1 bs hm rfl (by omega)
  unfold putInBlock
  split
  · rename_i hk; simp only [readInBlock, hb, hk, Sparse.find_insert_same, if_true]; exact o _ h
  · rename_i k hk
    split
    · rename_i e; simp only [readInBlock, hb, hk, e, if_true]; exact o _ h
    · rename_i e
      simp only [readInBlock, hb, hk, Sparse.find_insert_same, if_true, if_neg e]
      have hl := readBlockKey_other_length s key k (pa / 64) hk e
      rw [o _ (putBytes_wf _ _ _ h), rawBytes_get _ _ _ (putBytes_wf _ _ _ h)]
      have hd : (readBlockKey s key (pa / 64)).drop (a % 64) =
          (readBlockKey s key (pa / 64))[a % 64]'(by omega) :: (readBlockKey s key (pa / 64)).drop (a % 64 + 1) :=
        List.drop_eq_getElem_cons (by omega)
      rw [hd]
      simp only [List.range_one, List.map_cons, List.map_nil, Nat.add_zero, List.take_succ_cons, List.take_zero]
      rw [get_putBytes _ _ _ _ h, if_pos (by rw [hl]; omega), show a - 64 * (pa / 64) = a % 64 by omega]
      simp only [List.getD_eq_getElem?_getD]
      rw [List.getElem?_eq_getElem (by omega)]; rfl

/-- Putting bytes in a block changes no byte outside its block, and no other block's key. -/
theorem putInBlock_outside (s : State) (key : BitVec 512) (pa : Nat) (bs : List Byte) (h : Memory.wf s.mem = true)
    (hn : pa % 64 + bs.length ≤ 64) (b n : Nat) (hb : b + n ≤ 64 * (pa / 64) ∨ 64 * (pa / 64) + 64 ≤ b) :
    rawBytes (putInBlock s key pa bs).mem b n = rawBytes s.mem b n := by
  unfold putInBlock
  split
  · exact rawBytes_putBytes_other _ _ bs.length _ _ bs h rfl (by omega)
  · rename_i k hk
    split
    · exact rawBytes_putBytes_other _ _ bs.length _ _ bs h rfl (by omega)
    · rename_i e
      have hl := readBlockKey_other_length s key k (pa / 64) hk e
      refine (rawBytes_putBytes_other _ _ bs.length _ _ bs (putBytes_wf _ _ _ h) rfl (by omega)).trans ?_
      exact rawBytes_putBytes_other _ _ 64 _ _ _ h hl (by omega)

theorem putInBlock_ciph (s : State) (key : BitVec 512) (pa : Nat) (bs : List Byte) (b : Nat) (hb : b ≠ pa / 64) :
    Sparse.find? (putInBlock s key pa bs).ciph b = Sparse.find? s.ciph b := by
  unfold putInBlock
  split
  · exact Sparse.find_insert_other _ _ _ _ hb
  · split
    · rfl
    · exact Sparse.find_insert_other _ _ _ _ hb

/-- Every byte of another block reads as it did, under every key. -/
theorem readInBlock_put_other (s : State) (key k' : BitVec 512) (pa a : Nat) (bs : List Byte) (h : Memory.wf s.mem = true)
    (hn : pa % 64 + bs.length ≤ 64) (hb : a / 64 ≠ pa / 64) :
    readInBlock (putInBlock s key pa bs) k' a 1 = readInBlock s k' a 1 := by
  simp only [readInBlock, readBlockKey, putInBlock_ciph s key pa bs _ hb]
  rw [putInBlock_outside s key pa bs h hn a 1 (by omega), putInBlock_outside s key pa bs h hn _ 64 (by omega)]

/-- Putting bytes in a block keeps the canonical form of memory. -/
theorem putInBlock_wf (s : State) (key : BitVec 512) (pa : Nat) (bs : List Byte) (h : Memory.wf s.mem = true) :
    Memory.wf (putInBlock s key pa bs).mem = true := by
  unfold putInBlock
  split
  · exact putBytes_wf _ _ _ h
  · split
    · exact putBytes_wf _ _ _ h
    · exact putBytes_wf _ _ _ (putBytes_wf _ _ _ h)

/-! ## The same of a block write, which also clears the block's corrected error -/

theorem readInBlock_write_same (s : State) (key : BitVec 512) (pa : Nat) (bs : List Byte) (h : Memory.wf s.mem = true) :
    readInBlock (writeInBlock s key pa bs) key pa bs.length = bs := readInBlock_put_same _ key pa bs h

theorem readInBlock_write_block (s : State) (key : BitVec 512) (pa a : Nat) (bs : List Byte) (h : Memory.wf s.mem = true)
    (hb : a / 64 = pa / 64) (ho : a < pa ∨ pa + bs.length ≤ a) :
    readInBlock (writeInBlock s key pa bs) key a 1 = readInBlock s key a 1 :=
  readInBlock_put_block { s with soft := s.soft.filter (· ≠ pa / 64) } key pa a bs h hb ho

theorem readInBlock_write_other (s : State) (key k' : BitVec 512) (pa a : Nat) (bs : List Byte) (h : Memory.wf s.mem = true)
    (hn : pa % 64 + bs.length ≤ 64) (hb : a / 64 ≠ pa / 64) :
    readInBlock (writeInBlock s key pa bs) k' a 1 = readInBlock s k' a 1 :=
  readInBlock_put_other { s with soft := s.soft.filter (· ≠ pa / 64) } key k' pa a bs h hn hb

theorem writeInBlock_wf (s : State) (key : BitVec 512) (pa : Nat) (bs : List Byte) (h : Memory.wf s.mem = true) :
    Memory.wf (writeInBlock s key pa bs).mem = true := putInBlock_wf _ key pa bs h

end Sys2Proof.Machine
end

