-- ==== Sys2Proof/Laws/Crypto.lean ====
section
/-! SUPPORT. What the hash-based signature check accepts: the signature made with a one-time key whose tree the public key names
(03 R67). -/
namespace Sys2Proof.Machine

theorem bigBytes_length (n v : Nat) : (bigBytes n v).length = n := by rw [bigBytes, List.length_reverse, leBytes_length]

theorem carryLanes_length : ∀ n t x y v (s : Sponge), (carryLanes n t x y v s).length = s.length
  | 0, _, _, _, _, _ => rfl
  | n + 1, t, x, y, v, s => by simp [carryLanes, carryLanes_length n]

theorem keccakRounds_length : ∀ n r (s : Sponge), (keccakRounds n r s).length = s.length
  | 0, _, _ => rfl
  | n + 1, r, s => by simp [keccakRounds, keccakRounds_length n, carryLanes_length, mixRows, mixColumnsIn]

theorem absorbAll_length (rate : Nat) : ∀ n (s : Sponge) m, (absorbAll rate n s m).length = s.length
  | 0, _, _ => rfl
  | n + 1, s, m => by
    rw [absorbAll]
    split <;> simp [absorbAll_length rate n, keccakF, keccakRounds_length, absorbBlock]

theorem shake256_length (m : List Byte) : (shake256 m).length = 32 := by
  have h : ∀ l : List Word, (l.flatMap fun v => leBytes 8 v.toNat).length = 8 * l.length := by
    intro l
    induction l with
    | nil => rfl
    | cons a l ih => rw [List.flatMap_cons, List.length_append, leBytes_length, ih, List.length_cons]; omega
  rw [shake256, xof, List.length_take, h, absorbAll_length]
  simp

theorem xmssHash_length (k : Nat) (key m : List Byte) : (xmssHash k key m).length = 32 := shake256_length _

theorem chainFrom_length (seed : List Byte) (leaf c : Nat) : ∀ n i x, x.length = 32 → (chainFrom seed leaf c n i x).length = 32
  | 0, _, _, h => h
  | n + 1, i, _, _ => chainFrom_length seed leaf c n (i + 1) _ (xmssHash_length _ _ _)

/-- A chain walked in two parts. -/
theorem chainFrom_add (seed : List Byte) (leaf c b : Nat) : ∀ a i x,
    chainFrom seed leaf c b (i + a) (chainFrom seed leaf c a i x) = chainFrom seed leaf c (a + b) i x
  | 0, i, x => by rw [Nat.zero_add]; rfl
  | a + 1, i, x => by
    rw [show a + 1 + b = (a + b) + 1 by omega, chainFrom, chainFrom, ← chainFrom_add seed leaf c b a (i + 1), show i + (a + 1) = i + 1 + a by omega]

theorem chainDigits_length (d : List Byte) : (chainDigits d).length = 2 * d.length + 3 := by
  have h : (d.flatMap fun b => [b.toNat / 16, b.toNat % 16]).length = 2 * d.length := by
    induction d with
    | nil => rfl
    | cons a l ih => rw [List.flatMap_cons, List.length_append, ih]; simp; omega
  simp [chainDigits, h]

theorem chainDigits_le (d : List Byte) : ∀ n ∈ chainDigits d, n ≤ 15 := by
  intro n h
  simp only [chainDigits, List.mem_append, List.mem_flatMap, List.mem_cons, List.not_mem_nil, or_false] at h
  rcases h with ⟨b, -, h⟩ | h
  · have := b.isLt
    omega
  · omega

/-- Pieces of 32 bytes, put together and cut again. -/
theorem pieces32_flatten (rest : List Byte) : ∀ l : List (List Byte), (∀ x ∈ l, x.length = 32) →
    pieces32 l.length (l.flatten ++ rest) = l
  | [], _ => rfl
  | x :: l, h => by
    have hx := h x (.head _)
    rw [List.length_cons, pieces32, List.flatten_cons, List.append_assoc, List.take_left' hx, List.drop_left' hx,
      pieces32_flatten rest l fun y hy => h y (.tail _ hy)]

theorem flatten_length_32 : ∀ l : List (List Byte), (∀ x ∈ l, x.length = 32) → l.flatten.length = 32 * l.length
  | [], _ => rfl
  | x :: l, h => by
    rw [List.flatten_cons, List.length_append, h x (.head _), flatten_length_32 l fun y hy => h y (.tail _ hy), List.length_cons]
    omega

theorem climb_length (seed : List Byte) (leaf : Nat) : ∀ (l : List (List Byte)) k x, x.length = 32 → (climb seed leaf k l x).length = 32
  | [], _, _, h => h
  | n :: l, k, x, _ => by
    rw [climb]
    apply climb_length seed leaf l
    split <;> exact xmssHash_length _ _ _

/-- Thirty-two bytes of zero: the secret of every chain, and every node beside the path, of the example key. -/
def zero32 : List Byte := List.replicate 32 0

/-- The leaf of the example key: the ends of its 67 chains, joined. -/
def exampleLeaf (seed : List Byte) : List Byte := joinChains seed 0 8 0 ((List.range 67).map fun i => chainFrom seed 0 i 15 0 zero32)
def exampleRoot (seed : List Byte) : List Byte := climb seed 0 0 (List.replicate 20 zero32) (exampleLeaf seed)
def examplePub (seed : List Byte) : List Byte := [0, 0, 0, 0x12] ++ exampleRoot seed ++ seed
/-- The chains of a signature, each at its digit. -/
def exampleChains (seed msg : List Byte) : List (List Byte) :=
  (chainDigits (xmssHash 2 (zero32 ++ exampleRoot seed ++ bigBytes 32 0) msg)).mapIdx fun i d => chainFrom seed 0 i d 0 zero32
/-- The example key's signature of a message, with index 0 and a random value of zero. -/
def exampleSig (seed msg : List Byte) : List Byte :=
  [0, 0, 0, 0] ++ zero32 ++ (exampleChains seed msg).flatten ++ (List.replicate 20 zero32).flatten

theorem exampleRoot_length (seed : List Byte) : (exampleRoot seed).length = 32 := by
  rw [exampleRoot, List.replicate_succ, climb]
  apply climb_length
  split <;> exact xmssHash_length _ _ _

theorem exampleChains_length (seed msg : List Byte) : (exampleChains seed msg).length = 67 := by
  rw [exampleChains, List.length_mapIdx, chainDigits_length, xmssHash_length]

theorem exampleChains_each (seed msg : List Byte) : ∀ x ∈ exampleChains seed msg, x.length = 32 := by
  intro x h
  rw [exampleChains, List.mem_mapIdx] at h
  obtain ⟨i, hi, rfl⟩ := h
  exact chainFrom_length _ _ _ _ _ _ (by rfl)

theorem examplePub_length {seed : List Byte} (h : seed.length = 32) : (examplePub seed).length = 68 := by
  simp [examplePub, exampleRoot_length, h]

theorem path_length : (List.replicate 20 zero32).flatten.length = 640 := by decide +kernel

theorem exampleSig_length (seed msg : List Byte) : (exampleSig seed msg).length = 2820 := by
  rw [exampleSig]
  rw [List.length_append, List.length_append, flatten_length_32 _ (exampleChains_each seed msg), exampleChains_length, path_length,
    show (([0, 0, 0, 0] : List Byte) ++ zero32).length = 36 from rfl]

/-- The check walks each chain to its end. -/
theorem exampleChains_ends (seed msg : List Byte) :
    ((exampleChains seed msg).zip (chainDigits (xmssHash 2 (zero32 ++ exampleRoot seed ++ bigBytes 32 0) msg))).mapIdx
      (fun i (p : List Byte × Nat) => chainFrom seed 0 i (15 - p.2) p.2 p.1) =
    (List.range 67).map fun i => chainFrom seed 0 i 15 0 zero32 := by
  apply List.ext_getElem
  · simp [exampleChains, chainDigits_length, xmssHash_length]
  · intro i h1 h2
    have hd := chainDigits_le (xmssHash 2 (zero32 ++ exampleRoot seed ++ bigBytes 32 0) msg)
    simp only [List.getElem_mapIdx, List.getElem_zip, List.getElem_map, List.getElem_range, exampleChains]
    generalize hk : (chainDigits (xmssHash 2 (zero32 ++ exampleRoot seed ++ bigBytes 32 0) msg))[i]'(by
      rw [chainDigits_length, xmssHash_length]; simpa using h2) = d
    have := hd d (hk ▸ List.getElem_mem _)
    have e := chainFrom_add seed 0 i (15 - d) d 0 zero32
    rw [Nat.zero_add] at e
    rw [e, show d + (15 - d) = 15 by omega]

/-- The check accepts the signature made with the example key. -/
theorem exampleSig_verifies {seed : List Byte} (h : seed.length = 32) (msg : List Byte) :
    xmssVerify (examplePub seed) msg (exampleSig seed msg) = true := by
  have hp := examplePub_length h
  have hs := exampleSig_length seed msg
  have hroot : ((examplePub seed).drop 4).take 32 = exampleRoot seed := by
    rw [examplePub, List.append_assoc, List.drop_left' (show ([0, 0, 0, 0x12] : List Byte).length = 4 from rfl), List.take_left' (exampleRoot_length seed)]
  have hseed : (examplePub seed).drop 36 = seed := by
    rw [examplePub, List.drop_left' (by simp [exampleRoot_length])]
  have h4 : (exampleSig seed msg).take 4 = [0, 0, 0, 0] := by simp [exampleSig, List.take_append]
  have hr : ((exampleSig seed msg).drop 4).take 32 = zero32 := by
    rw [exampleSig, List.append_assoc, List.append_assoc, List.drop_left' (show ([0, 0, 0, 0] : List Byte).length = 4 from rfl),
      List.take_left' (show zero32.length = 32 from rfl)]
  have h36 : (exampleSig seed msg).drop 36 = (exampleChains seed msg).flatten ++ (List.replicate 20 zero32).flatten := by
    rw [exampleSig, List.append_assoc, List.drop_left' (show (([0, 0, 0, 0] : List Byte) ++ zero32).length = 36 from rfl)]
  have hc : pieces32 67 ((exampleSig seed msg).drop 36) = exampleChains seed msg := by
    rw [h36]
    have := pieces32_flatten (List.replicate 20 zero32).flatten _ (exampleChains_each seed msg)
    rwa [exampleChains_length] at this
  have hn : pieces32 20 ((exampleSig seed msg).drop 2180) = List.replicate 20 zero32 := by
    rw [exampleSig, List.drop_left' (by
      rw [List.length_append, flatten_length_32 _ (exampleChains_each seed msg), exampleChains_length,
        show (([0, 0, 0, 0] : List Byte) ++ zero32).length = 36 from rfl])]
    have := pieces32_flatten [] (List.replicate 20 zero32) (by intro x hx; rw [List.eq_of_mem_replicate hx]; rfl)
    rwa [List.append_nil, List.length_replicate] at this
  have ht : (examplePub seed).take 4 = [0, 0, 0, 0x12] := by rw [examplePub, List.append_assoc,
    List.take_left' (show ([0, 0, 0, 0x12] : List Byte).length = 4 from rfl)]
  have hz : leNat ([0, 0, 0, 0] : List Byte).reverse = 0 := by decide
  simp only [xmssVerify, hp, hs, hroot, hseed, h4, hr, hc, hn, ht, hz, exampleChains_ends]
  simp [exampleRoot, exampleLeaf]

end Sys2Proof.Machine
end

