-- ==== Sys2Proof/Laws/State.lean ====
section
/-! SUPPORT. What the record updates leave alone: one lemma per field per update of the state and of a context. -/
namespace Sys2Proof.Machine

/-! ## setCtx -/

@[simp] theorem setCtx_agenda (s : State) (c : Nat) (x : Ctx) : (setCtx s c x).agenda = s.agenda := rfl
@[simp] theorem setCtx_flip (s : State) (c : Nat) (x : Ctx) : (setCtx s c x).flip = s.flip := rfl
@[simp] theorem setCtx_turn (s : State) (c : Nat) (x : Ctx) : (setCtx s c x).turn = s.turn := rfl
@[simp] theorem setCtx_cur (s : State) (c : Nat) (x : Ctx) : (setCtx s c x).cur = s.cur := rfl
@[simp] theorem setCtx_freeCtr (s : State) (c : Nat) (x : Ctx) : (setCtx s c x).freeCtr = s.freeCtr := rfl
@[simp] theorem setCtx_hostRead (s : State) (c : Nat) (x : Ctx) : (setCtx s c x).hostRead = s.hostRead := rfl
@[simp] theorem setCtx_hostWait (s : State) (c : Nat) (x : Ctx) : (setCtx s c x).hostWait = s.hostWait := rfl
@[simp] theorem setCtx_timecode (s : State) (c : Nat) (x : Ctx) : (setCtx s c x).timecode = s.timecode := rfl
@[simp] theorem setCtx_chip (s : State) (c : Nat) (x : Ctx) : (setCtx s c x).chip = s.chip := rfl
@[simp] theorem setCtx_keys (s : State) (c : Nat) (x : Ctx) : (setCtx s c x).keys = s.keys := rfl
@[simp] theorem setCtx_xl (s : State) (c : Nat) (x : Ctx) : (setCtx s c x).xl = s.xl := rfl
@[simp] theorem setCtx_links (s : State) (c : Nat) (x : Ctx) : (setCtx s c x).links = s.links := rfl
@[simp] theorem setCtx_power (s : State) (c : Nat) (x : Ctx) : (setCtx s c x).power = s.power := rfl
@[simp] theorem setCtx_devRing (s : State) (c : Nat) (x : Ctx) : (setCtx s c x).devRing = s.devRing := rfl
@[simp] theorem setCtx_msix (s : State) (c : Nat) (x : Ctx) : (setCtx s c x).msix = s.msix := rfl
@[simp] theorem setCtx_msixTable (s : State) (c : Nat) (x : Ctx) : (setCtx s c x).msixTable = s.msixTable := rfl
@[simp] theorem setCtx_msixPend (s : State) (c : Nat) (x : Ctx) : (setCtx s c x).msixPend = s.msixPend := rfl
@[simp] theorem setCtx_crews (s : State) (c : Nat) (x : Ctx) : (setCtx s c x).crews = s.crews := rfl
@[simp] theorem setCtx_mem (s : State) (c : Nat) (x : Ctx) : (setCtx s c x).mem = s.mem := rfl
@[simp] theorem setCtx_ciph (s : State) (c : Nat) (x : Ctx) : (setCtx s c x).ciph = s.ciph := rfl
@[simp] theorem setCtx_bad (s : State) (c : Nat) (x : Ctx) : (setCtx s c x).bad = s.bad := rfl
@[simp] theorem setCtx_soft (s : State) (c : Nat) (x : Ctx) : (setCtx s c x).soft = s.soft := rfl
@[simp] theorem setCtx_hostMem (s : State) (c : Nat) (x : Ctx) : (setCtx s c x).hostMem = s.hostMem := rfl
@[simp] theorem setCtx_sched (s : State) (c : Nat) (x : Ctx) : (setCtx s c x).sched = s.sched := rfl
@[simp] theorem setCtx_scenes (s : State) (c : Nat) (x : Ctx) : (setCtx s c x).scenes = s.scenes := rfl
@[simp] theorem setCtx_regions (s : State) (c : Nat) (x : Ctx) : (setCtx s c x).regions = s.regions := rfl
@[simp] theorem setCtx_stages (s : State) (c : Nat) (x : Ctx) : (setCtx s c x).stages = s.stages := rfl
@[simp] theorem setCtx_eng (s : State) (c : Nat) (x : Ctx) : (setCtx s c x).eng = s.eng := rfl
@[simp] theorem setCtx_images (s : State) (c : Nat) (x : Ctx) : (setCtx s c x).images = s.images := rfl
@[simp] theorem setCtx_ctxImages (s : State) (c : Nat) (x : Ctx) : (setCtx s c x).ctxImages = s.ctxImages := rfl
@[simp] theorem setCtx_heldRegions (s : State) (c : Nat) (x : Ctx) : (setCtx s c x).heldRegions = s.heldRegions := rfl

/-! ## modCtx -/

@[simp] theorem modCtx_agenda (s : State) (c : Nat) (f : Ctx → Ctx) : (modCtx s c f).agenda = s.agenda := rfl
@[simp] theorem modCtx_flip (s : State) (c : Nat) (f : Ctx → Ctx) : (modCtx s c f).flip = s.flip := rfl
@[simp] theorem modCtx_turn (s : State) (c : Nat) (f : Ctx → Ctx) : (modCtx s c f).turn = s.turn := rfl
@[simp] theorem modCtx_cur (s : State) (c : Nat) (f : Ctx → Ctx) : (modCtx s c f).cur = s.cur := rfl
@[simp] theorem modCtx_freeCtr (s : State) (c : Nat) (f : Ctx → Ctx) : (modCtx s c f).freeCtr = s.freeCtr := rfl
@[simp] theorem modCtx_hostRead (s : State) (c : Nat) (f : Ctx → Ctx) : (modCtx s c f).hostRead = s.hostRead := rfl
@[simp] theorem modCtx_hostWait (s : State) (c : Nat) (f : Ctx → Ctx) : (modCtx s c f).hostWait = s.hostWait := rfl
@[simp] theorem modCtx_timecode (s : State) (c : Nat) (f : Ctx → Ctx) : (modCtx s c f).timecode = s.timecode := rfl
@[simp] theorem modCtx_chip (s : State) (c : Nat) (f : Ctx → Ctx) : (modCtx s c f).chip = s.chip := rfl
@[simp] theorem modCtx_keys (s : State) (c : Nat) (f : Ctx → Ctx) : (modCtx s c f).keys = s.keys := rfl
@[simp] theorem modCtx_xl (s : State) (c : Nat) (f : Ctx → Ctx) : (modCtx s c f).xl = s.xl := rfl
@[simp] theorem modCtx_links (s : State) (c : Nat) (f : Ctx → Ctx) : (modCtx s c f).links = s.links := rfl
@[simp] theorem modCtx_power (s : State) (c : Nat) (f : Ctx → Ctx) : (modCtx s c f).power = s.power := rfl
@[simp] theorem modCtx_devRing (s : State) (c : Nat) (f : Ctx → Ctx) : (modCtx s c f).devRing = s.devRing := rfl
@[simp] theorem modCtx_msix (s : State) (c : Nat) (f : Ctx → Ctx) : (modCtx s c f).msix = s.msix := rfl
@[simp] theorem modCtx_msixTable (s : State) (c : Nat) (f : Ctx → Ctx) : (modCtx s c f).msixTable = s.msixTable := rfl
@[simp] theorem modCtx_msixPend (s : State) (c : Nat) (f : Ctx → Ctx) : (modCtx s c f).msixPend = s.msixPend := rfl
@[simp] theorem modCtx_crews (s : State) (c : Nat) (f : Ctx → Ctx) : (modCtx s c f).crews = s.crews := rfl
@[simp] theorem modCtx_mem (s : State) (c : Nat) (f : Ctx → Ctx) : (modCtx s c f).mem = s.mem := rfl
@[simp] theorem modCtx_ciph (s : State) (c : Nat) (f : Ctx → Ctx) : (modCtx s c f).ciph = s.ciph := rfl
@[simp] theorem modCtx_bad (s : State) (c : Nat) (f : Ctx → Ctx) : (modCtx s c f).bad = s.bad := rfl
@[simp] theorem modCtx_soft (s : State) (c : Nat) (f : Ctx → Ctx) : (modCtx s c f).soft = s.soft := rfl
@[simp] theorem modCtx_hostMem (s : State) (c : Nat) (f : Ctx → Ctx) : (modCtx s c f).hostMem = s.hostMem := rfl
@[simp] theorem modCtx_sched (s : State) (c : Nat) (f : Ctx → Ctx) : (modCtx s c f).sched = s.sched := rfl
@[simp] theorem modCtx_scenes (s : State) (c : Nat) (f : Ctx → Ctx) : (modCtx s c f).scenes = s.scenes := rfl
@[simp] theorem modCtx_regions (s : State) (c : Nat) (f : Ctx → Ctx) : (modCtx s c f).regions = s.regions := rfl
@[simp] theorem modCtx_stages (s : State) (c : Nat) (f : Ctx → Ctx) : (modCtx s c f).stages = s.stages := rfl
@[simp] theorem modCtx_eng (s : State) (c : Nat) (f : Ctx → Ctx) : (modCtx s c f).eng = s.eng := rfl
@[simp] theorem modCtx_images (s : State) (c : Nat) (f : Ctx → Ctx) : (modCtx s c f).images = s.images := rfl
@[simp] theorem modCtx_ctxImages (s : State) (c : Nat) (f : Ctx → Ctx) : (modCtx s c f).ctxImages = s.ctxImages := rfl
@[simp] theorem modCtx_heldRegions (s : State) (c : Nat) (f : Ctx → Ctx) : (modCtx s c f).heldRegions = s.heldRegions := rfl

/-! ## setStage -/

@[simp] theorem setStage_agenda (s : State) (i : Nat) (x : Stage) : (setStage s i x).agenda = s.agenda := rfl
@[simp] theorem setStage_flip (s : State) (i : Nat) (x : Stage) : (setStage s i x).flip = s.flip := rfl
@[simp] theorem setStage_turn (s : State) (i : Nat) (x : Stage) : (setStage s i x).turn = s.turn := rfl
@[simp] theorem setStage_cur (s : State) (i : Nat) (x : Stage) : (setStage s i x).cur = s.cur := rfl
@[simp] theorem setStage_freeCtr (s : State) (i : Nat) (x : Stage) : (setStage s i x).freeCtr = s.freeCtr := rfl
@[simp] theorem setStage_hostRead (s : State) (i : Nat) (x : Stage) : (setStage s i x).hostRead = s.hostRead := rfl
@[simp] theorem setStage_hostWait (s : State) (i : Nat) (x : Stage) : (setStage s i x).hostWait = s.hostWait := rfl
@[simp] theorem setStage_timecode (s : State) (i : Nat) (x : Stage) : (setStage s i x).timecode = s.timecode := rfl
@[simp] theorem setStage_chip (s : State) (i : Nat) (x : Stage) : (setStage s i x).chip = s.chip := rfl
@[simp] theorem setStage_keys (s : State) (i : Nat) (x : Stage) : (setStage s i x).keys = s.keys := rfl
@[simp] theorem setStage_xl (s : State) (i : Nat) (x : Stage) : (setStage s i x).xl = s.xl := rfl
@[simp] theorem setStage_links (s : State) (i : Nat) (x : Stage) : (setStage s i x).links = s.links := rfl
@[simp] theorem setStage_power (s : State) (i : Nat) (x : Stage) : (setStage s i x).power = s.power := rfl
@[simp] theorem setStage_devRing (s : State) (i : Nat) (x : Stage) : (setStage s i x).devRing = s.devRing := rfl
@[simp] theorem setStage_msix (s : State) (i : Nat) (x : Stage) : (setStage s i x).msix = s.msix := rfl
@[simp] theorem setStage_msixTable (s : State) (i : Nat) (x : Stage) : (setStage s i x).msixTable = s.msixTable := rfl
@[simp] theorem setStage_msixPend (s : State) (i : Nat) (x : Stage) : (setStage s i x).msixPend = s.msixPend := rfl
@[simp] theorem setStage_crews (s : State) (i : Nat) (x : Stage) : (setStage s i x).crews = s.crews := rfl
@[simp] theorem setStage_mem (s : State) (i : Nat) (x : Stage) : (setStage s i x).mem = s.mem := rfl
@[simp] theorem setStage_ciph (s : State) (i : Nat) (x : Stage) : (setStage s i x).ciph = s.ciph := rfl
@[simp] theorem setStage_bad (s : State) (i : Nat) (x : Stage) : (setStage s i x).bad = s.bad := rfl
@[simp] theorem setStage_soft (s : State) (i : Nat) (x : Stage) : (setStage s i x).soft = s.soft := rfl
@[simp] theorem setStage_hostMem (s : State) (i : Nat) (x : Stage) : (setStage s i x).hostMem = s.hostMem := rfl
@[simp] theorem setStage_sched (s : State) (i : Nat) (x : Stage) : (setStage s i x).sched = s.sched := rfl
@[simp] theorem setStage_scenes (s : State) (i : Nat) (x : Stage) : (setStage s i x).scenes = s.scenes := rfl
@[simp] theorem setStage_regions (s : State) (i : Nat) (x : Stage) : (setStage s i x).regions = s.regions := rfl
@[simp] theorem setStage_ctxs (s : State) (i : Nat) (x : Stage) : (setStage s i x).ctxs = s.ctxs := rfl
@[simp] theorem setStage_eng (s : State) (i : Nat) (x : Stage) : (setStage s i x).eng = s.eng := rfl
@[simp] theorem setStage_images (s : State) (i : Nat) (x : Stage) : (setStage s i x).images = s.images := rfl
@[simp] theorem setStage_ctxImages (s : State) (i : Nat) (x : Stage) : (setStage s i x).ctxImages = s.ctxImages := rfl
@[simp] theorem setStage_heldRegions (s : State) (i : Nat) (x : Stage) : (setStage s i x).heldRegions = s.heldRegions := rfl

/-! ## modStage -/

@[simp] theorem modStage_agenda (s : State) (i : Nat) (f : Stage → Stage) : (modStage s i f).agenda = s.agenda := rfl
@[simp] theorem modStage_flip (s : State) (i : Nat) (f : Stage → Stage) : (modStage s i f).flip = s.flip := rfl
@[simp] theorem modStage_turn (s : State) (i : Nat) (f : Stage → Stage) : (modStage s i f).turn = s.turn := rfl
@[simp] theorem modStage_cur (s : State) (i : Nat) (f : Stage → Stage) : (modStage s i f).cur = s.cur := rfl
@[simp] theorem modStage_freeCtr (s : State) (i : Nat) (f : Stage → Stage) : (modStage s i f).freeCtr = s.freeCtr := rfl
@[simp] theorem modStage_hostRead (s : State) (i : Nat) (f : Stage → Stage) : (modStage s i f).hostRead = s.hostRead := rfl
@[simp] theorem modStage_hostWait (s : State) (i : Nat) (f : Stage → Stage) : (modStage s i f).hostWait = s.hostWait := rfl
@[simp] theorem modStage_timecode (s : State) (i : Nat) (f : Stage → Stage) : (modStage s i f).timecode = s.timecode := rfl
@[simp] theorem modStage_chip (s : State) (i : Nat) (f : Stage → Stage) : (modStage s i f).chip = s.chip := rfl
@[simp] theorem modStage_keys (s : State) (i : Nat) (f : Stage → Stage) : (modStage s i f).keys = s.keys := rfl
@[simp] theorem modStage_xl (s : State) (i : Nat) (f : Stage → Stage) : (modStage s i f).xl = s.xl := rfl
@[simp] theorem modStage_links (s : State) (i : Nat) (f : Stage → Stage) : (modStage s i f).links = s.links := rfl
@[simp] theorem modStage_power (s : State) (i : Nat) (f : Stage → Stage) : (modStage s i f).power = s.power := rfl
@[simp] theorem modStage_devRing (s : State) (i : Nat) (f : Stage → Stage) : (modStage s i f).devRing = s.devRing := rfl
@[simp] theorem modStage_msix (s : State) (i : Nat) (f : Stage → Stage) : (modStage s i f).msix = s.msix := rfl
@[simp] theorem modStage_msixTable (s : State) (i : Nat) (f : Stage → Stage) : (modStage s i f).msixTable = s.msixTable := rfl
@[simp] theorem modStage_msixPend (s : State) (i : Nat) (f : Stage → Stage) : (modStage s i f).msixPend = s.msixPend := rfl
@[simp] theorem modStage_crews (s : State) (i : Nat) (f : Stage → Stage) : (modStage s i f).crews = s.crews := rfl
@[simp] theorem modStage_mem (s : State) (i : Nat) (f : Stage → Stage) : (modStage s i f).mem = s.mem := rfl
@[simp] theorem modStage_ciph (s : State) (i : Nat) (f : Stage → Stage) : (modStage s i f).ciph = s.ciph := rfl
@[simp] theorem modStage_bad (s : State) (i : Nat) (f : Stage → Stage) : (modStage s i f).bad = s.bad := rfl
@[simp] theorem modStage_soft (s : State) (i : Nat) (f : Stage → Stage) : (modStage s i f).soft = s.soft := rfl
@[simp] theorem modStage_hostMem (s : State) (i : Nat) (f : Stage → Stage) : (modStage s i f).hostMem = s.hostMem := rfl
@[simp] theorem modStage_sched (s : State) (i : Nat) (f : Stage → Stage) : (modStage s i f).sched = s.sched := rfl
@[simp] theorem modStage_scenes (s : State) (i : Nat) (f : Stage → Stage) : (modStage s i f).scenes = s.scenes := rfl
@[simp] theorem modStage_regions (s : State) (i : Nat) (f : Stage → Stage) : (modStage s i f).regions = s.regions := rfl
@[simp] theorem modStage_ctxs (s : State) (i : Nat) (f : Stage → Stage) : (modStage s i f).ctxs = s.ctxs := rfl
@[simp] theorem modStage_eng (s : State) (i : Nat) (f : Stage → Stage) : (modStage s i f).eng = s.eng := rfl
@[simp] theorem modStage_images (s : State) (i : Nat) (f : Stage → Stage) : (modStage s i f).images = s.images := rfl
@[simp] theorem modStage_ctxImages (s : State) (i : Nat) (f : Stage → Stage) : (modStage s i f).ctxImages = s.ctxImages := rfl
@[simp] theorem modStage_heldRegions (s : State) (i : Nat) (f : Stage → Stage) : (modStage s i f).heldRegions = s.heldRegions := rfl

/-! ## setRegion -/

@[simp] theorem setRegion_agenda (s : State) (r : Nat) (x : Region) : (setRegion s r x).agenda = s.agenda := rfl
@[simp] theorem setRegion_flip (s : State) (r : Nat) (x : Region) : (setRegion s r x).flip = s.flip := rfl
@[simp] theorem setRegion_turn (s : State) (r : Nat) (x : Region) : (setRegion s r x).turn = s.turn := rfl
@[simp] theorem setRegion_cur (s : State) (r : Nat) (x : Region) : (setRegion s r x).cur = s.cur := rfl
@[simp] theorem setRegion_freeCtr (s : State) (r : Nat) (x : Region) : (setRegion s r x).freeCtr = s.freeCtr := rfl
@[simp] theorem setRegion_hostRead (s : State) (r : Nat) (x : Region) : (setRegion s r x).hostRead = s.hostRead := rfl
@[simp] theorem setRegion_hostWait (s : State) (r : Nat) (x : Region) : (setRegion s r x).hostWait = s.hostWait := rfl
@[simp] theorem setRegion_timecode (s : State) (r : Nat) (x : Region) : (setRegion s r x).timecode = s.timecode := rfl
@[simp] theorem setRegion_chip (s : State) (r : Nat) (x : Region) : (setRegion s r x).chip = s.chip := rfl
@[simp] theorem setRegion_keys (s : State) (r : Nat) (x : Region) : (setRegion s r x).keys = s.keys := rfl
@[simp] theorem setRegion_xl (s : State) (r : Nat) (x : Region) : (setRegion s r x).xl = s.xl := rfl
@[simp] theorem setRegion_links (s : State) (r : Nat) (x : Region) : (setRegion s r x).links = s.links := rfl
@[simp] theorem setRegion_power (s : State) (r : Nat) (x : Region) : (setRegion s r x).power = s.power := rfl
@[simp] theorem setRegion_devRing (s : State) (r : Nat) (x : Region) : (setRegion s r x).devRing = s.devRing := rfl
@[simp] theorem setRegion_msix (s : State) (r : Nat) (x : Region) : (setRegion s r x).msix = s.msix := rfl
@[simp] theorem setRegion_msixTable (s : State) (r : Nat) (x : Region) : (setRegion s r x).msixTable = s.msixTable := rfl
@[simp] theorem setRegion_msixPend (s : State) (r : Nat) (x : Region) : (setRegion s r x).msixPend = s.msixPend := rfl
@[simp] theorem setRegion_crews (s : State) (r : Nat) (x : Region) : (setRegion s r x).crews = s.crews := rfl
@[simp] theorem setRegion_mem (s : State) (r : Nat) (x : Region) : (setRegion s r x).mem = s.mem := rfl
@[simp] theorem setRegion_ciph (s : State) (r : Nat) (x : Region) : (setRegion s r x).ciph = s.ciph := rfl
@[simp] theorem setRegion_bad (s : State) (r : Nat) (x : Region) : (setRegion s r x).bad = s.bad := rfl
@[simp] theorem setRegion_soft (s : State) (r : Nat) (x : Region) : (setRegion s r x).soft = s.soft := rfl
@[simp] theorem setRegion_hostMem (s : State) (r : Nat) (x : Region) : (setRegion s r x).hostMem = s.hostMem := rfl
@[simp] theorem setRegion_sched (s : State) (r : Nat) (x : Region) : (setRegion s r x).sched = s.sched := rfl
@[simp] theorem setRegion_scenes (s : State) (r : Nat) (x : Region) : (setRegion s r x).scenes = s.scenes := rfl
@[simp] theorem setRegion_ctxs (s : State) (r : Nat) (x : Region) : (setRegion s r x).ctxs = s.ctxs := rfl
@[simp] theorem setRegion_stages (s : State) (r : Nat) (x : Region) : (setRegion s r x).stages = s.stages := rfl
@[simp] theorem setRegion_eng (s : State) (r : Nat) (x : Region) : (setRegion s r x).eng = s.eng := rfl
@[simp] theorem setRegion_images (s : State) (r : Nat) (x : Region) : (setRegion s r x).images = s.images := rfl
@[simp] theorem setRegion_ctxImages (s : State) (r : Nat) (x : Region) : (setRegion s r x).ctxImages = s.ctxImages := rfl
@[simp] theorem setRegion_heldRegions (s : State) (r : Nat) (x : Region) : (setRegion s r x).heldRegions = s.heldRegions := rfl

/-! ## setScene -/

@[simp] theorem setScene_agenda (s : State) (k : Nat) (x : Scene) : (setScene s k x).agenda = s.agenda := rfl
@[simp] theorem setScene_flip (s : State) (k : Nat) (x : Scene) : (setScene s k x).flip = s.flip := rfl
@[simp] theorem setScene_turn (s : State) (k : Nat) (x : Scene) : (setScene s k x).turn = s.turn := rfl
@[simp] theorem setScene_cur (s : State) (k : Nat) (x : Scene) : (setScene s k x).cur = s.cur := rfl
@[simp] theorem setScene_freeCtr (s : State) (k : Nat) (x : Scene) : (setScene s k x).freeCtr = s.freeCtr := rfl
@[simp] theorem setScene_hostRead (s : State) (k : Nat) (x : Scene) : (setScene s k x).hostRead = s.hostRead := rfl
@[simp] theorem setScene_hostWait (s : State) (k : Nat) (x : Scene) : (setScene s k x).hostWait = s.hostWait := rfl
@[simp] theorem setScene_timecode (s : State) (k : Nat) (x : Scene) : (setScene s k x).timecode = s.timecode := rfl
@[simp] theorem setScene_chip (s : State) (k : Nat) (x : Scene) : (setScene s k x).chip = s.chip := rfl
@[simp] theorem setScene_keys (s : State) (k : Nat) (x : Scene) : (setScene s k x).keys = s.keys := rfl
@[simp] theorem setScene_xl (s : State) (k : Nat) (x : Scene) : (setScene s k x).xl = s.xl := rfl
@[simp] theorem setScene_links (s : State) (k : Nat) (x : Scene) : (setScene s k x).links = s.links := rfl
@[simp] theorem setScene_power (s : State) (k : Nat) (x : Scene) : (setScene s k x).power = s.power := rfl
@[simp] theorem setScene_devRing (s : State) (k : Nat) (x : Scene) : (setScene s k x).devRing = s.devRing := rfl
@[simp] theorem setScene_msix (s : State) (k : Nat) (x : Scene) : (setScene s k x).msix = s.msix := rfl
@[simp] theorem setScene_msixTable (s : State) (k : Nat) (x : Scene) : (setScene s k x).msixTable = s.msixTable := rfl
@[simp] theorem setScene_msixPend (s : State) (k : Nat) (x : Scene) : (setScene s k x).msixPend = s.msixPend := rfl
@[simp] theorem setScene_crews (s : State) (k : Nat) (x : Scene) : (setScene s k x).crews = s.crews := rfl
@[simp] theorem setScene_mem (s : State) (k : Nat) (x : Scene) : (setScene s k x).mem = s.mem := rfl
@[simp] theorem setScene_ciph (s : State) (k : Nat) (x : Scene) : (setScene s k x).ciph = s.ciph := rfl
@[simp] theorem setScene_bad (s : State) (k : Nat) (x : Scene) : (setScene s k x).bad = s.bad := rfl
@[simp] theorem setScene_soft (s : State) (k : Nat) (x : Scene) : (setScene s k x).soft = s.soft := rfl
@[simp] theorem setScene_hostMem (s : State) (k : Nat) (x : Scene) : (setScene s k x).hostMem = s.hostMem := rfl
@[simp] theorem setScene_sched (s : State) (k : Nat) (x : Scene) : (setScene s k x).sched = s.sched := rfl
@[simp] theorem setScene_regions (s : State) (k : Nat) (x : Scene) : (setScene s k x).regions = s.regions := rfl
@[simp] theorem setScene_ctxs (s : State) (k : Nat) (x : Scene) : (setScene s k x).ctxs = s.ctxs := rfl
@[simp] theorem setScene_stages (s : State) (k : Nat) (x : Scene) : (setScene s k x).stages = s.stages := rfl
@[simp] theorem setScene_eng (s : State) (k : Nat) (x : Scene) : (setScene s k x).eng = s.eng := rfl
@[simp] theorem setScene_images (s : State) (k : Nat) (x : Scene) : (setScene s k x).images = s.images := rfl
@[simp] theorem setScene_ctxImages (s : State) (k : Nat) (x : Scene) : (setScene s k x).ctxImages = s.ctxImages := rfl
@[simp] theorem setScene_heldRegions (s : State) (k : Nat) (x : Scene) : (setScene s k x).heldRegions = s.heldRegions := rfl

/-! ## setOp -/

@[simp] theorem setOp_agenda (s : State) (o : Nat) (x : Op) : (setOp s o x).agenda = s.agenda := rfl
@[simp] theorem setOp_flip (s : State) (o : Nat) (x : Op) : (setOp s o x).flip = s.flip := rfl
@[simp] theorem setOp_turn (s : State) (o : Nat) (x : Op) : (setOp s o x).turn = s.turn := rfl
@[simp] theorem setOp_cur (s : State) (o : Nat) (x : Op) : (setOp s o x).cur = s.cur := rfl
@[simp] theorem setOp_freeCtr (s : State) (o : Nat) (x : Op) : (setOp s o x).freeCtr = s.freeCtr := rfl
@[simp] theorem setOp_hostRead (s : State) (o : Nat) (x : Op) : (setOp s o x).hostRead = s.hostRead := rfl
@[simp] theorem setOp_hostWait (s : State) (o : Nat) (x : Op) : (setOp s o x).hostWait = s.hostWait := rfl
@[simp] theorem setOp_timecode (s : State) (o : Nat) (x : Op) : (setOp s o x).timecode = s.timecode := rfl
@[simp] theorem setOp_chip (s : State) (o : Nat) (x : Op) : (setOp s o x).chip = s.chip := rfl
@[simp] theorem setOp_keys (s : State) (o : Nat) (x : Op) : (setOp s o x).keys = s.keys := rfl
@[simp] theorem setOp_xl (s : State) (o : Nat) (x : Op) : (setOp s o x).xl = s.xl := rfl
@[simp] theorem setOp_links (s : State) (o : Nat) (x : Op) : (setOp s o x).links = s.links := rfl
@[simp] theorem setOp_power (s : State) (o : Nat) (x : Op) : (setOp s o x).power = s.power := rfl
@[simp] theorem setOp_devRing (s : State) (o : Nat) (x : Op) : (setOp s o x).devRing = s.devRing := rfl
@[simp] theorem setOp_msix (s : State) (o : Nat) (x : Op) : (setOp s o x).msix = s.msix := rfl
@[simp] theorem setOp_msixTable (s : State) (o : Nat) (x : Op) : (setOp s o x).msixTable = s.msixTable := rfl
@[simp] theorem setOp_msixPend (s : State) (o : Nat) (x : Op) : (setOp s o x).msixPend = s.msixPend := rfl
@[simp] theorem setOp_crews (s : State) (o : Nat) (x : Op) : (setOp s o x).crews = s.crews := rfl
@[simp] theorem setOp_mem (s : State) (o : Nat) (x : Op) : (setOp s o x).mem = s.mem := rfl
@[simp] theorem setOp_ciph (s : State) (o : Nat) (x : Op) : (setOp s o x).ciph = s.ciph := rfl
@[simp] theorem setOp_bad (s : State) (o : Nat) (x : Op) : (setOp s o x).bad = s.bad := rfl
@[simp] theorem setOp_soft (s : State) (o : Nat) (x : Op) : (setOp s o x).soft = s.soft := rfl
@[simp] theorem setOp_hostMem (s : State) (o : Nat) (x : Op) : (setOp s o x).hostMem = s.hostMem := rfl
@[simp] theorem setOp_sched (s : State) (o : Nat) (x : Op) : (setOp s o x).sched = s.sched := rfl
@[simp] theorem setOp_scenes (s : State) (o : Nat) (x : Op) : (setOp s o x).scenes = s.scenes := rfl
@[simp] theorem setOp_regions (s : State) (o : Nat) (x : Op) : (setOp s o x).regions = s.regions := rfl
@[simp] theorem setOp_ctxs (s : State) (o : Nat) (x : Op) : (setOp s o x).ctxs = s.ctxs := rfl
@[simp] theorem setOp_stages (s : State) (o : Nat) (x : Op) : (setOp s o x).stages = s.stages := rfl
@[simp] theorem setOp_images (s : State) (o : Nat) (x : Op) : (setOp s o x).images = s.images := rfl
@[simp] theorem setOp_ctxImages (s : State) (o : Nat) (x : Op) : (setOp s o x).ctxImages = s.ctxImages := rfl
@[simp] theorem setOp_heldRegions (s : State) (o : Nat) (x : Op) : (setOp s o x).heldRegions = s.heldRegions := rfl

/-! ## modCrew -/

@[simp] theorem modCrew_agenda (s : State) (c : Nat) (f : Crew → Crew) : (modCrew s c f).agenda = s.agenda := rfl
@[simp] theorem modCrew_flip (s : State) (c : Nat) (f : Crew → Crew) : (modCrew s c f).flip = s.flip := rfl
@[simp] theorem modCrew_turn (s : State) (c : Nat) (f : Crew → Crew) : (modCrew s c f).turn = s.turn := rfl
@[simp] theorem modCrew_cur (s : State) (c : Nat) (f : Crew → Crew) : (modCrew s c f).cur = s.cur := rfl
@[simp] theorem modCrew_freeCtr (s : State) (c : Nat) (f : Crew → Crew) : (modCrew s c f).freeCtr = s.freeCtr := rfl
@[simp] theorem modCrew_hostRead (s : State) (c : Nat) (f : Crew → Crew) : (modCrew s c f).hostRead = s.hostRead := rfl
@[simp] theorem modCrew_hostWait (s : State) (c : Nat) (f : Crew → Crew) : (modCrew s c f).hostWait = s.hostWait := rfl
@[simp] theorem modCrew_timecode (s : State) (c : Nat) (f : Crew → Crew) : (modCrew s c f).timecode = s.timecode := rfl
@[simp] theorem modCrew_chip (s : State) (c : Nat) (f : Crew → Crew) : (modCrew s c f).chip = s.chip := rfl
@[simp] theorem modCrew_keys (s : State) (c : Nat) (f : Crew → Crew) : (modCrew s c f).keys = s.keys := rfl
@[simp] theorem modCrew_xl (s : State) (c : Nat) (f : Crew → Crew) : (modCrew s c f).xl = s.xl := rfl
@[simp] theorem modCrew_links (s : State) (c : Nat) (f : Crew → Crew) : (modCrew s c f).links = s.links := rfl
@[simp] theorem modCrew_power (s : State) (c : Nat) (f : Crew → Crew) : (modCrew s c f).power = s.power := rfl
@[simp] theorem modCrew_devRing (s : State) (c : Nat) (f : Crew → Crew) : (modCrew s c f).devRing = s.devRing := rfl
@[simp] theorem modCrew_msix (s : State) (c : Nat) (f : Crew → Crew) : (modCrew s c f).msix = s.msix := rfl
@[simp] theorem modCrew_msixTable (s : State) (c : Nat) (f : Crew → Crew) : (modCrew s c f).msixTable = s.msixTable := rfl
@[simp] theorem modCrew_msixPend (s : State) (c : Nat) (f : Crew → Crew) : (modCrew s c f).msixPend = s.msixPend := rfl
@[simp] theorem modCrew_mem (s : State) (c : Nat) (f : Crew → Crew) : (modCrew s c f).mem = s.mem := rfl
@[simp] theorem modCrew_ciph (s : State) (c : Nat) (f : Crew → Crew) : (modCrew s c f).ciph = s.ciph := rfl
@[simp] theorem modCrew_bad (s : State) (c : Nat) (f : Crew → Crew) : (modCrew s c f).bad = s.bad := rfl
@[simp] theorem modCrew_soft (s : State) (c : Nat) (f : Crew → Crew) : (modCrew s c f).soft = s.soft := rfl
@[simp] theorem modCrew_hostMem (s : State) (c : Nat) (f : Crew → Crew) : (modCrew s c f).hostMem = s.hostMem := rfl
@[simp] theorem modCrew_sched (s : State) (c : Nat) (f : Crew → Crew) : (modCrew s c f).sched = s.sched := rfl
@[simp] theorem modCrew_scenes (s : State) (c : Nat) (f : Crew → Crew) : (modCrew s c f).scenes = s.scenes := rfl
@[simp] theorem modCrew_regions (s : State) (c : Nat) (f : Crew → Crew) : (modCrew s c f).regions = s.regions := rfl
@[simp] theorem modCrew_ctxs (s : State) (c : Nat) (f : Crew → Crew) : (modCrew s c f).ctxs = s.ctxs := rfl
@[simp] theorem modCrew_stages (s : State) (c : Nat) (f : Crew → Crew) : (modCrew s c f).stages = s.stages := rfl
@[simp] theorem modCrew_eng (s : State) (c : Nat) (f : Crew → Crew) : (modCrew s c f).eng = s.eng := rfl
@[simp] theorem modCrew_images (s : State) (c : Nat) (f : Crew → Crew) : (modCrew s c f).images = s.images := rfl
@[simp] theorem modCrew_ctxImages (s : State) (c : Nat) (f : Crew → Crew) : (modCrew s c f).ctxImages = s.ctxImages := rfl
@[simp] theorem modCrew_heldRegions (s : State) (c : Nat) (f : Crew → Crew) : (modCrew s c f).heldRegions = s.heldRegions := rfl

/-! ## modQueue -/

@[simp] theorem modQueue_agenda (s : State) (q : Nat) (f : Queue → Queue) : (modQueue s q f).agenda = s.agenda := rfl
@[simp] theorem modQueue_flip (s : State) (q : Nat) (f : Queue → Queue) : (modQueue s q f).flip = s.flip := rfl
@[simp] theorem modQueue_turn (s : State) (q : Nat) (f : Queue → Queue) : (modQueue s q f).turn = s.turn := rfl
@[simp] theorem modQueue_cur (s : State) (q : Nat) (f : Queue → Queue) : (modQueue s q f).cur = s.cur := rfl
@[simp] theorem modQueue_freeCtr (s : State) (q : Nat) (f : Queue → Queue) : (modQueue s q f).freeCtr = s.freeCtr := rfl
@[simp] theorem modQueue_hostRead (s : State) (q : Nat) (f : Queue → Queue) : (modQueue s q f).hostRead = s.hostRead := rfl
@[simp] theorem modQueue_hostWait (s : State) (q : Nat) (f : Queue → Queue) : (modQueue s q f).hostWait = s.hostWait := rfl
@[simp] theorem modQueue_timecode (s : State) (q : Nat) (f : Queue → Queue) : (modQueue s q f).timecode = s.timecode := rfl
@[simp] theorem modQueue_chip (s : State) (q : Nat) (f : Queue → Queue) : (modQueue s q f).chip = s.chip := rfl
@[simp] theorem modQueue_keys (s : State) (q : Nat) (f : Queue → Queue) : (modQueue s q f).keys = s.keys := rfl
@[simp] theorem modQueue_xl (s : State) (q : Nat) (f : Queue → Queue) : (modQueue s q f).xl = s.xl := rfl
@[simp] theorem modQueue_links (s : State) (q : Nat) (f : Queue → Queue) : (modQueue s q f).links = s.links := rfl
@[simp] theorem modQueue_power (s : State) (q : Nat) (f : Queue → Queue) : (modQueue s q f).power = s.power := rfl
@[simp] theorem modQueue_devRing (s : State) (q : Nat) (f : Queue → Queue) : (modQueue s q f).devRing = s.devRing := rfl
@[simp] theorem modQueue_msix (s : State) (q : Nat) (f : Queue → Queue) : (modQueue s q f).msix = s.msix := rfl
@[simp] theorem modQueue_msixTable (s : State) (q : Nat) (f : Queue → Queue) : (modQueue s q f).msixTable = s.msixTable := rfl
@[simp] theorem modQueue_msixPend (s : State) (q : Nat) (f : Queue → Queue) : (modQueue s q f).msixPend = s.msixPend := rfl
@[simp] theorem modQueue_crews (s : State) (q : Nat) (f : Queue → Queue) : (modQueue s q f).crews = s.crews := rfl
@[simp] theorem modQueue_mem (s : State) (q : Nat) (f : Queue → Queue) : (modQueue s q f).mem = s.mem := rfl
@[simp] theorem modQueue_ciph (s : State) (q : Nat) (f : Queue → Queue) : (modQueue s q f).ciph = s.ciph := rfl
@[simp] theorem modQueue_bad (s : State) (q : Nat) (f : Queue → Queue) : (modQueue s q f).bad = s.bad := rfl
@[simp] theorem modQueue_soft (s : State) (q : Nat) (f : Queue → Queue) : (modQueue s q f).soft = s.soft := rfl
@[simp] theorem modQueue_hostMem (s : State) (q : Nat) (f : Queue → Queue) : (modQueue s q f).hostMem = s.hostMem := rfl
@[simp] theorem modQueue_scenes (s : State) (q : Nat) (f : Queue → Queue) : (modQueue s q f).scenes = s.scenes := rfl
@[simp] theorem modQueue_regions (s : State) (q : Nat) (f : Queue → Queue) : (modQueue s q f).regions = s.regions := rfl
@[simp] theorem modQueue_ctxs (s : State) (q : Nat) (f : Queue → Queue) : (modQueue s q f).ctxs = s.ctxs := rfl
@[simp] theorem modQueue_stages (s : State) (q : Nat) (f : Queue → Queue) : (modQueue s q f).stages = s.stages := rfl
@[simp] theorem modQueue_eng (s : State) (q : Nat) (f : Queue → Queue) : (modQueue s q f).eng = s.eng := rfl
@[simp] theorem modQueue_images (s : State) (q : Nat) (f : Queue → Queue) : (modQueue s q f).images = s.images := rfl
@[simp] theorem modQueue_ctxImages (s : State) (q : Nat) (f : Queue → Queue) : (modQueue s q f).ctxImages = s.ctxImages := rfl
@[simp] theorem modQueue_heldRegions (s : State) (q : Nat) (f : Queue → Queue) : (modQueue s q f).heldRegions = s.heldRegions := rfl

/-! ## modRegion -/

@[simp] theorem modRegion_agenda (s : State) (r : Nat) (f : Region → Region) : (modRegion s r f).agenda = s.agenda := by unfold modRegion; split <;> rfl
@[simp] theorem modRegion_flip (s : State) (r : Nat) (f : Region → Region) : (modRegion s r f).flip = s.flip := by unfold modRegion; split <;> rfl
@[simp] theorem modRegion_turn (s : State) (r : Nat) (f : Region → Region) : (modRegion s r f).turn = s.turn := by unfold modRegion; split <;> rfl
@[simp] theorem modRegion_cur (s : State) (r : Nat) (f : Region → Region) : (modRegion s r f).cur = s.cur := by unfold modRegion; split <;> rfl
@[simp] theorem modRegion_freeCtr (s : State) (r : Nat) (f : Region → Region) : (modRegion s r f).freeCtr = s.freeCtr := by unfold modRegion; split <;> rfl
@[simp] theorem modRegion_hostRead (s : State) (r : Nat) (f : Region → Region) : (modRegion s r f).hostRead = s.hostRead := by unfold modRegion; split <;> rfl
@[simp] theorem modRegion_hostWait (s : State) (r : Nat) (f : Region → Region) : (modRegion s r f).hostWait = s.hostWait := by unfold modRegion; split <;> rfl
@[simp] theorem modRegion_timecode (s : State) (r : Nat) (f : Region → Region) : (modRegion s r f).timecode = s.timecode := by unfold modRegion; split <;> rfl
@[simp] theorem modRegion_chip (s : State) (r : Nat) (f : Region → Region) : (modRegion s r f).chip = s.chip := by unfold modRegion; split <;> rfl
@[simp] theorem modRegion_keys (s : State) (r : Nat) (f : Region → Region) : (modRegion s r f).keys = s.keys := by unfold modRegion; split <;> rfl
@[simp] theorem modRegion_xl (s : State) (r : Nat) (f : Region → Region) : (modRegion s r f).xl = s.xl := by unfold modRegion; split <;> rfl
@[simp] theorem modRegion_links (s : State) (r : Nat) (f : Region → Region) : (modRegion s r f).links = s.links := by unfold modRegion; split <;> rfl
@[simp] theorem modRegion_power (s : State) (r : Nat) (f : Region → Region) : (modRegion s r f).power = s.power := by unfold modRegion; split <;> rfl
@[simp] theorem modRegion_devRing (s : State) (r : Nat) (f : Region → Region) : (modRegion s r f).devRing = s.devRing := by unfold modRegion; split <;> rfl
@[simp] theorem modRegion_msix (s : State) (r : Nat) (f : Region → Region) : (modRegion s r f).msix = s.msix := by unfold modRegion; split <;> rfl
@[simp] theorem modRegion_msixTable (s : State) (r : Nat) (f : Region → Region) : (modRegion s r f).msixTable = s.msixTable := by unfold modRegion; split <;> rfl
@[simp] theorem modRegion_msixPend (s : State) (r : Nat) (f : Region → Region) : (modRegion s r f).msixPend = s.msixPend := by unfold modRegion; split <;> rfl
@[simp] theorem modRegion_crews (s : State) (r : Nat) (f : Region → Region) : (modRegion s r f).crews = s.crews := by unfold modRegion; split <;> rfl
@[simp] theorem modRegion_mem (s : State) (r : Nat) (f : Region → Region) : (modRegion s r f).mem = s.mem := by unfold modRegion; split <;> rfl
@[simp] theorem modRegion_ciph (s : State) (r : Nat) (f : Region → Region) : (modRegion s r f).ciph = s.ciph := by unfold modRegion; split <;> rfl
@[simp] theorem modRegion_bad (s : State) (r : Nat) (f : Region → Region) : (modRegion s r f).bad = s.bad := by unfold modRegion; split <;> rfl
@[simp] theorem modRegion_soft (s : State) (r : Nat) (f : Region → Region) : (modRegion s r f).soft = s.soft := by unfold modRegion; split <;> rfl
@[simp] theorem modRegion_hostMem (s : State) (r : Nat) (f : Region → Region) : (modRegion s r f).hostMem = s.hostMem := by unfold modRegion; split <;> rfl
@[simp] theorem modRegion_sched (s : State) (r : Nat) (f : Region → Region) : (modRegion s r f).sched = s.sched := by unfold modRegion; split <;> rfl
@[simp] theorem modRegion_scenes (s : State) (r : Nat) (f : Region → Region) : (modRegion s r f).scenes = s.scenes := by unfold modRegion; split <;> rfl
@[simp] theorem modRegion_ctxs (s : State) (r : Nat) (f : Region → Region) : (modRegion s r f).ctxs = s.ctxs := by unfold modRegion; split <;> rfl
@[simp] theorem modRegion_stages (s : State) (r : Nat) (f : Region → Region) : (modRegion s r f).stages = s.stages := by unfold modRegion; split <;> rfl
@[simp] theorem modRegion_eng (s : State) (r : Nat) (f : Region → Region) : (modRegion s r f).eng = s.eng := by unfold modRegion; split <;> rfl
@[simp] theorem modRegion_images (s : State) (r : Nat) (f : Region → Region) : (modRegion s r f).images = s.images := by unfold modRegion; split <;> rfl
@[simp] theorem modRegion_ctxImages (s : State) (r : Nat) (f : Region → Region) : (modRegion s r f).ctxImages = s.ctxImages := by unfold modRegion; split <;> rfl
@[simp] theorem modRegion_heldRegions (s : State) (r : Nat) (f : Region → Region) : (modRegion s r f).heldRegions = s.heldRegions := by unfold modRegion; split <;> rfl

/-! ## modScene -/

@[simp] theorem modScene_agenda (s : State) (k : Nat) (f : Scene → Scene) : (modScene s k f).agenda = s.agenda := by unfold modScene; split <;> rfl
@[simp] theorem modScene_flip (s : State) (k : Nat) (f : Scene → Scene) : (modScene s k f).flip = s.flip := by unfold modScene; split <;> rfl
@[simp] theorem modScene_turn (s : State) (k : Nat) (f : Scene → Scene) : (modScene s k f).turn = s.turn := by unfold modScene; split <;> rfl
@[simp] theorem modScene_cur (s : State) (k : Nat) (f : Scene → Scene) : (modScene s k f).cur = s.cur := by unfold modScene; split <;> rfl
@[simp] theorem modScene_freeCtr (s : State) (k : Nat) (f : Scene → Scene) : (modScene s k f).freeCtr = s.freeCtr := by unfold modScene; split <;> rfl
@[simp] theorem modScene_hostRead (s : State) (k : Nat) (f : Scene → Scene) : (modScene s k f).hostRead = s.hostRead := by unfold modScene; split <;> rfl
@[simp] theorem modScene_hostWait (s : State) (k : Nat) (f : Scene → Scene) : (modScene s k f).hostWait = s.hostWait := by unfold modScene; split <;> rfl
@[simp] theorem modScene_timecode (s : State) (k : Nat) (f : Scene → Scene) : (modScene s k f).timecode = s.timecode := by unfold modScene; split <;> rfl
@[simp] theorem modScene_chip (s : State) (k : Nat) (f : Scene → Scene) : (modScene s k f).chip = s.chip := by unfold modScene; split <;> rfl
@[simp] theorem modScene_keys (s : State) (k : Nat) (f : Scene → Scene) : (modScene s k f).keys = s.keys := by unfold modScene; split <;> rfl
@[simp] theorem modScene_xl (s : State) (k : Nat) (f : Scene → Scene) : (modScene s k f).xl = s.xl := by unfold modScene; split <;> rfl
@[simp] theorem modScene_links (s : State) (k : Nat) (f : Scene → Scene) : (modScene s k f).links = s.links := by unfold modScene; split <;> rfl
@[simp] theorem modScene_power (s : State) (k : Nat) (f : Scene → Scene) : (modScene s k f).power = s.power := by unfold modScene; split <;> rfl
@[simp] theorem modScene_devRing (s : State) (k : Nat) (f : Scene → Scene) : (modScene s k f).devRing = s.devRing := by unfold modScene; split <;> rfl
@[simp] theorem modScene_msix (s : State) (k : Nat) (f : Scene → Scene) : (modScene s k f).msix = s.msix := by unfold modScene; split <;> rfl
@[simp] theorem modScene_msixTable (s : State) (k : Nat) (f : Scene → Scene) : (modScene s k f).msixTable = s.msixTable := by unfold modScene; split <;> rfl
@[simp] theorem modScene_msixPend (s : State) (k : Nat) (f : Scene → Scene) : (modScene s k f).msixPend = s.msixPend := by unfold modScene; split <;> rfl
@[simp] theorem modScene_crews (s : State) (k : Nat) (f : Scene → Scene) : (modScene s k f).crews = s.crews := by unfold modScene; split <;> rfl
@[simp] theorem modScene_mem (s : State) (k : Nat) (f : Scene → Scene) : (modScene s k f).mem = s.mem := by unfold modScene; split <;> rfl
@[simp] theorem modScene_ciph (s : State) (k : Nat) (f : Scene → Scene) : (modScene s k f).ciph = s.ciph := by unfold modScene; split <;> rfl
@[simp] theorem modScene_bad (s : State) (k : Nat) (f : Scene → Scene) : (modScene s k f).bad = s.bad := by unfold modScene; split <;> rfl
@[simp] theorem modScene_soft (s : State) (k : Nat) (f : Scene → Scene) : (modScene s k f).soft = s.soft := by unfold modScene; split <;> rfl
@[simp] theorem modScene_hostMem (s : State) (k : Nat) (f : Scene → Scene) : (modScene s k f).hostMem = s.hostMem := by unfold modScene; split <;> rfl
@[simp] theorem modScene_sched (s : State) (k : Nat) (f : Scene → Scene) : (modScene s k f).sched = s.sched := by unfold modScene; split <;> rfl
@[simp] theorem modScene_regions (s : State) (k : Nat) (f : Scene → Scene) : (modScene s k f).regions = s.regions := by unfold modScene; split <;> rfl
@[simp] theorem modScene_ctxs (s : State) (k : Nat) (f : Scene → Scene) : (modScene s k f).ctxs = s.ctxs := by unfold modScene; split <;> rfl
@[simp] theorem modScene_stages (s : State) (k : Nat) (f : Scene → Scene) : (modScene s k f).stages = s.stages := by unfold modScene; split <;> rfl
@[simp] theorem modScene_eng (s : State) (k : Nat) (f : Scene → Scene) : (modScene s k f).eng = s.eng := by unfold modScene; split <;> rfl
@[simp] theorem modScene_images (s : State) (k : Nat) (f : Scene → Scene) : (modScene s k f).images = s.images := by unfold modScene; split <;> rfl
@[simp] theorem modScene_ctxImages (s : State) (k : Nat) (f : Scene → Scene) : (modScene s k f).ctxImages = s.ctxImages := by unfold modScene; split <;> rfl
@[simp] theorem modScene_heldRegions (s : State) (k : Nat) (f : Scene → Scene) : (modScene s k f).heldRegions = s.heldRegions := by unfold modScene; split <;> rfl

/-! ## modOp -/

@[simp] theorem modOp_agenda (s : State) (o : Nat) (f : Op → Op) : (modOp s o f).agenda = s.agenda := by unfold modOp; split <;> rfl
@[simp] theorem modOp_flip (s : State) (o : Nat) (f : Op → Op) : (modOp s o f).flip = s.flip := by unfold modOp; split <;> rfl
@[simp] theorem modOp_turn (s : State) (o : Nat) (f : Op → Op) : (modOp s o f).turn = s.turn := by unfold modOp; split <;> rfl
@[simp] theorem modOp_cur (s : State) (o : Nat) (f : Op → Op) : (modOp s o f).cur = s.cur := by unfold modOp; split <;> rfl
@[simp] theorem modOp_freeCtr (s : State) (o : Nat) (f : Op → Op) : (modOp s o f).freeCtr = s.freeCtr := by unfold modOp; split <;> rfl
@[simp] theorem modOp_hostRead (s : State) (o : Nat) (f : Op → Op) : (modOp s o f).hostRead = s.hostRead := by unfold modOp; split <;> rfl
@[simp] theorem modOp_hostWait (s : State) (o : Nat) (f : Op → Op) : (modOp s o f).hostWait = s.hostWait := by unfold modOp; split <;> rfl
@[simp] theorem modOp_timecode (s : State) (o : Nat) (f : Op → Op) : (modOp s o f).timecode = s.timecode := by unfold modOp; split <;> rfl
@[simp] theorem modOp_chip (s : State) (o : Nat) (f : Op → Op) : (modOp s o f).chip = s.chip := by unfold modOp; split <;> rfl
@[simp] theorem modOp_keys (s : State) (o : Nat) (f : Op → Op) : (modOp s o f).keys = s.keys := by unfold modOp; split <;> rfl
@[simp] theorem modOp_xl (s : State) (o : Nat) (f : Op → Op) : (modOp s o f).xl = s.xl := by unfold modOp; split <;> rfl
@[simp] theorem modOp_links (s : State) (o : Nat) (f : Op → Op) : (modOp s o f).links = s.links := by unfold modOp; split <;> rfl
@[simp] theorem modOp_power (s : State) (o : Nat) (f : Op → Op) : (modOp s o f).power = s.power := by unfold modOp; split <;> rfl
@[simp] theorem modOp_devRing (s : State) (o : Nat) (f : Op → Op) : (modOp s o f).devRing = s.devRing := by unfold modOp; split <;> rfl
@[simp] theorem modOp_msix (s : State) (o : Nat) (f : Op → Op) : (modOp s o f).msix = s.msix := by unfold modOp; split <;> rfl
@[simp] theorem modOp_msixTable (s : State) (o : Nat) (f : Op → Op) : (modOp s o f).msixTable = s.msixTable := by unfold modOp; split <;> rfl
@[simp] theorem modOp_msixPend (s : State) (o : Nat) (f : Op → Op) : (modOp s o f).msixPend = s.msixPend := by unfold modOp; split <;> rfl
@[simp] theorem modOp_crews (s : State) (o : Nat) (f : Op → Op) : (modOp s o f).crews = s.crews := by unfold modOp; split <;> rfl
@[simp] theorem modOp_mem (s : State) (o : Nat) (f : Op → Op) : (modOp s o f).mem = s.mem := by unfold modOp; split <;> rfl
@[simp] theorem modOp_ciph (s : State) (o : Nat) (f : Op → Op) : (modOp s o f).ciph = s.ciph := by unfold modOp; split <;> rfl
@[simp] theorem modOp_bad (s : State) (o : Nat) (f : Op → Op) : (modOp s o f).bad = s.bad := by unfold modOp; split <;> rfl
@[simp] theorem modOp_soft (s : State) (o : Nat) (f : Op → Op) : (modOp s o f).soft = s.soft := by unfold modOp; split <;> rfl
@[simp] theorem modOp_hostMem (s : State) (o : Nat) (f : Op → Op) : (modOp s o f).hostMem = s.hostMem := by unfold modOp; split <;> rfl
@[simp] theorem modOp_sched (s : State) (o : Nat) (f : Op → Op) : (modOp s o f).sched = s.sched := by unfold modOp; split <;> rfl
@[simp] theorem modOp_scenes (s : State) (o : Nat) (f : Op → Op) : (modOp s o f).scenes = s.scenes := by unfold modOp; split <;> rfl
@[simp] theorem modOp_regions (s : State) (o : Nat) (f : Op → Op) : (modOp s o f).regions = s.regions := by unfold modOp; split <;> rfl
@[simp] theorem modOp_ctxs (s : State) (o : Nat) (f : Op → Op) : (modOp s o f).ctxs = s.ctxs := by unfold modOp; split <;> rfl
@[simp] theorem modOp_stages (s : State) (o : Nat) (f : Op → Op) : (modOp s o f).stages = s.stages := by unfold modOp; split <;> rfl
@[simp] theorem modOp_images (s : State) (o : Nat) (f : Op → Op) : (modOp s o f).images = s.images := by unfold modOp; split <;> rfl
@[simp] theorem modOp_ctxImages (s : State) (o : Nat) (f : Op → Op) : (modOp s o f).ctxImages = s.ctxImages := by unfold modOp; split <;> rfl
@[simp] theorem modOp_heldRegions (s : State) (o : Nat) (f : Op → Op) : (modOp s o f).heldRegions = s.heldRegions := by unfold modOp; split <;> rfl

/-! ## The running context -/

@[simp] theorem modCur_agenda (s : State) (f : Ctx → Ctx) : (modCur s f).agenda = s.agenda := rfl
@[simp] theorem modCur_flip (s : State) (f : Ctx → Ctx) : (modCur s f).flip = s.flip := rfl
@[simp] theorem modCur_turn (s : State) (f : Ctx → Ctx) : (modCur s f).turn = s.turn := rfl
@[simp] theorem modCur_cur (s : State) (f : Ctx → Ctx) : (modCur s f).cur = s.cur := rfl
@[simp] theorem modCur_freeCtr (s : State) (f : Ctx → Ctx) : (modCur s f).freeCtr = s.freeCtr := rfl
@[simp] theorem modCur_hostRead (s : State) (f : Ctx → Ctx) : (modCur s f).hostRead = s.hostRead := rfl
@[simp] theorem modCur_hostWait (s : State) (f : Ctx → Ctx) : (modCur s f).hostWait = s.hostWait := rfl
@[simp] theorem modCur_timecode (s : State) (f : Ctx → Ctx) : (modCur s f).timecode = s.timecode := rfl
@[simp] theorem modCur_chip (s : State) (f : Ctx → Ctx) : (modCur s f).chip = s.chip := rfl
@[simp] theorem modCur_keys (s : State) (f : Ctx → Ctx) : (modCur s f).keys = s.keys := rfl
@[simp] theorem modCur_xl (s : State) (f : Ctx → Ctx) : (modCur s f).xl = s.xl := rfl
@[simp] theorem modCur_links (s : State) (f : Ctx → Ctx) : (modCur s f).links = s.links := rfl
@[simp] theorem modCur_power (s : State) (f : Ctx → Ctx) : (modCur s f).power = s.power := rfl
@[simp] theorem modCur_devRing (s : State) (f : Ctx → Ctx) : (modCur s f).devRing = s.devRing := rfl
@[simp] theorem modCur_msix (s : State) (f : Ctx → Ctx) : (modCur s f).msix = s.msix := rfl
@[simp] theorem modCur_msixTable (s : State) (f : Ctx → Ctx) : (modCur s f).msixTable = s.msixTable := rfl
@[simp] theorem modCur_msixPend (s : State) (f : Ctx → Ctx) : (modCur s f).msixPend = s.msixPend := rfl
@[simp] theorem modCur_crews (s : State) (f : Ctx → Ctx) : (modCur s f).crews = s.crews := rfl
@[simp] theorem modCur_mem (s : State) (f : Ctx → Ctx) : (modCur s f).mem = s.mem := rfl
@[simp] theorem modCur_ciph (s : State) (f : Ctx → Ctx) : (modCur s f).ciph = s.ciph := rfl
@[simp] theorem modCur_bad (s : State) (f : Ctx → Ctx) : (modCur s f).bad = s.bad := rfl
@[simp] theorem modCur_soft (s : State) (f : Ctx → Ctx) : (modCur s f).soft = s.soft := rfl
@[simp] theorem modCur_hostMem (s : State) (f : Ctx → Ctx) : (modCur s f).hostMem = s.hostMem := rfl
@[simp] theorem modCur_sched (s : State) (f : Ctx → Ctx) : (modCur s f).sched = s.sched := rfl
@[simp] theorem modCur_scenes (s : State) (f : Ctx → Ctx) : (modCur s f).scenes = s.scenes := rfl
@[simp] theorem modCur_regions (s : State) (f : Ctx → Ctx) : (modCur s f).regions = s.regions := rfl
@[simp] theorem modCur_stages (s : State) (f : Ctx → Ctx) : (modCur s f).stages = s.stages := rfl
@[simp] theorem modCur_eng (s : State) (f : Ctx → Ctx) : (modCur s f).eng = s.eng := rfl
@[simp] theorem modCur_images (s : State) (f : Ctx → Ctx) : (modCur s f).images = s.images := rfl
@[simp] theorem modCur_ctxImages (s : State) (f : Ctx → Ctx) : (modCur s f).ctxImages = s.ctxImages := rfl
@[simp] theorem modCur_heldRegions (s : State) (f : Ctx → Ctx) : (modCur s f).heldRegions = s.heldRegions := rfl

@[simp] theorem advance_agenda (s : State) : (advance s).agenda = s.agenda := rfl
@[simp] theorem advance_flip (s : State) : (advance s).flip = s.flip := rfl
@[simp] theorem advance_turn (s : State) : (advance s).turn = s.turn := rfl
@[simp] theorem advance_cur (s : State) : (advance s).cur = s.cur := rfl
@[simp] theorem advance_freeCtr (s : State) : (advance s).freeCtr = s.freeCtr := rfl
@[simp] theorem advance_hostRead (s : State) : (advance s).hostRead = s.hostRead := rfl
@[simp] theorem advance_hostWait (s : State) : (advance s).hostWait = s.hostWait := rfl
@[simp] theorem advance_timecode (s : State) : (advance s).timecode = s.timecode := rfl
@[simp] theorem advance_chip (s : State) : (advance s).chip = s.chip := rfl
@[simp] theorem advance_keys (s : State) : (advance s).keys = s.keys := rfl
@[simp] theorem advance_xl (s : State) : (advance s).xl = s.xl := rfl
@[simp] theorem advance_links (s : State) : (advance s).links = s.links := rfl
@[simp] theorem advance_power (s : State) : (advance s).power = s.power := rfl
@[simp] theorem advance_devRing (s : State) : (advance s).devRing = s.devRing := rfl
@[simp] theorem advance_msix (s : State) : (advance s).msix = s.msix := rfl
@[simp] theorem advance_msixTable (s : State) : (advance s).msixTable = s.msixTable := rfl
@[simp] theorem advance_msixPend (s : State) : (advance s).msixPend = s.msixPend := rfl
@[simp] theorem advance_crews (s : State) : (advance s).crews = s.crews := rfl
@[simp] theorem advance_mem (s : State) : (advance s).mem = s.mem := rfl
@[simp] theorem advance_ciph (s : State) : (advance s).ciph = s.ciph := rfl
@[simp] theorem advance_bad (s : State) : (advance s).bad = s.bad := rfl
@[simp] theorem advance_soft (s : State) : (advance s).soft = s.soft := rfl
@[simp] theorem advance_hostMem (s : State) : (advance s).hostMem = s.hostMem := rfl
@[simp] theorem advance_sched (s : State) : (advance s).sched = s.sched := rfl
@[simp] theorem advance_scenes (s : State) : (advance s).scenes = s.scenes := rfl
@[simp] theorem advance_regions (s : State) : (advance s).regions = s.regions := rfl
@[simp] theorem advance_stages (s : State) : (advance s).stages = s.stages := rfl
@[simp] theorem advance_eng (s : State) : (advance s).eng = s.eng := rfl
@[simp] theorem advance_images (s : State) : (advance s).images = s.images := rfl
@[simp] theorem advance_ctxImages (s : State) : (advance s).ctxImages = s.ctxImages := rfl
@[simp] theorem advance_heldRegions (s : State) : (advance s).heldRegions = s.heldRegions := rfl

@[simp] theorem retire_agenda (s : State) (d : BitVec 5) (v : Word) : (retire s d v).agenda = s.agenda := rfl
@[simp] theorem retire_flip (s : State) (d : BitVec 5) (v : Word) : (retire s d v).flip = s.flip := rfl
@[simp] theorem retire_turn (s : State) (d : BitVec 5) (v : Word) : (retire s d v).turn = s.turn := rfl
@[simp] theorem retire_cur (s : State) (d : BitVec 5) (v : Word) : (retire s d v).cur = s.cur := rfl
@[simp] theorem retire_freeCtr (s : State) (d : BitVec 5) (v : Word) : (retire s d v).freeCtr = s.freeCtr := rfl
@[simp] theorem retire_hostRead (s : State) (d : BitVec 5) (v : Word) : (retire s d v).hostRead = s.hostRead := rfl
@[simp] theorem retire_hostWait (s : State) (d : BitVec 5) (v : Word) : (retire s d v).hostWait = s.hostWait := rfl
@[simp] theorem retire_timecode (s : State) (d : BitVec 5) (v : Word) : (retire s d v).timecode = s.timecode := rfl
@[simp] theorem retire_chip (s : State) (d : BitVec 5) (v : Word) : (retire s d v).chip = s.chip := rfl
@[simp] theorem retire_keys (s : State) (d : BitVec 5) (v : Word) : (retire s d v).keys = s.keys := rfl
@[simp] theorem retire_xl (s : State) (d : BitVec 5) (v : Word) : (retire s d v).xl = s.xl := rfl
@[simp] theorem retire_links (s : State) (d : BitVec 5) (v : Word) : (retire s d v).links = s.links := rfl
@[simp] theorem retire_power (s : State) (d : BitVec 5) (v : Word) : (retire s d v).power = s.power := rfl
@[simp] theorem retire_devRing (s : State) (d : BitVec 5) (v : Word) : (retire s d v).devRing = s.devRing := rfl
@[simp] theorem retire_msix (s : State) (d : BitVec 5) (v : Word) : (retire s d v).msix = s.msix := rfl
@[simp] theorem retire_msixTable (s : State) (d : BitVec 5) (v : Word) : (retire s d v).msixTable = s.msixTable := rfl
@[simp] theorem retire_msixPend (s : State) (d : BitVec 5) (v : Word) : (retire s d v).msixPend = s.msixPend := rfl
@[simp] theorem retire_crews (s : State) (d : BitVec 5) (v : Word) : (retire s d v).crews = s.crews := rfl
@[simp] theorem retire_mem (s : State) (d : BitVec 5) (v : Word) : (retire s d v).mem = s.mem := rfl
@[simp] theorem retire_ciph (s : State) (d : BitVec 5) (v : Word) : (retire s d v).ciph = s.ciph := rfl
@[simp] theorem retire_bad (s : State) (d : BitVec 5) (v : Word) : (retire s d v).bad = s.bad := rfl
@[simp] theorem retire_soft (s : State) (d : BitVec 5) (v : Word) : (retire s d v).soft = s.soft := rfl
@[simp] theorem retire_hostMem (s : State) (d : BitVec 5) (v : Word) : (retire s d v).hostMem = s.hostMem := rfl
@[simp] theorem retire_sched (s : State) (d : BitVec 5) (v : Word) : (retire s d v).sched = s.sched := rfl
@[simp] theorem retire_scenes (s : State) (d : BitVec 5) (v : Word) : (retire s d v).scenes = s.scenes := rfl
@[simp] theorem retire_regions (s : State) (d : BitVec 5) (v : Word) : (retire s d v).regions = s.regions := rfl
@[simp] theorem retire_stages (s : State) (d : BitVec 5) (v : Word) : (retire s d v).stages = s.stages := rfl
@[simp] theorem retire_eng (s : State) (d : BitVec 5) (v : Word) : (retire s d v).eng = s.eng := rfl
@[simp] theorem retire_images (s : State) (d : BitVec 5) (v : Word) : (retire s d v).images = s.images := rfl
@[simp] theorem retire_ctxImages (s : State) (d : BitVec 5) (v : Word) : (retire s d v).ctxImages = s.ctxImages := rfl
@[simp] theorem retire_heldRegions (s : State) (d : BitVec 5) (v : Word) : (retire s d v).heldRegions = s.heldRegions := rfl

@[simp] theorem stallCur_agenda (s : State) : (stallCur s).agenda = s.agenda := rfl
@[simp] theorem stallCur_flip (s : State) : (stallCur s).flip = s.flip := rfl
@[simp] theorem stallCur_turn (s : State) : (stallCur s).turn = s.turn := rfl
@[simp] theorem stallCur_cur (s : State) : (stallCur s).cur = s.cur := rfl
@[simp] theorem stallCur_freeCtr (s : State) : (stallCur s).freeCtr = s.freeCtr := rfl
@[simp] theorem stallCur_hostRead (s : State) : (stallCur s).hostRead = s.hostRead := rfl
@[simp] theorem stallCur_hostWait (s : State) : (stallCur s).hostWait = s.hostWait := rfl
@[simp] theorem stallCur_timecode (s : State) : (stallCur s).timecode = s.timecode := rfl
@[simp] theorem stallCur_chip (s : State) : (stallCur s).chip = s.chip := rfl
@[simp] theorem stallCur_keys (s : State) : (stallCur s).keys = s.keys := rfl
@[simp] theorem stallCur_xl (s : State) : (stallCur s).xl = s.xl := rfl
@[simp] theorem stallCur_links (s : State) : (stallCur s).links = s.links := rfl
@[simp] theorem stallCur_power (s : State) : (stallCur s).power = s.power := rfl
@[simp] theorem stallCur_devRing (s : State) : (stallCur s).devRing = s.devRing := rfl
@[simp] theorem stallCur_msix (s : State) : (stallCur s).msix = s.msix := rfl
@[simp] theorem stallCur_msixTable (s : State) : (stallCur s).msixTable = s.msixTable := rfl
@[simp] theorem stallCur_msixPend (s : State) : (stallCur s).msixPend = s.msixPend := rfl
@[simp] theorem stallCur_crews (s : State) : (stallCur s).crews = s.crews := rfl
@[simp] theorem stallCur_mem (s : State) : (stallCur s).mem = s.mem := rfl
@[simp] theorem stallCur_ciph (s : State) : (stallCur s).ciph = s.ciph := rfl
@[simp] theorem stallCur_bad (s : State) : (stallCur s).bad = s.bad := rfl
@[simp] theorem stallCur_soft (s : State) : (stallCur s).soft = s.soft := rfl
@[simp] theorem stallCur_hostMem (s : State) : (stallCur s).hostMem = s.hostMem := rfl
@[simp] theorem stallCur_sched (s : State) : (stallCur s).sched = s.sched := rfl
@[simp] theorem stallCur_scenes (s : State) : (stallCur s).scenes = s.scenes := rfl
@[simp] theorem stallCur_regions (s : State) : (stallCur s).regions = s.regions := rfl
@[simp] theorem stallCur_stages (s : State) : (stallCur s).stages = s.stages := rfl
@[simp] theorem stallCur_eng (s : State) : (stallCur s).eng = s.eng := rfl
@[simp] theorem stallCur_images (s : State) : (stallCur s).images = s.images := rfl
@[simp] theorem stallCur_ctxImages (s : State) : (stallCur s).ctxImages = s.ctxImages := rfl
@[simp] theorem stallCur_heldRegions (s : State) : (stallCur s).heldRegions = s.heldRegions := rfl

/-! ## Contexts -/

@[simp] theorem writeG_state (x : Ctx) (r : BitVec 5) (v : Word) : (writeG x r v).state = x.state := by unfold writeG; split <;> rfl
@[simp] theorem writeG_scene (x : Ctx) (r : BitVec 5) (v : Word) : (writeG x r v).scene = x.scene := by unfold writeG; split <;> rfl
@[simp] theorem writeG_member (x : Ctx) (r : BitVec 5) (v : Word) : (writeG x r v).member = x.member := by unfold writeG; split <;> rfl
@[simp] theorem writeG_crew (x : Ctx) (r : BitVec 5) (v : Word) : (writeG x r v).crew = x.crew := by unfold writeG; split <;> rfl
@[simp] theorem writeG_pc (x : Ctx) (r : BitVec 5) (v : Word) : (writeG x r v).pc = x.pc := by unfold writeG; split <;> rfl
@[simp] theorem writeG_lr (x : Ctx) (r : BitVec 5) (v : Word) : (writeG x r v).lr = x.lr := by unfold writeG; split <;> rfl
@[simp] theorem writeG_tm (x : Ctx) (r : BitVec 5) (v : Word) : (writeG x r v).tm = x.tm := by unfold writeG; split <;> rfl
@[simp] theorem writeG_gen (x : Ctx) (r : BitVec 5) (v : Word) : (writeG x r v).gen = x.gen := by unfold writeG; split <;> rfl
@[simp] theorem writeG_xcause (x : Ctx) (r : BitVec 5) (v : Word) : (writeG x r v).xcause = x.xcause := by unfold writeG; split <;> rfl
@[simp] theorem writeG_xpc (x : Ctx) (r : BitVec 5) (v : Word) : (writeG x r v).xpc = x.xpc := by unfold writeG; split <;> rfl
@[simp] theorem writeG_xval (x : Ctx) (r : BitVec 5) (v : Word) : (writeG x r v).xval = x.xval := by unfold writeG; split <;> rfl
@[simp] theorem writeG_xvec (x : Ctx) (r : BitVec 5) (v : Word) : (writeG x r v).xvec = x.xvec := by unfold writeG; split <;> rfl
@[simp] theorem writeG_sheet (x : Ctx) (r : BitVec 5) (v : Word) : (writeG x r v).sheet = x.sheet := by unfold writeG; split <;> rfl
@[simp] theorem writeG_dcidx (x : Ctx) (r : BitVec 5) (v : Word) : (writeG x r v).dcidx = x.dcidx := by unfold writeG; split <;> rfl
@[simp] theorem writeG_cyc (x : Ctx) (r : BitVec 5) (v : Word) : (writeG x r v).cyc = x.cyc := by unfold writeG; split <;> rfl
@[simp] theorem writeG_mapLast (x : Ctx) (r : BitVec 5) (v : Word) : (writeG x r v).mapLast = x.mapLast := by unfold writeG; split <;> rfl
@[simp] theorem writeG_copies (x : Ctx) (r : BitVec 5) (v : Word) : (writeG x r v).copies = x.copies := by unfold writeG; split <;> rfl
@[simp] theorem writeG_tiles (x : Ctx) (r : BitVec 5) (v : Word) : (writeG x r v).tiles = x.tiles := by unfold writeG; split <;> rfl
@[simp] theorem writeG_loads (x : Ctx) (r : BitVec 5) (v : Word) : (writeG x r v).loads = x.loads := by unfold writeG; split <;> rfl
@[simp] theorem writeG_stores (x : Ctx) (r : BitVec 5) (v : Word) : (writeG x r v).stores = x.stores := by unfold writeG; split <;> rfl
@[simp] theorem writeG_tickets (x : Ctx) (r : BitVec 5) (v : Word) : (writeG x r v).tickets = x.tickets := by unfold writeG; split <;> rfl
@[simp] theorem writeG_pend (x : Ctx) (r : BitVec 5) (v : Word) : (writeG x r v).pend = x.pend := by unfold writeG; split <;> rfl
@[simp] theorem writeG_hint (x : Ctx) (r : BitVec 5) (v : Word) : (writeG x r v).hint = x.hint := by unfold writeG; split <;> rfl
@[simp] theorem writeG_rushes (x : Ctx) (r : BitVec 5) (v : Word) : (writeG x r v).rushes = x.rushes := by unfold writeG; split <;> rfl
@[simp] theorem writeG_ahead (x : Ctx) (r : BitVec 5) (v : Word) : (writeG x r v).ahead = x.ahead := by unfold writeG; split <;> rfl
@[simp] theorem writeG_wait (x : Ctx) (r : BitVec 5) (v : Word) : (writeG x r v).wait = x.wait := by unfold writeG; split <;> rfl
@[simp] theorem writeG_priv (x : Ctx) (r : BitVec 5) (v : Word) : (writeG x r v).priv = x.priv := by unfold writeG; split <;> rfl
@[simp] theorem writeG_entry (x : Ctx) (r : BitVec 5) (v : Word) : (writeG x r v).entry = x.entry := by unfold writeG; split <;> rfl
@[simp] theorem writeG_privBad (x : Ctx) (r : BitVec 5) (v : Word) : (writeG x r v).privBad = x.privBad := by unfold writeG; split <;> rfl
@[simp] theorem writeG_acq (x : Ctx) (r : BitVec 5) (v : Word) : (writeG x r v).acq = x.acq := by unfold writeG; split <;> rfl
@[simp] theorem writeG_acqBad (x : Ctx) (r : BitVec 5) (v : Word) : (writeG x r v).acqBad = x.acqBad := by unfold writeG; split <;> rfl
@[simp] theorem writeG_bars (x : Ctx) (r : BitVec 5) (v : Word) : (writeG x r v).bars = x.bars := by unfold writeG; split <;> rfl
@[simp] theorem writeG_nextSeq (x : Ctx) (r : BitVec 5) (v : Word) : (writeG x r v).nextSeq = x.nextSeq := by unfold writeG; split <;> rfl
@[simp] theorem writeG_parkedAt (x : Ctx) (r : BitVec 5) (v : Word) : (writeG x r v).parkedAt = x.parkedAt := by unfold writeG; split <;> rfl

@[simp] theorem drainUO_state (x : Ctx) : (drainUO x).state = x.state := rfl
@[simp] theorem drainUO_scene (x : Ctx) : (drainUO x).scene = x.scene := rfl
@[simp] theorem drainUO_member (x : Ctx) : (drainUO x).member = x.member := rfl
@[simp] theorem drainUO_crew (x : Ctx) : (drainUO x).crew = x.crew := rfl
@[simp] theorem drainUO_pc (x : Ctx) : (drainUO x).pc = x.pc := rfl
@[simp] theorem drainUO_g (x : Ctx) : (drainUO x).g = x.g := rfl
@[simp] theorem drainUO_lr (x : Ctx) : (drainUO x).lr = x.lr := rfl
@[simp] theorem drainUO_tm (x : Ctx) : (drainUO x).tm = x.tm := rfl
@[simp] theorem drainUO_gen (x : Ctx) : (drainUO x).gen = x.gen := rfl
@[simp] theorem drainUO_xcause (x : Ctx) : (drainUO x).xcause = x.xcause := rfl
@[simp] theorem drainUO_xpc (x : Ctx) : (drainUO x).xpc = x.xpc := rfl
@[simp] theorem drainUO_xval (x : Ctx) : (drainUO x).xval = x.xval := rfl
@[simp] theorem drainUO_xvec (x : Ctx) : (drainUO x).xvec = x.xvec := rfl
@[simp] theorem drainUO_sheet (x : Ctx) : (drainUO x).sheet = x.sheet := rfl
@[simp] theorem drainUO_dcidx (x : Ctx) : (drainUO x).dcidx = x.dcidx := rfl
@[simp] theorem drainUO_cyc (x : Ctx) : (drainUO x).cyc = x.cyc := rfl
@[simp] theorem drainUO_mapLast (x : Ctx) : (drainUO x).mapLast = x.mapLast := rfl
@[simp] theorem drainUO_copies (x : Ctx) : (drainUO x).copies = x.copies := rfl
@[simp] theorem drainUO_tiles (x : Ctx) : (drainUO x).tiles = x.tiles := rfl
@[simp] theorem drainUO_loads (x : Ctx) : (drainUO x).loads = x.loads := rfl
@[simp] theorem drainUO_tickets (x : Ctx) : (drainUO x).tickets = x.tickets := rfl
@[simp] theorem drainUO_pend (x : Ctx) : (drainUO x).pend = x.pend := rfl
@[simp] theorem drainUO_hint (x : Ctx) : (drainUO x).hint = x.hint := rfl
@[simp] theorem drainUO_rushes (x : Ctx) : (drainUO x).rushes = x.rushes := rfl
@[simp] theorem drainUO_ahead (x : Ctx) : (drainUO x).ahead = x.ahead := rfl
@[simp] theorem drainUO_wait (x : Ctx) : (drainUO x).wait = x.wait := rfl
@[simp] theorem drainUO_priv (x : Ctx) : (drainUO x).priv = x.priv := rfl
@[simp] theorem drainUO_entry (x : Ctx) : (drainUO x).entry = x.entry := rfl
@[simp] theorem drainUO_privBad (x : Ctx) : (drainUO x).privBad = x.privBad := rfl
@[simp] theorem drainUO_acq (x : Ctx) : (drainUO x).acq = x.acq := rfl
@[simp] theorem drainUO_acqBad (x : Ctx) : (drainUO x).acqBad = x.acqBad := rfl
@[simp] theorem drainUO_bars (x : Ctx) : (drainUO x).bars = x.bars := rfl
@[simp] theorem drainUO_nextSeq (x : Ctx) : (drainUO x).nextSeq = x.nextSeq := rfl
@[simp] theorem drainUO_parkedAt (x : Ctx) : (drainUO x).parkedAt = x.parkedAt := rfl

end Sys2Proof.Machine
end

