-- ==== Sys2Proof/Laws/Script.lean ====
section
/-! SUPPORT. What the shared operations of the script instructions do: reading operands, retiring, stalling, taking a precise
trap. A proof about an instruction cites these and unfolds none of them. -/
namespace Sys2Proof.Machine

/-! ## Contexts -/

@[simp] theorem getCtx_setCtx (s : State) (c : Nat) (x : Ctx) : getCtx (setCtx s c x) c = x := Sparse.get_insert_same _ _ _ _

theorem getCtx_setCtx_other (s : State) (c c' : Nat) (x : Ctx) (h : c' ≠ c) : getCtx (setCtx s c x) c' = getCtx s c' :=
  Sparse.get_insert_other _ _ _ _ _ h

@[simp] theorem getCtx_modCtx (s : State) (c : Nat) (f : Ctx → Ctx) : getCtx (modCtx s c f) c = f (getCtx s c) :=
  getCtx_setCtx _ _ _

theorem getCtx_modCtx_other (s : State) (c c' : Nat) (f : Ctx → Ctx) (h : c' ≠ c) : getCtx (modCtx s c f) c' = getCtx s c' :=
  getCtx_setCtx_other _ _ _ _ h

@[simp] theorem curCtx_modCur (s : State) (f : Ctx → Ctx) : curCtx (modCur s f) = f (curCtx s) := getCtx_setCtx _ _ _

theorem sameButCtxs_modCtx (s : State) (c : Nat) (f : Ctx → Ctx) : SameButCtxs s (modCtx s c f) := rfl

theorem otherCtxs_modCtx (s : State) (c : Nat) (f : Ctx → Ctx) : OtherCtxsSame s (modCtx s c f) c :=
  fun _ h => getCtx_modCtx_other s c _ f h

theorem sameButCtxs_setCtx (s : State) (c : Nat) (x : Ctx) : SameButCtxs s (setCtx s c x) := rfl

theorem otherCtxs_setCtx (s : State) (c : Nat) (x : Ctx) : OtherCtxsSame s (setCtx s c x) c :=
  fun _ h => getCtx_setCtx_other s c _ x h

theorem sameButCtxs_refl (s : State) : SameButCtxs s s := rfl

theorem memorySame_of_ctxs {s t : State} (h : SameButCtxs s t) : MemorySame s t := by
  unfold SameButCtxs at h; rw [h]; exact ⟨fun _ _ => rfl, fun _ => rfl, fun _ _ => ⟨rfl, rfl, rfl⟩⟩

/-! ## General registers -/

theorem readG_writeG_same (x : Ctx) (d : BitVec 5) (v : Word) : readG (writeG x d v) d = if d = 0 then 0 else v := by
  unfold readG writeG; split
  · rfl
  · exact Sparse.get_insert_same _ _ _ _

theorem readG_writeG_other (x : Ctx) (d r : BitVec 5) (v : Word) (h : r ≠ d) : readG (writeG x d v) r = readG x r := by
  unfold readG writeG; split
  · rfl
  · split
    · rfl
    · exact Sparse.get_insert_other _ _ _ _ _ fun e => h (BitVec.eq_of_toNat_eq e)

/-- Only the general registers change in a write to one. -/
theorem writeG_eq (x : Ctx) (d : BitVec 5) (v : Word) : writeG x d v = { x with g := (writeG x d v).g } := by
  unfold writeG; split <;> rfl

@[simp] theorem readG_pc (x : Ctx) (p : Word) (r : BitVec 5) (w : Wait) : readG { x with pc := p, wait := w } r = readG x r := rfl

/-! ## Running an instruction -/

theorem withRegs_ready {s : State} {rs : List (BitVec 5)} (h : OperandsReady s rs) (k : Ctx → State) :
    withRegs s rs k = .next (k (curCtx s)) := by
  simp [withRegs, h.1, h.2]

/-- An instruction of a context issues nothing, stalls, or runs. -/
theorem withRegs_cases (s : State) (rs : List (BitVec 5)) (k : Ctx → State) :
    withRegs s rs k = .next s ∨ withRegs s rs k = .next (stallCur s) ∨ withRegs s rs k = .next (k (curCtx s)) := by
  unfold withRegs; split
  · exact .inl rfl
  · split
    · exact .inr (.inl rfl)
    · exact .inr (.inr rfl)

theorem curCtx_retire (s : State) (d : BitVec 5) (v : Word) :
    curCtx (retire s d v) = { writeG (curCtx s) d v with pc := (curCtx s).pc + 4, wait := .none } := curCtx_modCur _ _

theorem curCtx_advance (s : State) : curCtx (advance s) = { curCtx s with pc := (curCtx s).pc + 4, wait := .none } :=
  curCtx_modCur _ _

theorem curCtx_stallCur (s : State) : curCtx (stallCur s) = { curCtx s with wait := .stall } := curCtx_modCur _ _

/-! ## The stream port's order (09 R210, R218) -/

theorem sameStores_refl (l : List Store) : SameStores l l := rfl

theorem sameStores_trans {a b c : List Store} (h : SameStores a b) (k : SameStores b c) : SameStores a c := Eq.trans h k

theorem sameButPort_refl (s : State) (stage : Nat) : SameButPort s s stage :=
  ⟨rfl, (getStage s stage).portNext, fun i => by split <;> simp [*]⟩

theorem sameButPort_trans {s t u : State} {i : Nat} (h : SameButPort s t i) (k : SameButPort t u i) : SameButPort s u i := by
  obtain ⟨h, _, hs⟩ := h
  obtain ⟨k, m, ks⟩ := k
  refine ⟨by rw [k, h], m, fun j => ?_⟩
  rw [ks j, hs j]
  split <;> rfl

theorem sameButStamps_refl (s : State) (c : Nat) : SameButStamps s s c := ⟨_, rfl, rfl⟩

theorem sameButStamps_trans {s t u : State} {c : Nat} (h : SameButStamps s t c) (k : SameButStamps t u c) :
    SameButStamps s u c := by
  obtain ⟨l, hl, ht⟩ := h
  obtain ⟨m, hm, hu⟩ := k
  rw [ht] at hm hu
  exact ⟨m, sameStores_trans hm hl, hu⟩

/-- A change of a stage's port order and of nothing else. -/
theorem sameButPort_portNext (s : State) (i n : Nat) : SameButPort s (modStage s i fun g => { g with portNext := n }) i := by
  refine ⟨rfl, n, fun j => ?_⟩
  split
  · subst j; exact Sparse.get_insert_same _ _ _ _
  · rename_i h; exact Sparse.get_insert_other _ _ _ _ _ h

theorem stamps_fold (f : Store → Bool) (l : List Store) (a : List Store) (n : Nat) :
    ((l.foldl (fun (a : List Store × Nat) t =>
      if f t then (a.1 ++ [{ t with stamp := a.2 }], a.2 + 1) else (a.1 ++ [t], a.2)) (a, n)).1).map unstamped =
    a.map unstamped ++ l.map unstamped := by
  induction l generalizing a n with
  | nil => simp
  | cons t l ih =>
    simp only [List.foldl_cons]
    split <;> simp [ih, unstamped]

/-- The stores of a context that has left the buffer: what changes is their places and the port's next place. -/
theorem stampOne (s : State) (c i : Nat) (r : List Store × Nat)
    (h : SameStores r.1 (getCtx s c).stores) :
    let t := modStage (setCtx s c { getCtx s c with stores := r.1 }) i fun g => { g with portNext := r.2 }
    SameButPort s t i ∧ ∀ d, SameButStamps s t d := by
  refine ⟨?_, fun d => ?_⟩
  · exact sameButPort_trans (t := setCtx s c { getCtx s c with stores := r.1 })
      ⟨rfl, (getStage s i).portNext, fun j => by
        show getStage s j = _
        split <;> simp [*]⟩ (sameButPort_portNext _ i r.2)
  · by_cases e : d = c
    · subst e; exact ⟨r.1, h, Sparse.get_insert_same _ _ _ _⟩
    · exact ⟨_, rfl, Sparse.get_insert_other _ _ _ _ _ e⟩

theorem stampLeft_spec (s : State) (i : Nat) : SameButPort s (stampLeft s i) i ∧ ∀ d, SameButStamps s (stampLeft s i) d := by
  unfold stampLeft
  suffices h : ∀ (l : List Nat) (t : State), (SameButPort s t i ∧ ∀ d, SameButStamps s t d) →
      let u := l.foldl (fun s c =>
        let x := getCtx s (4 * i + c)
        let left := fun (t : Store) => !t.buffered && t.stamp == 0
        if x.stores.any left then
          let n := (getStage s i).portNext
          let r := x.stores.foldl (fun (a : List Store × Nat) t =>
            if left t then (a.1 ++ [{ t with stamp := a.2 }], a.2 + 1) else (a.1 ++ [t], a.2)) ([], n)
          modStage (setCtx s (4 * i + c) { x with stores := r.1 }) i fun g => { g with portNext := r.2 }
        else s) t
      SameButPort s u i ∧ ∀ d, SameButStamps s u d from
    h _ s ⟨sameButPort_refl s i, fun d => sameButStamps_refl s d⟩
  intro l
  induction l with
  | nil => exact fun _ h => h
  | cons c l ih =>
    intro t h
    simp only [List.foldl_cons]
    apply ih
    split
    · refine ⟨sameButPort_trans h.1 (stampOne t (4 * i + c) i _ ?_).1, fun d =>
        sameButStamps_trans (h.2 d) ((stampOne t (4 * i + c) i _ ?_).2 d)⟩ <;>
      exact (stamps_fold _ _ [] _).trans (by simp)
    · exact h

/-- A context's UO writes leave the buffer: its own stores are in the port's order, and nothing else of it changes. -/
theorem leaveBuffer_spec (s : State) (c : Nat) : OthersSame s (leaveBuffer s c) c ∧
    ∃ l, SameStores l (drainUO (getCtx s c)).stores ∧ getCtx (leaveBuffer s c) c = { getCtx s c with stores := l } := by
  obtain ⟨h, k⟩ := stampLeft_spec (modCtx s c drainUO) (ctxStage c)
  refine ⟨⟨sameButPort_trans ⟨rfl, (getStage s (ctxStage c)).portNext, fun j => ?_⟩ h, fun d e => ?_⟩, ?_⟩
  · show getStage s j = _; split <;> simp [*]
  · exact sameButStamps_trans ⟨_, rfl, getCtx_modCtx_other _ _ _ _ e⟩ (k d)
  · obtain ⟨l, hl, e⟩ := k c
    rw [getCtx_modCtx] at hl e
    exact ⟨l, hl, e⟩

theorem othersSame_modCtx {s t : State} {c : Nat} (h : OthersSame s t c) (f : Ctx → Ctx) : OthersSame s (modCtx t c f) c := by
  refine ⟨sameButPort_trans h.1 ⟨rfl, (getStage t (ctxStage c)).portNext, fun j => ?_⟩, fun d e => ?_⟩
  · show getStage t j = _; split <;> simp [*]
  · exact sameButStamps_trans (h.2 d e) ⟨_, rfl, getCtx_modCtx_other _ _ _ _ e⟩

theorem othersSame_of_ctxs {s t : State} {c : Nat} (h : SameButCtxs s t) (k : OtherCtxsSame s t c) : OthersSame s t c :=
  ⟨⟨by rw [h], (getStage s (ctxStage c)).portNext, fun i => by rw [h]; show getStage s i = _; split <;> simp [*]⟩,
    fun d e => ⟨_, rfl, k d e⟩⟩

/-! ## Precise traps -/

/-- With no handler running and a handler address, a trap changes the context only, whose UO writes leave the buffer
(R289, R290). -/
theorem takeTrap_ready {s : State} (h : TrapReady s) (cause sub : BitVec 8) (val ret : Word) :
    takeTrap s s.cur cause sub val false ret = modCtx (leaveBuffer s s.cur) s.cur fun y =>
      { y with rushes := [], hint := none, wait := .none, xcause := xcauseWord false sub cause, xpc := ret, xval := val
               tm := true, pc := (curCtx s).xvec } := by
  obtain ⟨h1, h2⟩ := h
  have h1' : (getCtx s s.cur).tm = false := h1
  have h2' : ¬ (getCtx s s.cur).xvec = 0 := h2
  simp only [takeTrap, h1']
  simp only [Bool.false_and, Bool.false_eq_true, if_false]
  rw [if_neg h2']; rfl

theorem xcauseWord_precise (sub cause : BitVec 8) : xcauseWord false sub cause = (sub ++ cause : BitVec 16).setWidth 64 := by
  apply BitVec.eq_of_toNat_eq
  simp only [xcauseWord, Bool.false_eq_true, if_false, BitVec.toNat_setWidth, BitVec.toNat_append, BitVec.toNat_ofNat]
  rw [← Nat.shiftLeft_add_eq_or_of_lt cause.isLt, Nat.shiftLeft_eq]; omega

theorem trapped_of {s : State} {x : Ctx} (h : TrapReady s) (cause sub : BitVec 8) (val ret : Word) (hx : x = curCtx s) :
    Trapped x (curCtx (takeTrap s s.cur cause sub val false ret)) cause sub val ret := by
  subst hx
  obtain ⟨⟨⟨ho, _⟩, _⟩, l, _, hc⟩ := leaveBuffer_spec s s.cur
  have hcur : (leaveBuffer s s.cur).cur = s.cur := by rw [ho]
  rw [takeTrap_ready h]
  simp only [curCtx, modCtx_cur, hcur, getCtx_modCtx, hc]
  exact ⟨xcauseWord_precise sub cause, rfl, rfl, rfl, rfl, rfl, rfl, rfl, rfl⟩

theorem preciseTrap_trapped {s : State} (h : TrapReady s) (cause sub : BitVec 8) (val : Word) :
    Trapped (curCtx s) (curCtx (preciseTrap s cause sub val)) cause sub val (curCtx s).pc :=
  trapped_of h cause sub val _ rfl

theorem takeTrap_frame {s : State} (h : TrapReady s) (cause sub : BitVec 8) (val ret : Word) :
    OthersSame s (takeTrap s s.cur cause sub val false ret) s.cur := by
  rw [takeTrap_ready h]; exact othersSame_modCtx (leaveBuffer_spec s s.cur).1 _

theorem preciseTrap_frame {s : State} (h : TrapReady s) (cause sub : BitVec 8) (val : Word) :
    OthersSame s (preciseTrap s cause sub val) s.cur := takeTrap_frame h cause sub val _

end Sys2Proof.Machine
end

