-- ==== Sys2Proof/Laws/Fabric.lean ====
section
/-! SUPPORT. What the shared operations of the fabric do: a token put into a buffer, a group of tokens sent, a unit changed. -/
namespace Sys2Proof.Machine

/-! ## Stages and units -/

@[simp] theorem getStage_setStage (s : State) (i : Nat) (g : Stage) : getStage (setStage s i g) i = g := Sparse.get_insert_same _ _ _ _

theorem getStage_setStage_other (s : State) (i j : Nat) (g : Stage) (h : j ≠ i) : getStage (setStage s i g) j = getStage s j :=
  Sparse.get_insert_other _ _ _ _ _ h

@[simp] theorem getStage_modStage (s : State) (i : Nat) (f : Stage → Stage) : getStage (modStage s i f) i = f (getStage s i) :=
  getStage_setStage _ _ _

theorem getStage_modStage_other (s : State) (i j : Nat) (f : Stage → Stage) (h : j ≠ i) :
    getStage (modStage s i f) j = getStage s j := getStage_setStage_other _ _ _ _ h

theorem onlyStage_modStage (s : State) (i : Nat) (f : Stage → Stage) : OnlyStage s (modStage s i f) i :=
  ⟨rfl, fun _ h => getStage_modStage_other s i _ f h⟩

theorem OnlyStage.trans {s t u : State} {i : Nat} (h : OnlyStage s t i) (k : OnlyStage t u i) : OnlyStage s u i := by
  refine ⟨?_, fun j hj => (k.2 j hj).trans (h.2 j hj)⟩
  rw [k.1, h.1]

theorem onlyStage_refl (s : State) (i : Nat) : OnlyStage s s i := ⟨rfl, fun _ _ => rfl⟩

@[simp] theorem getUnit_modUnit (s : State) (stage slot : Nat) (f : UnitState → UnitState) :
    getUnit (modUnit s stage slot f) stage slot = f (getUnit s stage slot) := by
  simp only [getUnit, modUnit, getStage_modStage]; exact Sparse.get_insert_same _ _ _ _

@[simp] theorem getBuf_modUnit (s : State) (stage slot : Nat) (f : UnitState → UnitState) (k : Nat) :
    getBuf (getStage (modUnit s stage slot f) stage) k = getBuf (getStage s stage) k := by
  simp only [modUnit, getStage_modStage]; rfl

@[simp] theorem outKey_modUnit (s : State) (stage slot : Nat) (f : UnitState → UnitState) (x : Region) (tile frm : Nat) :
    outKey (getStage (modUnit s stage slot f) stage) x tile frm = outKey (getStage s stage) x tile frm := by
  simp only [modUnit, getStage_modStage]; rfl

/-! ## Buffers -/

theorem getBuf_pushBuf (s : State) (stage key fc k : Nat) (t : Token) :
    getBuf (getStage (pushBuf s stage key t fc) stage) k =
      getBuf (getStage s stage) k ++ if key = k then [{ tok := t, at_ := fc }] else [] := by
  have e : getBuf (getStage (pushBuf s stage key t fc) stage) k = Sparse.get [] (Sparse.insert (getStage s stage).bufs key
      (getBuf (getStage s stage) key ++ [{ tok := t, at_ := fc }])) k := by
    simp only [pushBuf, getStage_modStage, setBuf]
    show Sparse.get [] (Sparse.set [] _ key _) k = _
    rw [Sparse.set, if_neg (by simp)]
  rw [e]
  by_cases h : key = k
  · subst h; rw [Sparse.get_insert_same, if_pos rfl]
  · rw [Sparse.get_insert_other _ _ _ _ _ (fun e => h e.symm), if_neg h, List.append_nil]; rfl

theorem outKey_pushBuf (s : State) (stage key fc : Nat) (t : Token) (x : Region) (tile frm : Nat) :
    outKey (getStage (pushBuf s stage key t fc) stage) x tile frm = outKey (getStage s stage) x tile frm := by
  simp only [pushBuf, getStage_modStage]; rfl

theorem getUnit_pushBuf (s : State) (stage key fc slot : Nat) (t : Token) :
    getUnit (pushBuf s stage key t fc) stage slot = getUnit s stage slot := by
  simp only [getUnit, pushBuf, getStage_modStage]; rfl

/-- A group sent: its tokens reach the buffers of its outputs, in order. -/
theorem sendGroup_spec (s : State) (x : Region) (stage slot : Nat) (l : List (Nat × Token)) :
    Sends s (sendGroup s x stage slot l) x stage slot l ∧ OnlyStage s (sendGroup s x stage slot l) stage ∧
    (∀ n, getUnit (sendGroup s x stage slot l) stage n = getUnit s stage n) := by
  induction l generalizing s with
  | nil => exact ⟨fun k => by simp [sendGroup], onlyStage_refl _ _, fun _ => rfl⟩
  | cons q rest ih =>
    have e : sendGroup s x stage slot (q :: rest) = sendGroup (match outKey (getStage s stage) x (slotTile slot) (unitEnd slot q.1) with
        | some k => pushBuf s stage k q.2 x.fc
        | none => s) x stage slot rest := rfl
    rw [e]
    cases hk : outKey (getStage s stage) x (slotTile slot) (unitEnd slot q.1) with
    | none =>
      obtain ⟨h1, h2, h3⟩ := ih s
      refine ⟨fun k => ?_, h2, h3⟩
      rw [h1 k]; simp [hk]
    | some key =>
      obtain ⟨h1, h2, h3⟩ := ih (pushBuf s stage key q.2 x.fc)
      refine ⟨fun k => ?_, OnlyStage.trans (onlyStage_modStage _ _ _) h2, fun n => (h3 n).trans (getUnit_pushBuf _ _ _ _ _ _)⟩
      rw [h1 k, getBuf_pushBuf, List.append_assoc]
      simp only [outKey_pushBuf, List.filterMap_cons, hk]
      by_cases h : key = k
      · simp [h]
      · simp [h]

end Sys2Proof.Machine
end

