-- ==== Sys2Proof/Laws/PerInstr.lean ====
section
/-! SUPPORT. Statements made of each instruction by itself: its word decodes to it. -/

namespace Sys2Proof.Laws

set_option linter.unusedSimpArgs false
set_option Elab.async false

/-! ## Fields of words -/

/-- A field above the join lies in the high part. -/
theorem field_high {n m lo len : Nat} (x : BitVec n) (y : BitVec m) (h : m ≤ lo) :
    (x ++ y).extractLsb' lo len = x.extractLsb' (lo - m) len := by
  ext i hi
  simp [BitVec.getLsbD_append, show ¬ (lo + i < m) by omega]
  congr 1
  omega

/-- A field below the join lies in the low part. -/
theorem field_low {n m lo len : Nat} (x : BitVec n) (y : BitVec m) (h : lo + len ≤ m) :
    (x ++ y).extractLsb' lo len = y.extractLsb' lo len := by
  ext i hi
  simp [BitVec.getLsbD_append, show lo + i < m by omega]

/-- The field that is all of a vector. -/
theorem field_whole {n : Nat} (x : BitVec n) : x.extractLsb' 0 n = x := by
  ext i hi
  simp

theorem fRange_wordRR (op : BitVec 7) (d a b : BitVec 5) (fn : BitVec 10) (lo len : Nat) :
    fRange (wordRR op d a b fn) lo len = BitVec.extractLsb' (n := 7 + 5 + 5 + 5 + 10) lo len (op ++ d ++ a ++ b ++ fn) := rfl
theorem fRange_wordRI (op : BitVec 7) (d a : BitVec 5) (fn : BitVec 15) (lo len : Nat) :
    fRange (wordRI op d a fn) lo len = BitVec.extractLsb' (n := 7 + 5 + 5 + 15) lo len (op ++ d ++ a ++ fn) := rfl
theorem fRange_wordJ (op : BitVec 7) (fn : BitVec 25) (lo len : Nat) :
    fRange (wordJ op fn) lo len = BitVec.extractLsb' (n := 7 + 25) lo len (op ++ fn) := rfl
theorem fRange_wordW (op : BitVec 7) (d a : BitVec 5) (c : BitVec 9) (t : BitVec 6) (lo len : Nat) :
    fRange (wordW op d a c t) lo len = BitVec.extractLsb' (n := 7 + 5 + 5 + 9 + 6) lo len (op ++ d ++ a ++ c ++ t) := rfl
theorem fRange_wordLDI (op : BitVec 7) (d : BitVec 5) (fn : BitVec 20) (lo len : Nat) :
    fRange (wordLDI op d fn) lo len = BitVec.extractLsb' (n := 7 + 5 + 20) lo len (op ++ d ++ fn) := rfl
theorem fRange_wordSY (op : BitVec 7) (d : BitVec 5) (r : BitVec 12) (lo len : Nat) :
    fRange (wordSY op d r) lo len = BitVec.extractLsb' (n := 7 + 5 + 12 + 8) lo len (op ++ d ++ r ++ 0#8) := rfl

/-- The major opcode of each word. -/
theorem fOp_wordRR (op : BitVec 7) (d a b : BitVec 5) (fn : BitVec 10) : fOp (wordRR op d a b fn) = op := by
  simp (disch := decide) only [fOp, fRange_wordRR, field_high, field_whole, Nat.sub_self, Nat.reduceSub]
theorem fOp_wordRI (op : BitVec 7) (d a : BitVec 5) (fn : BitVec 15) : fOp (wordRI op d a fn) = op := by
  simp (disch := decide) only [fOp, fRange_wordRI, field_high, field_whole, Nat.sub_self, Nat.reduceSub]
theorem fOp_wordJ (op : BitVec 7) (fn : BitVec 25) : fOp (wordJ op fn) = op := by
  simp (disch := decide) only [fOp, fRange_wordJ, field_high, field_whole, Nat.sub_self, Nat.reduceSub]
theorem fOp_wordW (op : BitVec 7) (d a : BitVec 5) (c : BitVec 9) (t : BitVec 6) : fOp (wordW op d a c t) = op := by
  simp (disch := decide) only [fOp, fRange_wordW, field_high, field_whole, Nat.sub_self, Nat.reduceSub]
theorem fOp_wordLDI (op : BitVec 7) (d : BitVec 5) (fn : BitVec 20) : fOp (wordLDI op d fn) = op := by
  simp (disch := decide) only [fOp, fRange_wordLDI, field_high, field_whole, Nat.sub_self, Nat.reduceSub]
theorem fOp_wordSY (op : BitVec 7) (d : BitVec 5) (r : BitVec 12) : fOp (wordSY op d r) = op := by
  simp (disch := decide) only [fOp, fRange_wordSY, field_high, field_whole, Nat.sub_self, Nat.reduceSub]

/-- The function field of an RR word. -/
theorem fFn_wordRR (op : BitVec 7) (d a b : BitVec 5) (fn : BitVec 10) : fFn (wordRR op d a b fn) = fn := by
  simp (disch := decide) only [fFn, fRange_wordRR, field_low, field_whole]

/-- A field across the join is zero when both its parts are. -/
theorem field_zero {n m lo len : Nat} (x : BitVec n) (y : BitVec m) (h : lo < m) (h2 : m ≤ lo + len)
    (h3 : y.extractLsb' lo (m - lo) = 0#(m - lo)) (h4 : x.extractLsb' 0 (lo + len - m) = 0#(lo + len - m)) :
    (x ++ y).extractLsb' lo len = 0#len := by
  ext i hi
  simp only [BitVec.getElem_extractLsb', BitVec.getLsbD_append, BitVec.getElem_zero]
  split
  · have := congrArg (fun v => v.getLsbD i) h3
    simp at this
    exact this (by omega)
  · have := congrArg (fun v => v.getLsbD (lo + i - m)) h4
    simp at this
    exact this (by omega)

/-- A check of a field that is zero. -/
theorem zeroField_zero {n : Nat} (r : Except DecodeError Instr) : zeroField 0#n r = r := if_pos rfl

/-- Two unused register fields. -/
theorem unused_ab (op : BitVec 7) (d : BitVec 5) (fn : BitVec 10) : fRange (wordRR op d 0 0 fn) 10 10 = 0#10 := by
  rw [fRange_wordRR]
  exact (field_high _ _ (by decide)).trans
    (field_zero _ _ (by decide) (by decide) rfl ((field_low _ _ (by decide)).trans rfl))

/-- Every field but `d` unused. -/
theorem unused_abfn (op : BitVec 7) (d : BitVec 5) : fRange (wordRR op d 0 0 0) 0 20 = 0#20 := by
  rw [fRange_wordRR]
  exact field_zero _ _ (by decide) (by decide) rfl
    (field_zero _ _ (by decide) (by decide) rfl ((field_low _ _ (by decide)).trans rfl))

/-- Every field but `d` and `a` unused. -/
theorem unused_bfn (op : BitVec 7) (d a : BitVec 5) : fRange (wordRR op d a 0 0) 0 15 = 0#15 := by
  rw [fRange_wordRR]
  exact field_zero _ _ (by decide) (by decide) rfl ((field_low _ _ (by decide)).trans rfl)

/-- The unused fields of LDA. -/
theorem unused_lda (op : BitVec 7) (d a : BitVec 5) (w sc : BitVec 2) :
    fRange (wordRR op d a 0 (0#6 ++ w ++ sc)) 4 11 = 0#11 := by
  rw [fRange_wordRR]
  refine field_zero _ _ (by decide) (by decide) ?_ ?_
  · rw [BitVec.append_assoc]
    exact field_high _ _ (by decide)
  · exact field_low _ _ (by decide)

/-- The unused fields of FENCE. -/
theorem unused_fence (sc : BitVec 2) : fRange (wordRR 0x3a 0 0 0 (0#8 ++ sc)) 2 23 = 0#23 := by
  rw [fRange_wordRR]
  exact field_zero _ _ (by decide) (by decide) (field_high _ _ (by decide)) rfl

/-! ## The family -/

namespace Encoding

/-- The word of an instruction, if it has one, decodes to it (13 R329-R332). -/
def Statement (i : Instr) : Prop := ∀ w, encode i = some w → decode w = .ok i

/-- An instruction without a word. -/
theorem of_none (i : Instr) (h : encode i = none) : Statement i := fun w hw => by simp [h] at hw

/-- An instruction whose word decodes. -/
theorem of_word (i : Instr) (w : Code) (h : encode i = some w) (hd : decode w = .ok i) : Statement i := fun v hv => by
  rw [h] at hv
  cases hv
  exact hd

theorem coldStart (report : StartReport) : Statement (.coldStart report) := of_none _ rfl
theorem warmStart (report : StartReport) : Statement (.warmStart report) := of_none _ rfl
theorem functionLevelReset (report : StartReport) : Statement (.functionLevelReset report) := of_none _ rfl
theorem startStepRetry (report : StartReport) : Statement (.startStepRetry report) := of_none _ rfl
theorem powerRemoval : Statement .powerRemoval := of_none _ rfl
theorem registerWrite (off : Nat) (val : BitVec 64) (en : BitVec 8) : Statement (.registerWrite off val en) := of_none _ rfl
theorem crewEnable (crew : Nat) (val : BitVec 64) : Statement (.crewEnable crew val) := of_none _ rfl
theorem crewTeardown (crew : Nat) : Statement (.crewTeardown crew) := of_none _ rfl
theorem peerTeardown (serial : Nat) : Statement (.peerTeardown serial) := of_none _ rfl
theorem slatePush (crew : Nat) (prio : Nat) (val : BitVec 64) (en : BitVec 8) : Statement (.slatePush crew prio val en) := of_none _ rfl
theorem queueUnseal (crew : Nat) (prio : Nat) : Statement (.queueUnseal crew prio) := of_none _ rfl
theorem launchGo (crew : Nat) (slot : Nat) : Statement (.launchGo crew slot) := of_none _ rfl
theorem launchAbort (crew : Nat) (slot : Nat) : Statement (.launchAbort crew slot) := of_none _ rfl
theorem launchRelease (crew : Nat) (slot : Nat) : Statement (.launchRelease crew slot) := of_none _ rfl
theorem seedCommit (crew : Nat) (slot : Nat) (entry : Nat) (val : BitVec 64) : Statement (.seedCommit crew slot entry val) := of_none _ rfl
theorem eventRingConsume (ring : Nat) (val : BitVec 64) : Statement (.eventRingConsume ring val) := of_none _ rfl
theorem dcHiRead (crew : Nat) : Statement (.dcHiRead crew) := of_none _ rfl
theorem hostRegionRelease (crew : Nat) : Statement (.hostRegionRelease crew) := of_none _ rfl
theorem hostMemoryRead (crew : Nat) (off : Nat) (len : Nat) : Statement (.hostMemoryRead crew off len) := of_none _ rfl
theorem hostMemoryWrite (crew : Nat) (off : Nat) (bytes : List (BitVec 8)) : Statement (.hostMemoryWrite crew off bytes) := of_none _ rfl
theorem pwStatRead : Statement .pwStatRead := of_none _ rfl
theorem cecntRead (die : Nat) : Statement (.cecntRead die) := of_none _ rfl
theorem sign : Statement .sign := of_none _ rfl
theorem signComplete : Statement .signComplete := of_none _ rfl
theorem update : Statement .update := of_none _ rfl
theorem updateComplete : Statement .updateComplete := of_none _ rfl
theorem restart (report : StartReport) : Statement (.restart report) := of_none _ rfl
theorem keyLoad (slot : BitVec 13) : Statement (.keyLoad slot) := of_none _ rfl
theorem keyLoadComplete : Statement .keyLoadComplete := of_none _ rfl
theorem keyRetire (slot : BitVec 13) (count : BitVec 13) : Statement (.keyRetire slot count) := of_none _ rfl
theorem keyRetireComplete : Statement .keyRetireComplete := of_none _ rfl
theorem ptwWrite (val : BitVec 64) (en : BitVec 8) : Statement (.ptwWrite val en) := of_none _ rfl
theorem ptwRead : Statement .ptwRead := of_none _ rfl
theorem xlInv (val : BitVec 64) : Statement (.xlInv val) := of_none _ rfl
theorem xlInvComplete : Statement .xlInvComplete := of_none _ rfl
theorem timecodeReacquire : Statement .timecodeReacquire := of_none _ rfl
theorem reacquisition : Statement .reacquisition := of_none _ rfl
theorem portRetrain (port : Nat) : Statement (.portRetrain port) := of_none _ rfl
theorem portDisable (port : Nat) : Statement (.portDisable port) := of_none _ rfl
theorem tokenBeat (port : Nat) (beat : Beat) : Statement (.tokenBeat port beat) := of_none _ rfl
theorem reductionBeat (port : Nat) (beat : Beat) : Statement (.reductionBeat port beat) := of_none _ rfl
theorem commandBeat (port : Nat) (beat : Beat) : Statement (.commandBeat port beat) := of_none _ rfl
theorem timecodeBeat (port : Nat) (beat : TimedBeat) : Statement (.timecodeBeat port beat) := of_none _ rfl
theorem timecodeBeatSend : Statement .timecodeBeatSend := of_none _ rfl
theorem linkControlBeat (port : Nat) (beat : Beat) : Statement (.linkControlBeat port beat) := of_none _ rfl
theorem memoryBeat (port : Nat) (beat : Beat) : Statement (.memoryBeat port beat) := of_none _ rfl
theorem codewordUncorrectable (port : Nat) : Statement (.codewordUncorrectable port) := of_none _ rfl
theorem laneFailure (port : Nat) (retrain : LaneRetrain) : Statement (.laneFailure port retrain) := of_none _ rfl
theorem rootLost (serials : List Nat) (ports : List Nat) (hops : List Nat) : Statement (.rootLost serials ports hops) := of_none _ rfl
theorem thermalReading (readings : List Nat) : Statement (.thermalReading readings) := of_none _ rfl
theorem capWindow (module : Nat) (crews : List Nat) : Statement (.capWindow module crews) := of_none _ rfl
theorem baseLevelChange (cluster : Nat) (level : Nat) : Statement (.baseLevelChange cluster level) := of_none _ rfl
theorem generatorSwitch (cluster : Nat) : Statement (.generatorSwitch cluster) := of_none _ rfl
theorem pacingStep (region : Nat) : Statement (.pacingStep region) := of_none _ rfl
theorem ballastCut : Statement .ballastCut := of_none _ rfl
theorem schedulingPass : Statement .schedulingPass := of_none _ rfl
theorem slateEnter (crew : Nat) : Statement (.slateEnter crew) := of_none _ rfl
theorem spillWrite (queue : Nat) : Statement (.spillWrite queue) := of_none _ rfl
theorem refillRead (queue : Nat) : Statement (.refillRead queue) := of_none _ rfl
theorem placementRequest (req : PlaceRequest) : Statement (.placementRequest req) := of_none _ rfl
theorem placementReply (serial : Nat) (peer : Nat) (reply : PlaceReply) : Statement (.placementReply serial peer reply) := of_none _ rfl
theorem placementTimeout (serial : Nat) : Statement (.placementTimeout serial) := of_none _ rfl
theorem placementCommit (serial : Nat) (tick : BitVec 64) : Statement (.placementCommit serial tick) := of_none _ rfl
theorem placementCancel (serial : Nat) : Statement (.placementCancel serial) := of_none _ rfl
theorem startTick (serial : Nat) : Statement (.startTick serial) := of_none _ rfl
theorem holdBegin (serial : Nat) : Statement (.holdBegin serial) := of_none _ rfl
theorem holdMarker (unit : UnitRef) : Statement (.holdMarker unit) := of_none _ rfl
theorem holdComplete (serial : Nat) : Statement (.holdComplete serial) := of_none _ rfl
theorem regionSaveComplete (serial : Nat) (member : Nat) : Statement (.regionSaveComplete serial member) := of_none _ rfl
theorem memberEnd (serial : Nat) (member : Nat) : Statement (.memberEnd serial member) := of_none _ rfl
theorem configurationLoad (region : Nat) : Statement (.configurationLoad region) := of_none _ rfl
theorem configurationCompleteWave (region : Nat) : Statement (.configurationCompleteWave region) := of_none _ rfl
theorem startInjection (region : Nat) : Statement (.startInjection region) := of_none _ rfl
theorem wrapSample (region : Nat) : Statement (.wrapSample region) := of_none _ rfl
theorem freeze (region : Nat) (soft : List UnitRef) : Statement (.freeze region soft) := of_none _ rfl
theorem regionReplay (region : Nat) : Statement (.regionReplay region) := of_none _ rfl
theorem regionRelease (region : Nat) : Statement (.regionRelease region) := of_none _ rfl
theorem regionReport (region : Nat) : Statement (.regionReport region) := of_none _ rfl
theorem tokenForward (stage : Nat) (tile : Nat) (output : BitVec 6) : Statement (.tokenForward stage tile output) := of_none _ rfl
theorem adderPair (adder : Nat) : Statement (.adderPair adder) := of_none _ rfl
theorem translationWalk (cache : Nat) (crew : Nat) (va : BitVec 64) (access : Access) : Statement (.translationWalk cache crew va access) := of_none _ rfl
theorem asyncTrap (ctx : Nat) : Statement (.asyncTrap ctx) := of_none _ rfl
theorem runAhead (ctx : Nat) : Statement (.runAhead ctx) := of_none _ rfl
theorem loadDataReturn (ctx : Nat) (index : Nat) : Statement (.loadDataReturn ctx index) := of_none _ rfl
theorem storePerform (ctx : Nat) (index : Nat) : Statement (.storePerform ctx index) := of_none _ rfl
theorem cueEntryIssue (stage : Nat) : Statement (.cueEntryIssue stage) := of_none _ rfl
theorem cueEntryRetire (stage : Nat) (entry : Nat) : Statement (.cueEntryRetire stage entry) := of_none _ rfl
theorem operationComplete (op : Nat) : Statement (.operationComplete op) := of_none _ rfl
theorem walkStep (op : Nat) : Statement (.walkStep op) := of_none _ rfl
theorem walkHandoff (op : Nat) : Statement (.walkHandoff op) := of_none _ rfl
theorem rulesetInstall (op : Nat) (engine : Nat) : Statement (.rulesetInstall op engine) := of_none _ rfl
theorem barrierElapsed (crew : Nat) (die : Nat) (index : Nat) : Statement (.barrierElapsed crew die index) := of_none _ rfl
theorem barrierTimeout (crew : Nat) (die : Nat) (index : Nat) : Statement (.barrierTimeout crew die index) := of_none _ rfl
theorem add (d : BitVec 5) (a : BitVec 5) (b : BitVec 5) : Statement (.add d a b) := of_word _ _ rfl <| by
  have key : ∀ w, (fOp w).toNat = 0x01 → decode w = decodeOp w := fun w h => by unfold decode; rw [h]; rfl
  have key2 : ∀ w, (fFn w).toNat = 0x0 → decodeOp w = .ok (.add (fD w) (fA w) (fB w)) := fun w h => by
    unfold decodeOp; rw [h]; rfl
  rw [key _ (congrArg BitVec.toNat (fOp_wordRR ..)), key2 _ (congrArg BitVec.toNat (fFn_wordRR ..))]
  simp (disch := decide) only [zeroField_zero, fD, fA, fB, fImm, fRange_wordRR, field_high, field_low,
    field_whole, Nat.sub_self, Nat.reduceSub]
theorem sub (d : BitVec 5) (a : BitVec 5) (b : BitVec 5) : Statement (.sub d a b) := of_word _ _ rfl <| by
  have key : ∀ w, (fOp w).toNat = 0x01 → decode w = decodeOp w := fun w h => by unfold decode; rw [h]; rfl
  have key2 : ∀ w, (fFn w).toNat = 0x1 → decodeOp w = .ok (.sub (fD w) (fA w) (fB w)) := fun w h => by
    unfold decodeOp; rw [h]; rfl
  rw [key _ (congrArg BitVec.toNat (fOp_wordRR ..)), key2 _ (congrArg BitVec.toNat (fFn_wordRR ..))]
  simp (disch := decide) only [zeroField_zero, fD, fA, fB, fImm, fRange_wordRR, field_high, field_low,
    field_whole, Nat.sub_self, Nat.reduceSub]
theorem and (d : BitVec 5) (a : BitVec 5) (b : BitVec 5) : Statement (.and d a b) := of_word _ _ rfl <| by
  have key : ∀ w, (fOp w).toNat = 0x01 → decode w = decodeOp w := fun w h => by unfold decode; rw [h]; rfl
  have key2 : ∀ w, (fFn w).toNat = 0x2 → decodeOp w = .ok (.and (fD w) (fA w) (fB w)) := fun w h => by
    unfold decodeOp; rw [h]; rfl
  rw [key _ (congrArg BitVec.toNat (fOp_wordRR ..)), key2 _ (congrArg BitVec.toNat (fFn_wordRR ..))]
  simp (disch := decide) only [zeroField_zero, fD, fA, fB, fImm, fRange_wordRR, field_high, field_low,
    field_whole, Nat.sub_self, Nat.reduceSub]
theorem or (d : BitVec 5) (a : BitVec 5) (b : BitVec 5) : Statement (.or d a b) := of_word _ _ rfl <| by
  have key : ∀ w, (fOp w).toNat = 0x01 → decode w = decodeOp w := fun w h => by unfold decode; rw [h]; rfl
  have key2 : ∀ w, (fFn w).toNat = 0x3 → decodeOp w = .ok (.or (fD w) (fA w) (fB w)) := fun w h => by
    unfold decodeOp; rw [h]; rfl
  rw [key _ (congrArg BitVec.toNat (fOp_wordRR ..)), key2 _ (congrArg BitVec.toNat (fFn_wordRR ..))]
  simp (disch := decide) only [zeroField_zero, fD, fA, fB, fImm, fRange_wordRR, field_high, field_low,
    field_whole, Nat.sub_self, Nat.reduceSub]
theorem xor (d : BitVec 5) (a : BitVec 5) (b : BitVec 5) : Statement (.xor d a b) := of_word _ _ rfl <| by
  have key : ∀ w, (fOp w).toNat = 0x01 → decode w = decodeOp w := fun w h => by unfold decode; rw [h]; rfl
  have key2 : ∀ w, (fFn w).toNat = 0x4 → decodeOp w = .ok (.xor (fD w) (fA w) (fB w)) := fun w h => by
    unfold decodeOp; rw [h]; rfl
  rw [key _ (congrArg BitVec.toNat (fOp_wordRR ..)), key2 _ (congrArg BitVec.toNat (fFn_wordRR ..))]
  simp (disch := decide) only [zeroField_zero, fD, fA, fB, fImm, fRange_wordRR, field_high, field_low,
    field_whole, Nat.sub_self, Nat.reduceSub]
theorem sll (d : BitVec 5) (a : BitVec 5) (b : BitVec 5) : Statement (.sll d a b) := of_word _ _ rfl <| by
  have key : ∀ w, (fOp w).toNat = 0x01 → decode w = decodeOp w := fun w h => by unfold decode; rw [h]; rfl
  have key2 : ∀ w, (fFn w).toNat = 0x5 → decodeOp w = .ok (.sll (fD w) (fA w) (fB w)) := fun w h => by
    unfold decodeOp; rw [h]; rfl
  rw [key _ (congrArg BitVec.toNat (fOp_wordRR ..)), key2 _ (congrArg BitVec.toNat (fFn_wordRR ..))]
  simp (disch := decide) only [zeroField_zero, fD, fA, fB, fImm, fRange_wordRR, field_high, field_low,
    field_whole, Nat.sub_self, Nat.reduceSub]
theorem srl (d : BitVec 5) (a : BitVec 5) (b : BitVec 5) : Statement (.srl d a b) := of_word _ _ rfl <| by
  have key : ∀ w, (fOp w).toNat = 0x01 → decode w = decodeOp w := fun w h => by unfold decode; rw [h]; rfl
  have key2 : ∀ w, (fFn w).toNat = 0x6 → decodeOp w = .ok (.srl (fD w) (fA w) (fB w)) := fun w h => by
    unfold decodeOp; rw [h]; rfl
  rw [key _ (congrArg BitVec.toNat (fOp_wordRR ..)), key2 _ (congrArg BitVec.toNat (fFn_wordRR ..))]
  simp (disch := decide) only [zeroField_zero, fD, fA, fB, fImm, fRange_wordRR, field_high, field_low,
    field_whole, Nat.sub_self, Nat.reduceSub]
theorem sra (d : BitVec 5) (a : BitVec 5) (b : BitVec 5) : Statement (.sra d a b) := of_word _ _ rfl <| by
  have key : ∀ w, (fOp w).toNat = 0x01 → decode w = decodeOp w := fun w h => by unfold decode; rw [h]; rfl
  have key2 : ∀ w, (fFn w).toNat = 0x7 → decodeOp w = .ok (.sra (fD w) (fA w) (fB w)) := fun w h => by
    unfold decodeOp; rw [h]; rfl
  rw [key _ (congrArg BitVec.toNat (fOp_wordRR ..)), key2 _ (congrArg BitVec.toNat (fFn_wordRR ..))]
  simp (disch := decide) only [zeroField_zero, fD, fA, fB, fImm, fRange_wordRR, field_high, field_low,
    field_whole, Nat.sub_self, Nat.reduceSub]
theorem slt (d : BitVec 5) (a : BitVec 5) (b : BitVec 5) : Statement (.slt d a b) := of_word _ _ rfl <| by
  have key : ∀ w, (fOp w).toNat = 0x01 → decode w = decodeOp w := fun w h => by unfold decode; rw [h]; rfl
  have key2 : ∀ w, (fFn w).toNat = 0x8 → decodeOp w = .ok (.slt (fD w) (fA w) (fB w)) := fun w h => by
    unfold decodeOp; rw [h]; rfl
  rw [key _ (congrArg BitVec.toNat (fOp_wordRR ..)), key2 _ (congrArg BitVec.toNat (fFn_wordRR ..))]
  simp (disch := decide) only [zeroField_zero, fD, fA, fB, fImm, fRange_wordRR, field_high, field_low,
    field_whole, Nat.sub_self, Nat.reduceSub]
theorem sltu (d : BitVec 5) (a : BitVec 5) (b : BitVec 5) : Statement (.sltu d a b) := of_word _ _ rfl <| by
  have key : ∀ w, (fOp w).toNat = 0x01 → decode w = decodeOp w := fun w h => by unfold decode; rw [h]; rfl
  have key2 : ∀ w, (fFn w).toNat = 0x9 → decodeOp w = .ok (.sltu (fD w) (fA w) (fB w)) := fun w h => by
    unfold decodeOp; rw [h]; rfl
  rw [key _ (congrArg BitVec.toNat (fOp_wordRR ..)), key2 _ (congrArg BitVec.toNat (fFn_wordRR ..))]
  simp (disch := decide) only [zeroField_zero, fD, fA, fB, fImm, fRange_wordRR, field_high, field_low,
    field_whole, Nat.sub_self, Nat.reduceSub]
theorem mul (d : BitVec 5) (a : BitVec 5) (b : BitVec 5) : Statement (.mul d a b) := of_word _ _ rfl <| by
  have key : ∀ w, (fOp w).toNat = 0x01 → decode w = decodeOp w := fun w h => by unfold decode; rw [h]; rfl
  have key2 : ∀ w, (fFn w).toNat = 0xa → decodeOp w = .ok (.mul (fD w) (fA w) (fB w)) := fun w h => by
    unfold decodeOp; rw [h]; rfl
  rw [key _ (congrArg BitVec.toNat (fOp_wordRR ..)), key2 _ (congrArg BitVec.toNat (fFn_wordRR ..))]
  simp (disch := decide) only [zeroField_zero, fD, fA, fB, fImm, fRange_wordRR, field_high, field_low,
    field_whole, Nat.sub_self, Nat.reduceSub]
theorem mulh (d : BitVec 5) (a : BitVec 5) (b : BitVec 5) : Statement (.mulh d a b) := of_word _ _ rfl <| by
  have key : ∀ w, (fOp w).toNat = 0x01 → decode w = decodeOp w := fun w h => by unfold decode; rw [h]; rfl
  have key2 : ∀ w, (fFn w).toNat = 0xb → decodeOp w = .ok (.mulh (fD w) (fA w) (fB w)) := fun w h => by
    unfold decodeOp; rw [h]; rfl
  rw [key _ (congrArg BitVec.toNat (fOp_wordRR ..)), key2 _ (congrArg BitVec.toNat (fFn_wordRR ..))]
  simp (disch := decide) only [zeroField_zero, fD, fA, fB, fImm, fRange_wordRR, field_high, field_low,
    field_whole, Nat.sub_self, Nat.reduceSub]
theorem mulhu (d : BitVec 5) (a : BitVec 5) (b : BitVec 5) : Statement (.mulhu d a b) := of_word _ _ rfl <| by
  have key : ∀ w, (fOp w).toNat = 0x01 → decode w = decodeOp w := fun w h => by unfold decode; rw [h]; rfl
  have key2 : ∀ w, (fFn w).toNat = 0xc → decodeOp w = .ok (.mulhu (fD w) (fA w) (fB w)) := fun w h => by
    unfold decodeOp; rw [h]; rfl
  rw [key _ (congrArg BitVec.toNat (fOp_wordRR ..)), key2 _ (congrArg BitVec.toNat (fFn_wordRR ..))]
  simp (disch := decide) only [zeroField_zero, fD, fA, fB, fImm, fRange_wordRR, field_high, field_low,
    field_whole, Nat.sub_self, Nat.reduceSub]
theorem div (d : BitVec 5) (a : BitVec 5) (b : BitVec 5) : Statement (.div d a b) := of_word _ _ rfl <| by
  have key : ∀ w, (fOp w).toNat = 0x01 → decode w = decodeOp w := fun w h => by unfold decode; rw [h]; rfl
  have key2 : ∀ w, (fFn w).toNat = 0xd → decodeOp w = .ok (.div (fD w) (fA w) (fB w)) := fun w h => by
    unfold decodeOp; rw [h]; rfl
  rw [key _ (congrArg BitVec.toNat (fOp_wordRR ..)), key2 _ (congrArg BitVec.toNat (fFn_wordRR ..))]
  simp (disch := decide) only [zeroField_zero, fD, fA, fB, fImm, fRange_wordRR, field_high, field_low,
    field_whole, Nat.sub_self, Nat.reduceSub]
theorem divu (d : BitVec 5) (a : BitVec 5) (b : BitVec 5) : Statement (.divu d a b) := of_word _ _ rfl <| by
  have key : ∀ w, (fOp w).toNat = 0x01 → decode w = decodeOp w := fun w h => by unfold decode; rw [h]; rfl
  have key2 : ∀ w, (fFn w).toNat = 0xe → decodeOp w = .ok (.divu (fD w) (fA w) (fB w)) := fun w h => by
    unfold decodeOp; rw [h]; rfl
  rw [key _ (congrArg BitVec.toNat (fOp_wordRR ..)), key2 _ (congrArg BitVec.toNat (fFn_wordRR ..))]
  simp (disch := decide) only [zeroField_zero, fD, fA, fB, fImm, fRange_wordRR, field_high, field_low,
    field_whole, Nat.sub_self, Nat.reduceSub]
theorem rem (d : BitVec 5) (a : BitVec 5) (b : BitVec 5) : Statement (.rem d a b) := of_word _ _ rfl <| by
  have key : ∀ w, (fOp w).toNat = 0x01 → decode w = decodeOp w := fun w h => by unfold decode; rw [h]; rfl
  have key2 : ∀ w, (fFn w).toNat = 0xf → decodeOp w = .ok (.rem (fD w) (fA w) (fB w)) := fun w h => by
    unfold decodeOp; rw [h]; rfl
  rw [key _ (congrArg BitVec.toNat (fOp_wordRR ..)), key2 _ (congrArg BitVec.toNat (fFn_wordRR ..))]
  simp (disch := decide) only [zeroField_zero, fD, fA, fB, fImm, fRange_wordRR, field_high, field_low,
    field_whole, Nat.sub_self, Nat.reduceSub]
theorem remu (d : BitVec 5) (a : BitVec 5) (b : BitVec 5) : Statement (.remu d a b) := of_word _ _ rfl <| by
  have key : ∀ w, (fOp w).toNat = 0x01 → decode w = decodeOp w := fun w h => by unfold decode; rw [h]; rfl
  have key2 : ∀ w, (fFn w).toNat = 0x10 → decodeOp w = .ok (.remu (fD w) (fA w) (fB w)) := fun w h => by
    unfold decodeOp; rw [h]; rfl
  rw [key _ (congrArg BitVec.toNat (fOp_wordRR ..)), key2 _ (congrArg BitVec.toNat (fFn_wordRR ..))]
  simp (disch := decide) only [zeroField_zero, fD, fA, fB, fImm, fRange_wordRR, field_high, field_low,
    field_whole, Nat.sub_self, Nat.reduceSub]
theorem addi (d : BitVec 5) (a : BitVec 5) (imm : BitVec 15) : Statement (.addi d a imm) := of_word _ _ rfl <| by
  have key : ∀ w, (fOp w).toNat = 0x02 → decode w = .ok (.addi (fD w) (fA w) (fImm w)) := fun w h => by unfold decode; rw [h]; rfl
  rw [key _ (congrArg BitVec.toNat (fOp_wordRI ..))]
  simp (disch := decide) only [zeroField_zero, fD, fA, fB, fImm, fRange_wordRI, field_high, field_low,
    field_whole, Nat.sub_self, Nat.reduceSub]
theorem andi (d : BitVec 5) (a : BitVec 5) (imm : BitVec 15) : Statement (.andi d a imm) := of_word _ _ rfl <| by
  have key : ∀ w, (fOp w).toNat = 0x03 → decode w = .ok (.andi (fD w) (fA w) (fImm w)) := fun w h => by unfold decode; rw [h]; rfl
  rw [key _ (congrArg BitVec.toNat (fOp_wordRI ..))]
  simp (disch := decide) only [zeroField_zero, fD, fA, fB, fImm, fRange_wordRI, field_high, field_low,
    field_whole, Nat.sub_self, Nat.reduceSub]
theorem ori (d : BitVec 5) (a : BitVec 5) (imm : BitVec 15) : Statement (.ori d a imm) := of_word _ _ rfl <| by
  have key : ∀ w, (fOp w).toNat = 0x04 → decode w = .ok (.ori (fD w) (fA w) (fImm w)) := fun w h => by unfold decode; rw [h]; rfl
  rw [key _ (congrArg BitVec.toNat (fOp_wordRI ..))]
  simp (disch := decide) only [zeroField_zero, fD, fA, fB, fImm, fRange_wordRI, field_high, field_low,
    field_whole, Nat.sub_self, Nat.reduceSub]
theorem xori (d : BitVec 5) (a : BitVec 5) (imm : BitVec 15) : Statement (.xori d a imm) := of_word _ _ rfl <| by
  have key : ∀ w, (fOp w).toNat = 0x05 → decode w = .ok (.xori (fD w) (fA w) (fImm w)) := fun w h => by unfold decode; rw [h]; rfl
  rw [key _ (congrArg BitVec.toNat (fOp_wordRI ..))]
  simp (disch := decide) only [zeroField_zero, fD, fA, fB, fImm, fRange_wordRI, field_high, field_low,
    field_whole, Nat.sub_self, Nat.reduceSub]
theorem slti (d : BitVec 5) (a : BitVec 5) (imm : BitVec 15) : Statement (.slti d a imm) := of_word _ _ rfl <| by
  have key : ∀ w, (fOp w).toNat = 0x06 → decode w = .ok (.slti (fD w) (fA w) (fImm w)) := fun w h => by unfold decode; rw [h]; rfl
  rw [key _ (congrArg BitVec.toNat (fOp_wordRI ..))]
  simp (disch := decide) only [zeroField_zero, fD, fA, fB, fImm, fRange_wordRI, field_high, field_low,
    field_whole, Nat.sub_self, Nat.reduceSub]
theorem slli (d : BitVec 5) (a : BitVec 5) (n : BitVec 6) : Statement (.slli d a n) := of_word _ _ rfl <| by
  have key : ∀ w, (fOp w).toNat = 0x07 → decode w = zeroField (fRange w 6 9) (.ok (.slli (fD w) (fA w) (fRange w 0 6))) := fun w h => by unfold decode; rw [h]; rfl
  rw [key _ (congrArg BitVec.toNat (fOp_wordRI ..))]
  simp (disch := decide) only [zeroField_zero, fD, fA, fB, fImm, fRange_wordRI, field_high, field_low,
    field_whole, Nat.sub_self, Nat.reduceSub]
theorem srli (d : BitVec 5) (a : BitVec 5) (n : BitVec 6) : Statement (.srli d a n) := of_word _ _ rfl <| by
  have key : ∀ w, (fOp w).toNat = 0x08 → decode w = zeroField (fRange w 6 9) (.ok (.srli (fD w) (fA w) (fRange w 0 6))) := fun w h => by unfold decode; rw [h]; rfl
  rw [key _ (congrArg BitVec.toNat (fOp_wordRI ..))]
  simp (disch := decide) only [zeroField_zero, fD, fA, fB, fImm, fRange_wordRI, field_high, field_low,
    field_whole, Nat.sub_self, Nat.reduceSub]
theorem srai (d : BitVec 5) (a : BitVec 5) (n : BitVec 6) : Statement (.srai d a n) := of_word _ _ rfl <| by
  have key : ∀ w, (fOp w).toNat = 0x09 → decode w = zeroField (fRange w 6 9) (.ok (.srai (fD w) (fA w) (fRange w 0 6))) := fun w h => by unfold decode; rw [h]; rfl
  rw [key _ (congrArg BitVec.toNat (fOp_wordRI ..))]
  simp (disch := decide) only [zeroField_zero, fD, fA, fB, fImm, fRange_wordRI, field_high, field_low,
    field_whole, Nat.sub_self, Nat.reduceSub]
theorem ldi (d : BitVec 5) (imm : BitVec 20) : Statement (.ldi d imm) := of_word _ _ rfl <| by
  have key : ∀ w, (fOp w).toNat = 0x0a → decode w = .ok (.ldi (fD w) (fRange w 0 20)) := fun w h => by unfold decode; rw [h]; rfl
  rw [key _ (congrArg BitVec.toNat (fOp_wordLDI ..))]
  simp (disch := decide) only [zeroField_zero, fD, fA, fB, fImm, fRange_wordLDI, field_high, field_low,
    field_whole, Nat.sub_self, Nat.reduceSub]
theorem lsi (d : BitVec 5) (a : BitVec 5) (imm : BitVec 15) : Statement (.lsi d a imm) := of_word _ _ rfl <| by
  have key : ∀ w, (fOp w).toNat = 0x0b → decode w = .ok (.lsi (fD w) (fA w) (fImm w)) := fun w h => by unfold decode; rw [h]; rfl
  rw [key _ (congrArg BitVec.toNat (fOp_wordRI ..))]
  simp (disch := decide) only [zeroField_zero, fD, fA, fB, fImm, fRange_wordRI, field_high, field_low,
    field_whole, Nat.sub_self, Nat.reduceSub]
theorem lb (d : BitVec 5) (a : BitVec 5) (imm : BitVec 15) : Statement (.lb d a imm) := of_word _ _ rfl <| by
  have key : ∀ w, (fOp w).toNat = 0x10 → decode w = .ok (.lb (fD w) (fA w) (fImm w)) := fun w h => by unfold decode; rw [h]; rfl
  rw [key _ (congrArg BitVec.toNat (fOp_wordRI ..))]
  simp (disch := decide) only [zeroField_zero, fD, fA, fB, fImm, fRange_wordRI, field_high, field_low,
    field_whole, Nat.sub_self, Nat.reduceSub]
theorem lbu (d : BitVec 5) (a : BitVec 5) (imm : BitVec 15) : Statement (.lbu d a imm) := of_word _ _ rfl <| by
  have key : ∀ w, (fOp w).toNat = 0x11 → decode w = .ok (.lbu (fD w) (fA w) (fImm w)) := fun w h => by unfold decode; rw [h]; rfl
  rw [key _ (congrArg BitVec.toNat (fOp_wordRI ..))]
  simp (disch := decide) only [zeroField_zero, fD, fA, fB, fImm, fRange_wordRI, field_high, field_low,
    field_whole, Nat.sub_self, Nat.reduceSub]
theorem lh (d : BitVec 5) (a : BitVec 5) (imm : BitVec 15) : Statement (.lh d a imm) := of_word _ _ rfl <| by
  have key : ∀ w, (fOp w).toNat = 0x12 → decode w = .ok (.lh (fD w) (fA w) (fImm w)) := fun w h => by unfold decode; rw [h]; rfl
  rw [key _ (congrArg BitVec.toNat (fOp_wordRI ..))]
  simp (disch := decide) only [zeroField_zero, fD, fA, fB, fImm, fRange_wordRI, field_high, field_low,
    field_whole, Nat.sub_self, Nat.reduceSub]
theorem lhu (d : BitVec 5) (a : BitVec 5) (imm : BitVec 15) : Statement (.lhu d a imm) := of_word _ _ rfl <| by
  have key : ∀ w, (fOp w).toNat = 0x13 → decode w = .ok (.lhu (fD w) (fA w) (fImm w)) := fun w h => by unfold decode; rw [h]; rfl
  rw [key _ (congrArg BitVec.toNat (fOp_wordRI ..))]
  simp (disch := decide) only [zeroField_zero, fD, fA, fB, fImm, fRange_wordRI, field_high, field_low,
    field_whole, Nat.sub_self, Nat.reduceSub]
theorem lw (d : BitVec 5) (a : BitVec 5) (imm : BitVec 15) : Statement (.lw d a imm) := of_word _ _ rfl <| by
  have key : ∀ w, (fOp w).toNat = 0x14 → decode w = .ok (.lw (fD w) (fA w) (fImm w)) := fun w h => by unfold decode; rw [h]; rfl
  rw [key _ (congrArg BitVec.toNat (fOp_wordRI ..))]
  simp (disch := decide) only [zeroField_zero, fD, fA, fB, fImm, fRange_wordRI, field_high, field_low,
    field_whole, Nat.sub_self, Nat.reduceSub]
theorem lwu (d : BitVec 5) (a : BitVec 5) (imm : BitVec 15) : Statement (.lwu d a imm) := of_word _ _ rfl <| by
  have key : ∀ w, (fOp w).toNat = 0x15 → decode w = .ok (.lwu (fD w) (fA w) (fImm w)) := fun w h => by unfold decode; rw [h]; rfl
  rw [key _ (congrArg BitVec.toNat (fOp_wordRI ..))]
  simp (disch := decide) only [zeroField_zero, fD, fA, fB, fImm, fRange_wordRI, field_high, field_low,
    field_whole, Nat.sub_self, Nat.reduceSub]
theorem ld (d : BitVec 5) (a : BitVec 5) (imm : BitVec 15) : Statement (.ld d a imm) := of_word _ _ rfl <| by
  have key : ∀ w, (fOp w).toNat = 0x16 → decode w = .ok (.ld (fD w) (fA w) (fImm w)) := fun w h => by unfold decode; rw [h]; rfl
  rw [key _ (congrArg BitVec.toNat (fOp_wordRI ..))]
  simp (disch := decide) only [zeroField_zero, fD, fA, fB, fImm, fRange_wordRI, field_high, field_low,
    field_whole, Nat.sub_self, Nat.reduceSub]
theorem sb (d : BitVec 5) (a : BitVec 5) (imm : BitVec 15) : Statement (.sb d a imm) := of_word _ _ rfl <| by
  have key : ∀ w, (fOp w).toNat = 0x18 → decode w = .ok (.sb (fD w) (fA w) (fImm w)) := fun w h => by unfold decode; rw [h]; rfl
  rw [key _ (congrArg BitVec.toNat (fOp_wordRI ..))]
  simp (disch := decide) only [zeroField_zero, fD, fA, fB, fImm, fRange_wordRI, field_high, field_low,
    field_whole, Nat.sub_self, Nat.reduceSub]
theorem sh (d : BitVec 5) (a : BitVec 5) (imm : BitVec 15) : Statement (.sh d a imm) := of_word _ _ rfl <| by
  have key : ∀ w, (fOp w).toNat = 0x19 → decode w = .ok (.sh (fD w) (fA w) (fImm w)) := fun w h => by unfold decode; rw [h]; rfl
  rw [key _ (congrArg BitVec.toNat (fOp_wordRI ..))]
  simp (disch := decide) only [zeroField_zero, fD, fA, fB, fImm, fRange_wordRI, field_high, field_low,
    field_whole, Nat.sub_self, Nat.reduceSub]
theorem sw (d : BitVec 5) (a : BitVec 5) (imm : BitVec 15) : Statement (.sw d a imm) := of_word _ _ rfl <| by
  have key : ∀ w, (fOp w).toNat = 0x1a → decode w = .ok (.sw (fD w) (fA w) (fImm w)) := fun w h => by unfold decode; rw [h]; rfl
  rw [key _ (congrArg BitVec.toNat (fOp_wordRI ..))]
  simp (disch := decide) only [zeroField_zero, fD, fA, fB, fImm, fRange_wordRI, field_high, field_low,
    field_whole, Nat.sub_self, Nat.reduceSub]
theorem sd (d : BitVec 5) (a : BitVec 5) (imm : BitVec 15) : Statement (.sd d a imm) := of_word _ _ rfl <| by
  have key : ∀ w, (fOp w).toNat = 0x1b → decode w = .ok (.sd (fD w) (fA w) (fImm w)) := fun w h => by unfold decode; rw [h]; rfl
  rw [key _ (congrArg BitVec.toNat (fOp_wordRI ..))]
  simp (disch := decide) only [zeroField_zero, fD, fA, fB, fImm, fRange_wordRI, field_high, field_low,
    field_whole, Nat.sub_self, Nat.reduceSub]
theorem ldp (d : BitVec 5) (a : BitVec 5) (imm : BitVec 15) : Statement (.ldp d a imm) := of_word _ _ rfl <| by
  have key : ∀ w, (fOp w).toNat = 0x1c → decode w = .ok (.ldp (fD w) (fA w) (fImm w)) := fun w h => by unfold decode; rw [h]; rfl
  rw [key _ (congrArg BitVec.toNat (fOp_wordRI ..))]
  simp (disch := decide) only [zeroField_zero, fD, fA, fB, fImm, fRange_wordRI, field_high, field_low,
    field_whole, Nat.sub_self, Nat.reduceSub]
theorem stp (d : BitVec 5) (a : BitVec 5) (imm : BitVec 15) : Statement (.stp d a imm) := of_word _ _ rfl <| by
  have key : ∀ w, (fOp w).toNat = 0x1d → decode w = .ok (.stp (fD w) (fA w) (fImm w)) := fun w h => by unfold decode; rw [h]; rfl
  rw [key _ (congrArg BitVec.toNat (fOp_wordRI ..))]
  simp (disch := decide) only [zeroField_zero, fD, fA, fB, fImm, fRange_wordRI, field_high, field_low,
    field_whole, Nat.sub_self, Nat.reduceSub]
theorem lda (d : BitVec 5) (a : BitVec 5) (width : BitVec 2) (scope : BitVec 2) : Statement (.lda d a width scope) := of_word _ _ rfl <| by
  have key : ∀ w, (fOp w).toNat = 0x1e → decode w = zeroField (fRange w 4 11) (.ok (.lda (fD w) (fA w) (fRange w 2 2) (fRange w 0 2))) := fun w h => by unfold decode; rw [h]; rfl
  rw [key _ (congrArg BitVec.toNat (fOp_wordRR ..))]
  have h := unused_lda 0x1e d a width scope
  simp (disch := decide) only [h, zeroField_zero, fD, fA, fB, fImm, fRange_wordRR, field_high, field_low,
    field_whole, Nat.sub_self, Nat.reduceSub]
theorem sdr (a : BitVec 5) (b : BitVec 5) (width : BitVec 2) (scope : BitVec 2) : Statement (.sdr a b width scope) := of_word _ _ rfl <| by
  have key : ∀ w, (fOp w).toNat = 0x1f → decode w = zeroField (fD w) (zeroField (fRange w 4 6) (.ok (.sdr (fA w) (fB w) (fRange w 2 2) (fRange w 0 2)))) := fun w h => by unfold decode; rw [h]; rfl
  rw [key _ (congrArg BitVec.toNat (fOp_wordRR ..))]
  simp (disch := decide) only [zeroField_zero, fD, fA, fB, fImm, fRange_wordRR, field_high, field_low,
    field_whole, Nat.sub_self, Nat.reduceSub]
  rfl
theorem beq (a : BitVec 5) (b : BitVec 5) (off : BitVec 15) : Statement (.beq a b off) := of_word _ _ rfl <| by
  have key : ∀ w, (fOp w).toNat = 0x20 → decode w = .ok (.beq (fD w) (fA w) (fImm w)) := fun w h => by unfold decode; rw [h]; rfl
  rw [key _ (congrArg BitVec.toNat (fOp_wordRI ..))]
  simp (disch := decide) only [zeroField_zero, fD, fA, fB, fImm, fRange_wordRI, field_high, field_low,
    field_whole, Nat.sub_self, Nat.reduceSub]
theorem bne (a : BitVec 5) (b : BitVec 5) (off : BitVec 15) : Statement (.bne a b off) := of_word _ _ rfl <| by
  have key : ∀ w, (fOp w).toNat = 0x21 → decode w = .ok (.bne (fD w) (fA w) (fImm w)) := fun w h => by unfold decode; rw [h]; rfl
  rw [key _ (congrArg BitVec.toNat (fOp_wordRI ..))]
  simp (disch := decide) only [zeroField_zero, fD, fA, fB, fImm, fRange_wordRI, field_high, field_low,
    field_whole, Nat.sub_self, Nat.reduceSub]
theorem blt (a : BitVec 5) (b : BitVec 5) (off : BitVec 15) : Statement (.blt a b off) := of_word _ _ rfl <| by
  have key : ∀ w, (fOp w).toNat = 0x22 → decode w = .ok (.blt (fD w) (fA w) (fImm w)) := fun w h => by unfold decode; rw [h]; rfl
  rw [key _ (congrArg BitVec.toNat (fOp_wordRI ..))]
  simp (disch := decide) only [zeroField_zero, fD, fA, fB, fImm, fRange_wordRI, field_high, field_low,
    field_whole, Nat.sub_self, Nat.reduceSub]
theorem bge (a : BitVec 5) (b : BitVec 5) (off : BitVec 15) : Statement (.bge a b off) := of_word _ _ rfl <| by
  have key : ∀ w, (fOp w).toNat = 0x23 → decode w = .ok (.bge (fD w) (fA w) (fImm w)) := fun w h => by unfold decode; rw [h]; rfl
  rw [key _ (congrArg BitVec.toNat (fOp_wordRI ..))]
  simp (disch := decide) only [zeroField_zero, fD, fA, fB, fImm, fRange_wordRI, field_high, field_low,
    field_whole, Nat.sub_self, Nat.reduceSub]
theorem bltu (a : BitVec 5) (b : BitVec 5) (off : BitVec 15) : Statement (.bltu a b off) := of_word _ _ rfl <| by
  have key : ∀ w, (fOp w).toNat = 0x24 → decode w = .ok (.bltu (fD w) (fA w) (fImm w)) := fun w h => by unfold decode; rw [h]; rfl
  rw [key _ (congrArg BitVec.toNat (fOp_wordRI ..))]
  simp (disch := decide) only [zeroField_zero, fD, fA, fB, fImm, fRange_wordRI, field_high, field_low,
    field_whole, Nat.sub_self, Nat.reduceSub]
theorem bgeu (a : BitVec 5) (b : BitVec 5) (off : BitVec 15) : Statement (.bgeu a b off) := of_word _ _ rfl <| by
  have key : ∀ w, (fOp w).toNat = 0x25 → decode w = .ok (.bgeu (fD w) (fA w) (fImm w)) := fun w h => by unfold decode; rw [h]; rfl
  rw [key _ (congrArg BitVec.toNat (fOp_wordRI ..))]
  simp (disch := decide) only [zeroField_zero, fD, fA, fB, fImm, fRange_wordRI, field_high, field_low,
    field_whole, Nat.sub_self, Nat.reduceSub]
theorem j (off : BitVec 25) : Statement (.j off) := of_word _ _ rfl <| by
  have key : ∀ w, (fOp w).toNat = 0x28 → decode w = .ok (.j (fRange w 0 25)) := fun w h => by unfold decode; rw [h]; rfl
  rw [key _ (congrArg BitVec.toNat (fOp_wordJ ..))]
  simp (disch := decide) only [zeroField_zero, fD, fA, fB, fImm, fRange_wordJ, field_high, field_low,
    field_whole, Nat.sub_self, Nat.reduceSub]
theorem jal (off : BitVec 25) : Statement (.jal off) := of_word _ _ rfl <| by
  have key : ∀ w, (fOp w).toNat = 0x29 → decode w = .ok (.jal (fRange w 0 25)) := fun w h => by unfold decode; rw [h]; rfl
  rw [key _ (congrArg BitVec.toNat (fOp_wordJ ..))]
  simp (disch := decide) only [zeroField_zero, fD, fA, fB, fImm, fRange_wordJ, field_high, field_low,
    field_whole, Nat.sub_self, Nat.reduceSub]
theorem jalr (link : BitVec 1) (a : BitVec 5) (imm : BitVec 15) : Statement (.jalr link a imm) := of_word _ _ rfl <| by
  have key : ∀ w, (fOp w).toNat = 0x2a → decode w = zeroField (fRange w 21 4) (.ok (.jalr (fRange w 20 1) (fA w) (fImm w))) := fun w h => by unfold decode; rw [h]; rfl
  rw [key _ (congrArg BitVec.toNat (fOp_wordRI ..))]
  simp (disch := decide) only [zeroField_zero, fD, fA, fB, fImm, fRange_wordRI, field_high, field_low,
    field_whole, Nat.sub_self, Nat.reduceSub]
theorem hint (off : BitVec 25) : Statement (.hint off) := of_word _ _ rfl <| by
  have key : ∀ w, (fOp w).toNat = 0x2b → decode w = .ok (.hint (fRange w 0 25)) := fun w h => by unfold decode; rw [h]; rfl
  rw [key _ (congrArg BitVec.toNat (fOp_wordJ ..))]
  simp (disch := decide) only [zeroField_zero, fD, fA, fB, fImm, fRange_wordJ, field_high, field_low,
    field_whole, Nat.sub_self, Nat.reduceSub]
theorem take (d : BitVec 5) (a : BitVec 5) (act : BitVec 2) (wmask : BitVec 4) (map : BitVec 2) : Statement (.take d a act wmask map) := of_word _ _ rfl <| by
  have key : ∀ w, (fOp w).toNat = 0x30 → decode w = zeroField (fRange w 8 7) (.ok (.take (fD w) (fA w) (fRange w 6 2) (fRange w 2 4) (fRange w 0 2))) := fun w h => by unfold decode; rw [h]; rfl
  rw [key _ (congrArg BitVec.toNat (fOp_wordRI ..))]
  simp (disch := decide) only [zeroField_zero, fD, fA, fB, fImm, fRange_wordRI, field_high, field_low,
    field_whole, Nat.sub_self, Nat.reduceSub]
theorem ctx (d : BitVec 5) (a : BitVec 5) (wmask : BitVec 4) (map : BitVec 2) : Statement (.ctx d a wmask map) := of_word _ _ rfl <| by
  have key : ∀ w, (fOp w).toNat = 0x31 → decode w = zeroField (fRange w 6 9) (.ok (.ctx (fD w) (fA w) (fRange w 2 4) (fRange w 0 2))) := fun w h => by unfold decode; rw [h]; rfl
  rw [key _ (congrArg BitVec.toNat (fOp_wordRI ..))]
  simp (disch := decide) only [zeroField_zero, fD, fA, fB, fImm, fRange_wordRI, field_high, field_low,
    field_whole, Nat.sub_self, Nat.reduceSub]
theorem bindSource (d : BitVec 5) (a : BitVec 5) (b : BitVec 5) (port : BitVec 8) : Statement (.bindSource d a b port) := of_word _ _ rfl <| by
  have key : ∀ w, (fOp w).toNat = 0x32 → decode w = decodeBind w := fun w h => by unfold decode; rw [h]; rfl
  rw [key _ (congrArg BitVec.toNat (fOp_wordRR ..))]
  simp (disch := decide) only [decodeBind, zeroField_zero, fD, fA, fB, fImm, fRange_wordRR, field_high, field_low,
    field_whole, Nat.sub_self, Nat.reduceSub]
  rfl
theorem bindSink (d : BitVec 5) (a : BitVec 5) (b : BitVec 5) (port : BitVec 8) : Statement (.bindSink d a b port) := of_word _ _ rfl <| by
  have key : ∀ w, (fOp w).toNat = 0x32 → decode w = decodeBind w := fun w h => by unfold decode; rw [h]; rfl
  rw [key _ (congrArg BitVec.toNat (fOp_wordRR ..))]
  simp (disch := decide) only [decodeBind, zeroField_zero, fD, fA, fB, fImm, fRange_wordRR, field_high, field_low,
    field_whole, Nat.sub_self, Nat.reduceSub]
  rfl
theorem bindSeed (d : BitVec 5) (port : BitVec 8) : Statement (.bindSeed d port) := of_word _ _ rfl <| by
  have key : ∀ w, (fOp w).toNat = 0x32 → decode w = decodeBind w := fun w h => by unfold decode; rw [h]; rfl
  rw [key _ (congrArg BitVec.toNat (fOp_wordRR ..))]
  have h := unused_ab 0x32 d (2#2 ++ port)
  simp (disch := decide) only [decodeBind, h, zeroField_zero, fD, fA, fB, fImm, fRange_wordRR, field_high, field_low,
    field_whole, Nat.sub_self, Nat.reduceSub]
  rfl
theorem bindQuery (d : BitVec 5) (port : BitVec 8) : Statement (.bindQuery d port) := of_word _ _ rfl <| by
  have key : ∀ w, (fOp w).toNat = 0x32 → decode w = decodeBind w := fun w h => by unfold decode; rw [h]; rfl
  rw [key _ (congrArg BitVec.toNat (fOp_wordRR ..))]
  have h := unused_ab 0x32 d (3#2 ++ port)
  simp (disch := decide) only [decodeBind, h, zeroField_zero, fD, fA, fB, fImm, fRange_wordRR, field_high, field_low,
    field_whole, Nat.sub_self, Nat.reduceSub]
theorem seed (d : BitVec 5) (a : BitVec 5) (b : BitVec 5) (port : BitVec 8) : Statement (.seed d a b port) := of_word _ _ rfl <| by
  have key : ∀ w, (fOp w).toNat = 0x33 → decode w = zeroField (fRange w 8 2) (.ok (.seed (fD w) (fA w) (fB w) (fRange w 0 8))) := fun w h => by unfold decode; rw [h]; rfl
  rw [key _ (congrArg BitVec.toNat (fOp_wordRR ..))]
  simp (disch := decide) only [zeroField_zero, fD, fA, fB, fImm, fRange_wordRR, field_high, field_low,
    field_whole, Nat.sub_self, Nat.reduceSub]
theorem wrapw (d : BitVec 5) : Statement (.wrapw d) := of_word _ _ rfl <| by
  have key : ∀ w, (fOp w).toNat = 0x34 → decode w = zeroField (fRange w 0 20) (.ok (.wrapw (fD w))) := fun w h => by unfold decode; rw [h]; rfl
  rw [key _ (congrArg BitVec.toNat (fOp_wordRR ..))]
  have h := unused_abfn 0x34 d
  simp (disch := decide) only [h, zeroField_zero, fD, fA, fB, fImm, fRange_wordRR, field_high, field_low,
    field_whole, Nat.sub_self, Nat.reduceSub]
theorem hold (d : BitVec 5) : Statement (.hold d) := of_word _ _ rfl <| by
  have key : ∀ w, (fOp w).toNat = 0x35 → decode w = zeroField (fRange w 0 20) (.ok (.hold (fD w))) := fun w h => by unfold decode; rw [h]; rfl
  rw [key _ (congrArg BitVec.toNat (fOp_wordRR ..))]
  have h := unused_abfn 0x35 d
  simp (disch := decide) only [h, zeroField_zero, fD, fA, fB, fImm, fRange_wordRR, field_high, field_low,
    field_whole, Nat.sub_self, Nat.reduceSub]
theorem cue (d : BitVec 5) (a : BitVec 5) : Statement (.cue d a) := of_word _ _ rfl <| by
  have key : ∀ w, (fOp w).toNat = 0x38 → decode w = zeroField (fRange w 0 15) (.ok (.cue (fD w) (fA w))) := fun w h => by unfold decode; rw [h]; rfl
  rw [key _ (congrArg BitVec.toNat (fOp_wordRR ..))]
  have h := unused_bfn 0x38 d a
  simp (disch := decide) only [h, zeroField_zero, fD, fA, fB, fImm, fRange_wordRR, field_high, field_low,
    field_whole, Nat.sub_self, Nat.reduceSub]
theorem waitc (l : BitVec 5) (st : BitVec 5) (c : BitVec 9) (t : BitVec 6) : Statement (.waitc l st c t) := of_word _ _ rfl <| by
  have key : ∀ w, (fOp w).toNat = 0x39 → decode w = .ok (.waitc (fD w) (fA w) (fRange w 6 9) (fRange w 0 6)) := fun w h => by unfold decode; rw [h]; rfl
  rw [key _ (congrArg BitVec.toNat (fOp_wordW ..))]
  simp (disch := decide) only [zeroField_zero, fD, fA, fB, fImm, fRange_wordW, field_high, field_low,
    field_whole, Nat.sub_self, Nat.reduceSub]
theorem fence (scope : BitVec 2) : Statement (.fence scope) := of_word _ _ rfl <| by
  have key : ∀ w, (fOp w).toNat = 0x3a → decode w = zeroField (fRange w 2 23) (.ok (.fence (fRange w 0 2))) := fun w h => by unfold decode; rw [h]; rfl
  rw [key _ (congrArg BitVec.toNat (fOp_wordRR ..))]
  have h := unused_fence scope
  simp (disch := decide) only [h, zeroField_zero, fD, fA, fB, fImm, fRange_wordRR, field_high, field_low,
    field_whole, Nat.sub_self, Nat.reduceSub]
theorem spawn (d : BitVec 5) (a : BitVec 5) : Statement (.spawn d a) := of_word _ _ rfl <| by
  have key : ∀ w, (fOp w).toNat = 0x3b → decode w = zeroField (fRange w 0 15) (.ok (.spawn (fD w) (fA w))) := fun w h => by unfold decode; rw [h]; rfl
  rw [key _ (congrArg BitVec.toNat (fOp_wordRR ..))]
  have h := unused_bfn 0x3b d a
  simp (disch := decide) only [h, zeroField_zero, fD, fA, fB, fImm, fRange_wordRR, field_high, field_low,
    field_whole, Nat.sub_self, Nat.reduceSub]
theorem join (a : BitVec 5) : Statement (.join a) := of_word _ _ rfl <| by
  have key : ∀ w, (fOp w).toNat = 0x3c → decode w = zeroField (fD w) (zeroField (fRange w 0 15) (.ok (.join (fA w)))) := fun w h => by unfold decode; rw [h]; rfl
  rw [key _ (congrArg BitVec.toNat (fOp_wordRR ..))]
  have h := unused_bfn 0x3c 0 a
  simp (disch := decide) only [h, zeroField_zero, fD, fA, fB, fImm, fRange_wordRR, field_high, field_low,
    field_whole, Nat.sub_self, Nat.reduceSub]
  rfl
theorem bar (d : BitVec 5) (a : BitVec 5) (phase : BitVec 1) : Statement (.bar d a phase) := of_word _ _ rfl <| by
  have key : ∀ w, (fOp w).toNat = 0x3d → decode w = zeroField (fRange w 1 14) (.ok (.bar (fD w) (fA w) (fRange w 0 1))) := fun w h => by unfold decode; rw [h]; rfl
  rw [key _ (congrArg BitVec.toNat (fOp_wordRI ..))]
  simp (disch := decide) only [zeroField_zero, fD, fA, fB, fImm, fRange_wordRI, field_high, field_low,
    field_whole, Nat.sub_self, Nat.reduceSub]
theorem algld (a : BitVec 5) (slot : BitVec 15) : Statement (.algld a slot) := of_word _ _ rfl <| by
  have key : ∀ w, (fOp w).toNat = 0x3e → decode w = zeroField (fD w) (.ok (.algld (fA w) (fImm w))) := fun w h => by unfold decode; rw [h]; rfl
  rw [key _ (congrArg BitVec.toNat (fOp_wordRI ..))]
  simp (disch := decide) only [zeroField_zero, fD, fA, fB, fImm, fRange_wordRI, field_high, field_low,
    field_whole, Nat.sub_self, Nat.reduceSub]
  rfl
theorem trap (imm : BitVec 15) : Statement (.trap imm) := of_word _ _ rfl <| by
  have key : ∀ w, (fOp w).toNat = 0x40 → decode w = zeroField (fRange w 15 10) (.ok (.trap (fImm w))) := fun w h => by unfold decode; rw [h]; rfl
  rw [key _ (congrArg BitVec.toNat (fOp_wordRI ..))]
  simp (disch := decide) only [zeroField_zero, fD, fA, fB, fImm, fRange_wordRI, field_high, field_low,
    field_whole, Nat.sub_self, Nat.reduceSub]
  rfl
theorem tret : Statement .tret := of_word _ _ rfl <| by
  have key : ∀ w, (fOp w).toNat = 0x41 → decode w = zeroField (fRange w 0 25) (.ok .tret) := fun w h => by unfold decode; rw [h]; rfl
  rw [key _ (congrArg BitVec.toNat (fOp_wordRR ..))]
  simp (disch := decide) only [zeroField_zero, fD, fA, fB, fImm, fRange_wordRR, field_high, field_low,
    field_whole, Nat.sub_self, Nat.reduceSub]
  rfl
theorem sysr (d : BitVec 5) (reg : BitVec 12) : Statement (.sysr d reg) := of_word _ _ rfl <| by
  have key : ∀ w, (fOp w).toNat = 0x42 → decode w = zeroField (fRange w 0 8) (.ok (.sysr (fD w) (fRange w 8 12))) := fun w h => by unfold decode; rw [h]; rfl
  rw [key _ (congrArg BitVec.toNat (fOp_wordSY ..))]
  simp (disch := decide) only [zeroField_zero, fD, fA, fB, fImm, fRange_wordSY, field_high, field_low,
    field_whole, Nat.sub_self, Nat.reduceSub]
theorem sysw (d : BitVec 5) (reg : BitVec 12) : Statement (.sysw d reg) := of_word _ _ rfl <| by
  have key : ∀ w, (fOp w).toNat = 0x43 → decode w = zeroField (fRange w 0 8) (.ok (.sysw (fD w) (fRange w 8 12))) := fun w h => by unfold decode; rw [h]; rfl
  rw [key _ (congrArg BitVec.toNat (fOp_wordSY ..))]
  simp (disch := decide) only [zeroField_zero, fD, fA, fB, fImm, fRange_wordSY, field_high, field_low,
    field_whole, Nat.sub_self, Nat.reduceSub]
theorem copy (op : Nat) : Statement (.copy op) := of_none _ rfl
theorem copyad (op : Nat) : Statement (.copyad op) := of_none _ rfl
theorem rgather (op : Nat) : Statement (.rgather op) := of_none _ rfl
theorem zero (op : Nat) : Statement (.zero op) := of_none _ rfl
theorem walk (op : Nat) : Statement (.walk op) := of_none _ rfl
theorem rsload (op : Nat) : Statement (.rsload op) := of_none _ rfl
theorem rsrel (op : Nat) : Statement (.rsrel op) := of_none _ rfl
theorem atadd (op : Nat) : Statement (.atadd op) := of_none _ rfl
theorem atmin (op : Nat) : Statement (.atmin op) := of_none _ rfl
theorem atmax (op : Nat) : Statement (.atmax op) := of_none _ rfl
theorem atand (op : Nat) : Statement (.atand op) := of_none _ rfl
theorem ator (op : Nat) : Statement (.ator op) := of_none _ rfl
theorem atxor (op : Nat) : Statement (.atxor op) := of_none _ rfl
theorem atswp (op : Nat) : Statement (.atswp op) := of_none _ rfl
theorem atcas (op : Nat) : Statement (.atcas op) := of_none _ rfl
theorem accadd (op : Nat) : Statement (.accadd op) := of_none _ rfl
theorem barinit (op : Nat) : Statement (.barinit op) := of_none _ rfl
theorem arrive (op : Nat) : Statement (.arrive op) := of_none _ rfl
theorem alloc (op : Nat) : Statement (.alloc op) := of_none _ rfl
theorem swrite (op : Nat) : Statement (.swrite op) := of_none _ rfl
theorem sread (op : Nat) : Statement (.sread op) := of_none _ rfl
theorem cbind (op : Nat) : Statement (.cbind op) := of_none _ rfl
theorem crel (op : Nat) : Statement (.crel op) := of_none _ rfl
theorem regen (op : Nat) : Statement (.regen op) := of_none _ rfl
theorem save (op : Nat) : Statement (.save op) := of_none _ rfl
theorem restore (op : Nat) : Statement (.restore op) := of_none _ rfl
theorem pass (stage : Nat) (tile : Nat) (oslot : Nat) : Statement (.pass stage tile oslot) := of_none _ rfl
theorem steer (stage : Nat) (tile : Nat) (oslot : Nat) : Statement (.steer stage tile oslot) := of_none _ rfl
theorem merge (stage : Nat) (tile : Nat) (oslot : Nat) : Statement (.merge stage tile oslot) := of_none _ rfl
theorem carry (stage : Nat) (tile : Nat) (oslot : Nat) : Statement (.carry stage tile oslot) := of_none _ rfl
theorem invar (stage : Nat) (tile : Nat) (oslot : Nat) : Statement (.invar stage tile oslot) := of_none _ rfl
theorem fork (stage : Nat) (tile : Nat) (oslot : Nat) : Statement (.fork stage tile oslot) := of_none _ rfl
theorem joinOperator (stage : Nat) (tile : Nat) (oslot : Nat) : Statement (.joinOperator stage tile oslot) := of_none _ rfl
theorem permit (stage : Nat) (tile : Nat) (oslot : Nat) : Statement (.permit stage tile oslot) := of_none _ rfl
theorem aluAdd (stage : Nat) (slot : Nat) : Statement (.aluAdd stage slot) := of_none _ rfl
theorem aluSub (stage : Nat) (slot : Nat) : Statement (.aluSub stage slot) := of_none _ rfl
theorem aluMul (stage : Nat) (slot : Nat) : Statement (.aluMul stage slot) := of_none _ rfl
theorem aluFma (stage : Nat) (slot : Nat) : Statement (.aluFma stage slot) := of_none _ rfl
theorem aluMin (stage : Nat) (slot : Nat) : Statement (.aluMin stage slot) := of_none _ rfl
theorem aluMax (stage : Nat) (slot : Nat) : Statement (.aluMax stage slot) := of_none _ rfl
theorem aluAbs (stage : Nat) (slot : Nat) : Statement (.aluAbs stage slot) := of_none _ rfl
theorem aluNeg (stage : Nat) (slot : Nat) : Statement (.aluNeg stage slot) := of_none _ rfl
theorem aluRcp (stage : Nat) (slot : Nat) : Statement (.aluRcp stage slot) := of_none _ rfl
theorem aluRsqrt (stage : Nat) (slot : Nat) : Statement (.aluRsqrt stage slot) := of_none _ rfl
theorem aluAdds (stage : Nat) (slot : Nat) : Statement (.aluAdds stage slot) := of_none _ rfl
theorem aluSubs (stage : Nat) (slot : Nat) : Statement (.aluSubs stage slot) := of_none _ rfl
theorem aluCeq (stage : Nat) (slot : Nat) : Statement (.aluCeq stage slot) := of_none _ rfl
theorem aluCne (stage : Nat) (slot : Nat) : Statement (.aluCne stage slot) := of_none _ rfl
theorem aluClt (stage : Nat) (slot : Nat) : Statement (.aluClt stage slot) := of_none _ rfl
theorem aluCle (stage : Nat) (slot : Nat) : Statement (.aluCle stage slot) := of_none _ rfl
theorem aluSel (stage : Nat) (slot : Nat) : Statement (.aluSel stage slot) := of_none _ rfl
theorem aluAnd (stage : Nat) (slot : Nat) : Statement (.aluAnd stage slot) := of_none _ rfl
theorem aluOr (stage : Nat) (slot : Nat) : Statement (.aluOr stage slot) := of_none _ rfl
theorem aluXor (stage : Nat) (slot : Nat) : Statement (.aluXor stage slot) := of_none _ rfl
theorem aluNot (stage : Nat) (slot : Nat) : Statement (.aluNot stage slot) := of_none _ rfl
theorem aluShl (stage : Nat) (slot : Nat) : Statement (.aluShl stage slot) := of_none _ rfl
theorem aluShr (stage : Nat) (slot : Nat) : Statement (.aluShr stage slot) := of_none _ rfl
theorem aluSra (stage : Nat) (slot : Nat) : Statement (.aluSra stage slot) := of_none _ rfl
theorem aluClz (stage : Nat) (slot : Nat) : Statement (.aluClz stage slot) := of_none _ rfl
theorem aluPopc (stage : Nat) (slot : Nat) : Statement (.aluPopc stage slot) := of_none _ rfl
theorem aluMov (stage : Nat) (slot : Nat) : Statement (.aluMov stage slot) := of_none _ rfl
theorem aluBcast (stage : Nat) (slot : Nat) : Statement (.aluBcast stage slot) := of_none _ rfl
theorem algAmul (stage : Nat) (slot : Nat) : Statement (.algAmul stage slot) := of_none _ rfl
theorem algAconj (stage : Nat) (slot : Nat) : Statement (.algAconj stage slot) := of_none _ rfl
theorem algAnorm (stage : Nat) (slot : Nat) : Statement (.algAnorm stage slot) := of_none _ rfl
theorem algAscale (stage : Nat) (slot : Nat) : Statement (.algAscale stage slot) := of_none _ rfl
theorem algAadd (stage : Nat) (slot : Nat) : Statement (.algAadd stage slot) := of_none _ rfl
theorem algAsub (stage : Nat) (slot : Nat) : Statement (.algAsub stage slot) := of_none _ rfl
theorem cvtCvt (stage : Nat) (slot : Nat) : Statement (.cvtCvt stage slot) := of_none _ rfl
theorem cvtCvti (stage : Nat) (slot : Nat) : Statement (.cvtCvti stage slot) := of_none _ rfl
theorem cvtCvtf (stage : Nat) (slot : Nat) : Statement (.cvtCvtf stage slot) := of_none _ rfl
theorem cvtCvta (stage : Nat) (slot : Nat) : Statement (.cvtCvta stage slot) := of_none _ rfl
theorem wcvSplit (stage : Nat) (slot : Nat) : Statement (.wcvSplit stage slot) := of_none _ rfl
theorem wcvPack (stage : Nat) (slot : Nat) : Statement (.wcvPack stage slot) := of_none _ rfl
theorem wcvUnzip (stage : Nat) (slot : Nat) : Statement (.wcvUnzip stage slot) := of_none _ rfl
theorem rdcSumc (stage : Nat) (slot : Nat) : Statement (.rdcSumc stage slot) := of_none _ rfl
theorem rdcSuma (stage : Nat) (slot : Nat) : Statement (.rdcSuma stage slot) := of_none _ rfl
theorem rdcMaxr (stage : Nat) (slot : Nat) : Statement (.rdcMaxr stage slot) := of_none _ rfl
theorem rdcMinr (stage : Nat) (slot : Nat) : Statement (.rdcMinr stage slot) := of_none _ rfl
theorem rdcCnt (stage : Nat) (slot : Nat) : Statement (.rdcCnt stage slot) := of_none _ rfl
theorem rdcArgmax (stage : Nat) (slot : Nat) : Statement (.rdcArgmax stage slot) := of_none _ rfl
theorem seqRange (stage : Nat) (slot : Nat) : Statement (.seqRange stage slot) := of_none _ rfl
theorem seqNest (stage : Nat) (slot : Nat) : Statement (.seqNest stage slot) := of_none _ rfl
theorem seqMtok (stage : Nat) (slot : Nat) : Statement (.seqMtok stage slot) := of_none _ rfl
theorem seqBtab (stage : Nat) (slot : Nat) : Statement (.seqBtab stage slot) := of_none _ rfl
theorem seqTags (stage : Nat) (slot : Nat) : Statement (.seqTags stage slot) := of_none _ rfl
theorem isxIsect (stage : Nat) (slot : Nat) : Statement (.isxIsect stage slot) := of_none _ rfl
theorem isxUnion (stage : Nat) (slot : Nat) : Statement (.isxUnion stage slot) := of_none _ rfl
theorem isxDiff (stage : Nat) (slot : Nat) : Statement (.isxDiff stage slot) := of_none _ rfl
theorem spaAccum (stage : Nat) (slot : Nat) : Statement (.spaAccum stage slot) := of_none _ rfl
theorem spaFlush (stage : Nat) (slot : Nat) : Statement (.spaFlush stage slot) := of_none _ rfl
theorem spaFlushs (stage : Nat) (slot : Nat) : Statement (.spaFlushs stage slot) := of_none _ rfl
theorem spaClr (stage : Nat) (slot : Nat) : Statement (.spaClr stage slot) := of_none _ rfl
theorem fltKeep (stage : Nat) (slot : Nat) : Statement (.fltKeep stage slot) := of_none _ rfl
theorem fltDrop (stage : Nat) (slot : Nat) : Statement (.fltDrop stage slot) := of_none _ rfl
theorem fltCompact (stage : Nat) (slot : Nat) : Statement (.fltCompact stage slot) := of_none _ rfl
theorem ordReord (stage : Nat) (slot : Nat) : Statement (.ordReord stage slot) := of_none _ rfl
theorem ordTag (stage : Nat) (slot : Nat) : Statement (.ordTag stage slot) := of_none _ rfl
theorem elbSlack (stage : Nat) (slot : Nat) : Statement (.elbSlack stage slot) := of_none _ rfl
theorem elbWatch (stage : Nat) (slot : Nat) : Statement (.elbWatch stage slot) := of_none _ rfl
theorem crtTurn (stage : Nat) (slot : Nat) : Statement (.crtTurn stage slot) := of_none _ rfl
theorem crtTurnw (stage : Nat) (slot : Nat) : Statement (.crtTurnw stage slot) := of_none _ rfl
theorem mma (stage : Nat) : Statement (.mma stage) := of_none _ rfl
theorem mmaa (stage : Nat) : Statement (.mmaa stage) := of_none _ rfl
theorem mmas (stage : Nat) : Statement (.mmas stage) := of_none _ rfl
theorem mmab (stage : Nat) : Statement (.mmab stage) := of_none _ rfl
theorem accClear (stage : Nat) : Statement (.accClear stage) := of_none _ rfl
theorem drainp (stage : Nat) : Statement (.drainp stage) := of_none _ rfl
theorem drainf (stage : Nat) : Statement (.drainf stage) := of_none _ rfl
theorem stat (stage : Nat) : Statement (.stat stage) := of_none _ rfl
theorem mtxNop (stage : Nat) : Statement (.mtxNop stage) := of_none _ rfl
theorem memLd (stage : Nat) (slot : Nat) : Statement (.memLd stage slot) := of_none _ rfl
theorem memSt (stage : Nat) (slot : Nat) : Statement (.memSt stage slot) := of_none _ rfl
theorem memLdx (stage : Nat) (slot : Nat) : Statement (.memLdx stage slot) := of_none _ rfl
theorem memStx (stage : Nat) (slot : Nat) : Statement (.memStx stage slot) := of_none _ rfl
theorem memGld (stage : Nat) (slot : Nat) : Statement (.memGld stage slot) := of_none _ rfl
theorem memGst (stage : Nat) (slot : Nat) : Statement (.memGst stage slot) := of_none _ rfl
theorem memGldx (stage : Nat) (slot : Nat) : Statement (.memGldx stage slot) := of_none _ rfl
theorem memGstx (stage : Nat) (slot : Nat) : Statement (.memGstx stage slot) := of_none _ rfl
theorem memTas (stage : Nat) (slot : Nat) : Statement (.memTas stage slot) := of_none _ rfl
theorem memRadd (stage : Nat) (slot : Nat) : Statement (.memRadd stage slot) := of_none _ rfl
theorem memRmin (stage : Nat) (slot : Nat) : Statement (.memRmin stage slot) := of_none _ rfl
theorem memRmax (stage : Nat) (slot : Nat) : Statement (.memRmax stage slot) := of_none _ rfl
theorem memRor (stage : Nat) (slot : Nat) : Statement (.memRor stage slot) := of_none _ rfl
theorem memRand (stage : Nat) (slot : Nat) : Statement (.memRand stage slot) := of_none _ rfl
theorem memRxor (stage : Nat) (slot : Nat) : Statement (.memRxor stage slot) := of_none _ rfl
theorem memEcue (stage : Nat) (slot : Nat) : Statement (.memEcue stage slot) := of_none _ rfl
theorem gath (stage : Nat) : Statement (.gath stage) := of_none _ rfl
theorem gseq (stage : Nat) : Statement (.gseq stage) := of_none _ rfl
theorem accessPerform (stage : Nat) (index : Nat) : Statement (.accessPerform stage index) := of_none _ rfl
theorem squareGrant (stage : Nat) (array : Nat) (square : Nat) : Statement (.squareGrant stage array square) := of_none _ rfl
theorem combiningBufferRelease (stage : Nat) (index : Nat) : Statement (.combiningBufferRelease stage index) := of_none _ rfl
theorem freezeOrder (region : Nat) (cause : BitVec 16) : Statement (.freezeOrder region cause) := of_none _ rfl
theorem portTrainingComplete (port : Nat) (rtt : Nat) (halfWidth : Bool) (otherMesh : Bool) : Statement (.portTrainingComplete port rtt halfWidth otherMesh) := of_none _ rfl

end Encoding
end Sys2Proof.Laws
end

