-- ==== Sys2Proof/Laws/Port.lean ====
section
/-! SUPPORT. What the stream port's acceptance of an access does, and what a read of memory counts. -/
namespace Sys2Proof.Machine

/-- The port's acceptance changes the port's order alone. -/
theorem acceptNext_spec (s : State) (i : Nat) :
    SameButPort s (acceptNext s i).2 i ∧ ∀ d, SameButStamps s (acceptNext s i).2 d := by
  have h := stampLeft_spec s i
  unfold acceptNext
  generalize stampLeft s i = u at h
  exact ⟨sameButPort_trans h.1 (sameButPort_portNext u i _), h.2⟩

theorem memorySame_of_port {s t : State} {i : Nat} (h : SameButPort s t i) : MemorySame s t := by
  obtain ⟨h, n, hs⟩ := h
  refine ⟨fun _ _ => by rw [h]; rfl, fun _ => by rw [h], fun j a => ?_⟩
  rw [hs j]; split <;> exact ⟨rfl, rfl, rfl⟩

theorem countPiece_spec (s : State) (p : Piece) (h : p.host = false) : SameButCount s (countPiece s p) p.pa := by
  unfold countPiece
  rw [h]
  constructor <;> intro e <;> rw [e] <;> rfl

/-! ## Translations (12 R309, R311) -/

theorem usedCache_refl (s : State) : UsedCache s s := ⟨rfl, fun _ => rfl⟩

theorem usedCache_trans {s t u : State} (h : UsedCache s t) (k : UsedCache t u) : UsedCache s u := by
  obtain ⟨h, hc⟩ := h
  obtain ⟨k, kc⟩ := k
  have hs : t.soft = s.soft := by rw [h]
  exact ⟨by rw [k, h], fun e => (kc (hs.trans e)).trans (hc e)⟩

theorem usedCache_lastUsed (s : State) (e : TlbEntry) : UsedCache s (lastUsed s e) := ⟨rfl, fun _ => rfl⟩

theorem usedCache_countWalk (s : State) (crew : Nat) (va : Word) : UsedCache s (countWalk s crew va) := by
  unfold countWalk
  split
  · exact usedCache_refl s
  · rename_i he
    have h : ∀ (l : List Nat) (t : State), t = { s with chip := { s.chip with cecnt := t.chip.cecnt } } →
        let u := l.foldl (fun s b => countSoft s (homeDie (64 * b)) 1) t
        u = { s with chip := { s.chip with cecnt := u.chip.cecnt } } := by
      intro l
      induction l with
      | nil => exact fun t h => h
      | cons b l ih => intro t h; exact ih _ (by rw [h]; rfl)
    have hu := h ((walkTrail s va 4 1 (wbits (getCrew s crew).ptroot 12 34 * 4096)).filter s.soft.contains) s rfl
    exact ⟨hu.trans (by rw [hu]), fun e => absurd (by rw [e]; rfl) he⟩

/-- A translation goes through its cache: it may enter or move a cached leaf, and counts what its walk corrects. -/
theorem usePage_spec (s : State) (cache crew : Nat) (va : Word) (acc : Access) : UsedCache s (usePage s cache crew va acc) := by
  unfold usePage
  split
  · exact usedCache_refl s
  · split
    · exact usedCache_lastUsed s _
    · unfold walkPage
      split
      · refine usedCache_trans (usedCache_countWalk s crew va) ?_
        unfold cacheLeaf; dsimp only
        split
        · split
          · exact usedCache_refl _
          · exact usedCache_lastUsed _ _
        · exact usedCache_lastUsed _ _
      · exact usedCache_countWalk s crew va

theorem getCtx_used {s u : State} (h : UsedCache s u) (c : Nat) : getCtx u c = getCtx s c := by
  have := h.1; rw [this]; rfl

theorem curCtx_used {s u : State} (h : UsedCache s u) : curCtx u = curCtx s := by
  have hc : u.cur = s.cur := by have := h.1; rw [this]
  unfold curCtx; rw [hc]; exact getCtx_used h _

theorem memorySame_of_used {s u : State} (h : UsedCache s u) : MemorySame s u := by
  have := h.1; rw [this]; exact ⟨fun _ _ => rfl, fun _ => rfl, fun _ _ => ⟨rfl, rfl, rfl⟩⟩

theorem memorySame_trans {s t u : State} (h : MemorySame s t) (k : MemorySame t u) : MemorySame s u :=
  ⟨fun a b => (k.1 a b).trans (h.1 a b), fun a => (k.2.1 a).trans (h.2.1 a), fun i a =>
    ⟨((k.2.2 i a).1).trans (h.2.2 i a).1, ((k.2.2 i a).2.1).trans (h.2.2 i a).2.1, ((k.2.2 i a).2.2).trans (h.2.2 i a).2.2⟩⟩

/-! ## Issuing a load or a store -/

theorem othersSame_refl (s : State) (c : Nat) : OthersSame s s c := ⟨sameButPort_refl _ _, fun _ _ => sameButStamps_refl _ _⟩

theorem othersSame_trans {s t u : State} {c : Nat} (h : OthersSame s t c) (k : OthersSame t u c) : OthersSame s u c :=
  ⟨sameButPort_trans h.1 k.1, fun d e => sameButStamps_trans (h.2 d e) (k.2 d e)⟩

theorem othersSame_acceptNext (s : State) (c : Nat) : OthersSame s (acceptNext s (ctxStage c)).2 c :=
  ⟨(acceptNext_spec s _).1, fun d _ => (acceptNext_spec s _).2 d⟩

theorem othersSame_cur {s t : State} {c : Nat} (h : OthersSame s t c) : t.cur = s.cur := by rw [h.1.1]

/-- What issuing a store does where its page is reached and nothing holds it back. -/
theorem issueStore_spec (s : State) (va : Word) (bytes : List Byte) (rel : Bool) (sc : BitVec 2) (q : Piece)
    (hq : pieceOf s (ctxStage s.cur) (curCtx s).crew va bytes.length .write false = .ok q)
    (hw : accessWaits (curCtx s) q.kind = false) (hl : (curCtx s).stores.length < 31) :
    let x := curCtx s
    let t := issueStore s va bytes rel sc
    ∃ u e l, UsedCache s u ∧ OthersSame u t s.cur ∧
      curCtx t = { x with pc := x.pc + 4, wait := .none, stores := l ++ [e], nextSeq := x.nextSeq + 1
                          rushes := (freeRush x va q.pa).rushes } ∧
      SameStores l (if !e.buffered && storeFollows x q rel then (drainUO x).stores else x.stores) ∧ e.va = va ∧
      e.bytes = bytes ∧ e.pa = q.pa ∧ e.key = q.key ∧ e.kind = q.kind ∧ e.rel = (rel && q.kind == 0) ∧ e.scope = sc ∧
      e.buffered = (q.kind == 2 && !noComb s (ctxStage s.cur) && decide (combCount s (ctxStage s.cur) < 64)) := by
  intro x t
  have hl' : ¬ ((curCtx s).stores.length = 31) := by omega
  have hu := usePage_spec s (ctxStage s.cur) (curCtx s).crew va .write
  have hx0 : ∀ c, getCtx (usePage s (ctxStage s.cur) (curCtx s).crew va .write) c = getCtx s c := getCtx_used hu
  have hcu : (usePage s (ctxStage s.cur) (curCtx s).crew va .write).cur = s.cur := by have := hu.1; rw [this]
  cases hb : (q.kind == 2 && !noComb s (ctxStage s.cur) && decide (combCount s (ctxStage s.cur) < 64)) with
  | true =>
    have ht : t = advance (modCur (usePage s (ctxStage s.cur) (curCtx s).crew va .write) fun x =>
        { freeRush x va q.pa with
          stores := x.stores ++ [{ va, bytes, pa := q.pa, key := q.key, kind := q.kind, rel := rel && q.kind == 0, scope := sc,
                                   seq := x.nextSeq, buffered := true, stamp := 0 }],
          nextSeq := x.nextSeq + 1 }) := by
      show issueStore s va bytes rel sc = _
      unfold issueStore; rw [hq]; dsimp only; rw [if_neg (by simp [hw, hl'])]; simp only [hb]; rfl
    have hc := congrArg curCtx ht
    rw [curCtx_advance, curCtx_modCur] at hc
    rw [curCtx_used hu] at hc
    refine ⟨_, _, x.stores, hu, ?_, hc, by exact sameStores_refl _, rfl, rfl, rfl, rfl, rfl, rfl, rfl, rfl⟩
    rw [ht]; unfold advance modCur; rw [modCtx_cur, hcu]
    exact othersSame_modCtx (othersSame_modCtx (othersSame_refl _ _) _) _
  | false =>
    have ht : t = advance (modCur (acceptNext (if storeFollows (curCtx s) q rel then
          leaveBuffer (usePage s (ctxStage s.cur) (curCtx s).crew va .write) s.cur
        else usePage s (ctxStage s.cur) (curCtx s).crew va .write) (ctxStage s.cur)).2 fun x =>
        { freeRush x va q.pa with
          stores := x.stores ++ [{ va, bytes, pa := q.pa, key := q.key, kind := q.kind, rel := rel && q.kind == 0, scope := sc,
                                   seq := x.nextSeq, buffered := false, stamp := (acceptNext (if storeFollows (curCtx s) q rel then
          leaveBuffer (usePage s (ctxStage s.cur) (curCtx s).crew va .write) s.cur
        else usePage s (ctxStage s.cur) (curCtx s).crew va .write) (ctxStage s.cur)).1 }],
          nextSeq := x.nextSeq + 1 }) := by
      show issueStore s va bytes rel sc = _
      unfold issueStore; rw [hq]; dsimp only; rw [if_neg (by simp [hw, hl'])]; simp only [hb]; rfl
    generalize usePage s (ctxStage s.cur) (curCtx s).crew va .write = u at hu hx0 hcu ht
    have hv : ∃ v, v = (if storeFollows (curCtx s) q rel then leaveBuffer u s.cur else u) := ⟨_, rfl⟩
    obtain ⟨v, hv⟩ := hv
    rw [← hv] at ht
    have hvs : OthersSame u v s.cur ∧ ∃ l, SameStores l (if storeFollows x q rel then (drainUO x).stores else x.stores) ∧
        getCtx v s.cur = { x with stores := l } := by
      rw [hv]
      split
      · rename_i hf
        obtain ⟨h, l, hl1, hl2⟩ := leaveBuffer_spec u s.cur
        rw [hx0] at hl1 hl2
        exact ⟨h, l, hl1, hl2⟩
      · exact ⟨othersSame_refl u _, _, sameStores_refl _, hx0 _⟩
    obtain ⟨hov, l0, hl0, hg0⟩ := hvs
    have ha := othersSame_acceptNext v s.cur
    obtain ⟨l, hl1, hl2⟩ := (acceptNext_spec v (ctxStage s.cur)).2 s.cur
    generalize acceptNext v (ctxStage s.cur) = w at ha hl2 ht
    rw [hg0] at hl1 hl2
    have hcur : w.2.cur = s.cur := (othersSame_cur ha).trans ((othersSame_cur hov).trans hcu)
    have hx : curCtx w.2 = { x with stores := l } := by unfold curCtx; rw [hcur]; exact hl2
    have hc := congrArg curCtx ht
    rw [curCtx_advance, curCtx_modCur, hx] at hc
    refine ⟨u, _, l, hu, ?_, hc, by exact sameStores_trans hl1 hl0, rfl, rfl, rfl, rfl, rfl, rfl, rfl, rfl⟩
    rw [ht]; unfold advance modCur; rw [modCtx_cur, hcur]
    exact othersSame_modCtx (othersSame_modCtx (othersSame_trans hov ha) _) _

/-- What issuing a load does where its page is reached and nothing holds it back. -/
theorem issueLoad_spec (s : State) (d : BitVec 5) (va : Word) (n : Nat) (signed acq : Bool) (sc : BitVec 2) (q : Piece)
    (hq : pieceOf s (ctxStage s.cur) (curCtx s).crew va n .read false = .ok q)
    (hw : accessWaits (curCtx s) q.kind = false) (hl : (curCtx s).loads.length < 31) :
    let x := curCtx s
    let t := issueLoad s d va n signed acq sc
    let hit := if acq || x.loads.any (fun o => overlaps o.pa o.n q.pa n) then none else rushHit x va n
    (∀ r, hit = some r → ∃ u, UsedCache s u ∧ t = retire (modCur u fun x => useRush (dropHurt x va) r) d
      (extendBytes n signed (blockSlice r.data (va.toNat % 64) n))) ∧
    (hit = none → ∃ u e l, UsedCache s u ∧ OthersSame u t s.cur ∧
      curCtx t = { x with pc := x.pc + 4, wait := .none, loads := x.loads ++ [e], stores := l, nextSeq := x.nextSeq + 1
                          rushes := (if acq then [] else (freeRush x va q.pa).rushes) } ∧
      SameStores l x.stores ∧ e.d = d ∧ e.va = va ∧ e.n = n ∧ e.signed = signed ∧ e.pa = q.pa ∧ e.key = q.key ∧
      e.kind = q.kind ∧ e.acq = (acq && q.kind == 0 && sc != 0) ∧ e.scope = sc) := by
  intro x t hit
  have hl' : ¬ ((curCtx s).loads.length = 31) := by omega
  have hu := usePage_spec s (ctxStage s.cur) (curCtx s).crew va .read
  refine ⟨fun r h => ⟨_, hu, ?_⟩, fun h => ?_⟩
  · show issueLoad s d va n signed acq sc = _
    unfold issueLoad; rw [hq]; dsimp only; rw [if_neg (by simp [hw, hl'])]
    show (match hit with | some r => _ | none => _) = _
    rw [h]
  · have ht : t = advance (modCur (acceptNext (usePage s (ctxStage s.cur) (curCtx s).crew va .read) (ctxStage s.cur)).2 fun x =>
        { (if acq then freeRushes x else freeRush x va q.pa) with
          loads := x.loads ++ [{ d, va, n, signed, pa := q.pa, key := q.key, kind := q.kind,
                                 acq := acq && q.kind == 0 && sc != 0, scope := sc, seq := x.nextSeq,
                                 stamp := (acceptNext (usePage s (ctxStage s.cur) (curCtx s).crew va .read) (ctxStage s.cur)).1 }],
          nextSeq := x.nextSeq + 1 }) := by
      show issueLoad s d va n signed acq sc = _
      unfold issueLoad; rw [hq]; dsimp only; rw [if_neg (by simp [hw, hl'])]
      show (match hit with | some r => _ | none => _) = _
      rw [h]
    have hx0 := getCtx_used hu
    have hcu : (usePage s (ctxStage s.cur) (curCtx s).crew va .read).cur = s.cur := by have := hu.1; rw [this]
    generalize usePage s (ctxStage s.cur) (curCtx s).crew va .read = u at hu hx0 hcu ht
    have ha := othersSame_acceptNext u s.cur
    obtain ⟨l, hl1, hl2⟩ := (acceptNext_spec u (ctxStage s.cur)).2 s.cur
    generalize acceptNext u (ctxStage s.cur) = w at ha hl2 ht
    rw [hx0] at hl1 hl2
    have hcur : w.2.cur = s.cur := (othersSame_cur ha).trans hcu
    have hx : curCtx w.2 = { x with stores := l } := by unfold curCtx; rw [hcur]; exact hl2
    have hc := congrArg curCtx ht
    rw [curCtx_advance, curCtx_modCur, hx] at hc
    have hf : ∀ y : Ctx, (if acq then freeRushes y else freeRush y va q.pa) =
        { y with rushes := if acq then [] else (freeRush y va q.pa).rushes } := by
      intro y; cases acq <;> rfl
    rw [hf] at hc
    refine ⟨u, _, l, hu, ?_, hc, hl1, rfl, rfl, rfl, rfl, rfl, rfl, rfl, rfl, rfl⟩
    rw [ht]; unfold advance modCur; rw [modCtx_cur, hcur]
    exact othersSame_modCtx (othersSame_modCtx ha _) _

end Sys2Proof.Machine
end

