-- ==== Sys2Proof/Tests/Slice0.lean ====
section
/-! SUPPORT. Tests: words of the encoding written out from the spec, ill-formed terms that are refused, one step of a few
instructions, and states that meet the hypotheses of the statements. -/
namespace Sys2Proof.Tests

open Sys2Proof.Machine

/-! ## Well-formedness: an ill-formed term for each kind of check -/

theorem test_wf_register : wellFormed (.registerWrite 4 0 0) = false := by decide
theorem test_wf_crew : wellFormed (.crewTeardown 8) = false := by decide
theorem test_wf_prio : wellFormed (.slatePush 0 8 0 0) = false := by decide
theorem test_wf_slot : wellFormed (.launchGo 0 8) = false := by decide
theorem test_wf_entry : wellFormed (.seedCommit 0 0 12 0) = false := by decide
theorem test_wf_ring : wellFormed (.eventRingConsume 9 0) = false := by decide
theorem test_wf_window : wellFormed (.hostMemoryRead 0 0x100000000 4) = false := by decide
theorem test_wf_die : wellFormed (.cecntRead 4) = false := by decide
theorem test_wf_port : wellFormed (.portDisable 12) = false := by decide
theorem test_wf_stage : wellFormed (.mma 512) = false := by decide
theorem test_wf_memory_node : wellFormed (.memLd 0 8) = false := by decide
theorem test_wf_region : wellFormed (.freezeOrder 512 0) = false := by decide
theorem test_wf_array : wellFormed (.squareGrant 0 3 0) = false := by decide

/-! ## Decoding: words written out bit by bit from 13 R329-R332 and 18 -/

theorem test_decode_add : decode 0b0000001_00011_00100_00101_0000000000 = .ok (.add 3 4 5) := rfl
theorem test_decode_addi : decode 0b0000010_00101_00110_111111111111101 = .ok (.addi 5 6 0x7FFD) := rfl
theorem test_decode_srai : decode 0b0001001_00001_00010_000000000111111 = .ok (.srai 1 2 63) := rfl
theorem test_decode_ldi : decode 0b0001010_00111_00000010010001101000 = .ok (.ldi 7 0x2468) := rfl
theorem test_decode_lsi : decode 0b0001011_00111_00111_101011001111000 = .ok (.lsi 7 7 0x5678) := rfl
theorem test_decode_ld : decode 0b0010110_01001_00001_000000000000000 = .ok (.ld 9 1 0) := rfl
theorem test_decode_sd : decode 0b0011011_00101_00001_000000000100000 = .ok (.sd 5 1 32) := rfl
theorem test_decode_lda : decode 0b0011110_00101_00001_00000_000000_11_10 = .ok (.lda 5 1 3 2) := rfl
theorem test_decode_bne : decode 0b0100001_00101_00000_111111111111101 = .ok (.bne 5 0 0x7FFD) := rfl
theorem test_decode_jalr : decode 0b0101010_00001_00010_000000000000100 = .ok (.jalr 1 2 4) := rfl
theorem test_decode_ret : decode 0x54000000 = .ok (.jalr 0 0 0) := rfl
theorem test_decode_take : decode 0b0110000_00101_01001_0000000_00_0001_00 = .ok (.take 5 9 0 1 0) := rfl
theorem test_decode_bind : decode 0b0110010_00101_01011_01100_01_00000001 = .ok (.bindSink 5 11 12 1) := rfl
theorem test_decode_wrapw : decode 0b0110100_00101_00000_00000_0000000000 = .ok (.wrapw 5) := rfl
theorem test_decode_waitc : decode 0b0111001_00000_00000_000000100_000000 = .ok (.waitc 0 0 4 0) := rfl
theorem test_decode_tret : decode 0x82000000 = .ok .tret := rfl
theorem test_decode_sysr : decode 0b1000010_00101_000000100011_00000000 = .ok (.sysr 5 0x23) := rfl
theorem test_decode_unassigned : decode 0 = .error .unassigned := rfl
theorem test_decode_reserved_fn : decode 0b0000001_00011_00100_00101_0000010001 = .error .reservedFn := rfl
theorem test_decode_unused_field : decode 0b0110100_00101_00001_00000_0000000000 = .error .unusedField := rfl
/-- The bytes of a word in memory, the least significant first (00 R3). -/
theorem test_decode_bytes : decodeBytes [0x00, 0x14, 0x32, 0x02, 7] = .ok (.add 3 4 5, [7]) := rfl
theorem met_DecodeEncode : encode (.add 3 4 5) = some 0b0000001_00011_00100_00101_0000000000 := rfl
theorem test_table_word : decodeTableWord 32 0x82000000 = some .tret := rfl

/-! ## One step -/

/-- A scene of crew 0 with one member on stage 0, whose context is at the word. -/
def at_ (w : Nat) : State := State.reset.withFetchWord 32 w

/-- The same with three registers set. -/
def with3 (w : Nat) (a b c : Word) : State := modCtx (at_ w) 0 fun x => writeG (writeG (writeG { x with xvec := 0x2000 } 1 a) 2 b) 3 c

/-- The context after a step. -/
def after (s : State) : Option Ctx := match step s with | .next t => some (getCtx t 0) | _ => none

/-- A register after a step. -/
def reg (s : State) (r : BitVec 5) : Option Word := (after s).map fun x => readG x r

/-- R456: −7 divided by 2 truncates toward zero. -/
theorem test_div_truncates : reg (with3 0b0000001_00100_00001_00010_0000001101 0xFFFFFFFFFFFFFFF9 2 0) 4 = some 0xFFFFFFFFFFFFFFFD := by
  decide +kernel
/-- R456: the remainder takes the sign of the dividend. -/
theorem test_rem_sign : reg (with3 0b0000001_00100_00001_00010_0000001111 0xFFFFFFFFFFFFFFF9 2 0) 4 = some 0xFFFFFFFFFFFFFFFF := by
  decide +kernel
/-- R456: a zero divisor takes DIVZERO with the dividend in xval. -/
theorem test_div_zero : (after (with3 0b0000001_00100_00001_00010_0000001101 5 0 0)).map (fun x => (x.xcause, x.xval, x.pc)) =
    some (6, 5, 0x2000) := by decide +kernel
/-- R456: shift amounts are taken modulo 64. -/
theorem test_sll_mod : reg (with3 0b0000001_00100_00001_00010_0000000101 1 65 0) 4 = some 2 := by decide +kernel
/-- R330: a write to g0 is discarded. -/
theorem test_g0 : reg (with3 0b0000001_00000_00001_00010_0000000000 1 2 0) 0 = some 0 := by decide +kernel
/-- R457: LSI shifts left by 15 and ORs the unsigned immediate. -/
theorem test_lsi : reg (with3 0b0001011_00001_00001_101011001111000 0x2468 0 0) 1 = some 0x12345678 := by decide +kernel
/-- R461: BLT compares as signed numbers; the offset counts words. -/
theorem test_blt : (after (with3 0b0100010_00001_00010_111111111111111 0xFFFFFFFFFFFFFFFF 0 0)).map (·.pc) = some 0xFFFFC := by
  decide +kernel
/-- R461: BLTU compares as unsigned numbers. -/
theorem test_bltu : (after (with3 0b0100100_00001_00010_111111111111111 0xFFFFFFFFFFFFFFFF 0 0)).map (·.pc) = some 0x100004 := by
  decide +kernel
/-- R462: the target of `jalr 0(lr)` with d = 1 is computed before lr is written. -/
theorem test_jalr_exchange : (after (modCtx (at_ 0b0101010_00001_00000_000000000000000) 0 fun x => { x with lr := 0x3000 })).map
    (fun x => (x.pc, x.lr)) = some (0x3000, 0x100004) := by decide +kernel
/-- R458: a misaligned load takes MISALIGN with the address. -/
theorem test_misaligned : (after (with3 0b0010110_00100_00001_000000000000000 0x100004 0 0)).map (fun x => (x.xcause, x.xval)) =
    some (2, 0x100004) := by decide +kernel
/-- R478: TRAP. -/
theorem test_trap : (after (with3 0b1000000_00000_00000_000000000000111 0 0 0)).map (fun x => (x.xcause, x.xval, x.xpc, x.tm)) =
    some (7, 7, 0x100004, true) := by decide +kernel
/-- R330: an unassigned word takes ILLEGAL with the word. -/
theorem test_illegal : (after (with3 0 0 0 0)).map (fun x => (x.xcause, x.xval, x.xpc)) = some (1, 0, 0x100000) := by decide +kernel

/-! ## Hypotheses met: encoding, the step, integer instructions -/

/-- The state of `at_` with a running context on the words of these registers; its schedule is empty. -/
def demo : State := modCtx (at_ 0x02321400) 0 fun x => writeG (writeG { x with xvec := 0x2000 } 1 0x100040) 2 7

/-- The same with its schedule at the stage's issue slot. -/
def demoIssue (w : Nat) : State := { (modCtx (at_ w) 0 fun x => { x with xvec := 0x2000 }) with agenda := [.issue 0] }

/-- The word a fetch reads. -/
def fetched (s : State) (c : Nat) : Option Code := match fetch (prepIssue s c) c with | .word w _ => some w | _ => none

theorem met_StepRunsDecoded : (let s := demoIssue 0x02321400
    partStopped s = false ∧ s.agenda = .issue 0 :: [] ∧ readyList { s with agenda := [] } 0 = [0] ∧ (getCtx s 0).pend = [] ∧
    (getCtx s 0).wait = .none ∧ fetched { s with agenda := [] } 0 = some 0x02321400) ∧
    (let s := at_ 0x02321400
     let t := passTime { s with flip := !s.flip } 1 1 1
     partStopped s = false ∧ s.agenda = [] ∧ s.flip = false ∧ turnStages t = [0] ∧ readyList t 0 = [0] ∧
     (getCtx t 0).pend = [] ∧ (getCtx t 0).wait = .none ∧ fetched t 0 = some 0x02321400) := by decide +kernel
theorem met_StepRunsEvent : ({ demo with agenda := [.event .pwStatRead] }).agenda = .event .pwStatRead :: [] ∧
    encode .pwStatRead = none := by decide +kernel
theorem met_UndecodedTraps : let s := demoIssue 0
    s.agenda = .issue 0 :: [] ∧ partStopped s = false ∧ readyList { s with agenda := [] } 0 = [0] ∧ (getCtx s 0).pend = [] ∧
    (getCtx s 0).wait = .none ∧ (getCtx s 0).tm = false ∧ (getCtx s 0).xvec ≠ 0 ∧ fetched { s with agenda := [] } 0 = some 0 := by
  decide +kernel
theorem met_StepKeepsMemoryForm : memoryWf (at_ 0x02321400) = true ∧ (after (at_ 0x02321400)).isSome = true := by decide +kernel
theorem met_OperandsReady : OperandsReady demo [1, 2, 31] := by unfold OperandsReady; decide +kernel
theorem met_TrapReady : TrapReady demo := by unfold TrapReady; decide +kernel
/-- The divides: a divisor that is zero and one that is not. -/
theorem met_IntegerAndDivideResults : readG (curCtx demo) 2 ≠ 0 ∧ readG (curCtx demo) 3 = 0 := by decide +kernel
theorem met_IntegerAndControlFrame : (match exec (.div 3 1 0) demo with | .next _ => true | _ => false) = true := by decide +kernel

/-! ## Hypotheses met: script memory, branches, traps -/

/-- The demonstration context with a load and a store outstanding on one block, an uncorrectable block beside it. -/
def demoMem : State :=
  { (modCtx demo 0 fun x => { x with
      loads := [{ d := 4, va := 0x100040, n := 8, signed := false, pa := 0x100040, key := 1, kind := 0, seq := 1 },
                { d := 5, va := 0x100080, n := 1, signed := true, pa := 0x100080, key := 1, kind := 0, seq := 2 }]
      stores := [{ va := 0x1000C0, bytes := [1, 2], pa := 0x1000C0, key := 1, kind := 0, seq := 3 },
                 { va := 0x100080, bytes := [3], pa := 0x100081, key := 1, kind := 0, seq := 4 }] }) with bad := [0x4002] }

/-- The result of an access, if it is admitted. -/
def admitted (s : State) (va : Word) (n : Nat) (a : Access) : Option (Nat × Nat × BitVec 2) :=
  match pieceOf s 0 0 va n a false with | .ok q => some (q.pa, q.key, q.kind) | .error _ => none

/-- The cause of a failed translation. -/
def failed (s : State) (va : Word) (n : Nat) (a : Access) : Option (BitVec 8) :=
  match pieceOf s 0 0 va n a false with | .error (.xlate c _) => some c | _ => none

/-- Loads and stores: an aligned address that is mapped, without and with a rushes entry that serves it. -/
theorem met_Loads : admitted demo 0x100040 8 .read = some (0x100040, 1, 0) ∧
    admitted demo 0x100040 8 .write = some (0x100040, 1, 0) ∧ (0x100040 : Word).toNat % 8 = 0 ∧
    accessWaits (curCtx demo) 0 = false ∧ (curCtx demo).loads.length < 31 ∧ (curCtx demo).stores.length < 31 ∧
    rushHit (curCtx demo) 0x100040 8 = none ∧
    rushHit { curCtx demo with rushes := [{ block := 0x4001, data := 5, gen := 0, resolved := true }] } 0x100040 8 =
      some { block := 0x4001, data := 5, gen := 0, resolved := true } ∧
    (curCtx demo).loads = [] ∧ (curCtx demoMem).loads.any (fun o => overlaps o.pa o.n 0x100040 8) = true := by decide +kernel
theorem met_AccessTraps : (0x100041 : Word).toNat % 2 ≠ 0 ∧ failed demo 0x80000000 8 .read = some xNOMAP ∧
    failed demo 0x80000000 8 .write = some xNOMAP := by decide +kernel
/-- A load whose block is good, one whose block is uncorrectable. -/
theorem met_StoreIssues : let x := getCtx demoMem 0
    (x.loads[0]?.map (·.pa) = some 0x100040 ∧ badBlock demoMem 0x100040 = false) ∧
    (x.loads[1]?.map (·.pa) = some 0x100080 ∧ badBlock demoMem 0x100080 = true) ∧
    overlaps 0x100040 8 0x100080 1 = false ∧ x.loads.all (fun l => !portWaits demoMem 0 l.stamp l.pa) = true := by decide +kernel
theorem met_StorePerforms : let x := getCtx demoMem 0
    (x.stores[0]?.map (fun e => (e.pa, e.bytes, e.buffered)) = some (0x1000C0, [1, 2], false)) ∧
    (∀ o ∈ x.stores, o.seq < 3 → False) ∧ x.stores.all (fun e => !e.buffered && !portWaits demoMem 0 e.stamp e.pa) = true ∧
    (∀ o ∈ x.loads, o.seq < 3 → overlaps o.pa o.n 0x1000C0 2 = false) ∧ badBlock demoMem 0x1000C0 = false ∧
    Memory.wf demoMem.mem = true ∧ 0x1000C0 % 64 + 2 ≤ 64 ∧
    badBlock demoMem 0x100081 = true ∧ (∀ o ∈ x.loads, o.seq < 4 → overlaps o.pa o.n 0x100081 1 = false) ∧
    (∀ o ∈ x.stores, o.seq < 4 → overlaps o.pa o.bytes.length 0x100081 1 = false) := by decide +kernel
/-- The last word of private memory, the first address beyond it, and an address that is not a multiple of 8. -/
theorem met_PrivateMemory : (0x7FF8 : Word).toNat % 8 = 0 ∧ (0x7FF8 : Word).toNat < 0x8000 ∧ 0x8000 ≤ (0x8000 : Word).toNat ∧
    (0x7FFC : Word).toNat % 8 ≠ 0 ∧ (curCtx demo).privBad.contains 0xFFF = false := by
  decide +kernel
/-- A jump to the exit address and elsewhere; a JALR target that is not a multiple of 4. -/
theorem met_Jumps : (0x100040 : Word) ≠ exitAddress ∧ (curCtx demo).lr = exitAddress ∧ exitAddress.toNat % 4 = 0 ∧
    (readG (curCtx demo) 2).toNat % 4 ≠ 0 := by decide +kernel
theorem met_HintGenerations : (curCtx (modCur demo fun x => { x with hint := some 0x100008 })).hint = some 0x100008 := by
  decide +kernel

/-- A branch on a register that awaits a load, whose likely path begins with a load. -/
def demoAhead : State :=
  let s := modCtx (at_ 0b0100001_00100_00000_000000000000010) 0 fun x => writeG { x with
    hint := some 0x100008
    loads := [{ d := 4, va := 0x100040, n := 8, signed := false, pa := 0x100040, key := 1, kind := 0 }] } 1 0x100040
  { s with mem := putBytes s.mem 0x100008 (codeBytes 0b0010110_00101_00001_000000000001000) }
theorem met_RunAhead : fetched demoAhead 0 = some 0b0100001_00100_00000_000000000000010 ∧
    fetched (modCtx demoAhead 0 fun y => { y with pc := 0x100008 }) 0 = some 0b0010110_00101_00001_000000000001000 ∧
    (getCtx demoAhead 0).ahead = none ∧ awaits (getCtx demoAhead 0) 4 = true ∧ awaits (getCtx demoAhead 0) 1 = false ∧ accessGate (getCtx demoAhead 0) = false ∧
    admitted demoAhead 0x100048 1 .read = some (0x100048, 1, 0) ∧ admitted demoAhead 0x100040 64 .read = some (0x100040, 1, 0) ∧
    (match exec (.runAhead 0) demoAhead with | .next t => (getCtx t 0).rushes.length | _ => 0) = 1 := by decide +kernel
/-- WAITC and FENCE with nothing outstanding, and with a load outstanding. -/
theorem met_WaitsAndFences : (curCtx demo).loads = [] ∧ (curCtx demo).stores = [] ∧ (curCtx demoMem).loads ≠ [] ∧
    ¬ (curCtx demoMem).loads.length ≤ (1 : BitVec 5).toNat := by decide +kernel

/-- The demonstration context in a handler, with a pending asynchronous trap. -/
def demoTrap : State := modCur demo fun x => { x with tm := true, pend := [{ cause := 0x0A, val := 5 }] }
theorem met_TrapAndReturn : OperandsReady demoTrap [] ∧ (curCtx demoTrap).tm = true ∧ (curCtx demoTrap).pend = [{ cause := 0x0A, val := 5 }] ∧
    (curCtx demoTrap).xvec ≠ 0 := by unfold OperandsReady; decide +kernel
theorem met_AsyncTraps : let s := modCur demoTrap fun x => { x with tm := false }
    trapReady (getCtx s 0) = true ∧ (getCtx s 0).tm = false ∧ (getCtx s 0).pend ≠ [] := by decide +kernel
/-- A trap in a handler: the context's region is there, not frozen, or frozen already. -/
theorem met_DirectorHalt : ctxRegion demoTrap demoTrap.cur = some 0 ∧ (getRegion demoTrap 0).map (·.frozen) = some none ∧
    (getRegion (freezeRegion demoTrap 0 fPEERLOST [] 0 false) 0).map (·.frozen.isSome) = some true := by decide +kernel

/-! ## Hypotheses met: system registers, take steps -/

/-- The part after a step, if it goes on. -/
def ran (i : Instr) (s : State) : Option State := match exec i s with | .next t => some t | _ => none

/-- The region of the demonstration context, and its freeze record. -/
theorem met_SystemRead : ctxRegion demo demo.cur = some 0 ∧ sysRegs.contains (0x006 : BitVec 12).toNat = false ∧
    sysRegs.contains (0x024 : BitVec 12).toNat = false := by decide +kernel
/-- Each command value of `frz`, in and outside a handler. -/
theorem met_SystemWrite : (curCtx demoTrap).tm = true ∧ (curCtx demo).tm = false ∧
    ([0, 1, 2, 7].map fun v : Word => v.toNat % 4) = [0, 1, 2, 3] := by decide +kernel

/-- A legal table is the reals'; one that is not legal, and a misaligned address. -/
def demoTable (t : BitVec 128) (a : Word) : State :=
  let s := modCur demo fun x => writeG x 1 a
  { s with mem := putBytes s.mem 0x100040 (leBytes 16 t.toNat) }
/-- The table that ALGLD reads. -/
def tableRead (s : State) : Option Nat := match vread s 0 0 0x100040 16 with | .ok bs => some (leNat bs) | .error _ => none
theorem met_AlgebraLoad : (getScene demo 0).isSome = true ∧ tableRead (demoTable algReals 0x100040) = some algReals.toNat ∧
    algOk algReals = true ∧ tableRead (demoTable 2 0x100040) = some 2 ∧ algOk 2 = false ∧ accessGate (curCtx demo) = false ∧
    (0x100048 : Word).toNat % 16 ≠ 0 := by decide +kernel

/-- The demonstration region frozen. -/
def demoFrozen : State := freezeRegion demo 0 fPEERLOST [] 0 true
theorem met_TakeSteps : ((curRegion demo).map fun p => (p.1, p.2.frozen, p.2.phase, p.2.load)) = some (0, none, .idle, none) ∧
    ((curRegion demoFrozen).map fun p => p.2.frozen.isSome) = some true ∧ (curCtx demo).stores = [] ∧ (curCtx demo).tiles < 63 ∧
    (0x100040 : Word).toNat % 64 = 0 ∧ (2 ^ 48 : Nat) ≤ (0x1000000000000 : Word).toNat := by decide +kernel

/-- The demonstration member with a seed port that is full, one with room, one that is exhausted, and a memory port. -/
def demoPorts : State := modMember demo 0 0 fun m => { m with ports := [
  (1, { kind := 1, fifo := List.replicate 63 (seedToken 0 0) }), (2, { kind := 1, exhausted := true }), (3, { kind := 2 })] }
theorem met_Ports : (getMember demoPorts (curCtx demoPorts).scene (curCtx demoPorts).member).isSome = true ∧
    ((curRegion demoPorts).map fun p => portInUse p.2 1) = some false ∧
    ((getPort demoPorts 0 0 1).map fun q => (q.kind, q.exhausted, q.fifo.length)) = some (1, false, 63) ∧
    ((getPort demoPorts 0 0 2).map fun q => (q.kind, q.exhausted)) = some (1, true) ∧
    ((getPort demoPorts 0 0 3).map (·.kind)) = some 2 ∧ badSeedTag 0 = false ∧ badSeedTag 15 = true ∧
    (curCtx demoPorts).privBad = [] ∧ ((0x4FFFFFFFF : Word).toNat < 2 ^ 36 ∧ (0x4FFFFFFFF : Word).toNat / 2 ^ 32 % 16 ≤ 4) := by
  decide +kernel
/-- WRAPW during a take and after it; HOLD with and without room in the crew's pool. -/
theorem met_WrapAndHold : ((curRegion (modRegion demo 0 fun y => { y with phase := .started })).map (·.2.phase)) = some .started ∧
    ((getScene demo 0).map fun k => (k.wanted, k.holding, holdAreas demo k)) = some (false, false, none) ∧
    ((getScene demo 0).bind fun k => holdAreas (modCrew demo 0 fun c => { c with save := 0xFFFF }) k).isSome = true := by
  decide +kernel

/-! ## Hypotheses met: cues, engines -/

/-- The words of a cue of an opcode and class, its slot 0xFFFF (none), its fields as given (13 R325). -/
def cueWords (opc cls w1 w2 w3 : Nat) : List (BitVec 32) :=
  [BitVec.ofNat 32 (opc * 2 ^ 24 + cls * 2 ^ 20 + 0xFFFF), BitVec.ofNat 32 w1, BitVec.ofNat 32 w2, BitVec.ofNat 32 w3]

/-- The demonstration scene with an operation at its engine, a sync area of 256 variables, and variable 0 of die 0. -/
def demoSync (v : BitVec 128) : State :=
  let s := modCrew demo 0 fun c => { c with sync := 0x400008 }
  { s with eng := { s.eng with places := [{ crew := 0, die := 0, index := 0, val := v, dirty := false }] } }
/-- Operation 1, with what it reads as it issues. -/
def withOp (s : State) (ws : List (BitVec 32)) (sheet : Word) : State :=
  let o : Op := { words := ws, crew := 0, scene := 0, stage := 0, ctx := some 0, sheet }
  { s with eng := { s.eng with nextOp := 2, ops := [(1, (captureOp s o).getD o)] } }
def demoOp (ws : List (BitVec 32)) (v : BitVec 128) : State := withOp (demoSync v) ws 0

/-- Whether operation 1 stands at the head of its engine with this opcode, and is not malformed. -/
def headed (s : State) (opc : Nat) : Bool :=
  match getOp s 1 with
  | some o => o.phase == .inbox && cueOpc o.words == opc && !cueBad s o && (inboxOf s (opEngine o)).all (1 ≤ ·.1) &&
      flightRoom s (opEngine o) && o.pre == none
  | none => false

/-- The variable that operation 1 names. -/
def variable1 (s : State) : Option (BitVec 128) :=
  match getOp s 1 with
  | some o => match syncGet s o.crew (syncDie o) (syncIndex o) with | .ok (v, _) => some v | .error _ => none
  | none => none

/-- A table with an unissued cue, and one that is complete and waits for its FIFO. -/
def demoTab (fifo : Nat) : State :=
  modStage demo 0 fun g => { g with
    fifos := [(0, fifo)]
    table := [{ words := cueWords 0x2D 2 0 0 0, ctx := 0, crew := 0, scene := 0, sheet := 0, ticket := 0, ins := [], outs := [] },
              { words := cueWords 0x2D 2 0 0 0, ctx := 0, crew := 0, scene := 0, sheet := 0, ticket := 1, ins := [], outs := []
                issued := true, done := true, op := some 1 },
              { words := [0x2D22FFFF, 0, 0, 0], ctx := 0, crew := 0, scene := 0, sheet := 0, ticket := 2, ins := [], outs := []
                issued := true, done := true, op := some 1 }] }
theorem met_CueTable : stageHolding (demoTab 0) 0 = false ∧
    (firstIssue (demoTab 0) 0 (getStage (demoTab 0) 0) [] (getStage (demoTab 0) 0).table).map (·.1) = some 0 ∧
    ((getStage (demoTab 0) 0).table[1]?.map fun e => (e.done, cuePush e.words)) = some (true, false) ∧
    ((getStage (demoTab 0) 0).table[2]?.map fun e => (e.done, cuePush e.words, cuePushN e.words)) = some (true, true, 0) ∧
    Sparse.get 0 (getStage (demoTab 31) 0).fifos 0 < 32 ∧ 32 ≤ Sparse.get 0 (getStage (demoTab 32) 0).fifos 0 ∧
    (getCtx (demoTab 0) 0).acq = none ∧ (getStage demo 0).table.length < 64 ∧ (28 : BitVec 5).toNat ≤ 28 ∧
    28 < (29 : BitVec 5).toNat := by decide +kernel
/-- BAR before its arrival, with an address in range and beyond it, and after the arrival has completed. -/
theorem met_BarArrives : (curCtx demo).bars = [] ∧ (readG (curCtx demo) 2).toNat < 2 ^ 30 ∧ 2 ^ 30 ≤ (0x40000000 : Word).toNat ∧
    inboxRoom demo (cueEngine 0 (barWords 7 0)) = true ∧ stageArrivals demo 0 < 64 ∧
    ((curCtx (modCur demo fun x => { x with bars := [{ pc := x.pc, addr := 7, done := some 0x17 }] })).bars.find?
      (·.pc == (curCtx demo).pc)).isSome = true := by decide +kernel

/-- A window with a slate whose counter is 1, one whose counter is 0. -/
def demoSlates : State :=
  { demo with sched := { demo.sched with slates := [
      { words := List.replicate 8 0, sub := 1, crew := 0, prio := 0, joincnt := 1, order := 0 },
      { words := List.replicate 8 0, sub := 2, crew := 0, prio := 0, joincnt := 0, order := 1 }] } }
theorem met_SpawnAndJoin : (match vread demo 0 0 0x100040 64 with | .ok bs => bs.length | _ => 0) = 64 ∧
    0 < demo.sched.queues.length ∧ (getQueue demo 0).spill = none ∧ (getQueue demo 0).sealed = false ∧ 0 < qcredit demo 0 ∧ windowCount demo 0 < 64 ∧
    (getQueue demo 0).ringLen = 0 ∧ (getQueue (modQueue demo 0 fun q => { q with sealed := true }) 0).sealed = true ∧
    ((handleSlate demoSlates 1).map fun y => (y.ringPos, y.joincnt)) = some (none, 1) ∧
    ((handleSlate demoSlates 2).map fun y => (y.ringPos, y.joincnt)) = some (none, 0) ∧ handleSlate demoSlates 3 = none := by
  decide +kernel
/-- A finished operation of each class with no reply; a malformed cue at the head of its engine. -/
def demoEnd (ws : List (BitVec 32)) : State :=
  let s := demoOp ws 0
  modStage { s with eng := { s.eng with ops := s.eng.ops.map fun (p : Nat × Op) => (p.1, { p.2 with phase := .finished, status := 3 }) } }
    0 fun g => { g with table := [{ words := ws, ctx := 0, crew := 0, scene := 0, sheet := 0, ticket := 0, ins := [], outs := []
                                    issued := true, op := some 1 }] }
theorem met_OperationsEnd : ([cueWords 0x01 0 0 0 0, cueWords 0x2D 2 0 0 0, [0x2D200000, 0, 0, 0]].all fun ws =>
      cueRk ws = 0 && cueOpc ws ≠ 0x2A && (getOp (demoEnd ws) 1).any fun o => o.phase == .finished && o.remote.isNone &&
        o.unit.isNone && o.barPc.isNone && o.ctx == some 0) = true ∧
    (getCtx demo 0).scene = 0 ∧ (getCtx demo 0).state ≠ .free ∧ sceneAway (demoEnd []) 0 = false ∧
    (variable1 (demoEnd [0x2D200000, 0, 0, 0])).isSome = true ∧
    ((getOp (demoOp (cueWords 0x2D 2 0 0 1) 0) 1).map fun o => cueBad (demoOp (cueWords 0x2D 2 0 0 1) 0) o) = some true := by
  decide +kernel

/-- The argument block of an operation. -/
def argBlock (bs : List Byte) (ws : List (BitVec 32)) (v : BitVec 128) : State :=
  let s := demoSync v
  withOp { s with mem := putBytes s.mem 0x100040 bs } ws 0
/-- The bytes of the argument block of operation 1. -/
def argsOf (s : State) : Option (List Byte) := (getOp s 1).map fun o => (syncArgs o).take 24
/-- A GLOB atomic on four bytes at 0x100080. -/
def globAtomic (k : Nat) : State := argBlock (leBytes 16 5 ++ leBytes 8 0x100080) (cueWords (0x20 + k) 2 (2 ^ 30 + 2 ^ 29) 0x3C01 0) 9

/-- The atomics on a variable (immediate operand) and in global memory (argument block): each opcode at the head of its engine. -/
theorem met_Atomics : ((List.range 8).all fun k =>
      (k = 7 || headed (demoOp (cueWords (0x20 + k) 2 0 5 0) 9) (0x20 + k)) && headed (globAtomic k) (0x20 + k)) = true ∧
    variable1 (demoOp (cueWords 0x20 2 0 5 0) 9) = some 9 ∧ headed (demoOp (cueWords 0x27 2 (2 ^ 30) 0x3C01 0) 9) 0x27 = true ∧
    ((getOp (globAtomic 0) 1).map fun o => (o.home, imgField (syncArgs o) 16 8)) = some (0, 0x100080) ∧
    (match pieceOf (globAtomic 0) 524 0 0x100080 4 .write false with
     | .ok q => some (badBlock (globAtomic 0) q.pa, q.host) | .error _ => none) = some (false, false) := by
  decide +kernel

theorem met_SyncOperations :
    headed (demoOp (cueWords 0x2C 2 (2 ^ 30) 0x3C01 0) 9) 0x2C = true ∧ headed (demoOp (cueWords 0x2D 2 0 0 0) 9) 0x2D = true ∧
    headed (demoOp (cueWords 0x29 2 0 0x20003 0) 9) 0x29 = true ∧ headed (demoOp (cueWords 0x2B 2 0 1 0) 9) 0x2B = true ∧
    headed (demoOp (cueWords 0x28 2 (2 ^ 30) 0x3C01 0) 9) 0x28 = true ∧
    (argsOf (argBlock (leBytes 8 5) (cueWords 0x28 2 (2 ^ 30) 0x3C01 0) 9)).map (fun bs => imgField bs 0 8) = some 5 ∧
    -- alloc: the last chunk fits, and one more does not
    ((256 * 2 ^ 64 : BitVec 128).toNat % 2 ^ 48 + 256 * 1 ≤ (256 * 2 ^ 64 : BitVec 128).toNat / 2 ^ 64 % 2 ^ 48) ∧
    (accaddValue 9 5).toOption.isSome = true := by decide +kernel
/-- Arrivals: another scene's barrier, a wrong phase, one of two, the last of two. -/
theorem met_Barriers : headed (demoOp (cueWords 0x2A 2 0 0 0) 0) 0x2A = true ∧
    ((getOp (demoOp (cueWords 0x2A 2 0 0 0) 0) 1).map (arrivalTo (demoOp (cueWords 0x2A 2 0 0 0) 0))) = some .here ∧
    barScene (barValue 1 2 0 0 0 0) ≠ 0 ∧ barPhase (barValue 0 2 0 1 0 0) ≠ 0 ∧ barArrived (barValue 0 2 0 0 0 0) + 1 ≠ 2 ∧
    demo.eng.waits.length < 8192 ∧
    barArrived (barValue 0 2 1 0 0 0) + 1 = barCount (barValue 0 2 1 0 0 0) ∧ barScene (barValue 0 2 1 0 0 0) = 0 := by decide +kernel
/-- A waiting arrival whose unit ends, below and at the barrier's TIMEOUT. -/
def demoWait (elapsed : Nat) : State :=
  let s := demoOp (cueWords 0x2A 2 0 0 0) (barValue 0 2 1 0 3 elapsed)
  { s with eng := { s.eng with waits := [{ crew := 0, die := 0, index := 0, phase := 0, op := 1, sent := 0, ran := 1024 }] } }
theorem met_BarrierTime : (demoWait 2).eng.waits.find? (waitsAt 0 0 0) ≠ none ∧ 0 ≤ now (demoWait 2) ∧
    (demoWait 2).eng.waits.all (fun b => b.ran == 1024 && waitCounts (demoWait 2) b) = true ∧ barElapsed (barValue 0 2 1 0 3 2) < barTimeout (barValue 0 2 1 0 3 2) ∧
    barTimeout (barValue 0 2 1 0 3 3) ≤ barElapsed (barValue 0 2 1 0 3 3) ∧
    variable1 (demoWait 2) = some (barValue 0 2 1 0 3 2) := by decide +kernel

/-! ## Hypotheses met: copies, gathers, regeneration, saving, traversal, adders -/

/-- A descriptor: format, array, base, two extents, and its last word: sparsity (08 R196). -/
def descBytes (fmt loc base d0 d1 w7 : Nat) : List Byte :=
  leBytes 8 (fmt * 2 ^ 59 + loc * 2 ^ 53 + base) ++ leBytes 8 ((d1 - 1) * 2 ^ 16 + (d0 - 1)) ++ leBytes 8 64 ++
    List.replicate 32 0 ++ leBytes 8 w7

/-- The demonstration scene with a call sheet at 0x110000, whose argument block 0 lies at 0x120000, and an operation of it. Its
tensors: 0 (W) and 1 (X) of 32 FP16 elements, 2 the same global, 3 of 31, 4 of 16 FP32 elements, 5 INT32 indices, 6 BF16 in W,
7 a pruned shape in X, 8 BF16 global, 9 its pruned shape, 10 in Y, 11 of five elements. -/
def demoCopy (ws : List (BitVec 32)) (args : List Byte := []) : State :=
  let s := demoSync 0
  let pruned := 2 ^ 61 + 3 * 2 ^ 57 + 0x130200
  let ds := [descBytes 3 0 0 32 1 0, descBytes 3 1 0 32 1 0, descBytes 3 3 0x130000 32 1 0, descBytes 3 1 0 31 1 0,
             descBytes 2 1 0 16 1 0, descBytes 10 1 0 1 1 0, descBytes 4 0 0 8 1 0, descBytes 4 1 0 4 1 (2 ^ 61),
             descBytes 4 3 0x130040 8 1 0, descBytes 4 3 0x130080 4 1 pruned, descBytes 3 2 0 32 1 0,
             descBytes 4 3 0x130080 5 1 pruned]
  withOp { s with mem := putBytes (putBytes s.mem 0x110000 ds.flatten) 0x120000 args } ws 0x110000

/-- A tensor of operation 1. -/
def tensor1 (s : State) (t : Nat) : Option Tensor :=
  (getOp s 1).bind fun o => match cueTensor o t with | .ok y => some y | .error _ => none

/-- What the checks of a `copy` or `zero` meet: its tiles exist, they have one shape, the tensors differ in format, and each has
an orientation that it does not allow. -/
def copyFacts (src dst w1 w2 : Nat) : Option (List Bool) :=
  let s := demoCopy (cueWords 0x01 0 (src + dst * 2 ^ 10 + w1) w2 0)
  (getOp s 1).bind fun o => (tensor1 s src).bind fun x => (tensor1 s dst).map fun y =>
    let n0 := cuef o.words 1 24 8 + 1
    let u := tileOf x.q (cuef o.words 2 12 10) n0 1 1
    let v := tileOf y.q (cuef o.words 2 22 10) n0 1 1
    [headed s 0x01, u.isSome, v.isSome, u.map (·.m0) == v.map (·.m0), mismatch x.d y.d, orientBad x.d (orientOf x.d (cuef o.words 1 20 2)),
     orientBad y.d (orientOf y.d (cuef o.words 1 22 2))]
/-- What the checks of a `copyad` meet: the global tensor's location, a difference of format, its base, its tile. -/
def copyadFacts (g w1 : Nat) : Option (Bool × Nat × Bool × Nat × Option Tile) :=
  let s := demoCopy (cueWords 0x02 0 (1 + g * 2 ^ 10 + w1) 0 0)
  (tensor1 s 1).bind fun x => (tensor1 s g).map fun y =>
    (headed s 0x02, dLoc y.d, mismatch x.d y.d, y.base.toNat, tileOf x.q 0 y.q.d0 y.q.d1 y.q.np)

/-- `zero`, `copy` and `copyad` at the heads of their engines, with each case of their checks. -/
theorem met_Copies : copyFacts 0 1 (31 * 2 ^ 24) 0 = some [true, true, true, true, false, false, false] ∧
    copyFacts 0 1 (31 * 2 ^ 24) (2 ^ 12) = some [true, false, true, false, false, false, false] ∧
    copyFacts 0 1 (31 * 2 ^ 24) (2 ^ 22) = some [true, true, false, false, false, false, false] ∧
    copyFacts 0 3 (31 * 2 ^ 24) 0 = some [true, true, true, false, false, false, false] ∧
    copyFacts 0 4 (15 * 2 ^ 24) 0 = some [true, true, true, true, true, false, false] ∧
    copyFacts 10 1 (31 * 2 ^ 24 + 2 ^ 20) 0 = some [true, true, true, true, false, true, false] ∧
    copyFacts 1 10 (31 * 2 ^ 24 + 2 ^ 22) 0 = some [true, true, true, true, false, false, true] ∧
    headed (demoCopy (cueWords 0x04 0 (2 ^ 10 + 31 * 2 ^ 24) 0 0)) 0x04 = true ∧
    copyadFacts 2 0 = some (true, 3, false, 0x130000, some { a0 := 0, a1 := 0, pl := 0, m0 := 32, m1 := 1, mp := 1 }) ∧
    (copyadFacts 2 (2 ^ 30)).map (·.1) = some true ∧ (copyadFacts 0 0).map (·.2.1) = some 0 := by
  decide +kernel

/-- An operation under way: after some of its events. -/
def goOn (i : Instr) : Nat → State → State
  | 0, s => s
  | n + 1, s => goOn i n ((ran i s).getD s)
/-- The first group of a copy under way: whether its elements have been read, whether each can be read, the bits it covers, and
whether it waits for no access. -/
def groupFacts (job : Op → Eng CopyJob) (s : State) : Option (Bool × Bool × Bool × Bool) :=
  (getOp s 1).bind fun o => match job o with
    | .error _ => none
    | .ok j =>
      let es := (o.plan.headD []).drop 1
      let (_, mask, touch) := unitBits j.col ((o.plan.headD []).headD 0) (es.map fun n => (j.target n, 0))
      let readable := es.all fun n => match j.source n with | some z => (readGlobal s o false z).toOption.isSome | none => true
      some (o.phase == .running && o.vals.isSome, readable && !o.mixed, mask == BitVec.allOnes 512 && touch == mask,
        (agentReqs (getStage s o.stage) 7 1).isEmpty)
/-- A global tile copied into W, and zeros written to a global tile, before their reads and before their writes. -/
theorem met_CopyEvents : let c := demoCopy (cueWords 0x01 0 (2 + 31 * 2 ^ 24) 0 0)
    let z := demoCopy (cueWords 0x04 0 (2 * 2 ^ 10 + 31 * 2 ^ 24) 0 0)
    groupFacts copyJob (goOn (.copy 1) 1 c) = some (false, true, true, true) ∧
    groupFacts copyJob (goOn (.copy 1) 2 c) = some (true, true, true, true) ∧
    groupFacts zeroJob (goOn (.zero 1) 1 z) = some (false, true, true, true) ∧
    groupFacts zeroJob (goOn (.zero 1) 2 z) = some (true, true, true, true) ∧
    (vwrite (goOn (.zero 1) 2 z) 0 0 0x130000 (blockBytes 0) false).2 = none := by
  decide +kernel

/-- What the checks of `rgather` meet: its index format, whether its rows fit, its peer's port, and whether that is out. -/
def gatherFacts (s : State) (t : Nat) : Option (Nat × Bool × Option Nat × Bool) :=
  (getOp s 1).bind fun o => (tensor1 s t).bind fun x => (tensor1 s 1).map fun y =>
    (dFmt x.d, decide (2 * y.q.w * ceilDiv y.q.n0 y.q.p = 64 * (cuef o.words 1 24 6 + 1) ∧
      x.q.d0 * x.q.d1 * x.q.np * x.q.dd ≤ y.q.d1 * y.q.planes), gatherPort s o, gatherOut s o)
/-- What the checks of `regen` meet: locations, formats, the pruned shape, and the step within its period. -/
def regenFacts (x y step : Nat) : Option (List Nat) :=
  let s := demoCopy (cueWords 0x40 4 (x + y * 2 ^ 10) 0 0) (leBytes 8 step ++ leBytes 8 0 ++ leBytes 4 2)
  (getOp s 1).bind fun o => (tensor1 s x).bind fun a => (tensor1 s y).map fun b =>
    let formats := (dFmt a.d = 2 || dFmt a.d = 4) && dSpf b.d = 1 && 3 ≤ dFmt b.d && dFmt b.d ≤ 6 && dSploc b.d = 3
    let shape := b.q.d0 = 4 * ceilDiv a.q.d0 8 && b.q.d1 = a.q.d1 && b.q.np = a.q.np
    [dLoc a.d, dLoc b.d, formats.toNat, shape.toNat, imgField o.args 0 8 % max 1 (imgField o.args 16 4)]
/-- A remote gather; its peer beside a trained port. -/
def demoFetch : State := demoCopy (cueWords 0x03 0 (5 + 1 * 2 ^ 10) 0 0)
def demoFar : State := modChipPort demoFetch 0 fun q => { q with state := 1 }
/-- `rgather` with each case of its checks, its peer beside no port and beside one; `regen` likewise, in and
between its steps. -/
theorem met_RemoteAndRegeneration :
    headed demoFetch 0x03 = true ∧ gatherFacts demoFetch 5 = some (10, true, none, false) ∧
    gatherFacts demoFar 5 = some (10, true, some 0, false) ∧
    (gatherFacts (demoCopy (cueWords 0x03 0 (5 + 1 * 2 ^ 10 + 2 ^ 24) 0 0)) 5).map (·.2.1) = some false ∧
    ((gatherFacts (demoCopy (cueWords 0x03 0 (1 * 2 ^ 10) 0 0)) 0).map (·.1)) = some 3 := by decide +kernel
theorem met_Regeneration :
    headed (demoCopy (cueWords 0x40 4 (8 + 9 * 2 ^ 10) 0 0)) 0x40 = true ∧
    regenFacts 6 9 0 = some [0, 3, 1, 1, 0] ∧ regenFacts 8 7 0 = some [3, 1, 0, 1, 0] ∧
    regenFacts 8 2 0 = some [3, 3, 0, 0, 0] ∧ regenFacts 8 11 0 = some [3, 3, 1, 0, 0] ∧
    regenFacts 8 9 1 = some [3, 3, 1, 1, 1] ∧ regenFacts 8 9 2 = some [3, 3, 1, 1, 0] := by decide +kernel
/-- `save` and `restore` of a stage that is not its region's first, `save` of the first, and `save` of a context. -/
def demoSave (ws : List (BitVec 32)) : State :=
  let s := modRegion (demoOp ws 0) 0 fun x => { x with w := 2 }
  let f := fun (p : Nat × Op) => (p.1, { p.2 with ctx := none })
  modStage { s with eng := { s.eng with ops := s.eng.ops.map f } } 1 fun g => { g with region := some 0 }
theorem met_SavesAndRestores : headed (demoSave (cueWords 0x50 5 1 0x13 0)) 0x50 = true ∧
    headed (demoSave (cueWords 0x51 5 1 0x13 0)) 0x51 = true ∧ headed (demoSave (cueWords 0x50 5 0x200 0x13 0)) 0x50 = true ∧
    ((getOp (demoSave (cueWords 0x50 5 1 0x13 0)) 1).map fun o => (imgIsCtx o, imgStage o, stageOfRaster 0)) = some (false, 1, 0) ∧
    headed (demoSave (cueWords 0x50 5 0 0x13 0)) 0x50 = true ∧
    ((regionOf (demoSave (cueWords 0x50 5 0 0x13 0)) 0).map (·.1)) = some 0 ∧
    ((getOp (demoSave (cueWords 0x50 5 0x200 0x13 0)) 1).map fun o => imgIsCtx o) = some true ∧
    ((regionOf (demoSave (cueWords 0x50 5 1 0x13 0)) 1).map (·.1)) = some 0 ∧
    (getStage (demoSave []) 1).bad = [] ∧ (getStage (demoSave []) 0).soft = [] ∧ (getCtx (demoSave []) 0).stores = [] ∧
    (pieceOf (demoSave []) 532 0 0x130000 64 .write false).toOption.isSome = true := by decide +kernel

/-- A walk under way on engine 8 under a set of one rule, its crew's; its record lies at 0x100040. -/
def demoWalk (rule ptr steps : Nat) (handoff : Bool) (read : List Byte := []) : State :=
  let s := demoOp (cueWords 0x10 1 0 0x4001 0) 0
  let w : WalkState := { ptr := BitVec.ofNat 48 ptr, key := 0, rset := 0, limit := 3, version := 1, w0 := 0, w1 := 0, steps,
                         abort := false, engine := 8, handoff, read }
  { s with eng := { s.eng with
      ops := s.eng.ops.map fun (p : Nat × Op) => (p.1, { p.2 with phase := .running, walk := some w })
      sets := [(64, { crew := 0, version := 1, rlen := 128, retlen := 16, rules := [BitVec.ofNat 64 rule] })] } }
/-- The length of what a walk's next event has read, and what its rule gives on it. -/
def walkFacts (s : State) : Option (Nat × RuleOut) :=
  (getOp s 1).bind fun o => o.walk.bind fun w => (getSet s w.engine w.rset).bind fun q => match readRecord s o w q.rlen with
    | .ok rec => some (rec.length, (runRules 17 q.rules 0 { w with steps := w.steps + 1, hasRec := true, lastRec := rec, read := [] } rec).1)
    | .error _ => none
/-- A rule set of one rule, loaded, released, and held by another crew. -/
def demoSet (opc crew : Nat) (phase : OpPhase) : State :=
  let s := argBlock [1, 0, 64] (cueWords opc 1 (if opc = 0x11 then 0x10000 else 0) (if opc = 0x11 then 0x3C01 else 0) 0) 0
  { s with eng := { s.eng with
      ops := s.eng.ops.map fun (p : Nat × Op) => (p.1, { p.2 with phase, todo := if phase = .running then setEngines p.2 else [] })
      sets := [(0, { crew, version := 1, rlen := 64, retlen := 64, rules := [0] })] } }
/-- A walk whose record is being written into X, its write granted. -/
def demoReply : State :=
  let s := demoWalk 0 0x100040 1 false
  let f := fun (p : Nat × Op) => (p.1, { p.2 with walk := p.2.walk.map fun (w : WalkState) => { w with replying := true } })
  modStage { s with eng := { s.eng with ops := s.eng.ops.map f } } 0 fun g =>
    { g with reqs := [{ array := 1, addr := 0, rank := 6, op := 1, done := true }] }
/-- Rule sets with a good and a bad image, an engine whose set is another crew's; walks that start with and without their set;
each outcome of a step: the limit, a null pointer, a block of the record, a rule that follows, returns or fails; a reply; a
hand-off. -/
theorem met_Traversal : headed (demoSet 0x11 0 .inbox) 0x11 = true ∧
    ((getOp (demoSet 0x11 0 .inbox) 1).map fun o => (parseSet 0 1 o.args).isSome) = some true ∧
    ((getOp (withOp (demoSync 0) (cueWords 0x11 1 0x10000 0x3C01 0) 0) 1).map fun o => (parseSet 0 1 o.args).isSome) = some false ∧
    headed (demoSet 0x12 0 .inbox) 0x12 = true ∧
    ((getOp (demoSet 0x11 1 .running) 1).map (·.todo)) = some [0] ∧ ((getSet (demoSet 0x11 1 .running) 0 0).map (·.crew)) = some 1 ∧
    ((getOp (demoSet 0x12 0 .running) 1).map (·.todo)) = some [0] ∧ ((getSet (demoSet 0x12 0 .running) 0 0).map (·.crew)) = some 0 ∧
    walkPresent (demoSet 0x11 0 .running) 0 0 = false ∧
    headed (demoOp (cueWords 0x10 1 0 0x3C01 0) 0) 0x10 = true ∧ setChanging (demoOp [] 0) 8 0 = false ∧
    walkSlots (demoOp [] 0) 8 false + walkSlots (demoOp [] 0) 8 true < 256 ∧ getSet (demoOp [] 0) 8 0 = none ∧
    ((getSet (demoWalk 0 0 0 false) 8 0).map (·.crew)) = some 0 ∧
    ((getOp (demoWalk 0 0x100040 3 false) 1).bind (·.walk)).map (fun w => (w.steps, w.limit)) = some (3, 3) ∧
    walkFacts (demoWalk 0 0x100040 0 false) = some (64, .fail) ∧
    walkFacts (demoWalk (3 * 2 ^ 60) 0x100040 0 false (List.replicate 64 1)) = some (128, .follow 0x010101010101) ∧
    walkFacts (demoWalk (6 * 2 ^ 60) 0x100040 0 false (List.replicate 64 1)) = some (128, .ret) ∧
    walkFacts (demoWalk (7 * 2 ^ 60) 0x100040 0 false (List.replicate 64 1)) = some (128, .fail) ∧
    ((agentReqs (getStage demoReply 0) 6 1).map (·.done)) = [true] ∧
    setChanging (demoWalk 0 0x100040 0 true) 8 0 = false ∧ walkSlots (demoWalk 0 0x100040 0 true) 8 false < 256 := by decide +kernel

/-- A scene with a second member on die 1 and three circuits, from it, to and from the first member on die 0; two tokens wait. -/
def demoAdder (ws : List (BitVec 32)) (a b : Token) : State :=
  let s := demoOp ws 0
  let s := match getRegion s 0 with | some x => setRegion s 16 x | none => s
  let s := modScene s 0 fun k => { k with
    members := k.members ++ k.members.map fun m => { m with region := 16 }
    circuits := [{ smem := 1, sport := 0, dmem := 0, dport := 1, q := [a] },
                 { smem := 1, sport := 2, dmem := 0, dport := 3, q := [b] },
                 { smem := 0, sport := 4, dmem := 1, dport := 5 }] }
  { s with eng := { s.eng with adders := [(3, { scene := 0, mode := 0, remote := 0, locl := 1, out := 2 })] } }
theorem met_Adders : let s := demoAdder (cueWords 0x30 3 (16 + 4 * 64) (1 + 2 * 2 ^ 12) 0) { tag := 1 } { tag := 2 }
    let u := demoAdder (cueWords 0x31 3 (16 + 3 * 64) 0 0) { tag := 1 } { tag := 2 }
    headed s 0x30 = true ∧ headed u 0x31 = true ∧
    ((getOp s 1).map fun o => (collAdder o.words, collOk s 0 4 0 1 2, Sparse.find? s.eng.adders 4)) = some (4, true, none) ∧
    (Sparse.find? u.eng.adders 3).map (fun a => (a.scene, a.draining, adderDrained u a)) = some (0, false, false) ∧
    ((getCircuit s 0 2).map circuitRoom) = some true ∧ isCut { tag := 1 } = true ∧ isCut { tag := 2 } = true ∧ cutRank { tag := 1 } ≠ cutRank { tag := 2 } := by
  decide +kernel

/-! ## Hypotheses met: fabric units -/

/-- A configuration word (13 R314). -/
def cfgWord (kind op mod low : Nat) : UnitCfg := { word := BitVec.ofNat 64 (kind * 2 ^ 56 + op * 2 ^ 48 + mod * 2 ^ 40 + low) }
/-- Inputs a, b and c enabled. -/
def inAB : Nat := 2 ^ 23 + 2 ^ 22
/-- A route of context 0 (13 R316). -/
def rt (p : Nat × Nat × Nat) : Route := { ctx := 0, tile := p.1, frm := p.2.1, circ := 0, out := p.2.2 }
/-- The demonstration region live on stage 0: configurations, routes, unit states. -/
def fab (cfg : List (Nat × UnitCfg)) (routes : List (Nat × Nat × Nat)) (units : List (Nat × UnitState)) : State :=
  modStage (modRegion demo 0 fun x => { x with phase := .started }) 0 fun g => { g with cfg, routes := routes.map rt, units }
/-- A full data token of one 64-bit value. -/
def dataTok (v : Nat) : Token := { tag := 0, mask := 0xFFFF, data := BitVec.ofNat 512 v }

/-- An ALU adding two 32-bit streams, its operands there and its output routed; the same with a start token; ELB on both sides. -/
def demoAlu (a : Token) : State := fab [(0, cfgWord 0 0 0x80 (inAB + 2 ^ 19))] [(2, 0x20, 0)] [(0, { a := [a], b := [dataTok 4] })]
def demoElb (op : Nat) (u : UnitState) : State := fab [(0, cfgWord 10 op 0 (2 ^ 23 + 2 ^ 19))] [(2, 0x20, 0)] [(0, u)]
theorem met_ElementsFire : ((liveElement (demoAlu (dataTok 5)) 0 0 0 0).any fun (r, x, c) =>
      let g := getStage (demoAlu (dataTok 5)) 0
      let u := getUnit (demoAlu (dataTok 5)) 0 0
      !elemTagFault c u && u.out == [] && !cfgSrc c && r == 0 && (ruleAlu 0 { stage := 0, slot := 0 } c u (elemHeads c u)).any fun f =>
        contReady c u f && f.groups.length == 1 &&
          f.groups.all fun l => reportRank c l == none && groupRoom g x 0 (finishGroup c l)) = true ∧
    ((liveElement (demoAlu { tag := 8 }) 0 0 0 0).any fun p => elemTagFault p.2.2 (getUnit (demoAlu { tag := 8 }) 0 0)) = true ∧
    ([0, 1].all fun op => (liveElement (demoElb op { toks := [dataTok 5] }) 10 op 0 0).any fun (_, x, c) =>
        let s := demoElb op { toks := [dataTok 5] }
        cfgIn c 0 && !cfgIn c 3 && (elbHead op c (elbCount x.fc (getUnit s 0 0))).any fun l => groupRoom (getStage s 0) x 0 l) = true := by
  decide +kernel
/-- A type that is an integer's, two tokens of it; a whole block of tokens. -/
theorem met_ElementResults : tyFloat 4 = none ∧ tyWidth 4 = 32 ∧ tyFloat 7 = none ∧ tyWidth 7 = 8 ∧
    cfgMod (cfgWord 0 0 0x80 0) = 32 * 4 ∧ (List.replicate 16 (dataTok 1)).length = 512 / 32 ∧ isCut (dataTok 1) = false ∧
    tyFloat (rdcTy (cfgWord 2 0 0x80 0)) = none ∧ rdcLane (cfgWord 2 0 0x80 0) = false := by decide +kernel

/-- An operator slot of each kind with a token at each of its inputs, its outputs to the links. -/
def demoRouter (rop : Nat) : State :=
  let s := fab [] ((List.range 4).map fun p => (2, p, 0x10 + p)) []
  modStage s 0 fun g => { g with
    rcfg := [(8, BitVec.ofNat 64 (rop * 2 ^ 56 + 4 * 2 ^ 17))]
    bufs := (List.range 4).map fun p => (bufKey 2 p 0, [Arrived.mk (dataTok 1) 0]) }
theorem met_OperatorsFire :
    let rules : List (Nat × (Nat → SlotHeads → SlotState → Option SlotFire)) :=
      [(0, rulePass), (1, ruleSteer (slotRef 0 2 0)), (2, ruleMerge (slotRef 0 2 0)), (3, ruleCarry), (4, ruleInvar),
       (5, ruleFork [] fun _ _ => true), (6, ruleJoin [0, 1, 2, 3]), (7, rulePermit)]
    (rules.all fun p => match regionOf (demoRouter p.1) 0 with
      | some (_, x) =>
        let g := getStage (demoRouter p.1) 0
        regionLive x && slotRop g x 2 0 == p.1 && Sparse.wf [] g.bufs && (p.1 ≠ 7 || !permitMisuse g x 2 0) &&
        ((List.range 4).all fun k => match slotHead g x 2 0 k with
          | some a => !isBubble a.tok && !slotTagFault p.1 a.tok
          | none => false) &&
        (match p.2 ((slotWord g x 2 0).getD 0).toNat (slotHeads g x 2 0) (getSlot (demoRouter p.1) 0 2 0) with
          | some f => sendsRoom g x 2 0 f.sends && f.st.residue.length ≤ 64
          | none => false)
      | none => false) = true := by decide +kernel

/-- A descriptor's words: format, array, base, first extent (16 the second), sparsity with its metadata at 2048 (08 R196). -/
def descWords (fmt loc base d0 spf : Nat) : Desc :=
  [BitVec.ofNat 64 (fmt * 2 ^ 59 + loc * 2 ^ 53 + base), BitVec.ofNat 64 (15 * 2 ^ 16 + d0 - 1), 64, 0, 0, 0, 0, BitVec.ofNat 64 (spf * (2 ^ 61 + 2048))]
/-- The matrix node with a control token waiting, its mask 7 with E = 0 on an accumulating form; tensors 0 (W) and 1 (X). -/
def demoMatrix (w : Nat) (acc : Bool) (fmt spf : Nat) : State :=
  let s := fab [(8, { (cfgWord 12 0 0 (2 ^ 21 + 2 ^ 19)) with k0 := 1 * 2 ^ 16 })] [(0, 0x20, 0)]
    [(8, { c := [{ tag := 0, mask := if acc then 7 else 3, data := BitVec.ofNat 512 w }] })]
  let s := modRegion s 0 fun x => { x with descs := [(0, descWords fmt 0 0 32 spf), (1, descWords fmt 1 0 256 0)], algs := [(0, algReals), (1, 1)] }
  modStage s 0 fun g => { g with warr := (List.range 16).map fun j => (2048 + j, if j % 2 = 0 then 0x88 else 0x06) }
/-- Whether the node's control token has the opcode and passes its checks; for an accumulating form, whether its operands do:
before its accesses are asked for, or once they have been granted. -/
def controlReady (s : State) (opc : Nat) : Bool :=
  match liveNode s 12 0 0 8 with
  | none => false
  | some (r, x, c) =>
    let u := getUnit s 0 8
    let g := getStage s 0
    match u.c with
    | [] => false
    | t :: _ =>
      let w : Word := BitVec.ofNat 64 (t.data.toNat % 2 ^ 64)
      u.out == [] && isData t && !cwBad c x.algs t w && !cfgSrc c && wbits w 60 4 == opc && risingKeys g.acc &&
      (3 < opc ||
        match cwPair (cwFp w), takeDescs s r x 0 (macTensors c opc w t) with
        | some (fa, fb, P), .ok (ds, _) =>
          let m := macIn x c u opc w t fa fb P ds[0]? ds[1]? none
          let qs := agentReqs g 1 0
          let h := readView { g with reqs := g.reqs.filter fun q => !(q.rank == 1 && q.op == 0) } qs
          !macDescBad opc w fa fb ds[0]? ds[1]? && (mtxNeeds c opc w).1 ≤ u.toks.length && (mtxNeeds c opc w).2 ≤ u.toks2.length &&
          (badOperand 0 u).isNone && contState c u == (true, none) && (macFail m).isNone && t.mask == 7 && cwSlot w == 0 &&
          (if qs.isEmpty then !(macReqs m).isEmpty
           else qs.all (fun q => q.done && q.bad.isEmpty) && (macFault h m).isNone && (opc ≠ 2 || !metaBad h m))
        | _, _ => false)
/-- The accesses that an agent asked of the squares, granted. -/
def allGranted (s : State) : State := modStage s 0 fun g => { g with
  reqs := g.reqs.map fun q => { q with done := true, data := readCells g q.array q.addr q.col } }
/-- The demonstration of each accumulating form. -/
def demoForm (opc : Nat) : State := match opc with
  | 0 => demoMatrix (2 ^ 36) true 3 0
  | 1 => demoMatrix (2 ^ 60 + 2 ^ 36 + 2 ^ 33) true 3 0
  | 2 => demoMatrix (2 * 2 ^ 60 + 2 ^ 36) true 3 1
  | _ => demoMatrix (3 * 2 ^ 60 + 7 * 2 ^ 36) true 7 0
theorem met_MatrixNode : ([4, 8, 7, 5, 6].all fun opc => controlReady (demoMatrix (opc * 2 ^ 60) false 3 0) opc) = true ∧
    ([(Instr.mma 0, 0), (.mmaa 0, 1), (.mmas 0, 2), (.mmab 0, 3)].all fun (p : Instr × Nat) => controlReady (demoForm p.2) p.2 &&
      (ran p.1 (demoForm p.2)).any fun t => !(agentReqs (getStage t 0) 1 0).isEmpty && controlReady (allGranted t) p.2) = true := by
  decide +kernel

/-- A memory node with an address token and a data token; tensor 1 is in X. -/
def demoNode (op : Nat) (a : Token) (m : Option MemOp) : State :=
  let s := fab [(9, { (cfgWord 13 op 0 inAB) with k0 := 1, k2 := if 9 ≤ op then 4 else 0 })] [] [(9, { a := [a], b := [dataTok 9], op := m })]
  modRegion s 0 fun x => { x with descs := [(1, descWords (if 9 ≤ op then 10 else 3) 1 0 128 0)], algs := [(0, algReals)] }
/-- Whether the node's operation can be planned. -/
def memReady (op : Nat) (a : Token) : Bool :=
  let s := demoNode op a none
  match liveNode s 13 op 0 9 with
  | none => false
  | some (_, x, c) =>
    let d := if memNamesTensor op then Sparse.find? x.descs (memTen c) else none
    let b := if memPairsB c then elemHead c (getUnit s 0 9) 1 else none
    !memSource c && isData a && (!memNamesTensor op || d.isSome) && (!memPairsB c || b.any isData) && contState c (getUnit s 0 9) == (true, none) &&
    !memRel c && match planOp s x c 0 d a b with | .ok m => !m.events.isEmpty && !memWaits s c 0 9 m | .error _ => false
/-- A global address in lanes 0 and 1; an index. -/
def addrTok : Token := { tag := 0, mask := 3, data := 0x100040 }
def demoGather (op : Nat) : State :=
  let s := fab [(11, { (cfgWord 14 op 0 (2 ^ 23)) with k0 := 1 })] [] [(11, { a := [{ tag := 0, mask := 1, data := 0 }] })]
  modRegion s 0 fun x => { x with descs := [(1, descWords 3 1 0 128 0)], algs := [(0, algReals)] }
/-- Whether the gather unit can ask for its rows, or has them. -/
def gatherReady (s : State) (op : Nat) : Bool :=
  match liveNode s 14 op 0 11 with
  | some (_, x, c) =>
    let d := descWords 3 1 0 128 0
    let u := getUnit s 0 11
    let g := getStage s 0
    let qs := agentReqs g 3 0
    Sparse.find? x.descs (memTen c) == some d && u.out == [] && contState c u == (true, none) && g.latches.length < 2 && 1 ≤ gthChunks c &&
    (gthEntries op { tag := 0, mask := 1, data := 0 }).any fun es =>
      let vs := gthVecs c d (takeGeo x d) u.n0 es
      (gthLatch vs qs).2 == none && (if qs.isEmpty then !(gthReqs vs).isEmpty else qs.all (·.done))
  | none => false
/-- A memory node whose next access, to global memory, is to be accepted; one whose access may wait in the combining buffer. -/
def demoAccept (kind : BitVec 2) (write : Bool) : State :=
  let e : MemEvent := { array := 3, addr := 0x100040, va := 0x100040, key := 1, kind, write, ext := 2 ^ 64 - 1 }
  demoNode 5 addrTok (some { events := [e, e] })
def combineFacts (s : State) : Option Bool := match regionOf s 0, (getUnit s 0 9).op with
  | some (_, x), some m => (unitCfg (getStage s 0) x 9).bind fun c => (m.events.head?).map (combines s c 0)
  | _, _ => none
theorem met_MemoryNodes : ([0, 1, 2, 3, 8, 9, 10, 11, 12, 13, 14].all fun op => memReady op { tag := 0, mask := 1, data := 0 }) = true ∧
    ([4, 5, 6, 7].all fun op => memReady op addrTok) = true ∧
    combineFacts (demoAccept 0 false) = some false ∧ combineFacts (demoAccept 2 true) = some true ∧
    (getStage (demoAccept 0 false) 0).comb = [] ∧
    (let a : Token := { tag := 0, mask := 0xF, data := BitVec.ofNat 512 0x2D20FFFF }
     let s := demoNode 15 a none
     (liveNode s 13 15 0 9).isSome = true ∧ cueMalformed (tokenCue a) = false ∧
       ((captureOp s { words := tokenCue a, crew := 0, scene := 0, stage := 0, ctx := none, sheet := 0, unit := some 9, sent := s.timecode }).map
         fun o => inboxRoom s (opEngine o)) = some true ∧ isData a = true) ∧
    ([(Instr.gath 0, 0), (.gseq 0, 1)].all fun (p : Instr × Nat) => gatherReady (demoGather p.2) p.2 &&
      (ran p.1 (demoGather p.2)).any fun t => !(agentReqs (getStage t 0) 3 0).isEmpty && gatherReady (allGranted t) p.2) = true := by
  decide +kernel

/-- Events of a memory node in X: a read, a write and an integer addition; and in global memory, accepted: a read and a write. -/
def demoEvents : List MemEvent :=
  [{ array := 1, addr := 0 }, { array := 1, addr := 0, write := true, mask := 0xFFFF, data := 5 },
   { array := 1, addr := 0, rmw := 2, len := 4, data := 5 }, { array := 3, addr := 0x100040, va := 0x100040, key := 1, stamp := 1 },
   { array := 3, addr := 0x100040, va := 0x100040, key := 1, kind := 1, stamp := 1, write := true, data := 7, ext := 2 ^ 64 - 1 }]
/-- A read and a write that an agent asks of square 0 of X. -/
def demoAsk (write : Bool) : State := modStage (fab [] [] []) 0 fun g => { g with
  reqs := [{ array := 1, addr := 0, write, rank := 3, op := 0 }] }
/-- A write in the combining buffer, and the same once it has left it. -/
def demoCombined : State := modStage (fab [] [] []) 0 fun g => { g with comb := [{ agent := 9, pa := 0x100040, key := 1, bytes := [7] }] }
def demoReleased : State := modStage (fab [] [] []) 0 fun g => { g with
  port := [(9, { combinedEvent { agent := 9, pa := 0x100040, key := 1, bytes := [7] } with stamp := 1 })] }
theorem met_AccessesPerform : (demoEvents.all fun e =>
      let s := demoNode 0 addrTok (some { events := [e, e] })
      match regionOf s 0, (getUnit s 0 9).op with
      | some (_, x), some m =>
        if e.array = 3 then m.events == [e, e] && (unitCfg (getStage s 0) x 9).isSome && (getStage s 0).port == [] &&
          !unitFailed x { stage := 0, slot := 9 } && !portWaits s 0 e.stamp e.addr &&
          (if e.write then (eventWrite s e).isSome else !pieceBad s (eventPiece e) false)
        else firstWant (squareWants s x 0 1 (squareOf 1 0)) == some (.node 9 m e [e]) && !eventBad (getStage s 0) e &&
          squareFree (Sparse.get {} (getStage s 0).squares (squareKey 1 (squareOf 1 0))) x.fc 1 e.col
      | _, _ => false) = true ∧ badBlock demo 0x100040 = false ∧
    ([false, true].all fun w => match regionOf (demoAsk w) 0 with
      | some (_, x) => match firstWant (squareWants (demoAsk w) x 0 1 0) with
        | some (.agent q) => q.write == w && squareFree (Sparse.get {} (getStage (demoAsk w) 0).squares (squareKey 1 0)) x.fc 1 q.col
        | _ => false
      | none => false) = true ∧
    ((getStage demoReleased 0).port.map fun p => (p.1, portWaits demoReleased 0 p.2.stamp p.2.addr, (eventWrite demoReleased p.2).isSome)) =
      [(9, false, true)] ∧ (getStage demoCombined 0).comb.length = 1 := by decide +kernel

/-- A token in a buffer that leaves by a link, one at a unit's input, a bubble there, and one of a tag it does not accept. -/
def demoMove (t : Token) : State :=
  modStage (fab [(0, cfgWord 0 0 0x80 inAB)] [(2, 3, 1), (2, 0, 0x20)] []) 0 fun g => { g with
    bufs := [(bufKey 2 0 0, [Arrived.mk t 0]), (bufKey 2 3 0, [Arrived.mk t 0])] }
theorem met_TokensMove : (match regionOf (demoMove (dataTok 1)) 0 with
    | some (_, x) =>
      let g := getStage (demoMove (dataTok 1)) 0
      regionLive x && (pickHead g ((activeRoutes g x 2).filter (·.out == 1))
        (fun q t => hasRoom (getStage (demoMove (dataTok 1)) (linkTo 0 2 1).1) (bufKey (linkTo 0 2 1).2.1 (linkTo 0 2 1).2.2 q.circ) t)).isSome &&
      ((linkTo 0 2 1).1 ≠ 0 || bufKey (linkTo 0 2 1).2.1 (linkTo 0 2 1).2.2 0 ≠ bufKey 2 3 0) &&
      tileSlot 2 0 == some 0 && inKey g x 2 0x20 == some (bufKey 2 0 0) && (headBuf g (bufKey 2 0 0)).isSome
    | none => false) = true ∧ isBubble { tag := 6 } = true ∧ isBubble (dataTok 1) = false ∧ latchTagFault 0 0 contTok = true ∧
    isBubble contTok = false ∧ latchTagFault 0 0 (dataTok 1) = false ∧ 0 < latchSize 0 0 := by decide +kernel

/-! ## Hypotheses met: regions, holds -/

/-- A reel image of one stage with one mapping of these words (13 R339-R341). -/
def reelBytes (ws : List Nat) : List Byte :=
  let n := 64 + 8 * ws.length
  let head := [0x52, 0x4C, 0x4A, 0x52] ++ leBytes 2 1 ++ leBytes 2 1 ++ leBytes 8 n ++ leBytes 4 1 ++ leBytes 4 32 ++ leBytes 4 (2 ^ 16)
  let rest := leBytes 8 1 ++ leBytes 8 64 ++ leBytes 16 (8 * ws.length) ++ ws.flatMap (leBytes 8)
  head ++ leBytes 4 (crc32c (head ++ [0, 0, 0, 0] ++ rest)).toNat ++ rest
/-- A take step whose load reads an image at 0x120000. -/
def demoLoad (ws : List Nat) (act : Option (BitVec 2)) (words : Option (List Word)) : State :=
  let s := modRegion demo 0 fun x => { x with load := some { image := 0x120000, map := 0, wmask := 1, act, ctx := some 0, words } }
  modCtx { s with mem := putBytes s.mem 0x120000 (reelBytes ws) } 0 fun x => { x with wait := if act.isSome then .take 5 else .ctxLoad 5 }
/-- A load of each outcome, a load whose words are written, with and without a start; a waved region; a take that can wrap. -/
def goodWords : List Nat := [7 * 2 ^ 60 + 2 ^ 20, 0]
def loaded (ws : List Nat) (va : Word) : Option (Nat × Bool × Option LoadFail) :=
  match readImage (demoLoad ws none none) (stageOfRaster 0) 0 va with
  | .ok im => some (im.w, (pickMapping im 0 3).isSome, match pickMapping im 0 3 with | some p => checkWords p.2 1 1 1 | none => none)
  | .error e => some (0, false, e)
def demoWaved (act : Option (BitVec 2)) : State := demoLoad goodWords act (some (goodWords.map (BitVec.ofNat 64)))
def demoRun : State := modRegion demo 0 fun x => { x with phase := .started, takeCtx := some 0 }
set_option maxRecDepth 100000 in
theorem met_RegionEventsLoad : loaded goodWords 0x120000 = some (1, true, none) := by decide +kernel
set_option maxRecDepth 100000 in
theorem met_RegionEventsBadWord : loaded [7 * 2 ^ 60, 0] 0x120000 = some (1, true, some { code := 6 }) := by decide +kernel
set_option maxRecDepth 100000 in
theorem met_RegionEvents : loaded goodWords 0x120040 = some (0, false, some { code := 1 }) ∧
    (getRegion (demoLoad goodWords none none) 0).map (fun x => (x.frozen, levelsAgree (demoLoad goodWords none none) 0 x, x.w)) = some (none, true, 1) ∧
    (getRegion (demoWaved none) 0).map (fun x => (x.phase, x.load.bind (·.act))) = some (.idle, none) ∧
    (getRegion (demoWaved (some 1)) 0).map (fun x => (x.load.map (·.ctx), Sparse.find? x.loaded 0)) = some (some (some 0), none) := by
  decide +kernel
theorem met_RegionEventsStart : inMask 1 0 = true ∧ 0 ∈ mapContexts (indexWords 0 none (goodWords.map (BitVec.ofNat 64))) ∧
    1 ∉ mapContexts (indexWords 0 none (goodWords.map (BitVec.ofNat 64))) ∧ inMask 3 1 = true ∧
    (getCtx (demoWaved none) 0).wait = .ctxLoad 5 ∧ (getCtx (demoWaved (some 0)) 0).wait = .take 5 ∧
    (getRegion demo 0).map (canWrap demo 0) = some false ∧
    (getRegion demoRun 0).map (fun x => (canWrap demoRun 0 x, regionLaunch demoRun x, regionStages 0 x)) = some (true, none, [0]) := by
  decide +kernel

/-- A region with a mark, one frozen with and without a replay, its member FROZEN; an order for it. -/
def demoFault : State := modRegion demo 0 fun x => { x with faults := [{ unit := { stage := 0, slot := 3 }, cause := 2 }] }
def demoFrz (replay : Bool) : State := modMember (modRegion demo 0 fun x => { x with
  frozen := some { cause := 2, marks := [], replay, value := 0 } }) 0 0 fun m => { m with state := .frozen }
/-- A FROZEN member with an operation of it in an engine's inbox; it has been released by the host. -/
def demoBusy (release : Bool) : State := modMember { demoFrz true with eng := (demoOp (cueWords 0x04 0 0 0 0) 0).eng } 0 0 fun m => { m with release }
theorem met_FreezesAndReleases : (getRegion demoFault 0).map (fun x => (x.frozen, regionLaunch demoFault x, (sortMarks demoFault 0 x x.faults).length)) =
      some (none, none, 1) ∧
    (getScene (modScene demo 0 fun k => { k with orders := [(0, 3)] }) 0).map (fun k => k.orders.contains (0, 3)) = some true ∧
    (getRegion (demoFrz true) 0).map (fun x => x.frozen.map (·.replay)) = some (some true) ∧
    (getRegion (demoFrz false) 0).map (fun x => x.frozen.map (·.replay)) = some (some false) ∧ (getMember (demoFrz true) 0 0).isSome = true ∧
    (getRegion demo 0).map (·.frozen) = some none ∧ (getCrew (demoFrz true) 0).en = true ∧ dcRegion (demoFrz true) 0 = some 0 ∧
    (getMember (demoFrz true) 0 0).map (fun m => (m.state, memberQuiet (demoFrz true) 0 m standsStill)) = some (.frozen, true) ∧
    (getMember (demoBusy false) 0 0).map (fun m => (m.state, memberQuiet (demoBusy false) 0 m standsStill)) = some (.frozen, false) ∧
    (getCrew (demoBusy false) 0).en = true ∧ dcRegion (demoBusy false) 0 = some 0 := by decide +kernel

/-- A scene asked to hold; an ALU with a hold marker at its input; a scene that holds, one that saves; a context that has exited. -/
def demoHold : State := modScene (modMember demo 0 0 fun m => { m with state := .running }) 0 fun k => { k with wanted := true, started := true }
def demoMark : State := modRegion (fab [(0, cfgWord 0 0 0x80 (2 ^ 23))] [] [(0, { a := [holdTok] })]) 0 fun x => { x with holding := true }
def demoSaving (saving : Bool) : State :=
  modScene (modCtx (modRegion demo 0 fun x => { x with holding := true }) 0 fun x => { x with state := .parked }) 0 fun k => { k with holding := true, saving }
def demoExit : State := modCtx (modMember demo 0 0 fun m => { m with state := .running }) 0 fun x => { x with wait := .exit }
def demoIdle : State := { demoBusy true with eng := demo.eng }
theorem met_HoldsAndEnds : (getScene demoHold 0).map (fun k => (k.holding, k.isHeld, k.members.all (memberCanHold demoHold))) = some (false, false, true) ∧
    (getScene demo 0).map (·.wanted) = some false ∧
    ((regionOf demoMark 0).any fun (r, x) => regionLive x && !x.heldUnits.contains { stage := 0, slot := 0 } && x.faults == [] &&
      (unitCfg (getStage demoMark 0) x 0).any fun c => cfgKind c ≠ 13 && (unitInputs c).all (fun p => inputMarker demoMark x 0 0 c p ≠ .none) &&
        !acted demoMark (fireUnit demoMark 0 0 c) r x 0) = true ∧ (getStage demoMark 0).reqs = [] ∧
    (getScene (demoSaving false) 0).map (fun k => (k.saving, (liveMembers k).all fun p => memberHeld (demoSaving false) p.2)) = some (false, true) ∧
    (demoSaving false).eng.ops = [] ∧ (getScene (demoSaving true) 0).map (fun k => (k.saving, (liveMembers k).length, k.members.map (·.saved))) =
      some (true, 1, [false]) := by
  decide +kernel
theorem met_MembersEnd :
    (getMember demoExit 0 0).map (·.state) = some .running ∧ (getScene demoExit 0).map (·.saving) = some false ∧
    (let y := getCtx demoExit 0
     y.state = .running ∧ y.wait = .exit ∧ y.copies = 0 ∧ y.tiles = 0 ∧ allPerformed y = true ∧ y.bars = []) ∧
    (getRegion demoExit 0).map (fun x => (x.phase, x.load, x.frozen)) = some (.idle, none, none) ∧ (getStage demoExit 0).table = [] ∧
    (getMember (demoBusy true) 0 0).map (fun m => (m.release, m.state, m.ctx, memberQuiet (demoBusy true) 0 m (mayStand (demoBusy true)))) =
      some (true, .frozen, some 0, false) ∧
    (getMember demoIdle 0 0).map (fun m => (m.release, m.state, memberQuiet demoIdle 0 m (mayStand demoIdle))) =
      some (true, .frozen, true) := by
  decide +kernel

/-! ## Hypotheses met: the scheduler, the host -/

/-- A slate of crew 0 for one stage, its quota 512; the crew's next to enter. -/
def slateWords (w0 w1 w2 : Nat) : List Word := [BitVec.ofNat 64 w0, BitVec.ofNat 64 w1, BitVec.ofNat 64 w2, 0, 0, 0, 0, 0]
def demoSlate (ws : List Word) : Slate := { words := ws, sub := 1, crew := 0, prio := 0, joincnt := 0, order := 5 }
def demoQueue (x : Slate) (quota : BitVec 10) : State :=
  let s := modCrew demo 0 fun c => { c with quota, qring := 0x130000 + 2 }
  { s with sched := { s.sched with slates := [x] } }
/-- A spill write of a slate to a ring; a refill. -/
def demoSpill (va : Word) : State := modQueue (modCrew demo 0 fun c => { c with qring := va + 2 }) 0 fun q => { q with spill := some (demoSlate (slateWords 0 0 0)) }
def demoRefill (va : Word) : State := modQueue (modCrew (demoQueue { (demoSlate []) with ringPos := some 0 } 512) 0 fun c => { c with qring := va + 2 }) 0
  fun q => { q with ringLen := 1 }
/-- Whether an access to the ring's first place is translated. -/
def ringOk (s : State) : Bool × Bool := ((vwrite s hostCache 0 (ringVA (getCrew s 0) 0 0) (List.replicate 64 0)).2.isNone,
  (vread s hostCache 0 (ringVA (getCrew s 0) 0 0) 64).toOption.isSome)
/-- A sealed queue that holds a slate, its ring of 2^q places at 0x130000. -/
def demoSealed (held : Option Slate) (ringLen : Nat) : State :=
  modQueue (modCrew demo 0 fun c => { c with qring := 0x130000 + 2 }) 0 fun q => { q with sealed := true, held, ringLen }
/-- The queue once it is unsealed and its slate waits to be stored. -/
def demoUnsealed : State :=
  let f := fun (z : Queue) => { z with sealed := false, sealVA := 0, sealKind := 0, held := none, spill := some { (demoSlate []) with order := 1 } }
  { demoSealed none 1 with sched := { (demoSealed none 1).sched with queues := modAt (demoSealed none 1).sched.queues 0 f } }
theorem met_SlatesEnter : (getCrew demo 0).en = true ∧ hostActs demo = true ∧ demo.hostWait = [] ∧
    ((List.range 8).all fun j => (getQueue demo j).spill.isNone) = true ∧
    ((getCrew demo 0).push[0]?).isSome = true ∧ (demo.sched.queues[0]?.map fun q => (q.sealed, q.ringLen)) = some (false, 0) ∧
    qcredit demo 0 = 64 ∧ windowCount demo 0 = 0 ∧ 0 < ringCap (getCrew (demoSealed none 0) 0) ∧
    qcredit { demo with sched := { demo.sched with slates := List.replicate 64 (demoSlate []) } } 0 = 0 := by decide +kernel
theorem met_SlatesSpill :
    (demoSpill 0x130000).crews[0]?.isSome = true ∧ ((getQueue (demoSpill 0x130000) 0).spill.map fun x => 8 * x.crew + x.prio) = some 0 ∧
    ringOk (demoSpill 0x130000) = (true, true) ∧ ringOk (demoSpill 0x80000000) = (false, false) ∧
    (ringSlate (demoRefill 0x130000) 0 0).isSome = true ∧ (getQueue (demoRefill 0x130000) 0).sealed = false ∧
    ringOk (demoRefill 0x130000) = (true, true) ∧ ringOk (demoRefill 0x80000000) = (false, false) ∧
    ((demoSealed none 0).sched.queues[0]?.map fun q => (q.sealed, q.held, q.ringLen, q.spill)) = some (true, none, 0, none) ∧
    ringSlate (demoSealed none 1) 0 0 = none ∧ windowCount (demoSealed none 1) 0 = 0 ∧
    ((demoSealed (some (demoSlate [])) 1).sched.queues[0]?.bind (·.held)).map (fun x => (x.crew, x.prio)) = some (0, 0) ∧
    1 < ringCap (getCrew (demoSealed none 1) 0) ∧ ringOk demoUnsealed = (true, true) := by decide +kernel
/-- A slate that is bad, one beyond the quota, one on no stage, one whose ranges cannot be read, one that enters. -/
def demoEnter (ws : List Word) (quota : BitVec 10) : Bool × Option Nat × Bool × Option (Option Nat) :=
  let s := demoQueue (demoSlate ws) quota
  (slateBad ws, (membersHere s (demoSlate ws)).map fun m => quotaOf (getCrew s 0) - m * slateH ws * slateW ws, placeable s ws (slateN ws),
    (readRanges s (demoSlate ws)).map fun r => match r with | .ok _ => none | .error c => some c)
/-- A key slot that is being changed: what the demonstration crew's pages hold cannot be reached. -/
def demoWaiting : State := { demo with keys := { demo.keys with changing := [1] } }
theorem met_SlatesChecked : (nextToEnter (demoQueue (demoSlate (slateWords 0x120000 0 0)) 512) 0).isSome = true ∧
    (demoEnter (slateWords 0 0 0) 512).1 = true ∧ quotaOf (getCrew (demoQueue (demoSlate []) 0) 0) = 0 ∧
    placeable demo ((slateWords 0x120000 0 0).set 4 (31 + 0x10000000000000)) 1 = false ∧
    demoEnter (slateWords 0x120000 0 (2 ^ 60 + 0x80000000)) 512 = (false, some 511, true, some (some 5)) ∧
    demoEnter (slateWords 0x120000 0 0) 512 = (false, some 511, true, some none) ∧
    membersHere demoWaiting (demoSlate ((slateWords 0x120000 0x120000 0).set 4 (2 ^ 47))) = none ∧
    readRanges demoWaiting (demoSlate (slateWords 0x120000 0 (2 ^ 60 + 0x120000))) = none ∧
    depRoom demo 0 0 = true ∧ depRoom { demo with sched := { demo.sched with deps := List.replicate 4096 { crew := 0, order := 0, wr := false, base := 0, len := 0 } } } 0 1 = false := by
  decide +kernel

/-- A pass that is due with nothing, and with one slate that fits; a placed scene at its start tick, a held one. -/
def demoPass : State := { (demoQueue { (demoSlate (slateWords 0x120000 0x120000 0)) with entered := true } 512) with
  timecode := 100000, chip := { demo.chip with ready := true } }
def demoPlaced (started : Bool) : State :=
  modScene (modMember demo 0 0 fun m => { m with state := .placed }) 0 fun k => { k with started, isHeld := started }
/-- The state in which a pass looks for candidates. -/
def passState (s : State) : State := { (noteReady s) with sched := { (noteReady s).sched with due := false, lastPass := now s, taken := [] } }
theorem met_PassIdle : demo.chip.ready = true ∧ partStopped demo = false ∧ demo.sched.due = false ∧ now demo < demo.sched.lastPass + 100000 ∧
    candidates (passState demo) = [] := by decide +kernel
theorem met_PassPlaces : demoPass.sched.due = false ∧ demoPass.sched.lastPass + 100000 ≤ now demoPass ∧
    ((candidates (passState demoPass)).all fun x => x.order == 5 && x.prio < 8 && (slateScene (passState demoPass) x).isNone && x.launch.isNone &&
      !slateXchip x.words && findSlate (passState demoPass) 5 == some x &&
      (fitOrigins (passState demoPass) x (slateN x.words) [] 0).any fun os => fullDirectors (passState demoPass) os == [] &&
        circuitsFit (passState demoPass) (freshSerial (passState demoPass)) none
          (spotsOf (slateW x.words) (slateH x.words) (List.range (slateN x.words)) os) []) = true ∧
    (candidates (passState demoPass)).length = 1 ∧
    (match readCircuits (passState demoPass) 0 0x120000 1 with | some (.ok l) => l.length | _ => 9) = 0 := by decide +kernel
theorem met_PlacementAndStart :
    ((getScene (demoPlaced false) 0).map fun k => (tickCome (demoPlaced false) k, k.started, (liveMembers k).map fun p =>
      (p.2.state, memberReady (demoPlaced false) p.2))) = some (true, false, [(.placed, true)]) := by decide +kernel
theorem met_PlacementWaits : ((getScene (demoPlaced true) 0).map fun k => (k.started, savePending (demoPlaced true) 0,
      (liveMembers k).map fun p => memberLevels (demoPlaced true) p.2)) = some (true, false, [true]) ∧
    savePending (demoOp (cueWords 0x50 5 1 0 0) 0) 0 = true ∧
    ((getScene demo 0).map fun k => (liveMembers k).map fun p => p.2.state) = some [.running] ∧
    memberReady (modRegion (demoPlaced false) 0 fun x => { x with load := some { image := 0, map := 0, wmask := 0, act := none, ctx := none } })
      { region := 0, w := 1, h := 1 } = false := by decide +kernel

/-- A scene across chips of another home, and a request that waits for one peer or two; a chip map of one slot. -/
def demoHome : Nat := 65536 * 7 + 3
def demoPeer (peers : List Nat) : State :=
  let s := modScene (setScene (demoPlaced false) demoHome { crew := 0, prio := 0, order := 0, sub := 0, words := List.replicate 8 0, members := [], xchip := true, home := false }) 0
    fun k => { k with xchip := true }
  { s with sched := { s.sched with xreqs := [{ serial := 0, crew := 0, prio := 0, order := 0, waiting := peers, deadline := 5 }] } }
def mapRead (n : Nat) : Option Bool :=
  (readChipMap { demo with mem := putBytes demo.mem 0x120040 (leBytes 4 n) } 0 0x120000 1).map fun r => r.toOption.isSome
theorem met_ScenesAcrossChips : ((demoPeer [2]).sched.xreqs.find? (·.serial == 0)).map (fun q => (q.waiting.contains 2, q.waiting.erase 2)) = some (true, []) ∧
    [2, 3].erase 2 ≠ [] ∧ (getScene (demoPeer [2]) 0).map (fun k => (k.isHeld, allPlaced (demoPeer [2]) k)) = some (false, true) ∧
    now demo < 5 ∧ 5 < now demoPass ∧ 65536 ≤ demoHome ∧
    (getScene (demoPeer [2]) demoHome).map (fun k => (k.home, k.xchip, k.isHeld, k.tick, k.started)) = some (false, true, false, none, false) ∧
    (getCrew demo 1).en = false ∧ (getCrew demo 0).en = true ∧ demo.links.outOfStep = false ∧ mapRead 7 = some true ∧ mapRead 0 = some false ∧
    getScene demo demoHome = none ∧ (getScene demo 0).map (·.xchip) = some false ∧
    (getScene (demoPeer [2]) 0).map (fun k => (k.xchip, (liveMembers k).map (·.2.state))) = some (true, [.placed]) := by decide +kernel

/-- The accesses of a host read: how many blocks, or the fault. -/
def hostPieces (s : State) (va : Word) (len : Nat) : Option Nat :=
  match pieces s hostCache 0 .read false (len / 64 + 2) va len with
  | .ok ps => some ps.length
  | .error .wait => none
  | .error _ => some 0
theorem met_HostInterface : hostActs { demo with chip := { demo.chip with halt := some 0 } } = false ∧ hostActs demo = true ∧
    (demo.crews[0]?.map (·.en)) = some true ∧ (demo.crews[7]?.map (·.en)) = some false ∧ demo.msixPend = [] ∧
    commitsWait demo = false ∧ commitsWait { demo with hostWait := [.start (.launchGo 0 0)] } = true ∧
    vectorMasked demo 0 = true ∧ vectorMasked { demo with msixTable := List.replicate 18 0 } 0 = false ∧
    dcRegion demo 0 = none ∧ dcRegion (demoFrz true) 0 = some 0 ∧
    hostPieces demo (hostVA demo 0 0x100040) 8 = some 1 ∧ hostPieces demo (hostVA demo 0 0x100040) 128 = some 2 ∧
    hostPieces demo (hostVA demo 0 0x80000000) 8 = some 0 ∧ hostPieces demoWaiting (hostVA demo 0 0x100040) 8 = none ∧
    (match pieceOf demo hostCache 0 (hostVA demo 0 0x100040) 8 .read false with
      | .ok q => (pieceBad demo q false, pieceBad { demo with bad := [q.pa / 64] } q false) | .error _ => (true, false)) = (false, true) := by
  decide +kernel

/-! ## Hypotheses met: crews, launches, keys, links, power -/

/-- Crew 1, not enabled, with the page tables of the demonstration; a launch slot of crew 0 with a record, in a state. -/
def demoCrew (keys : Word) : State := modCrew demo 1 fun c => { c with keys, ptroot := 0x10000 }
def demoLaunch (st : BitVec 4) (rec : List Word) : State :=
  modCrew { demo with mem := putBytes demo.mem 0x120000 (reelBytes goodWords) } 0 fun c => { c with
    quota := 512
    slots := c.slots.map fun l => { l with record := rec, state := st, scene := some 0, taken := (List.replicate 32 0).set 9 (BitVec.ofNat 64 (1 * 2 ^ 12)) } }
def launchRec (va : Nat) : List Word := BitVec.ofNat 64 va :: List.replicate 31 0
theorem met_Crews : enableError (demoCrew 0x20002) 1 = 0 ∧ enableError (demoCrew 0) 1 = 1 ∧ hostActs demo = true ∧ demo.chip.ready = true ∧
    (getCrew (demoCrew 0) 1).en = false ∧ wbit 0x8000000000000000 63 = true ∧ (getCrew demo 0).en = true ∧
    demo.power.crews[1]?.isSome = true ∧ demo.crews[1]?.isSome = true := by decide +kernel
set_option maxRecDepth 100000 in
theorem met_LaunchPasses : launchCheck (demoLaunch 0 (launchRec 0x120000)) 0 (launchRec 0x120000) = some none := by decide +kernel
theorem met_Launches : launchCheck demo 0 (launchRec 1) = some (some 1) ∧ launchCheck demoWaiting 0 (launchRec 0x120000) = none ∧
    (getCrew demo 0).slots[0]?.isSome = true ∧ demo.hostWait = [] ∧ slotBusy { state := 1 } = true ∧ slotBusy { state := 0 } = false ∧
    lIDLE = 0 ∧ 5 ≤ lDONE.toNat ∧ lHELD.toNat < 5 := by decide +kernel
/-- A seed entry of a running take with its port open, full and exhausted. -/
def demoSeed (p : PortEnd) : State := modMember (demoLaunch lRUNNING (launchRec 0)) 0 0 fun m => { m with ports := [(0, p)] }
theorem met_Seeds : ([{ kind := 1 }, { kind := 1, exhausted := true }, { kind := 1, fifo := List.replicate 64 { tag := 0 } }] : List PortEnd).all (fun p =>
      ((getCrew (demoSeed p) 0).slots[7]?).any fun l => entryEnd (demoSeed p) l 0 == some p && l.scene == some 0 && entryKind l.taken 0 == 1) = true ∧
    ((getCrew (demoSeed { kind := 2 }) 0).slots[7]?).any (fun l => entryEnd (demoSeed { kind := 2 }) l 0 == some { kind := 2 }) = true ∧
    badSeedTag 5 = true ∧ badSeedTag 0 = false := by decide +kernel

/-- A key command pending, an access under its slots; a walk's leaf; an invalidation. -/
def demoKey (k : Option KeyCmd) : State := { demo with keys := { demo.keys with pend := k, data := 1 + 2 * 2 ^ 256 } }
theorem met_Keys : (keyValue demo 1).isSome = true ∧ keyValue demo 2 = none ∧ weakKey 0 = true ∧ weakKey (1 + 2 * 2 ^ 256) = false ∧
    8192 < (8191 : BitVec 13).toNat + max 1 (2 : BitVec 13).toNat ∧ (8191 : BitVec 13).toNat + max 1 (0 : BitVec 13).toNat ≤ 8192 ∧
    openAccesses demo = [] ∧
    openAccesses (modCtx demo 0 fun x => { x with stores := [{ va := 0, pa := 0, key := 1, bytes := [0], kind := 0 }] }) ≠ [] := by decide +kernel
theorem met_Tables : populated demo (wbits demo.xl.ptwAddr 6 40 * 64) = true ∧
    populated { demo with xl := { demo.xl with ptwAddr := 0x3FFFFFFFFFC0 } } (wbits 0x3FFFFFFFFFC0 6 40 * 64) = false ∧
    badBlock demo 0 = false ∧ (tableWalk demo 0 0x100040 .read).toOption.isSome = true ∧ (tableWalk demo 0 0x80000000 .read).toOption.isSome = false ∧
    demo.xl.inv = none ∧ demo.xl.tlb = [] := by decide +kernel
theorem met_Trust : hostActs demo = true ∧ demo.chip.trCmd = 0 ∧ demo.chip.index ≠ 2 ^ 20 ∧
    (demo.chip.flashTakes && demo.chip.flashReads) = true ∧ (({ demo.chip with flashReads := false }).flashReads) = false ∧ demo.chip.fwLen = 0 ∧
    (64 : BitVec 32) ≠ 0 ∧ (64 : BitVec 32).toNat ≤ 0x2000000 := by decide +kernel

/-- A chip port that is up, in order and after a gap; a beat; a circuit that arrives through the port. -/
def demoLink (q : Port) : State :=
  modScene { demo with links := { demo.links with ports := modAt demo.links.ports 0 fun _ => q } } 0 fun k => { k with
    circuits := [{ smem := 0, sport := 0, dmem := 0, dport := 1, via := some (0, 9) }] }
def demoBeat (typ : BitVec 4) (seq : BitVec 12) : Beat := { typ, circ := 9, seq, ack := 0, tag := 0, mask := 0xFFFF, body := 5 }
theorem met_Links : portUp (demoLink { state := 1 }) 0 = true ∧ portUp (demoLink { state := 0 }) 0 = false ∧
    (getChipPort (demoLink { state := 1 }) 0).rxSeq = (demoBeat 1 0).seq ∧ (getChipPort (demoLink { state := 1 }) 0).rxSeq ≠ (demoBeat 1 1).seq ∧
    (getChipPort (demoLink { state := 1 }) 0).dropping = false ∧ (getChipPort (demoLink { state := 1 }) 0).tries < 3 ∧
    (getChipPort (demoLink { state := 1, dropping := true, tries := 3 }) 0).dropping = true ∧ (demoBeat 6 0).circ.toNat < 2048 ∧
    ((portCircuits (demoLink { state := 1 }) 0).find? fun c => c.2.2.via == some (0, 9) && !c.2.2.outward).map (fun c => (c.1, c.2.1)) = some (0, 0) ∧
    (getChipPort (demoLink { state := 1 }) 0).tcOn = true ∧ upstreamPort (demoLink { state := 1 }) = none ∧
    upstreamPort { (demoLink { state := 1 }) with links := { (demoLink { state := 1 }).links with root := false, rootSerial := 7, routes := [(7, 0)] } } = some 0 := by
  decide +kernel
/-- A port with a command beat and a timecode beat to send, and one with two tokens. -/
def demoDue (ts : List (BitVec 4)) : Port := { state := 1, due := ts.map fun t => demoBeat t 0 }
theorem met_BeatsSent : nextDue (demoDue [3, 4]) = some 1 ∧ nextDue (demoDue [1, 1]) = some 0 ∧ nextDue (demoDue [4]) = some 0 ∧
    nextDue { demoDue [3, 1] with lastType := 3 } = some 1 ∧ (demoDue [4]).replay = [] ∧ 7 ≤ (demoBeat 7 0).typ.toNat ∧
    demo.links.slewing = false ∧ (0 : Int) - 100 ≤ 64 := by decide +kernel
theorem met_GatherBeats : gatherOf (modStage { (demoOp (cueWords 0x03 0 0 0 0) 0) with eng := { demo.eng with ops := [(1, {
      words := cueWords 0x03 0 0 0 0, crew := 0, scene := 0, stage := 0, ctx := some 0, sheet := 0, phase := .waiting })] } } 0 id) 2049 = some 1 ∧
    demo.links.reacq = false ∧ (∀ p ∈ demo.scenes, p.2.xchip = false) ∧ demo.links.lastBeat + 1024 ≤ now demoPass ∧
    now demo < demo.links.lastBeat + 1024 ∧ (64 : Int) < (100 : BitVec 32).toInt ∧ (-1 : BitVec 32).toInt < 0 := by decide +kernel

/-- A cluster with a change ordered, one in a handover; a window that ends above the cap; ballast older than 2 us; a region whose
mapping draws current, on the cluster of its stage. -/
def demoCluster (x : Cluster) : State := { demo with power := { demo.power with clusters := modAt demo.power.clusters 0 fun _ => x } }
def demoBallast : State := { demoPass with power := { demo.power with running := 5000, ballast := [{ crew := 0, die := 0, ma := 4000, began := 0 }] } }
def demoDraw (x : Cluster) : State :=
  modRegion (demoCluster x) 0 fun y => { y with
    phase := .started, pacing := 3, loaded := [(0, { mapping := 0, spine := 0, iest := 160 })] }
theorem met_Power : (demoCluster { queued := some 3 }).power.clusters[0]? = some { queued := some 3 } ∧
    riseGranted (demoCluster { queued := some 3 }) (.base 0) = true ∧ riseGranted (demoDraw { queued := some 3 }) (.base 0) = false ∧
    (demoCluster { target := some 3 }).power.clusters[0]? = some { target := some 3 } ∧ ([125, 30].any (125 ≤ ·)) = true ∧
    ([109].any (110 ≤ ·)) = false ∧ thermalStep 15 60 < 15 ∧ demo.power.waits = [] ∧
    demo.power.window < 1000000 / 1000000 ∧ now demo / 1000000 ≤ demo.power.window ∧
    riseGranted (demoDraw {}) (.pace 0) = false ∧ (getRegion (demoDraw {}) 0).map (·.pacing) = some 3 ∧
    selectedCap demo.power.mode.toNat demo.power.cap.toNat < demoBallast.power.running ∧
    demo.power.running ≤ selectedCap demo.power.mode.toNat demo.power.cap.toNat ∧
    (demoBallast.power.ballast.filter fun b => b.began + 2000 ≤ now demoBallast) ≠ [] := by
  decide +kernel
/-- The same region where the rails have granted the step. -/
theorem met_PowerGranted : riseGranted { demoDraw {} with power := { demo.power with waits := [{ rise := .pace 0, paid := [9000, 0, 0, 0] }] } } (.pace 0) = true := by
  decide +kernel

/-- A report of a start that finds nothing wrong, and of one that fails at step 2. -/
def goodStart (n : Nat) : StartReport :=
  { failStep := n, failCause := 1, coldStep := 0, coldCause := 0, fenced := [], deadPorts := [], trained := [], reach := [], upTime := 0
    beatTrip := 0, joins := none, recoveryOk := true }
theorem met_ColdStartFails : (runSteps true (goodStart 2) [1, 2, 3, 4, 5, 6] (coldBegin { demo with chip := { demo.chip with powered := true } })).2 =
    some (2, 1) := by decide +kernel
theorem met_WarmStart : (runSteps false (goodStart 0) [1, 2, 3, 4, 5, 6] { resetHost demo with
    chip := { (resetHost demo).chip with ready := false, stepCode := 0x10, bootThermal := (resetHost demo).chip.thermalMarker }
    links := { (resetHost demo).links with ports := (resetHost demo).links.ports.map fun (q : Port) => { q with replays := 0 } } }).2 = none := by
  decide +kernel


/-! ## Hypotheses met: a cold start, its image signed with an example key -/

/-- An image of the shape of 03 R68 with an empty body, and the package whose flash holds it, its key's digest fused. -/
def fwHead : List Byte := [0x5A, 0x51, 0x46, 0x57] ++ List.replicate 60 0
def fwImage : List Byte := fwHead ++ (examplePub zero32 ++ exampleSig zero32 fwHead)
def demoOff : State := { demo with chip := { demo.chip with powered := false, bankA := fwImage, fwDigest := imageDigest (examplePub zero32) } }

theorem fwImage_parts : fwHeader fwImage = fwHead ∧ fwPub fwImage = examplePub zero32 ∧ fwSig fwImage = exampleSig zero32 fwHead ∧
    fwSigned fwImage = fwHead ∧ fwBodyLen fwImage = 0 ∧ fwVersion fwImage = 0 ∧ fwImage.take 4 = [0x5A, 0x51, 0x46, 0x57] ∧
    fwImage.length = 2952 := by
  have hh : fwHead.length = 64 := by decide +kernel
  have hp : (examplePub zero32).length = 68 := examplePub_length rfl
  have hs := exampleSig_length zero32 fwHead
  have hf : ∀ a n, a + n ≤ 64 → fwField fwImage a n = fwField fwHead a n := by
    intro a n h
    rw [fwField, fwField, fwImage, List.drop_append_of_le_length (by omega), List.take_append_of_le_length (by rw [List.length_drop]; omega)]
  have hb : fwBodyLen fwImage = 0 := by rw [fwBodyLen, hf 8 4 (by omega)]; decide +kernel
  refine ⟨?_, ?_, ?_, ?_, hb, ?_, ?_, ?_⟩
  · rw [fwHeader, fwImage, List.take_left' hh]
  · rw [fwPub, hb, fwImage, List.drop_left' hh, List.take_left' hp]
  · rw [fwSig, hb, fwImage, ← List.append_assoc, List.drop_left' (by rw [List.length_append, hh, hp]), List.take_of_length_le (by omega)]
  · rw [fwSigned, hb, fwImage, List.take_left' hh]
  · rw [fwVersion, hf 4 2 (by omega)]; decide +kernel
  · rw [fwImage, List.take_append_of_le_length (by omega)]; decide +kernel
  · rw [fwImage, List.length_append, List.length_append, hh, hp, hs]

/-- The checks of 03 R68 accept it. -/
theorem fwImage_good (c : Chip) (hd : c.fwDigest = imageDigest (examplePub zero32)) (hv : c.minVersion = 0) : fwCause c fwImage = 0 := by
  obtain ⟨h1, h2, h3, h4, h5, h6, h7, h8⟩ := fwImage_parts
  have hz : ∀ x ∈ fwHead.drop 12, x = 0 := by decide +kernel
  have hx := exampleSig_verifies (seed := zero32) rfl fwHead
  simpa [fwCause, h1, h2, h3, h4, h5, h6, h7, h8, hd, hv, hx] using hz

theorem writeTest_chip (s : State) : (writeTest s).chip = s.chip ∧ (writeTest s).devRing = s.devRing := by
  rw [writeTest]
  generalize testAreas s = l
  induction l generalizing s with
  | nil => exact ⟨rfl, rfl⟩
  | cons a l ih => exact ih _

theorem goodStart_mesh (s : State) : meshReach (goodStart 0) s = [] ∧ meshDepth (goodStart 0) s = 0 := by
  have h : meshReach (goodStart 0) s = [] := rfl
  have hl : ∀ n, isLowest n [] = true := fun _ => rfl
  refine ⟨h, ?_⟩
  have hj : (goodStart 0).joins = none := rfl
  simp [meshDepth, startRoot, h, electRoot, hl, hj]

/-- One step of a start that passes. -/
theorem runSteps_pass (s : State) (n : Nat) (rest : List Nat) (h : stepCause true (goodStart 0) n (stepBegin true (goodStart 0) n s) = 0) :
    runSteps true (goodStart 0) (n :: rest) s = runSteps true (goodStart 0) rest (stepPass true (goodStart 0) n (stepBegin true (goodStart 0) n s)) := by
  rw [runSteps]
  simp only [h]

/-- Self-test that finds nothing, before the device ring is set up. -/
theorem selfTest_good (s : State) (hr : ringOn s.devRing = false) :
    (stepBegin true (goodStart 0) 3 s).chip = { s.chip with fence := addFence (addFence s.chip.fence s.chip.fusedFence) [], deadPorts := s.chip.deadPorts ++ [] } := by
  have h : ∀ t : State, ringOn t.devRing = false → (writeKept t).chip = t.chip := fun t ht => by simp [writeKept, ht]
  exact h { s with
    chip := { s.chip with fence := addFence (addFence s.chip.fence s.chip.fusedFence) [], deadPorts := s.chip.deadPorts ++ [] }
    devRing := { s.devRing with kept := s.devRing.kept ++ [] } } hr

/-- The last steps of a start whose stages and image pass. -/
theorem goodStart_ends (s : State) (hr : ringOn s.devRing = false)
    (h3 : fenceFull (addFence (addFence s.chip.fence s.chip.fusedFence) []) = false)
    (h4 : fwCause s.chip (activeBank s.chip) = 0) : (runSteps true (goodStart 0) [3, 4, 5, 6] s).2 = none := by
  have hm := goodStart_mesh
  have hs := selfTest_good s hr
  rw [runSteps_pass s 3 _ (by
    rw [show ∀ t, stepCause true (goodStart 0) 3 t = if fenceFull t.chip.fence then 1 else 0 from fun _ => rfl, if_neg]
    rw [hs]
    exact ne_true_of_eq_false h3), runSteps_pass (stepPass true (goodStart 0) 3 (stepBegin true (goodStart 0) 3 s)) 4 _ (by
      rw [show ∀ t, stepCause true (goodStart 0) 4 (stepBegin true (goodStart 0) 4 (stepPass true (goodStart 0) 3 t)) =
        fwCause t.chip (activeBank t.chip) from fun _ => rfl, hs]
      exact h4),
    runSteps_pass _ 5 _ rfl]
  generalize stepPass true (goodStart 0) 5 _ = t
  rw [runSteps_pass t 6 _ (by
    rw [show ∀ t, stepCause true (goodStart 0) 6 (stepBegin true (goodStart 0) 6 t) = if 16 < meshDepth (goodStart 0) t then 1
      else if !(t.chip.serial.toNat :: (meshReach (goodStart 0) t).map (·.serial)).Nodup then 2 else 0 from fun _ => rfl]
    simp [hm])]
  rfl

/-- A start whose stages and image pass. -/
theorem goodStart_passes (s : State) (hr : ringOn s.devRing = false)
    (h3 : fenceFull (addFence (addFence s.chip.fence s.chip.fusedFence) []) = false)
    (h4 : fwCause s.chip (activeBank s.chip) = 0) : (runSteps true (goodStart 0) [1, 2, 3, 4, 5, 6] s).2 = none := by
  have h1 : ∀ t, stepPass true (goodStart 0) 1 (stepBegin true (goodStart 0) 1 t) = t := fun _ => rfl
  have hd : ∀ w, (stepPass true (goodStart 0) 2 w).devRing = w.devRing := fun _ => rfl
  have hc : ∀ w, (stepPass true (goodStart 0) 2 w).chip = { w.chip with training := true } := fun _ => rfl
  have hw : stepBegin true (goodStart 0) 2 s = writeTest s := rfl
  rw [runSteps_pass s 1 _ rfl, h1, runSteps_pass s 2 _ rfl, hw]
  apply goodStart_ends
  · rw [hd, (writeTest_chip s).2]; exact hr
  · rw [hc, (writeTest_chip s).1]; exact h3
  · rw [hc, (writeTest_chip s).1]; exact h4

/-- A cold start in which every step passes. -/
theorem met_ColdStartPasses :
    (runSteps true (goodStart 0) [1, 2, 3, 4, 5, 6] (coldBegin { demoOff with chip := { demoOff.chip with powered := true } })).2 = none := by
  apply goodStart_passes
  · rfl
  · decide +kernel
  · exact fwImage_good _ rfl rfl

/-! ## Hypotheses met: the cases beside the plain ones -/

/-- The port of the demonstration's stage accepts nothing before an access, and NOCOMB is clear; a context whose cue ended BADCUE. -/
def demoBadcue : State := { (modCur demo fun x => { x with acqBad := some 0x2D20FFFF }) with agenda := [.issue 0] }
/-- A table whose first, completed cue is the one that the context waits for, ended BADCUE; one whose cue pops FIFO 0, which holds 2. -/
def demoAcq : State := modCur (modStage (demoTab 0) 0 fun g => { g with
    table := g.table.map fun e => { e with done := true, status := 1 } }) fun x => { x with acq := some 0, wait := .acquire }
def demoPop : State := modStage (demoTab 0) 0 fun g => { g with
    fifos := [(0, 2)], table := g.table.map fun e => { e with words := [0x2D21FFFF, 0, 0, 0], issued := false, done := false } }
theorem met_PortFree : noComb demo 0 = false ∧ readWaits demo 0 0 0x100040 = false ∧ portWaits demoAhead 0 0 0x100040 = false ∧
    (curCtx demo).acq = none := by decide +kernel
theorem met_CueAcquire : ((getStage demoAcq 0).table[0]?.map fun e => (e.done, e.released, e.ticket, e.status)) = some (true, false, 0, 1) ∧
    (getCtx demoAcq 0).acq = some 0 ∧ (getCtx demoAcq 0).acqBad = none ∧
    readyList { demoBadcue with agenda := [] } 0 = [0] ∧ (getCtx demoBadcue 0).acqBad = some 0x2D20FFFF ∧ partStopped demoBadcue = false ∧
    (getCtx demoBadcue 0).tm = false ∧ (getCtx demoBadcue 0).xvec ≠ 0 ∧ (getCtx demoBadcue 0).wait = .none := by decide +kernel
theorem met_CuePops : Sparse.wf 0 (getStage demoPop 0).fifos = true ∧
    (firstIssue demoPop 0 (getStage demoPop 0) [] (getStage demoPop 0).table).isSome = true ∧
    ((getStage demoPop 0).table[0]?.map fun e => (cuePop e.words, cuePopN e.words)) = some (true, 0) := by decide +kernel
theorem met_SeedWaits : (getMember (demoSeed { kind := 1, fifo := List.replicate 64 { tag := 0 } }) 0 0).map (fun m => m.ports.map fun p =>
    (p.2.kind, p.2.exhausted, decide (64 ≤ p.2.fifo.length))) = some [(1, false, true)] ∧ (curCtx demo).privBad = [] := by decide +kernel
/-- Arrivals whose scene is placed, and is held; a context that its scene's hold has saved. -/
theorem met_BarrierRuns : ((demoWait 2).scenes.map fun p => (p.1, p.2.holding, p.2.isHeld, p.2.xchip, p.2.members.map (·.state))) =
      [(0, false, false, false, [.running])] ∧
    ((modScene (demoWait 2) 0 fun k => { k with isHeld := true }).scenes.map fun p => (p.1, p.2.isHeld)) = [(0, true)] ∧
    parkedFor (modCtx (modMember demo 0 0 fun m => { m with state := .held }) 0 fun x => { x with state := .parked }) 0 0 = true := by
  decide +kernel

/-- A carry that collects residue, its places full, its spill area of no tokens; an ALU with a start token at its second input. -/
def demoResidue : State := modStage (demoRouter 3) 0 fun g => { g with
  rslots := [(8, { started := true, residue := List.replicate 64 (dataTok 1) })] }
theorem met_CarryFull : (regionOf demoResidue 0).any (fun (_, x) =>
      regionLive x && slotRop (getStage demoResidue 0) x 2 0 == 3 && residueFull (getStage demoResidue 0) x 2 0 (getSlot demoResidue 0 2 0)) = true ∧
    startFault (some (cfgWord 0 0 0x80 inAB)) 1 startTok = true ∧ startFault (some (cfgWord 0 0 0x80 inAB)) 1 (dataTok 1) = false := by
  decide +kernel
/-- A drain with rows still to send. -/
theorem met_MatrixDrains : [[(0, dataTok 1)], [(0, dataTok 2)]].drop 1 ≠ [] := by decide
/-- A memory node whose last access is to be accepted, its accesses acquire-marked or not; one with an access accepted and not
performed, behind which its next operation stands. -/
def demoLast (acq : Bool) : State :=
  let e : MemEvent := { array := 3, addr := 0x100040, va := 0x100040, key := 1, kind := 0, write := true, ext := 2 ^ 64 - 1 }
  let s := demoNode 5 addrTok (some { events := [e] })
  modStage s 0 fun g => { g with cfg := g.cfg.map fun p => (p.1, { p.2 with word := p.2.word ||| (if acq then 0x80000000000 else 0) }) }
def demoPast : State :=
  let e : MemEvent := { array := 3, addr := 0x100040, va := 0x100040, key := 1, kind := 1, stamp := 1, write := true, data := 7, ext := 2 ^ 64 - 1 }
  modStage (demoNode 5 addrTok none) 0 fun g => { g with units := g.units.map fun p => (p.1, { p.2 with past := [{ events := [e] }] }) }
theorem met_NodeAccepts : ([false, true].map fun q => (regionOf (demoLast q) 0).bind fun (_, x) => (unitCfg (getStage (demoLast q) 0) x 9).map fun c =>
      (memAcq c, combines (demoLast q) c 0 (((getUnit (demoLast q) 0 9).op.bind (·.events.head?)).getD { array := 3, addr := 0 }), ecueWaits (demoLast q) c 0 9)) =
      [some (false, false, false), some (true, false, false)] ∧ (getStage (demoLast true) 0).comb = [] := by decide +kernel
theorem met_NodePerforms : (getStage demoPast 0).port = [] ∧ (getUnit demoPast 0 9).op = none ∧
    ((getUnit demoPast 0 9).past.flatMap (·.events)).map (fun e => (e.stamp, portWaits demoPast 0 e.stamp e.addr, (eventWrite demoPast e).isSome)) =
      [(1, false, true)] ∧ ((getUnit demoPast 0 9).past.head?.map fun n => decide (n.events ≠ [])) = some true := by decide +kernel
set_option maxRecDepth 100000 in
/-- A load's first block, from which more is to read, and its last. -/
theorem met_ImageBlocks : (match nextBlock (demoLoad goodWords none none) 0 0 0x120000 [] with | .ok (.more bs) => bs.length | _ => 0) = 64 ∧
    (match nextBlock (demoLoad goodWords none none) 0 0 0x120000 ((reelBytes goodWords).take 64) with
      | .ok (.whole im) => im.w | _ => 0) = 1 := by decide +kernel
/-- An ELB in a waved take; a hold marker at the head of its FIFO; a member that has ended; a scene of members all ended. -/
def demoElbStart : State := modStage (demoWaved (some 1)) 0 fun g => { g with
  cfg := [(16, cfgWord 10 0 0 (2 ^ 23 + 2 ^ 19))], units := [(0, {})] }
theorem met_ElbStarts : (let s := modRegion demoElbStart 0 fun x => { x with phase := .waved, active := 1 }
    (getRegion s 0).any fun x => (unitCfg (getStage s 0) x 0).any fun u => cfgKind u == 10 && !cfgSrc u && (Sparse.find? (getStage s 0).units 0).isSome) = true ∧
    (getUnit (demoElb 0 { toks := [holdTok] }) 0 0).toks.head?.map isHold = some true ∧
    (getScene (modMember demo 0 0 fun m => { m with state := .ended }) 0).map (fun k => (allEnded k, k.members.map (·.state))) =
      some (true, [.ended]) ∧ sceneActs demo 0 = false := by decide +kernel
theorem met_Freezes : (getRegion demoFault 0).map (fun x => (sortMarks demoFault 0 x x.faults).all fun q => q.cause ≠ 0x0017) = some true ∧
    (getScene demo 0).map (·.holding) = some false ∧ (getStage demo 0).port = [] ∧ nodeOps (getUnit demo 0 9) = [] := by decide +kernel
/-- A sealed queue whose retry waits for a key slot, and one whose retry is made; a held scene whose images are restored. -/
theorem met_SlatesRetry : tryRefill { demoRefill 0x130000 with keys := demoWaiting.keys } 0 = none ∧
    (tryRefill (demoRefill 0x130000) 0).isSome = true ∧ (getQueue demo 0).retry = false ∧
    (getScene (demoPlaced true) 0).map (restored (demoPlaced true) 0) = some true ∧
    (getScene (demoPlaced false) 0).map untold = some false := by decide +kernel
/-- A cross-chip scene that stands on this chip: its home chip, alone and with a peer; another's, with a port towards its home. -/
def demoTold (home : Bool) (chips : List Nat) : State :=
  let s := modScene (demoPlaced false) 0 fun k => { k with xchip := true, home, chips, slots := List.range chips.length, tick := none, told := false }
  modChipPort { s with links := { s.links with routes := [((sceneName s 0).1, 0)] } } 0 fun q => { q with state := 1 }
theorem met_Announces : ([demoTold true [0], demoTold true [0, 7], demoTold false [7, 0]].map fun s => (getScene s 0).map fun k =>
      (untold k && scenePlaced s 0 k && (liveMembers k).all (·.2.state == .placed), k.home, otherChips s k, (portTowards s (sceneName s 0).1).isSome)) =
      [some (true, true, [], true), some (true, true, [7], true), some (true, false, [7], true)] ∧
    (getScene (modScene (demoPlaced true) 0 fun k => { k with xchip := true, tick := none }) 0).map
      (fun k => (k.started, (liveMembers k).map (·.2.state))) = some (true, [.placed]) := by decide +kernel
/-- The memory window; a crew that may be enabled; a seed for an entry that is no seed port. -/
theorem met_Windows : windowActs demo 0 = true ∧ windowActs demo 7 = false ∧ windowActs { demo with hostWait := [.start (.launchGo 0 0)] } 0 = true := by
  decide +kernel
theorem met_CrewEnables : let s := demoCrew 0x20002
    let val : Word := 0x8000000000000000
    crewBusy (modCrew s 1 fun c => crewFields c val) 1 = false ∧ wbits (getCrew s 1).keys 0 13 ≠ 0 ∧ wbits (getCrew s 1).keys 16 13 ≠ 0 ∧
    wbits (getCrew s 1).keys 0 13 + wbits (getCrew s 1).keys 16 13 ≤ 8192 ∧
    (List.range 8).all (fun k => k == 1 || !(getCrew s k).en || !keysOverlap (getCrew s 1).keys (getCrew s k).keys) = true ∧
    wbits val 40 8 + ((List.range 8).map fun k => if k ≠ 1 ∧ (getCrew s k).en = true then (getCrew s k).power.toNat else 0).sum ≤ 256 ∧
    populated s (wbits (getCrew s 1).ptroot 12 34 * 4096) = true := by decide +kernel
theorem met_SeedEntries : entryKind (List.replicate 32 0) 0 ≠ 1 := by decide +kernel
/-- A translation that is cached; a corrected block under the PTW window; a port that self-test has failed; the round trips. -/
theorem met_Cached : let s := { demo with xl := { demo.xl with tlb := [{ cache := 0, crew := 0, bits := 16, page := 16, entry := 1 }] } }
    (tlbEntry s 0 0 0x100040).isSome = true ∧ wbits (0x1000000000000 : Word) 48 16 ≠ 0 ∧
    ({ demo with soft := [wbits demo.xl.ptwAddr 6 40] } : State).soft.contains (wbits demo.xl.ptwAddr 6 40) = true ∧
    ({ demo with chip := { demo.chip with deadPorts := [0] } } : State).chip.deadPorts.contains 0 = true ∧
    upstreamPort demo = none ∧ gatherOf demo 2048 = none := by decide +kernel
theorem met_Upstream : (upstreamPort { demo with links := { demo.links with root := false, rootSerial := 7, routes := [(7, 0)] } }).isSome = true := by decide +kernel

end Sys2Proof.Tests
end

/-! # The integer and control instructions of a script (18 R456, R457, R460, R461, R478) -/

section
namespace Sys2Proof.Machine

/-! ## Words as numbers (18 R456, R457) -/

theorem add_eq_ofInt (x y : Word) : x + y = BitVec.ofInt 64 (x.toInt + y.toInt) :=
  BitVec.eq_of_toInt_eq (by rw [BitVec.toInt_add, BitVec.toInt_ofInt])

theorem sub_eq_ofInt (x y : Word) : x - y = BitVec.ofInt 64 (x.toInt - y.toInt) :=
  BitVec.eq_of_toInt_eq (by rw [BitVec.toInt_sub, BitVec.toInt_ofInt])

theorem mul_eq_ofInt (x y : Word) : x * y = BitVec.ofInt 64 (x.toInt * y.toInt) :=
  BitVec.eq_of_toInt_eq (by rw [BitVec.toInt_mul, BitVec.toInt_ofInt])

/-- The quotient of −2⁶³ by −1 leaves the range and wraps to −2⁶³. -/
theorem sdiv_eq_ofInt (x y : Word) : x.sdiv y = BitVec.ofInt 64 (x.toInt.tdiv y.toInt) :=
  BitVec.eq_of_toInt_eq (by rw [BitVec.toInt_sdiv, BitVec.toInt_ofInt])

theorem srem_eq_ofInt (x y : Word) : x.srem y = BitVec.ofInt 64 (x.toInt.tmod y.toInt) := by
  rw [← BitVec.toInt_srem, BitVec.ofInt_toInt]

theorem shiftLeft_eq_ofNat (x : Word) (n : Nat) : x <<< n = BitVec.ofNat 64 (x.toNat * 2 ^ n) :=
  BitVec.eq_of_toNat_eq (by rw [BitVec.toNat_shiftLeft, BitVec.toNat_ofNat, Nat.shiftLeft_eq])

theorem ushiftRight_eq_ofNat (x : Word) (n : Nat) : x >>> n = BitVec.ofNat 64 (x.toNat / 2 ^ n) := by
  rw [← Nat.shiftRight_eq_div_pow, ← BitVec.toNat_ushiftRight, BitVec.ofNat_toNat, BitVec.setWidth_eq]

theorem sshiftRight_eq_ofInt (x : Word) (n : Nat) : x.sshiftRight n = BitVec.ofInt 64 (x.toInt / 2 ^ n) := by
  rw [BitVec.sshiftRight, Int.shiftRight_eq_div_pow, Int.natCast_pow, Int.cast_ofNat_Int]

theorem shiftCount_eq_mod (y : Word) : shiftCount y = y.toNat % 64 := by
  simp [shiftCount, wbits, bits]

theorem boolWord_sltWord (x y : Word) : boolWord (sltWord x y) = if x.toInt < y.toInt then 1 else 0 := by
  simp only [boolWord, sltWord, BitVec.slt_eq_decide, decide_eq_true_eq]

theorem boolWord_ultWord (x y : Word) : boolWord (ultWord x y) = if x.toNat < y.toNat then 1 else 0 := by
  simp only [boolWord, ultWord, BitVec.ult_eq_decide, decide_eq_true_eq]

theorem toInt_sext15 (i : BitVec 15) : (sext15 i).toInt = i.toInt :=
  BitVec.toInt_signExtend_of_le (by decide)

/-- LSI joins a word's low 49 bits with its immediate (18 R457). -/
theorem shiftLeft_or_zext15 (x : Word) (i : BitVec 15) :
    x <<< 15 ||| zext15 i = BitVec.ofNat 64 (x.toNat * 2 ^ 15 + i.toNat) := by
  have hdisjoint : x <<< 15 &&& zext15 i = 0#64 := by
    ext j hj
    rcases Nat.lt_or_ge j 15 with hlow | hhigh
    · simp [hlow]
    · simp [zext15, BitVec.getLsbD_of_ge i j hhigh]
  rw [← BitVec.add_eq_or_of_and_eq_zero _ _ hdisjoint, shiftLeft_eq_ofNat, BitVec.ofNat_add, zext15, BitVec.ofNat_toNat]

/-! ## Words of instructions (13 R329) -/

/-- An RI word whose immediate is made of two fields. -/
theorem wordRI_append (op : BitVec 7) (d a : BitVec 5) (z : BitVec 9) (n : BitVec 6) :
    wordRI op d a (z ++ n) = op ++ d ++ a ++ z ++ n := by
  rw [wordRI, BitVec.append_assoc (x₁ := op ++ d ++ a)]
  rfl

/-! ## Integer instructions whose operands are ready (18 R456, R457) -/

/-- Fewer registers are ready when more are. -/
theorem operandsReady_mono {s : State} {rs qs : List (BitVec 5)} (h : OperandsReady s rs) (hq : qs ⊆ rs) :
    OperandsReady s qs := by
  obtain ⟨hrun, hbusy⟩ := h
  refine ⟨hrun, ?_⟩
  simp only [busyRegs, List.any_eq_false] at hbusy ⊢
  exact fun r hr => hbusy r (hq hr)

theorem opRR_ready {s : State} {d a b : BitVec 5} (h : OperandsReady s [a, b, d]) {f : Word → Word → Word} {v : Word}
    (hv : f (readG (curCtx s) a) (readG (curCtx s) b) = v) : opRR d a b f s = .next (retire s d v) := by
  rw [opRR, withRegs_ready h, hv]

theorem opRI_ready {s : State} {d a : BitVec 5} (h : OperandsReady s [a, d]) {f : Word → Word} {v : Word}
    (hv : f (readG (curCtx s) a) = v) : opRI d a f s = .next (retire s d v) := by
  rw [opRI, withRegs_ready h, hv]

theorem opDiv_ready {s : State} {d a b : BitVec 5} (h : OperandsReady s [a, b, d]) (hb : readG (curCtx s) b ≠ 0)
    {f : Word → Word → Word} {v : Word} (hv : f (readG (curCtx s) a) (readG (curCtx s) b) = v) :
    opDiv d a b f s = .next (retire s d v) := by
  rw [opDiv, withRegs_ready h, if_neg hb, hv]

/-- A zero divisor takes DIVZERO with the dividend (18 R456). -/
theorem opDiv_zero {s : State} {d a b : BitVec 5} (h : OperandsReady s [a, b, d]) (hb : readG (curCtx s) b = 0)
    (f : Word → Word → Word) : opDiv d a b f s = .next (preciseTrap s tDIVZERO 0 (readG (curCtx s) a)) := by
  rw [opDiv, withRegs_ready h, if_pos hb]

/-- The results of the OP group without the divides (18 R456). -/
theorem opGroup_results {s : State} {d a b : BitVec 5} (h : OperandsReady s [a, b, d]) :
    let x := readG (curCtx s) a
    let y := readG (curCtx s) b
    let n := y.toNat % 64
    execAdd d a b s = .next (retire s d (BitVec.ofInt 64 (x.toInt + y.toInt))) ∧
    execSub d a b s = .next (retire s d (BitVec.ofInt 64 (x.toInt - y.toInt))) ∧
    execAnd d a b s = .next (retire s d (x &&& y)) ∧
    execOr d a b s = .next (retire s d (x ||| y)) ∧
    execXor d a b s = .next (retire s d (x ^^^ y)) ∧
    execSll d a b s = .next (retire s d (BitVec.ofNat 64 (x.toNat * 2 ^ n))) ∧
    execSrl d a b s = .next (retire s d (BitVec.ofNat 64 (x.toNat / 2 ^ n))) ∧
    execSra d a b s = .next (retire s d (BitVec.ofInt 64 (x.toInt / 2 ^ n))) ∧
    execSlt d a b s = .next (retire s d (if x.toInt < y.toInt then 1 else 0)) ∧
    execSltu d a b s = .next (retire s d (if x.toNat < y.toNat then 1 else 0)) ∧
    execMul d a b s = .next (retire s d (BitVec.ofInt 64 (x.toInt * y.toInt))) ∧
    execMulh d a b s = .next (retire s d (BitVec.ofInt 64 (x.toInt * y.toInt / 2 ^ 64))) ∧
    execMulhu d a b s = .next (retire s d (BitVec.ofNat 64 (x.toNat * y.toNat / 2 ^ 64))) := by
  intro x y n
  exact ⟨opRR_ready h (add_eq_ofInt x y), opRR_ready h (sub_eq_ofInt x y), opRR_ready h rfl, opRR_ready h rfl,
    opRR_ready h rfl, opRR_ready h (by rw [shiftCount_eq_mod, shiftLeft_eq_ofNat]),
    opRR_ready h (by rw [shiftCount_eq_mod, ushiftRight_eq_ofNat]),
    opRR_ready h (by rw [shiftCount_eq_mod, sshiftRight_eq_ofInt]), opRR_ready h (boolWord_sltWord x y),
    opRR_ready h (boolWord_ultWord x y), opRR_ready h (mul_eq_ofInt x y), opRR_ready h rfl, opRR_ready h rfl⟩

/-- The results of the immediate group but LDI (18 R457). -/
theorem immediateGroup_results {s : State} {d a : BitVec 5} {i : BitVec 15} {m : BitVec 6} (h : OperandsReady s [a, d]) :
    let x := readG (curCtx s) a
    let imm : Word := BitVec.ofInt 64 i.toInt
    execAddi d a i s = .next (retire s d (BitVec.ofInt 64 (x.toInt + i.toInt))) ∧
    execAndi d a i s = .next (retire s d (x &&& imm)) ∧
    execOri d a i s = .next (retire s d (x ||| imm)) ∧
    execXori d a i s = .next (retire s d (x ^^^ imm)) ∧
    execSlti d a i s = .next (retire s d (if x.toInt < i.toInt then 1 else 0)) ∧
    execSlli d a m s = .next (retire s d (BitVec.ofNat 64 (x.toNat * 2 ^ m.toNat))) ∧
    execSrli d a m s = .next (retire s d (BitVec.ofNat 64 (x.toNat / 2 ^ m.toNat))) ∧
    execSrai d a m s = .next (retire s d (BitVec.ofInt 64 (x.toInt / 2 ^ m.toNat))) ∧
    execLsi d a i s = .next (retire s d (BitVec.ofNat 64 (x.toNat * 2 ^ 15 + i.toNat))) := by
  intro x imm
  have hsext := toInt_sext15 i
  exact ⟨opRI_ready h (by rw [add_eq_ofInt, hsext]), opRI_ready h rfl, opRI_ready h rfl, opRI_ready h rfl,
    opRI_ready h (by rw [boolWord_sltWord, hsext]), opRI_ready h (shiftLeft_eq_ofNat x _),
    opRI_ready h (ushiftRight_eq_ofNat x _), opRI_ready h (sshiftRight_eq_ofInt x _),
    opRI_ready h (shiftLeft_or_zext15 x i)⟩

/-- A load of an immediate waits for its destination only (18 R457). -/
theorem execLdi_ready {s : State} {d : BitVec 5} (h : OperandsReady s [d]) (k : BitVec 20) :
    execLdi d k s = .next (retire s d (BitVec.ofInt 64 k.toInt)) :=
  withRegs_ready h _

/-- The results of the divides by a divisor that is not zero (18 R456). -/
theorem divides_results {s : State} {d a b : BitVec 5} (h : OperandsReady s [a, b, d]) (hb : readG (curCtx s) b ≠ 0) :
    let x := readG (curCtx s) a
    let y := readG (curCtx s) b
    execDiv d a b s = .next (retire s d (BitVec.ofInt 64 (x.toInt.tdiv y.toInt))) ∧
    execDivu d a b s = .next (retire s d (BitVec.ofNat 64 (x.toNat / y.toNat))) ∧
    execRem d a b s = .next (retire s d (BitVec.ofInt 64 (x.toInt.tmod y.toInt))) ∧
    execRemu d a b s = .next (retire s d (BitVec.ofNat 64 (x.toNat % y.toNat))) :=
  ⟨opDiv_ready h hb (sdiv_eq_ofInt _ _), opDiv_ready h hb BitVec.udiv_def, opDiv_ready h hb (srem_eq_ofInt _ _),
    opDiv_ready h hb BitVec.umod_def⟩

/-! ## Traps taken while no handler runs (12 R290) -/

/-- The context `x` as a trap leaves it when it starts the handler (12 R290). -/
def enterHandler (x : Ctx) (cause ret val : Word) : Ctx :=
  { x with rushes := [], hint := none, wait := .none, xcause := cause, xpc := ret, xval := val, tm := true, pc := x.xvec }

section
variable {s : State} {c : Nat} (htm : (getCtx s c).tm = false) (hvec : (getCtx s c).xvec ≠ 0)
  (cause sub : BitVec 8) (val : Word) (async : Bool) (ret : Word)
include htm hvec

theorem takeTrap_eq :
    takeTrap s c cause sub val async ret =
      modCtx (leaveBuffer s c) c fun y => enterHandler y (xcauseWord async sub cause) ret val := by
  obtain ⟨-, l, -, hl⟩ := leaveBuffer_spec s c
  simp only [takeTrap, htm, if_neg hvec, Bool.false_and, Bool.false_eq_true, if_false, modCtx, hl]
  rfl

/-- A trap taken while no handler runs starts the handler; the context's stores leave the combining buffer. -/
theorem getCtx_takeTrap :
    ∃ l, getCtx (takeTrap s c cause sub val async ret) c =
      enterHandler { getCtx s c with stores := l } (xcauseWord async sub cause) ret val := by
  obtain ⟨-, l, -, hl⟩ := leaveBuffer_spec s c
  exact ⟨l, by rw [takeTrap_eq htm hvec, getCtx_modCtx, hl]⟩

theorem takeTrap_cur : (takeTrap s c cause sub val async ret).cur = s.cur := by
  obtain ⟨⟨⟨hstate, -⟩, -⟩, -⟩ := leaveBuffer_spec s c
  rw [takeTrap_eq htm hvec, modCtx_cur, hstate]

end

/-- A trap leaves the special registers that it does not write, and the private memory (18 R480). -/
theorem takeTrap_special {s : State} (h : TrapReady s) (cause sub : BitVec 8) (val ret : Word) :
    SpecialSame (curCtx s) (curCtx (takeTrap s s.cur cause sub val false ret)) := by
  obtain ⟨htm, hvec⟩ := h
  obtain ⟨l, hl⟩ := getCtx_takeTrap htm hvec cause sub val false ret
  rw [curCtx, curCtx, takeTrap_cur htm hvec, hl]
  exact ⟨rfl, rfl, rfl, rfl, rfl, rfl, rfl, rfl, rfl, rfl, rfl⟩

theorem preciseTrap_priv {s : State} (h : TrapReady s) (cause sub : BitVec 8) (val : Word) :
    (curCtx (preciseTrap s cause sub val)).priv = (curCtx s).priv := by
  obtain ⟨-, -, -, -, -, -, -, -, -, -, hpriv⟩ := takeTrap_special h cause sub val (curCtx s).pc
  exact hpriv

/-! ## Private memory (08 R200; 18 R460) -/

/-- The eight bytes of a word, least significant first, make up the word. -/
theorem leNat_wordBytes (w : Word) : leNat ((List.range 8).map fun i => w.extractLsb' (8 * i) 8) = w.toNat := by
  have hw := w.isLt
  simp only [show List.range 8 = [0, 1, 2, 3, 4, 5, 6, 7] from rfl, List.map_cons, List.map_nil, leNat,
    BitVec.extractLsb'_toNat, Nat.shiftRight_eq_div_pow]
  omega

/-- Eight bytes of private memory from an aligned address on are one word of it. -/
theorem leNat_privBytes_aligned (x : Ctx) {a : Nat} (ha : a % 8 = 0) :
    leNat (privBytes x a 8) = (privWord x (a / 8)).toNat := by
  rw [← leNat_wordBytes, privBytes]
  refine congrArg leNat (List.map_congr_left fun i hi => ?_)
  have hi : i < 8 := List.mem_range.mp hi
  rw [show (a + i) / 8 = a / 8 by omega, show (a + i) % 8 = i by omega]

/-- A byte of private memory depends only on the word it lies in. -/
theorem privBytes_one_congr {x y : Ctx} {b : Nat} (h : privWord x (b / 8) = privWord y (b / 8)) :
    privBytes x b 1 = privBytes y b 1 := by
  simp [privBytes, h]

theorem privTrap_misaligned {s : State} {va : Word} (h : va.toNat % 8 ≠ 0) :
    privTrap s va 8 = some (preciseTrap s tMISALIGN 0 va) := by
  simp [privTrap, misaligned, h]

theorem privTrap_unmapped {s : State} {va : Word} (h : va.toNat % 8 = 0) (hhigh : 0x8000 ≤ va.toNat) :
    privTrap s va 8 = some (preciseTrap s tXLATE xNOMAP va) := by
  simp [privTrap, misaligned, h, hhigh]

theorem privTrap_none {s : State} {va : Word} (h : va.toNat % 8 = 0) (hlow : va.toNat < 0x8000) :
    privTrap s va 8 = none := by
  simp [privTrap, misaligned, h, hlow]

/-- The context with a word of private memory written, no longer damaged. -/
def writePriv (x : Ctx) (n : Nat) (v : Word) : Ctx :=
  { x with priv := Sparse.insert x.priv n v, privBad := x.privBad.filter (· ≠ n) }

section
variable {s : State} {d a : BitVec 5} {m : BitVec 15}

/-- A private load or store whose address fails its check takes the check's trap and does nothing else. -/
theorem execPrivate_trap (h : OperandsReady s [a, d]) {t : State}
    (ht : privTrap s (effAddr (readG (curCtx s) a) m) 8 = some t) :
    ∀ i ∈ [(.ldp d a m : Instr), .stp d a m], exec i s = .next t := by
  have hldp : execLdp d a m s = .next t := by simp only [execLdp, withRegs_ready h, ht]
  have hstp : execStp d a m s = .next t := by simp only [execStp, withRegs_ready h, ht]
  exact List.forall_mem_cons.mpr ⟨hldp, List.forall_mem_singleton.mpr hstp⟩

theorem execLdp_ready (h : OperandsReady s [a, d]) (ht : privTrap s (effAddr (readG (curCtx s) a) m) 8 = none)
    (hgood : (curCtx s).privBad.contains ((effAddr (readG (curCtx s) a) m).toNat / 8) = false) :
    execLdp d a m s = .next (retire s d (privWord (curCtx s) ((effAddr (readG (curCtx s) a) m).toNat / 8))) := by
  simp only [execLdp, withRegs_ready h, ht, hgood, Bool.false_eq_true, if_false]

theorem execStp_ready (h : OperandsReady s [a, d]) (ht : privTrap s (effAddr (readG (curCtx s) a) m) 8 = none) :
    execStp d a m s = .next (advance (modCur s fun y =>
      writePriv y ((effAddr (readG (curCtx s) a) m).toNat / 8) (readG (curCtx s) d))) := by
  simp only [execStp, withRegs_ready h, ht]
  rfl

end

theorem curCtx_stored (s : State) (n : Nat) (v : Word) :
    curCtx (advance (modCur s fun y => writePriv y n v)) =
      { writePriv (curCtx s) n v with pc := (curCtx s).pc + 4, wait := .none } := by
  rw [curCtx_advance, curCtx_modCur]
  rfl

theorem otherCtxs_stored (s : State) (n : Nat) (v : Word) :
    OtherCtxsSame s (advance (modCur s fun y => writePriv y n v)) s.cur := fun c hc =>
  (getCtx_modCtx_other _ _ c _ hc).trans (getCtx_modCtx_other _ _ c _ hc)

/-! ## Branches (18 R461) -/

theorem resolveHint_g (x : Ctx) (next : Word) : (resolveHint x next).g = x.g := by
  unfold resolveHint; split
  · rfl
  · split <;> rfl

theorem resolveHint_lr (x : Ctx) (next : Word) : (resolveHint x next).lr = x.lr := by
  unfold resolveHint; split
  · rfl
  · split <;> rfl

theorem branchTarget_eq (pc : Word) (off : BitVec 15) : branchTarget pc off = pc + BitVec.ofInt 64 (4 * off.toInt) := by
  rw [BitVec.ofInt_mul]
  rfl

/-- A branch whose operands are ready goes where its comparison says, and writes neither a general register nor `lr`. -/
theorem opBranch_ready {s : State} {a b : BitVec 5} (h : OperandsReady s [a, b]) (off : BitVec 15)
    (f : Word → Word → Bool) {taken : Bool} (hf : f (readG (curCtx s) a) (readG (curCtx s) b) = taken) :
    ∃ t, opBranch a b off f s = .next t ∧ (curCtx t).g = (curCtx s).g ∧ (curCtx t).lr = (curCtx s).lr ∧
      (curCtx t).pc = if taken then (curCtx s).pc + BitVec.ofInt 64 (4 * off.toInt) else (curCtx s).pc + 4 := by
  refine ⟨_, withRegs_ready h _, ?_, ?_, ?_⟩
  · rw [curCtx_modCur]
    exact resolveHint_g _ _
  · rw [curCtx_modCur]
    exact resolveHint_lr _ _
  · rw [curCtx_modCur, hf, branchTarget_eq]

theorem not_sltWord (x y : Word) : (!sltWord x y) = decide (y.toInt ≤ x.toInt) := by
  simp only [sltWord, BitVec.slt_eq_decide, ← decide_not, Int.not_lt]

theorem not_ultWord (x y : Word) : (!ultWord x y) = decide (y.toNat ≤ x.toNat) := by
  simp only [ultWord, BitVec.ult_eq_decide, ← decide_not, Nat.not_lt]

/-! ## TRAP and TRET (18 R478; 12 R291) -/

theorem xcauseWord_async (cause : BitVec 8) : xcauseWord true 0 cause = BitVec.ofNat 64 (2 ^ 63 + cause.toNat) := by
  simp [xcauseWord]

theorem takePending_nil {s : State} {c : Nat} (h : (getCtx s c).pend = []) : takePending s c = s := by
  simp only [takePending, h]

theorem takePending_cons {s : State} {c : Nat} {p : AsyncTrap} {rest : List AsyncTrap}
    (h : (getCtx s c).pend = p :: rest) (htm : (getCtx s c).tm = false) :
    takePending s c = takeTrap (setCtx s c { getCtx s c with pend := rest }) c p.cause 0 p.val true (getCtx s c).pc := by
  unfold takePending
  dsimp only
  split
  next hnil => exact absurd (hnil.symm.trans h) (by simp)
  next q qs hcons =>
    obtain ⟨rfl, rfl⟩ := List.cons.inj (hcons.symm.trans h)
    exact if_neg (ne_true_of_eq_false htm)

/-- With no handler running, the oldest pending trap is taken and leaves the queue (12 R290, R291). -/
theorem curCtx_takePending_cons {s : State} {p : AsyncTrap} {rest : List AsyncTrap} (h : (curCtx s).pend = p :: rest)
    (htm : (curCtx s).tm = false) (hvec : (curCtx s).xvec ≠ 0) :
    ∃ l, curCtx (takePending s s.cur) =
      enterHandler { curCtx s with pend := rest, stores := l } (xcauseWord true 0 p.cause) (curCtx s).pc p.val := by
  have hv := getCtx_setCtx s s.cur { curCtx s with pend := rest }
  have htmv := (congrArg Ctx.tm hv).trans htm
  have hvecv : (getCtx (setCtx s s.cur { curCtx s with pend := rest }) s.cur).xvec ≠ 0 := fun hz =>
    hvec ((congrArg Ctx.xvec hv).symm.trans hz)
  obtain ⟨l, hl⟩ := getCtx_takeTrap htmv hvecv p.cause 0 p.val true (curCtx s).pc
  have hcur := takeTrap_cur htmv hvecv p.cause 0 p.val true (curCtx s).pc
  rw [hv] at hl
  refine ⟨l, ?_⟩
  rw [takePending_cons h htm, curCtx]
  exact (congrArg (getCtx _) hcur).trans hl

/-- The context `x` as TRET leaves it (12 R291). -/
def leaveHandler (x : Ctx) : Ctx := { x with pc := x.xpc, tm := false }

theorem trapReturn_eq (s : State) : trapReturn s s.cur = takePending (modCur s leaveHandler) s.cur := rfl

theorem execTrap_ready {s : State} (h : OperandsReady s []) (m : BitVec 15) :
    execTrap m s = .next (takeTrap s s.cur tTRAP 0 (zext15 m) false ((curCtx s).pc + 4)) :=
  withRegs_ready h _

theorem execTret_handler {s : State} (h : OperandsReady s []) (htm : (curCtx s).tm = true) :
    execTret s = .next (trapReturn s s.cur) := by
  rw [execTret, withRegs_ready h, if_pos htm]

theorem execTret_illegal {s : State} (h : OperandsReady s []) (htm : (curCtx s).tm = false) :
    execTret s = .next (preciseTrap s tILLEGAL 0 0x82000000) := by
  rw [execTret, withRegs_ready h, if_neg (by simp [htm])]
  rfl

/-- TRET with nothing pending: the context goes on at `xpc`, and its handler is left. -/
theorem trapReturn_nil {s : State} (h : (curCtx s).pend = []) : trapReturn s s.cur = modCur s leaveHandler := by
  rw [trapReturn_eq]
  exact takePending_nil ((congrArg Ctx.pend (curCtx_modCur s leaveHandler)).trans h)

/-- TRET with a pending asynchronous trap: the oldest is taken, to return to the same `xpc`. -/
theorem curCtx_trapReturn_cons {s : State} {p : AsyncTrap} {rest : List AsyncTrap}
    (h : (curCtx s).pend = p :: rest) (hvec : (curCtx s).xvec ≠ 0) :
    ∃ l, curCtx (trapReturn s s.cur) =
      enterHandler { leaveHandler (curCtx s) with pend := rest, stores := l } (xcauseWord true 0 p.cause) (curCtx s).xpc
        p.val := by
  have hu := curCtx_modCur s leaveHandler
  obtain ⟨l, hl⟩ := curCtx_takePending_cons (s := modCur s leaveHandler) (by rw [hu]; exact h) (by rw [hu]; rfl)
    (by rw [hu]; exact hvec)
  rw [hu] at hl
  exact ⟨l, hl⟩

end Sys2Proof.Machine

/-! ## The obligations -/

namespace Sys2Proof.Proofs

open Sys2Proof.Machine

/-- Settles O10: each instruction runs `opRR`, `opRI`, `opDiv` or LDI, and its result is a fact about words as numbers. -/
theorem integerAndDivideResults : Obligations.IntegerAndDivideResults := by
  unfold Obligations.IntegerAndDivideResults
  refine ⟨fun s d a b i m k => ⟨opGroup_results, fun h => ?_⟩, fun s d a b h => ⟨fun hy => ?_, fun hy htrap => ?_⟩,
    fun d a b i m k => ⟨?_, ?_, ?_, rfl⟩⟩
  · obtain ⟨haddi, handi, hori, hxori, hslti, hslli, hsrli, hsrai, hlsi⟩ := immediateGroup_results (i := i) (m := m) h
    exact ⟨haddi, handi, hori, hxori, hslti, hslli, hsrli, hsrai, execLdi_ready (operandsReady_mono h (by simp)) k, hlsi⟩
  · exact divides_results h hy
  · have hzero (f : Word → Word → Word) : ∃ t, opDiv d a b f s = .next t ∧
        Trapped (curCtx s) (curCtx t) 0x06 0 (readG (curCtx s) a) (curCtx s).pc :=
      ⟨_, opDiv_zero h hy f, preciseTrap_trapped htrap _ _ _⟩
    have hdiv := hzero fun x y => x.sdiv y
    have hrem := hzero fun x y => x.srem y
    simp only [List.forall_mem_cons, List.not_mem_nil, false_imp_iff, implies_true, and_true]
    exact ⟨hdiv, hzero (· / ·), hrem, hzero (· % ·)⟩
  · simp only [List.forall_mem_cons, List.not_mem_nil, false_imp_iff, implies_true, and_true]
    and_intros <;> rfl
  · simp only [List.forall_mem_cons, List.not_mem_nil, false_imp_iff, implies_true, and_true]
    and_intros <;> rfl
  · simp only [List.forall_mem_cons, List.not_mem_nil, false_imp_iff, implies_true, and_true]
    and_intros <;> exact congrArg some (wordRI_append ..)

/-- Settles O17: an aligned private address names one word of private memory, all eight bytes of it. -/
theorem privateMemory : Obligations.PrivateMemory := by
  unfold Obligations.PrivateMemory
  intro s d a m x va
  refine ⟨rfl, rfl, fun h htrap i hi => ⟨fun hmis => ?_, fun hal hhigh => ?_⟩, fun h hal hlow => ⟨fun hgood => ?_, ?_⟩⟩
  · exact ⟨_, execPrivate_trap h (privTrap_misaligned hmis) i hi, preciseTrap_trapped htrap _ _ _, preciseTrap_priv htrap _ _ _⟩
  · exact ⟨_, execPrivate_trap h (privTrap_unmapped hal hhigh) i hi, preciseTrap_trapped htrap _ _ _,
      preciseTrap_priv htrap _ _ _⟩
  · have hword : BitVec.ofNat 64 (leNat (privBytes x va.toNat 8)) = privWord x (va.toNat / 8) := by
      rw [leNat_privBytes_aligned x hal, BitVec.ofNat_toNat, BitVec.setWidth_eq]
    rw [hword]
    exact execLdp_ready h (privTrap_none hal hlow) hgood
  · refine ⟨advance (modCur s fun y => writePriv y (va.toNat / 8) (readG x d)),
      execStp_ready h (privTrap_none hal hlow), ?_⟩
    rw [curCtx_stored]
    refine ⟨rfl, rfl, ?_, fun b hb => privBytes_one_congr ?_, rfl, otherCtxs_stored _ _ _, rfl, rfl, rfl, rfl⟩
    · rw [leNat_privBytes_aligned _ hal]
      exact congrArg BitVec.toNat (privWord_insert_same x _ _)
    · exact privWord_insert_other x _ _ _ (by omega)

/-- Settles O18: the six branches are one operation, each with its own comparison. -/
theorem branches : Obligations.Branches := by
  unfold Obligations.Branches
  intro s a b off h x u v
  simp only [List.forall_mem_cons, List.not_mem_nil, false_imp_iff, implies_true, and_true]
  exact ⟨⟨rfl, opBranch_ready h off (fun x y => x == y) rfl⟩,
    ⟨rfl, opBranch_ready h off (fun x y => x != y) decide_not.symm⟩,
    ⟨rfl, opBranch_ready h off sltWord BitVec.slt_eq_decide⟩,
    ⟨rfl, opBranch_ready h off (fun x y => !sltWord x y) (not_sltWord u v)⟩,
    ⟨rfl, opBranch_ready h off ultWord BitVec.ult_eq_decide⟩,
    ⟨rfl, opBranch_ready h off (fun x y => !ultWord x y) (not_ultWord u v)⟩⟩

/-- Settles O23: TRET leaves the handler, and a pending trap then starts it again with the same `xpc`. -/
theorem trapAndReturn : Obligations.TrapAndReturn := by
  unfold Obligations.TrapAndReturn
  refine ⟨fun s m h htrap => ⟨rfl, rfl, ?_, ?_⟩, fun s h htm => ⟨fun hnil => ?_, fun p rest hcons hvec => ?_⟩⟩
  · exact ⟨_, execTrap_ready h m, trapped_of htrap _ _ _ _ rfl, takeTrap_special htrap _ _ _ _, takeTrap_frame htrap _ _ _ _⟩
  · exact ⟨_, execTret_illegal h htrap.1, preciseTrap_trapped htrap _ _ _⟩
  · refine ⟨_, execTret_handler h htm, ?_⟩
    rw [trapReturn_nil hnil]
    exact ⟨curCtx_modCur _ _, sameButCtxs_modCtx _ _ _, otherCtxs_modCtx _ _ _⟩
  · obtain ⟨l, hl⟩ := curCtx_trapReturn_cons hcons hvec
    refine ⟨_, execTret_handler h htm, ?_⟩
    rw [hl]
    exact ⟨xcauseWord_async p.cause, rfl, rfl, rfl, rfl, rfl, rfl⟩

end Sys2Proof.Proofs
end
